-- ==== Sys2Proof/Word.lean ====
section
/-! DEFINITION. The word types of CINDEC and the small records the spec's stores are made of.
Registers are bit vectors of the widths 10_state.md gives; a record's fields are the spec's own names. -/

namespace Sys2Proof

/-- One byte of the input stream, of a palette component or of a pixel component. -/
abbrev Byte := BitVec 8
/-- A 16-bit field or register. -/
abbrev Half := BitVec 16
/-- A 32-bit field or register. -/
abbrev Word := BitVec 32
/-- A node index of one Huffman tree, 0..510 (00_scope.md R14, 10_state.md R32, R33). -/
abbrev NodeIx := BitVec 9

/-- One pixel of a frame buffer: the four bytes R, G, B, A in that order (20_memory.md R67). -/
structure Pixel where
  r : Byte
  g : Byte
  b : Byte
  a : Byte
deriving DecidableEq, Repr

/-- The pixel whose four bytes are 0. -/
def Pixel.zero : Pixel := ⟨0, 0, 0, 0⟩

/-- One PALETTE entry: three 8-bit components (10_state.md R34). -/
structure Rgb where
  r : Byte
  g : Byte
  b : Byte
deriving DecidableEq, Repr

/-- One CELLS entry: four luma samples and one chroma pair (10_state.md R39). -/
structure Cell where
  y0 : Byte
  y1 : Byte
  y2 : Byte
  y3 : Byte
  u : Byte
  v : Byte
deriving DecidableEq, Repr

/-- One QUADS entry: four cell indices (10_state.md R40). -/
structure Quad where
  c0 : Byte
  c1 : Byte
  c2 : Byte
  c3 : Byte
deriving DecidableEq, Repr

end Sys2Proof
end

