-- ==== Sys2Proof/Config.lean ====
section
/-! DEFINITION. The implementation parameters of 00_scope.md R8 as one record, and the opaque constants that stand for
the values the spec leaves unspecified. The defaults the spec lists are in Machine/Defaults.lean. -/

namespace Sys2Proof

/-- HUF_LEAF_STEP: what a bit step from a leaf does (40_huffman.md R128, D12). -/
inductive HufLeafStep where
  | fault
  | zero
deriving DecidableEq, Repr

/-- CIN_UNKNOWN_CMD: what a reserved CIN command does (30_encoding.md R88, D13). -/
inductive CinUnknownCmd where
  | endOfStream
  | asFrame
deriving DecidableEq, Repr

/-- CB_STALE: what reading a codebook entry the latest codebook did not load does (41_roq_chunks.md R169, D27). -/
inductive CbStale where
  | stored
  | fault
deriving DecidableEq, Repr

/-- AUDIO_OVERFLOW: how a DPCM accumulator leaves its 16-bit range (44_roq_audio.md R249, D39). -/
inductive AudioOverflow where
  | wrap16
  | clamp16
deriving DecidableEq, Repr

/-- BUF_INIT: the initial content of the two RoQ frame buffers (10_state.md R42, D56). -/
inductive BufInit where
  | zero
  | any
deriving DecidableEq, Repr

/-- YUV_TABLES: four tables of 256 signed entries (43_yuv_rgb.md R232, 10_state.md R49). -/
structure YuvTables where
  vr : Vector Int 256
  ug : Vector Int 256
  vg : Vector Int 256
  ub : Vector Int 256
deriving DecidableEq, Repr

/-- The parameters of 00_scope.md R8. The machine carries one such record and no transaction writes it
(log entry 1). -/
structure Params where
  /-- ROQ_IDENT -/
  roqIdent : Half
  /-- ROQ_ID_INFO -/
  idInfo : Half
  /-- ROQ_ID_CODEBOOK -/
  idCodebook : Half
  /-- ROQ_ID_VQ -/
  idVq : Half
  /-- ROQ_ID_SOUND_MONO -/
  idMono : Half
  /-- ROQ_ID_SOUND_STEREO -/
  idStereo : Half
  /-- ROQ_MAX_SIZE, "any positive 32-bit value" (92_eei_decisions.md section 6) -/
  roqMaxSize : Word
  /-- VQ_MOT -/
  vqMot : BitVec 2
  /-- VQ_FCC -/
  vqFcc : BitVec 2
  /-- VQ_SLD -/
  vqSld : BitVec 2
  /-- VQ_CCC -/
  vqCcc : BitVec 2
  /-- YUV_TABLES -/
  yuv : YuvTables
  /-- ROQ_AUDIO_RATE -/
  roqAudioRate : Nat
  /-- HUF_LEAF_STEP -/
  hufLeafStep : HufLeafStep
  /-- CIN_UNKNOWN_CMD -/
  cinUnknownCmd : CinUnknownCmd
  /-- CB_STALE -/
  cbStale : CbStale
  /-- AUDIO_OVERFLOW -/
  audioOverflow : AudioOverflow
  /-- BUF_INIT -/
  bufInit : BufInit
deriving DecidableEq, Repr

/-- What the spec asks of a parameter record: the six chunk ids pairwise distinct (30_encoding.md R92), the four VQ code
values pairwise distinct (42_roq_vq.md R203), ROQ_MAX_SIZE and ROQ_AUDIO_RATE positive (92_eei_decisions.md section 6). -/
abbrev Params.wf (p : Params) : Prop :=
  [p.roqIdent, p.idInfo, p.idCodebook, p.idVq, p.idMono, p.idStereo].Nodup ∧
  [p.vqMot, p.vqFcc, p.vqSld, p.vqCcc].Nodup ∧ p.roqMaxSize ≠ 0 ∧ 0 < p.roqAudioRate

/-- ROQ_AUDIO_RATE less one: the parameter is OPEN, with no default and any positive value (00_scope.md R8, D49), so the
machine's own rate is this opaque constant plus one (log entry 2). -/
opaque Config.roqAudioRatePred : Nat

/-- BUF_INIT = any: byte `k` of the buffers drawn at draw number `draw` (10_state.md R42, log entry 3). -/
opaque Config.freeBufByte : (draw k : Nat) → Byte

/-- HCOUNT[k] after OPEN_CIN, which 10_state.md R31 leaves unspecified (log entry 4). -/
opaque Config.freeHcount : (draw k : Nat) → Word

/-- HUSED[k] after OPEN_CIN, which 10_state.md R31 leaves unspecified (log entry 4). -/
opaque Config.freeHused : (draw k : Nat) → Bool

/-- The Huffman working registers between transactions, which 10_state.md R37 leaves unspecified: register number `k`
of the rule's list (log entry 5). -/
opaque Config.freeHufReg : (draw k : Nat) → Word

/-- FRAME_OUT after a FAULT: byte `k` of the image shown, on which "a proof may rely on nothing"
(60_exceptions.md R283, R299; log entry 6). -/
opaque Config.freeFrameByte : (draw k : Nat) → Byte

end Sys2Proof
end

