-- ==== Sys2Proof/Machine/Defaults.lean ====
section
/-! DEFINITION. The parameter defaults of 00_scope.md R8 and the default YUV tables of 43_yuv_rgb.md R234. -/

namespace Sys2Proof.Machine

/-- Entries listed by magnitude that are all 0 or below: rows 0 to 7 of each table. -/
def nonPos (ms : List Nat) : List Int := ms.map fun m => -(m : Int)

/-- Entries that are all 0 or above: rows 8 to 15 of each table. -/
def nonNeg (ms : List Nat) : List Int := ms.map fun m => (m : Int)

/-- The table VR of 43_yuv_rgb.md R234, one row of 16 entries a line, rows 0 to 7 by magnitude. -/
def vrList : List Int :=
  nonPos (
    [179, 178, 176, 175, 173, 172, 171, 169, 168, 166, 165, 164, 162, 161, 159, 158] ++
    [157, 155, 154, 152, 151, 150, 148, 147, 145, 144, 143, 141, 140, 138, 137, 135] ++
    [134, 133, 131, 130, 128, 127, 126, 124, 123, 121, 120, 119, 117, 116, 114, 113] ++
    [112, 110, 109, 107, 106, 105, 103, 102, 100, 99, 98, 96, 95, 93, 92, 91] ++
    [89, 88, 86, 85, 84, 82, 81, 79, 78, 77, 75, 74, 72, 71, 70, 68] ++
    [67, 65, 64, 63, 61, 60, 58, 57, 56, 54, 53, 51, 50, 49, 47, 46] ++
    [44, 43, 42, 40, 39, 37, 36, 35, 33, 32, 30, 29, 28, 26, 25, 23] ++
    [22, 21, 19, 18, 16, 15, 14, 12, 11, 9, 8, 7, 5, 4, 2, 1]) ++
  nonNeg (
    [0, 1, 2, 4, 5, 7, 8, 9, 11, 12, 14, 15, 16, 18, 19, 21] ++
    [22, 23, 25, 26, 28, 29, 30, 32, 33, 35, 36, 37, 39, 40, 42, 43] ++
    [44, 46, 47, 49, 50, 51, 53, 54, 56, 57, 58, 60, 61, 63, 64, 65] ++
    [67, 68, 70, 71, 72, 74, 75, 77, 78, 79, 81, 82, 84, 85, 86, 88] ++
    [89, 91, 92, 93, 95, 96, 98, 99, 100, 102, 103, 105, 106, 107, 109, 110] ++
    [112, 113, 114, 116, 117, 119, 120, 121, 123, 124, 126, 127, 128, 130, 131, 133] ++
    [134, 135, 137, 138, 140, 141, 143, 144, 145, 147, 148, 150, 151, 152, 154, 155] ++
    [157, 158, 159, 161, 162, 164, 165, 166, 168, 169, 171, 172, 173, 175, 176, 178])

/-- The table UG of 43_yuv_rgb.md R234, one row of 16 entries a line, rows 0 to 7 by magnitude. -/
def ugList : List Int :=
  nonPos (
    [44, 43, 43, 43, 42, 42, 41, 41, 41, 40, 40, 40, 39, 39, 39, 38] ++
    [38, 38, 37, 37, 37, 36, 36, 36, 35, 35, 35, 34, 34, 34, 33, 33] ++
    [33, 32, 32, 32, 31, 31, 30, 30, 30, 29, 29, 29, 28, 28, 28, 27] ++
    [27, 27, 26, 26, 26, 25, 25, 25, 24, 24, 24, 23, 23, 23, 22, 22] ++
    [22, 21, 21, 20, 20, 20, 19, 19, 19, 18, 18, 18, 17, 17, 17, 16] ++
    [16, 16, 15, 15, 15, 14, 14, 14, 13, 13, 13, 12, 12, 12, 11, 11] ++
    [11, 10, 10, 9, 9, 9, 8, 8, 8, 7, 7, 7, 6, 6, 6, 5] ++
    [5, 5, 4, 4, 4, 3, 3, 3, 2, 2, 2, 1, 1, 1, 0, 0]) ++
  nonNeg (
    [0, 0, 0, 1, 1, 1, 2, 2, 2, 3, 3, 3, 4, 4, 4, 5] ++
    [5, 5, 6, 6, 6, 7, 7, 7, 8, 8, 8, 9, 9, 9, 10, 10] ++
    [11, 11, 11, 12, 12, 12, 13, 13, 13, 14, 14, 14, 15, 15, 15, 16] ++
    [16, 16, 17, 17, 17, 18, 18, 18, 19, 19, 19, 20, 20, 20, 21, 21] ++
    [22, 22, 22, 23, 23, 23, 24, 24, 24, 25, 25, 25, 26, 26, 26, 27] ++
    [27, 27, 28, 28, 28, 29, 29, 29, 30, 30, 30, 31, 31, 32, 32, 32] ++
    [33, 33, 33, 34, 34, 34, 35, 35, 35, 36, 36, 36, 37, 37, 37, 38] ++
    [38, 38, 39, 39, 39, 40, 40, 40, 41, 41, 41, 42, 42, 43, 43, 43])

/-- The table VG of 43_yuv_rgb.md R234, one row of 16 entries a line, rows 0 to 7 by magnitude. -/
def vgList : List Int :=
  nonPos (
    [91, 90, 89, 89, 88, 87, 87, 86, 85, 84, 84, 83, 82, 82, 81, 80] ++
    [79, 79, 78, 77, 77, 76, 75, 74, 74, 73, 72, 72, 71, 70, 69, 69] ++
    [68, 67, 67, 66, 65, 64, 64, 63, 62, 62, 61, 60, 59, 59, 58, 57] ++
    [57, 56, 55, 54, 54, 53, 52, 52, 51, 50, 49, 49, 48, 47, 47, 46] ++
    [45, 44, 44, 43, 42, 42, 41, 40, 39, 39, 38, 37, 37, 36, 35, 34] ++
    [34, 33, 32, 32, 31, 30, 29, 29, 28, 27, 27, 26, 25, 24, 24, 23] ++
    [22, 22, 21, 20, 19, 19, 18, 17, 17, 16, 15, 14, 14, 13, 12, 12] ++
    [11, 10, 9, 9, 8, 7, 7, 6, 5, 4, 4, 3, 2, 2, 1, 0]) ++
  nonNeg (
    [0, 0, 1, 2, 2, 3, 4, 4, 5, 6, 7, 7, 8, 9, 9, 10] ++
    [11, 12, 12, 13, 14, 14, 15, 16, 17, 17, 18, 19, 19, 20, 21, 22] ++
    [22, 23, 24, 24, 25, 26, 27, 27, 28, 29, 29, 30, 31, 32, 32, 33] ++
    [34, 34, 35, 36, 37, 37, 38, 39, 39, 40, 41, 42, 42, 43, 44, 44] ++
    [45, 46, 47, 47, 48, 49, 49, 50, 51, 52, 52, 53, 54, 54, 55, 56] ++
    [57, 57, 58, 59, 59, 60, 61, 62, 62, 63, 64, 64, 65, 66, 67, 67] ++
    [68, 69, 69, 70, 71, 72, 72, 73, 74, 74, 75, 76, 77, 77, 78, 79] ++
    [79, 80, 81, 82, 82, 83, 84, 84, 85, 86, 87, 87, 88, 89, 89, 90])

/-- The table UB of 43_yuv_rgb.md R234, one row of 16 entries a line, rows 0 to 7 by magnitude. -/
def ubList : List Int :=
  nonPos (
    [226, 225, 223, 221, 219, 217, 216, 214, 212, 210, 209, 207, 205, 203, 202, 200] ++
    [198, 196, 194, 193, 191, 189, 187, 186, 184, 182, 180, 178, 177, 175, 173, 171] ++
    [170, 168, 166, 164, 163, 161, 159, 157, 155, 154, 152, 150, 148, 147, 145, 143] ++
    [141, 139, 138, 136, 134, 132, 131, 129, 127, 125, 124, 122, 120, 118, 116, 115] ++
    [113, 111, 109, 108, 106, 104, 102, 101, 99, 97, 95, 93, 92, 90, 88, 86] ++
    [85, 83, 81, 79, 77, 76, 74, 72, 70, 69, 67, 65, 63, 62, 60, 58] ++
    [56, 54, 53, 51, 49, 47, 46, 44, 42, 40, 38, 37, 35, 33, 31, 30] ++
    [28, 26, 24, 23, 21, 19, 17, 15, 14, 12, 10, 8, 7, 5, 3, 1]) ++
  nonNeg (
    [0, 1, 3, 5, 7, 8, 10, 12, 14, 15, 17, 19, 21, 23, 24, 26] ++
    [28, 30, 31, 33, 35, 37, 38, 40, 42, 44, 46, 47, 49, 51, 53, 54] ++
    [56, 58, 60, 62, 63, 65, 67, 69, 70, 72, 74, 76, 77, 79, 81, 83] ++
    [85, 86, 88, 90, 92, 93, 95, 97, 99, 101, 102, 104, 106, 108, 109, 111] ++
    [113, 115, 116, 118, 120, 122, 124, 125, 127, 129, 131, 132, 134, 136, 138, 139] ++
    [141, 143, 145, 147, 148, 150, 152, 154, 155, 157, 159, 161, 163, 164, 166, 168] ++
    [170, 171, 173, 175, 177, 178, 180, 182, 184, 186, 187, 189, 191, 193, 194, 196] ++
    [198, 200, 202, 203, 205, 207, 209, 210, 212, 214, 216, 217, 219, 221, 223, 225])

/-- The default YUV_TABLES: "a model must use the listed integers" (43_yuv_rgb.md R232, R234). -/
def yuvDefault : YuvTables where
  vr := ⟨⟨vrList⟩, by decide +kernel⟩
  ug := ⟨⟨ugList⟩, by decide +kernel⟩
  vg := ⟨⟨vgList⟩, by decide +kernel⟩
  ub := ⟨⟨ubList⟩, by decide +kernel⟩

/-- The defaults of 00_scope.md R8. ROQ_AUDIO_RATE has none: it is an opaque positive constant (log entry 2). -/
def defaultParams : Params where
  roqIdent := 0x1084
  idInfo := 0x1001
  idCodebook := 0x1002
  idVq := 0x1011
  idMono := 0x1020
  idStereo := 0x1021
  roqMaxSize := 65536
  vqMot := 0
  vqFcc := 1
  vqSld := 2
  vqCcc := 3
  yuv := yuvDefault
  roqAudioRate := Config.roqAudioRatePred + 1
  hufLeafStep := .fault
  cinUnknownCmd := .endOfStream
  cbStale := .stored
  audioOverflow := .wrap16
  bufInit := .zero

end Sys2Proof.Machine
end

