-- ==== Sys2Proof/Syntax.lean ====
section
/-! DEFINITION. CINDEC's operations: one constructor per row of spec/opcode_table.json. They are the headers, records and
chunks of the two stream formats and the codes inside a RoQ video chunk (00_scope.md R3). A constructor carries the fields
its own header holds; what follows in the body or the payload is read by its meaning. -/

namespace Sys2Proof

/-- One unit of a stream (30_encoding.md R80, R82, R90, R91, R92, R101). -/
inductive Instr where
  /-- CIN.HEADER: the 20-byte file header (R80); the count table is read from the stream (R81). -/
  | cinHeader (width height soundRate soundWidth soundChannels : Word)
  /-- CIN.FRAME: command 0 (R82). -/
  | cinFrame
  /-- CIN.PALFRAME: command 1 (R82). -/
  | cinPalframe
  /-- CIN.END: command 2 (R82). -/
  | cinEnd
  /-- CIN.RSVD: any other command (R82, R88). -/
  | cinRsvd (cmd : Word)
  /-- ROQ.HEADER: the 8-byte file header whose ident is ROQ_IDENT (R90). -/
  | roqHeader (unused : Word) (fps : Half)
  /-- ROQ.INFO (R92, R93). -/
  | roqInfo (size : Word) (arg : Half)
  /-- ROQ.CODEBOOK (R92, R94, R95). -/
  | roqCodebook (size : Word) (arg : Half)
  /-- ROQ.VQ (R92, R98, R99). -/
  | roqVq (size : Word) (arg : Half)
  /-- ROQ.SND_MONO (R92, R105, R106). -/
  | roqSndMono (size : Word) (arg : Half)
  /-- ROQ.SND_STEREO (R92, R105, R106). -/
  | roqSndStereo (size : Word) (arg : Half)
  /-- ROQ.IDENT: the terminator (R92). -/
  | roqIdent (size : Word) (arg : Half)
  /-- ROQ.OTHER: an id that is none of the six parameters (R92, R107). -/
  | roqOther (id : Half) (size : Word) (arg : Half)
  /-- MOT.8 (R101). -/
  | mot8
  /-- FCC.8 (R101, R102). -/
  | fcc8
  /-- SLD.8 (R101). -/
  | sld8
  /-- MOT.4 (R101). -/
  | mot4
  /-- FCC.4 (R101, R102). -/
  | fcc4
  /-- SLD.4 (R101). -/
  | sld4
  /-- CCC.8 (R101, R103). -/
  | ccc8
  /-- CCC.4 (R101). -/
  | ccc4
deriving DecidableEq, Repr

/-- Where in a stream a unit is read: its place decides which encoding table applies, since a header is "matched by
position" and the two levels of VQ codes share their values (opcode_table.json, 30_encoding.md R101). -/
inductive Place where
  /-- Stream address 0 of a stream opened as CIN. -/
  | cinStart
  /-- OFFSET of an open CIN session. -/
  | cinRecord
  /-- Stream address 0 of a stream opened as RoQ. -/
  | roqStart
  /-- OFFSET of an open RoQ session. -/
  | roqChunk
  /-- The code reader, at an 8×8 subblock. -/
  | code8
  /-- The code reader, at a 4×4 sub-subblock. -/
  | code4
deriving DecidableEq, Repr

/-- The place a unit is read at. -/
def Instr.place : Instr → Place
  | .cinHeader _ _ _ _ _ => .cinStart
  | .cinFrame => .cinRecord
  | .cinPalframe => .cinRecord
  | .cinEnd => .cinRecord
  | .cinRsvd _ => .cinRecord
  | .roqHeader _ _ => .roqStart
  | .roqInfo _ _ => .roqChunk
  | .roqCodebook _ _ => .roqChunk
  | .roqVq _ _ => .roqChunk
  | .roqSndMono _ _ => .roqChunk
  | .roqSndStereo _ _ => .roqChunk
  | .roqIdent _ _ => .roqChunk
  | .roqOther _ _ _ => .roqChunk
  | .mot8 => .code8
  | .fcc8 => .code8
  | .sld8 => .code8
  | .mot4 => .code4
  | .fcc4 => .code4
  | .sld4 => .code4
  | .ccc8 => .code8
  | .ccc4 => .code4

end Sys2Proof
end

