-- ==== Sys2Proof/WellFormed.lean ====
section
/-! DEFINITION. Which terms of `Instr` stand for an encoding under given parameters. -/

namespace Sys2Proof

/-- CIN.RSVD stands for a command "not matched by CIN.FRAME, CIN.PALFRAME or CIN.END", ROQ.OTHER for an id "not equal to
one of the six id parameters" (opcode_table.json); every other term is an encoding at every value of its fields. -/
def Instr.wf (p : Params) : Instr → Bool
  | .cinHeader _ _ _ _ _ => true
  | .cinFrame => true
  | .cinPalframe => true
  | .cinEnd => true
  | .cinRsvd cmd => cmd != 0 && cmd != 1 && cmd != 2
  | .roqHeader _ _ => true
  | .roqInfo _ _ => true
  | .roqCodebook _ _ => true
  | .roqVq _ _ => true
  | .roqSndMono _ _ => true
  | .roqSndStereo _ _ => true
  | .roqIdent _ _ => true
  | .roqOther id _ _ =>
    id != p.roqIdent && id != p.idInfo && id != p.idCodebook && id != p.idVq && id != p.idMono && id != p.idStereo
  | .mot8 => true
  | .fcc8 => true
  | .sld8 => true
  | .mot4 => true
  | .fcc4 => true
  | .sld4 => true
  | .ccc8 => true
  | .ccc4 => true

end Sys2Proof
end

