-- ==== Sys2Proof/Decode.lean ====
section
/-! DEFINITION. The decoder of stream units, total on any bytes and rejecting by name, and after it the encoder. Both follow
30_encoding.md R80, R82, R90 to R92 and R101; byte order is little-endian everywhere (20_memory.md R63). -/

namespace Sys2Proof

/-- A 16-bit field from its two bytes, the lower address first (20_memory.md R63). -/
def le16 (b0 b1 : Byte) : Half := b1 ++ b0

/-- A 32-bit field from its four bytes, the lowest address first (20_memory.md R63). -/
def le32 (b0 b1 b2 b3 : Byte) : Word := le16 b2 b3 ++ le16 b0 b1

/-- The two bytes of a 16-bit field, the lower address first. -/
def bytes16 (h : Half) : List Byte := [h.extractLsb' 0 8, h.extractLsb' 8 8]

/-- The four bytes of a 32-bit field, the lowest address first. -/
def bytes32 (w : Word) : List Byte :=
  [w.extractLsb' 0 8, w.extractLsb' 8 8, w.extractLsb' 16 8, w.extractLsb' 24 8]

/-- Why bytes are no unit. -/
inductive DecodeError where
  /-- Fewer bytes than the unit's header has at this place. -/
  | truncated (at_ : Place)
  /-- The first two bytes of a RoQ stream are not ROQ_IDENT (41_roq_chunks.md R160). -/
  | badIdent (ident : Half)
  /-- A 2-bit value that none of VQ_MOT, VQ_FCC, VQ_SLD, VQ_CCC has; impossible when the four are distinct (42_roq_vq.md R203). -/
  | noSuchCode (code : BitVec 2)
deriving DecidableEq, Repr

/-- The four VQ code kinds (30_encoding.md R101). -/
inductive VqCode where
  | mot
  | fcc
  | sld
  | ccc
deriving DecidableEq, Repr

/-- The kind a 2-bit value selects (42_roq_vq.md R203). -/
def vqCode? (p : Params) (c : BitVec 2) : Option VqCode :=
  if c = p.vqMot then some .mot
  else if c = p.vqFcc then some .fcc
  else if c = p.vqSld then some .sld
  else if c = p.vqCcc then some .ccc
  else none

/-- The 8×8 operation of a code kind (30_encoding.md R101). -/
def code8Instr : VqCode → Instr
  | .mot => .mot8
  | .fcc => .fcc8
  | .sld => .sld8
  | .ccc => .ccc8

/-- The 4×4 operation of a code kind (30_encoding.md R101). -/
def code4Instr : VqCode → Instr
  | .mot => .mot4
  | .fcc => .fcc4
  | .sld => .sld4
  | .ccc => .ccc4

/-- The CIN record a command selects (30_encoding.md R82, 40_huffman.md R130). -/
def cinInstr (cmd : Word) : Instr :=
  if cmd = 2 then .cinEnd
  else if cmd = 1 then .cinPalframe
  else if cmd = 0 then .cinFrame
  else .cinRsvd cmd

/-- The RoQ chunk operation an id selects, ROQ_IDENT tested first (30_encoding.md R92, 41_roq_chunks.md R163, R165). -/
def chunkInstr (p : Params) (id : Half) (size : Word) (arg : Half) : Instr :=
  if id = p.roqIdent then .roqIdent size arg
  else if id = p.idInfo then .roqInfo size arg
  else if id = p.idCodebook then .roqCodebook size arg
  else if id = p.idVq then .roqVq size arg
  else if id = p.idMono then .roqSndMono size arg
  else if id = p.idStereo then .roqSndStereo size arg
  else .roqOther id size arg

/-- The 20-byte CIN file header (30_encoding.md R80). -/
def decodeCinStart : List Byte → Except DecodeError (Instr × List Byte)
  | a0 :: a1 :: a2 :: a3 :: b0 :: b1 :: b2 :: b3 :: c0 :: c1 :: c2 :: c3 :: d0 :: d1 :: d2 :: d3 ::
      e0 :: e1 :: e2 :: e3 :: rest =>
    .ok (.cinHeader (le32 a0 a1 a2 a3) (le32 b0 b1 b2 b3) (le32 c0 c1 c2 c3) (le32 d0 d1 d2 d3)
      (le32 e0 e1 e2 e3), rest)
  | _ => .error (.truncated .cinStart)

/-- A CIN record's command (30_encoding.md R82). -/
def decodeCinRecord : List Byte → Except DecodeError (Instr × List Byte)
  | b0 :: b1 :: b2 :: b3 :: rest => .ok (cinInstr (le32 b0 b1 b2 b3), rest)
  | _ => .error (.truncated .cinRecord)

/-- The 8-byte RoQ file header (30_encoding.md R90). -/
def decodeRoqStart (p : Params) : List Byte → Except DecodeError (Instr × List Byte)
  | b0 :: b1 :: b2 :: b3 :: b4 :: b5 :: b6 :: b7 :: rest =>
    if le16 b0 b1 = p.roqIdent then .ok (.roqHeader (le32 b2 b3 b4 b5) (le16 b6 b7), rest)
    else .error (.badIdent (le16 b0 b1))
  | _ => .error (.truncated .roqStart)

/-- The 8-byte RoQ chunk header (30_encoding.md R91). -/
def decodeRoqChunk (p : Params) : List Byte → Except DecodeError (Instr × List Byte)
  | b0 :: b1 :: b2 :: b3 :: b4 :: b5 :: b6 :: b7 :: rest =>
    .ok (chunkInstr p (le16 b0 b1) (le32 b2 b3 b4 b5) (le16 b6 b7), rest)
  | _ => .error (.truncated .roqChunk)

/-- A VQ code standing in bits 1:0 of a byte, as opcode_table.json numbers it (inside a chunk the code reader of
42_roq_vq.md R191 takes it from the flag word). -/
def decodeCode (p : Params) (at_ : Place) (instr : VqCode → Instr) :
    List Byte → Except DecodeError (Instr × List Byte)
  | b :: rest =>
    match vqCode? p (b.extractLsb' 0 2) with
    | some c => .ok (instr c, rest)
    | none => .error (.noSuchCode (b.extractLsb' 0 2))
  | [] => .error (.truncated at_)

/-- The unit that bytes stand for at a place, and the bytes after its header. -/
def decode (p : Params) : Place → List Byte → Except DecodeError (Instr × List Byte)
  | .cinStart, bs => decodeCinStart bs
  | .cinRecord, bs => decodeCinRecord bs
  | .roqStart, bs => decodeRoqStart p bs
  | .roqChunk, bs => decodeRoqChunk p bs
  | .code8, bs => decodeCode p .code8 code8Instr bs
  | .code4, bs => decodeCode p .code4 code4Instr bs

/-- The bytes of a RoQ chunk header (30_encoding.md R91). -/
def encodeChunk (id : Half) (size : Word) (arg : Half) : List Byte :=
  bytes16 id ++ bytes32 size ++ bytes16 arg

/-- A VQ code value in bits 1:0 of a byte. -/
def encodeCode (c : BitVec 2) : List Byte := [c.zeroExtend 8]

/-- The header bytes of a unit under given parameters (30_encoding.md R80, R82, R90 to R92, R101). -/
def encode (p : Params) : Instr → List Byte
  | .cinHeader w h rate width channels =>
    bytes32 w ++ bytes32 h ++ bytes32 rate ++ bytes32 width ++ bytes32 channels
  | .cinFrame => bytes32 0
  | .cinPalframe => bytes32 1
  | .cinEnd => bytes32 2
  | .cinRsvd cmd => bytes32 cmd
  | .roqHeader unused fps => bytes16 p.roqIdent ++ bytes32 unused ++ bytes16 fps
  | .roqInfo size arg => encodeChunk p.idInfo size arg
  | .roqCodebook size arg => encodeChunk p.idCodebook size arg
  | .roqVq size arg => encodeChunk p.idVq size arg
  | .roqSndMono size arg => encodeChunk p.idMono size arg
  | .roqSndStereo size arg => encodeChunk p.idStereo size arg
  | .roqIdent size arg => encodeChunk p.roqIdent size arg
  | .roqOther id size arg => encodeChunk id size arg
  | .mot8 => encodeCode p.vqMot
  | .fcc8 => encodeCode p.vqFcc
  | .sld8 => encodeCode p.vqSld
  | .mot4 => encodeCode p.vqMot
  | .fcc4 => encodeCode p.vqFcc
  | .sld4 => encodeCode p.vqSld
  | .ccc8 => encodeCode p.vqCcc
  | .ccc4 => encodeCode p.vqCcc

/-- The low `n` bytes of a number, least significant first. -/
def natBytes : (n w : Nat) → List Byte
  | 0, _ => []
  | n + 1, w => BitVec.ofNat 8 w :: natBytes n (w / 256)

/-- The place the opcode table's numbering of a row stands for, read from how many bits the table gives the row: a 2-bit
code in one byte (the 8×8 level), a 16-bit chunk id, a 32-bit CIN command, a whole 64-bit chunk header, a whole 160-bit CIN
header (log entry 8). -/
def tablePlace (nbits : Nat) : Place :=
  if nbits ≤ 8 then .code8
  else if nbits ≤ 16 then .roqChunk
  else if nbits ≤ 32 then .cinRecord
  else if nbits ≤ 64 then .roqChunk
  else .cinStart

/-- The bytes of a table word, with zeros above it up to the longest header (20 bytes). -/
def tableBytes (nbits w : Nat) : List Byte := natBytes 20 (w % 2 ^ nbits)

/-- The unit the decoder reads from an opcode-table word under the default parameters. -/
def decodeTableWord (nbits w : Nat) : Option Instr :=
  match decode Machine.defaultParams (tablePlace nbits) (tableBytes nbits w) with
  | .ok (i, _) => some i
  | .error _ => none

end Sys2Proof
end

