-- ==== Sys2Proof/Machine/State.lean ====
section
/-! DEFINITION. The machine's state: every register and store of 10_state.md, the input stream space, the output ports, the
parameter record, and the model's own fields (the host's requests and the replies to it, where the run in hand begins,
a counter of draws, the origin of the VQ block in hand). Plain data throughout. -/

namespace Sys2Proof.Machine

/-- FMT (10_state.md R21). -/
inductive Fmt where
  | none
  | cin
  | roq
deriving DecidableEq, Repr

/-- RESULT (10_state.md R28, 60_exceptions.md R280); OK is reported as `continue_` (45_host_ops.md R274). -/
inductive Result where
  | continue_
  | endOfStream
  | fault
  | openFail
deriving DecidableEq, Repr

/-- FAULT_REASON (60_exceptions.md R282). -/
inductive FaultReason where
  | none
  | hufLeafStep
  | payloadOverrun
  | infoZeroDim
  | vqNoInfo
  | mvOutOfFrame
  | cbStale
deriving DecidableEq, Repr

/-- FLAGS: four 1-bit fields with no bit positions (10_state.md R25). -/
structure Flags where
  system : Bool
  silent : Bool
  loop : Bool
  hold : Bool
deriving DecidableEq, Repr

/-- DIAG (10_state.md R29). -/
structure Diag where
  /-- SLACK, a 32-bit signed count. -/
  slack : Word
  /-- MISMATCH. -/
  mismatch : Bool
deriving DecidableEq, Repr

/-- The session record (10_state.md R21 to R29). -/
structure Session where
  fmt : Fmt
  offset : Word
  streamSize : Word
  headerOffset : Word
  flags : Flags
  frameRate : Half
  stepCount : Word
  result : Result
  faulted : Bool
  faultReason : FaultReason
  diag : Diag
deriving DecidableEq, Repr

/-- The CIN unit (10_state.md R30 to R36). An absent buffer is the empty list: an allocated one is never empty,
because OPEN_CIN refuses a width or height of 0 (40_huffman.md R120). -/
structure CinUnit where
  /-- CIN_W, signed. -/
  w : Word
  /-- CIN_H, signed. -/
  h : Word
  sndRate : Word
  sndWidth : Word
  sndChannels : Word
  hcount : Vector Word 511
  hused : Vector Bool 511
  root : Vector NodeIx 256
  /-- PAIR[ctx][k] with its two entries b = 0 and b = 1. -/
  pair : Vector (Vector (NodeIx × NodeIx) 255) 256
  palette : Vector Rgb 256
  idxBuf : List Byte
  /-- CIN_FB, row-major. -/
  fb : List Pixel
deriving DecidableEq, Repr

/-- The Huffman working registers (10_state.md R37). -/
structure HufRegs where
  node : NodeIx
  ctx : Byte
  inbyte : Byte
  /-- BITS_LEFT, 0..8. -/
  bitsLeft : BitVec 4
  pixRemain : Word
  pixPos : Word
  inPos : Word
deriving DecidableEq, Repr

/-- The RoQ unit (10_state.md R38 to R46). A 1-bit buffer index is a Bool, `false` for buffer 0. An absent buffer is the
empty list: an allocated one is never empty (41_roq_chunks.md R167). -/
structure RoqUnit where
  /-- ROQ_W -/
  w : Half
  /-- ROQ_H -/
  h : Half
  infoSeen : Bool
  cells : Vector Cell 256
  quads : Vector Quad 256
  /-- N1_LAST, 0..256. -/
  n1Last : BitVec 9
  /-- N2_LAST, 0..256. -/
  n2Last : BitVec 9
  buf0 : List Pixel
  buf1 : List Pixel
  wsel : Bool
  dispSel : Bool
  vqFrame : Word
  flg : Half
  /-- FLG_POS, 0..8. -/
  flgPos : BitVec 4
  xp : Word
  yp : Word
  /-- MEAN_X, signed. -/
  meanX : Byte
  /-- MEAN_Y, signed. -/
  meanY : Byte
  /-- The model's own: x of the origin of the subblock or sub-subblock in hand, the `x` of BLOCK8(x, y) and BLOCK4(x, y)
  (42_roq_vq.md R203). -/
  blockX : Word
  /-- The model's own: y of the same origin. -/
  blockY : Word
  /-- ACC_L, signed. -/
  accL : Half
  /-- ACC_R, signed. -/
  accR : Half
  payBase : Word
  payEnd : Word
  payPos : Word
deriving DecidableEq, Repr

/-- The data of an audio record, with its kind: CIN_RAW bytes or ROQ_PCM16 samples (10_state.md R47). -/
inductive AudioData where
  | cinRaw (bytes : List Byte)
  | roqPcm16 (samples : List Half)
deriving DecidableEq, Repr

/-- A record of AUDIO_OUT (10_state.md R47). -/
structure AudioRecord where
  rate : Int
  width : Int
  channels : Int
  data : AudioData
deriving DecidableEq, Repr

/-- The output ports' own state (10_state.md R47, R48). -/
structure Ports where
  /-- AUDIO_OUT, oldest first. -/
  audioOut : List AudioRecord
  dispValid : Bool
deriving DecidableEq, Repr

/-- What the host may ask for: the five transactions and the three port reads (45_host_ops.md R260). -/
inductive HostOp where
  | reset
  | openCin (stream : List Byte) (flags : Flags)
  | openRoq (stream : List Byte) (flags : Flags)
  | step
  | rewind
  | readFrame
  | drainAudio
  | readStatus
deriving DecidableEq, Repr

/-- What READ_STATUS shows (45_host_ops.md R260). -/
structure Status where
  fmt : Fmt
  result : Result
  faulted : Bool
  faultReason : FaultReason
  diag : Diag
  frameRate : Half
  stepCount : Word
  flags : Flags
  dispValid : Bool
deriving DecidableEq, Repr

/-- What the block returns to the host at the end of a transaction or port read (45_host_ops.md R260). -/
inductive Reply where
  | ok
  | openFail
  | continue_
  | endOfStream
  | fault
  | frame (width height : Nat) (pixels : List Pixel)
  | noFrame
  | audio (record : AudioRecord)
  | empty
  | status (s : Status)
deriving DecidableEq, Repr

/-- The input stream space as (address, byte) pairs, addresses strictly rising. An address below STREAM_SIZE that is not
listed reads as 0, and no listed byte is 0; OPEN gives every address below STREAM_SIZE its byte (20_memory.md R60, log
entry 7). -/
abbrev Memory := List Host.Cell

/-- The whole machine. -/
structure State where
  /-- The parameters (00_scope.md R8); no transaction writes them (log entry 1). -/
  params : Params
  /-- The input stream space (20_memory.md R60). -/
  stream : Memory
  ses : Session
  cin : CinUnit
  huf : HufRegs
  roq : RoqUnit
  ports : Ports
  /-- The model's own: what the host will ask for next, first first (log entry 9). -/
  requests : List HostOp
  /-- The model's own: what the block has returned since power-on, oldest first (log entry 9). -/
  replies : List Reply
  /-- The model's own: how many replies stood in `replies` at the latest RESET, that of an OPEN included; the run in hand begins there
  (70_reset_and_hazards.md R326, log entry 18). -/
  runStart : Nat
  /-- The model's own: how many draws of free values have been made (log entries 3 to 6). -/
  draws : Nat
deriving DecidableEq, Repr

/-- Why the machine itself stops. None of these is a FAULT of the spec (60_exceptions.md R282 is a next state, see
`takeFault`): each is an access the spec says is never made, in a state that no run reaches from reset. -/
inductive Fault where
  /-- A payload read at or past STREAM_SIZE, which "is never issued" (00_scope.md R11). Raised by `payRead`. Safe. -/
  | streamByteAbsent
  /-- A read of PAIR outside its 255 pairs, which 40_huffman.md R140 rules out. Raised by `hufChild`. Safe. -/
  | pairAbsent
  /-- A read of a frame buffer that holds fewer than ROQ_W × ROQ_H pixels; PixRead "is defined only" inside the frame
  (20_memory.md R67). Raised by `motionCopy`. Safe. -/
  | bufferAbsent
  /-- A decode loop ran past the bound of 70_reset_and_hazards.md R323, which it never does. Raised by `hufLoop` and
  `vqLoop`. Safe. -/
  | loopBound
deriving DecidableEq, Repr

/-- Why the model gives a unit no meaning. -/
inductive Refusal where
  /-- An instruction whose meaning is not written yet. Raised by `exec`. Safe. -/
  | notModelled (mnemonic : String)
  /-- A 2-bit VQ code that none of the four VQ parameters has; only under parameters that are not four distinct values
  (42_roq_vq.md R203). Raised by `block8` and `block4`. Safe. -/
  | codeUnassigned (code : BitVec 2)
  /-- The bytes of a record or chunk header that the decoder rejects; it rejects none. Raised by `stepUnit`. Safe. -/
  | undecodable
deriving DecidableEq, Repr

/-- The state after power-on, which behaves as RESET: the table of 10_state.md R52, with no request pending, no reply given,
no draw made, and the parameters at the defaults of 00_scope.md R8. -/
def State.reset : State where
  params := defaultParams
  stream := []
  ses :=
    { fmt := .none, offset := 0, streamSize := 0, headerOffset := 0,
      flags := { system := false, silent := false, loop := false, hold := false },
      frameRate := 0, stepCount := 0, result := .continue_, faulted := false, faultReason := .none,
      diag := { slack := 0, mismatch := false } }
  cin :=
    { w := 0, h := 0, sndRate := 0, sndWidth := 0, sndChannels := 0,
      hcount := Vector.replicate 511 0, hused := Vector.replicate 511 false,
      root := Vector.replicate 256 0, pair := Vector.replicate 256 (Vector.replicate 255 (0, 0)),
      palette := Vector.replicate 256 { r := 0, g := 0, b := 0 }, idxBuf := [], fb := [] }
  huf := { node := 0, ctx := 0, inbyte := 0, bitsLeft := 0, pixRemain := 0, pixPos := 0, inPos := 0 }
  roq :=
    { w := 0, h := 0, infoSeen := false,
      cells := Vector.replicate 256 { y0 := 0, y1 := 0, y2 := 0, y3 := 0, u := 0, v := 0 },
      quads := Vector.replicate 256 { c0 := 0, c1 := 0, c2 := 0, c3 := 0 },
      n1Last := 0, n2Last := 0, buf0 := [], buf1 := [], wsel := false, dispSel := false, vqFrame := 0,
      flg := 0, flgPos := 0, xp := 0, yp := 0, meanX := 0, meanY := 0, blockX := 0, blockY := 0,
      accL := 0, accR := 0, payBase := 0, payEnd := 0, payPos := 0 }
  ports := { audioOut := [], dispValid := false }
  requests := []
  replies := []
  runStart := 0
  draws := 0

end Sys2Proof.Machine
end

