-- ==== Sys2Proof/Machine/Ops.lean ====
section
/-! DEFINITION. The named operations every meaning is written over: the outcome of a unit's own steps, reads of the stream
and of the payload window, the frame buffers, the codebooks, the ends of a transaction, taking a fault, and RESET. -/

namespace Sys2Proof.Machine

/-- How a piece of a transaction ends: it goes on with a value and a state, it raises a fault of 60_exceptions.md R282 with the
state written so far (00_scope.md R12), or the machine itself stops. -/
inductive Run (α : Type) where
  | done (a : α) (s : State)
  | raised (r : FaultReason) (s : State)
  | broken (f : Fault)
  | refused (r : Refusal)

/-- Statements execute in order, and a raise ends the transaction at once (00_scope.md R12). -/
def Run.bind {α β : Type} (m : Run α) (k : α → State → Run β) : Run β :=
  match m with
  | .done a s => k a s
  | .raised r s => .raised r s
  | .broken f => .broken f
  | .refused r => .refused r

/-- What follows a successful machine step. -/
def onNext (o : Host.Outcome State Fault Refusal) (f : State → State) : Host.Outcome State Fault Refusal :=
  match o with
  | .next s => .next (f s)
  | .fault r => .fault r
  | .refused r => .refused r

/-! ### The input stream space -/

/-- One byte of the stream; an unlisted address reads as 0 (log entry 7). -/
def Memory.read : Memory → Nat → Byte
  | [], _ => 0
  | (a, b) :: rest, x => if a = x then b else Memory.read rest x

/-- The cells of consecutive bytes from an address on, zeros left out. -/
def Memory.cellsFrom : Nat → List Byte → Memory
  | _, [] => []
  | a, b :: bs => if b = 0 then Memory.cellsFrom (a + 1) bs else (a, b) :: Memory.cellsFrom (a + 1) bs

/-- The stream space OPEN loads: byte `k` of the host's stream at address `k` (20_memory.md R60). -/
def Memory.load (bs : List Byte) : Memory := Memory.cellsFrom 0 bs

/-- The canonical form: addresses strictly rising, no listed byte 0. -/
abbrev Memory.wf (m : Memory) : Prop :=
  m.Pairwise (fun c d => c.1 < d.1) ∧ ∀ c ∈ m, c.2 ≠ 0

/-- MemRead(addr, 1) (00_scope.md R11); its callers check the bound first. -/
def memRead8 (s : State) (addr : Nat) : Byte := s.stream.read addr

/-- MemRead(addr, 2), little-endian (00_scope.md R11, 20_memory.md R63). -/
def memRead16 (s : State) (addr : Nat) : Half := le16 (memRead8 s addr) (memRead8 s (addr + 1))

/-- MemRead(addr, 4), little-endian (00_scope.md R11, 20_memory.md R63). -/
def memRead32 (s : State) (addr : Nat) : Word :=
  le32 (memRead8 s addr) (memRead8 s (addr + 1)) (memRead8 s (addr + 2)) (memRead8 s (addr + 3))

/-- The `n` bytes at consecutive stream addresses from `addr` on (20_memory.md R66). -/
def memReadBytes (s : State) (addr n : Nat) : List Byte := (List.range n).map fun k => memRead8 s (addr + k)

/-- STREAM_SIZE - r < n, on unbounded integers: fewer than `n` bytes are left at `r` (00_scope.md R10). -/
abbrev shortOf (s : State) (r : Nat) (n : Int) : Prop := (s.ses.streamSize.toNat : Int) - r < n

/-- A store of 256 entries read at an 8-bit index. -/
def at8 {α : Type} (v : Vector α 256) (i : Byte) : α := v[i.toNat]'(i.isLt)

/-- A store of 256 entries written at an 8-bit index. -/
def put8 {α : Type} (v : Vector α 256) (i : Byte) (x : α) : Vector α 256 := v.set i.toNat x i.isLt

/-! ### The payload window of a RoQ chunk -/

/-- PayRead (20_memory.md R65): the next payload byte, or F_PAYLOAD_OVERRUN at the payload's end. -/
def payRead (s : State) : Run Byte :=
  if s.roq.payPos.toNat < s.roq.payEnd.toNat then
    if s.roq.payPos.toNat < s.ses.streamSize.toNat then
      .done (memRead8 s s.roq.payPos.toNat) { s with roq.payPos := s.roq.payPos + 1 }
    else .broken .streamByteAbsent
  else .raised .payloadOverrun s

/-- Two PayReads, low byte first (20_memory.md R65). -/
def payRead16 (s : State) : Run Half :=
  (payRead s).bind fun lo s => (payRead s).bind fun hi s => .done (le16 lo hi) s

/-- Four PayReads, in order. -/
def payRead4 (s : State) : Run (Byte × Byte × Byte × Byte) :=
  (payRead s).bind fun a s => (payRead s).bind fun b s => (payRead s).bind fun c s => (payRead s).bind fun d s =>
    .done (a, b, c, d) s

/-! ### The RoQ frame buffers -/

/-- BUF[b] (10_state.md R42). -/
def RoqUnit.buf (u : RoqUnit) (b : Bool) : List Pixel := if b then u.buf1 else u.buf0

/-- BUF[b] <- px. -/
def RoqUnit.setBuf (u : RoqUnit) (b : Bool) (px : List Pixel) : RoqUnit :=
  if b then { u with buf1 := px } else { u with buf0 := px }

/-- How many pixels a RoQ frame has. -/
def RoqUnit.area (u : RoqUnit) : Nat := u.w.toNat * u.h.toNat

/-- PixWrite(Wb, x, y, rgba): pixel (x, y) of the write buffer BUF[WSEL], nothing outside the frame (20_memory.md R67,
42_roq_vq.md R204). -/
def pixWrite (x y : Nat) (px : Pixel) (s : State) : State :=
  if x < s.roq.w.toNat ∧ y < s.roq.h.toNat then
    { s with roq := s.roq.setBuf s.roq.wsel ((s.roq.buf s.roq.wsel).set (y * s.roq.w.toNat + x) px) }
  else s

/-- PixRead(b, x, y), inside the frame only (20_memory.md R67). -/
def pixRead (u : RoqUnit) (b : Bool) (x y : Nat) : Pixel := (u.buf b).getD (y * u.w.toNat + x) Pixel.zero

/-! ### The codebooks -/

/-- CELL(i) (41_roq_chunks.md R169). -/
def cellAt (i : Byte) (s : State) : Run Cell :=
  if s.params.cbStale = .fault ∧ s.roq.n1Last.toNat ≤ i.toNat then .raised .cbStale s
  else .done (at8 s.roq.cells i) s

/-- QUAD(q) (41_roq_chunks.md R169). -/
def quadAt (q : Byte) (s : State) : Run Quad :=
  if s.params.cbStale = .fault ∧ s.roq.n2Last.toNat ≤ q.toNat then .raised .cbStale s
  else .done (at8 s.roq.quads q) s

/-! ### The output ports -/

/-- AudioOut: one record appended to AUDIO_OUT (00_scope.md R11, 10_state.md R47). -/
def audioOut (r : AudioRecord) (s : State) : State := { s with ports.audioOut := s.ports.audioOut ++ [r] }

/-! ### The ends of a unit -/

/-- return CONTINUE: STEP_COUNT counts it, modulo 2^32 (45_host_ops.md R264, 10_state.md R27). -/
def retContinue (s : State) : State :=
  { s with ses := { s.ses with stepCount := s.ses.stepCount + 1, result := .continue_ } }

/-- return END_OF_STREAM (45_host_ops.md R264). -/
def retEnd (s : State) : State := { s with ses := { s.ses with result := .endOfStream } }

/-- OFFSET <- v (00_scope.md R11). -/
def setOffset (v : Word) (s : State) : State := { s with ses := { s.ses with offset := v } }

/-- ANOMALY: OFFSET <- STREAM_SIZE; return END_OF_STREAM (60_exceptions.md R284). -/
def anomaly (s : State) : State := retEnd (setOffset s.ses.streamSize s)

/-- raise Fault(reason), the one way a fault is taken: FAULTED is set, FAULT_REASON holds the first reason, RESULT is FAULT,
and all that was written before stays (60_exceptions.md R283). RESET and OPEN are the only ways back (`resetBlock`). -/
def takeFault (r : FaultReason) (s : State) : State :=
  { s with ses := { s.ses with
      faulted := true,
      faultReason := if s.ses.faultReason = .none then r else s.ses.faultReason,
      result := .fault } }

/-- RESET's effect on the block: every register, store and port at its value in 10_state.md R52 (45_host_ops.md R261). The
parameters are not state of the block, and the host's side of the interface is not the block's: what was returned stays, and a run
begins (70_reset_and_hazards.md R326, log entry 18). -/
def resetBlock (s : State) : State :=
  { State.reset with
    params := s.params, requests := s.requests, replies := s.replies, runStart := s.replies.length, draws := s.draws }

/-- return OPEN_FAIL: the reset state with RESULT = OPEN_FAIL (45_host_ops.md R262, R263, 60_exceptions.md R287). -/
def openFailed (s : State) : State :=
  let s := resetBlock s
  { s with ses := { s.ses with result := .openFail } }

/-- What happens to the state however a piece of a transaction ends. -/
def Run.finally_ {α : Type} (m : Run α) (f : State → State) : Run α :=
  match m with
  | .done a s => .done a (f s)
  | .raised r s => .raised r (f s)
  | .broken f => .broken f
  | .refused r => .refused r

/-- A unit's outcome as the machine's: a raised fault is taken, and the machine goes on (60_exceptions.md R283). -/
def Run.outcome (m : Run Unit) : Host.Outcome State Fault Refusal :=
  match m with
  | .done _ s => .next s
  | .raised r s => .next (takeFault r s)
  | .broken f => .fault f
  | .refused r => .refused r

end Sys2Proof.Machine
end

