-- ==== Sys2Proof/Machine/Operands.lean ====
section
/-! DEFINITION. The operand forms: how the fields of a header, an argument or a payload byte become the numbers a meaning
computes with (30_encoding.md R87, R94, R98, R102, R106; 44_roq_audio.md R246). -/

namespace Sys2Proof.Machine

/-- A = (SND_RATE / 14) * SND_WIDTH * SND_CHANNELS, the division truncating (30_encoding.md R87). -/
def audioBytes (c : CinUnit) : Int := c.sndRate.toInt.tdiv 14 * c.sndWidth.toInt * c.sndChannels.toInt

/-- n1 of a CODEBOOK argument: arg[15:8], 0 meaning 256 (30_encoding.md R94). -/
def codebookN1 (arg : Half) : Nat :=
  let n1f := (arg.extractLsb' 8 8).toNat
  if n1f = 0 then 256 else n1f

/-- n2 of a CODEBOOK argument: arg[7:0], 0 meaning 256 when n1 * 6 < size (30_encoding.md R94). -/
def codebookN2 (arg : Half) (size : Word) : Nat :=
  let n2f := (arg.extractLsb' 0 8).toNat
  if n2f = 0 ∧ ((codebookN1 arg * 6 : Nat) : Int) < size.toInt then 256 else n2f

/-- MEAN_X of a VQ argument (30_encoding.md R98). -/
def argMeanX (arg : Half) : Byte := arg.extractLsb' 8 8

/-- MEAN_Y of a VQ argument (30_encoding.md R98). -/
def argMeanY (arg : Half) : Byte := arg.extractLsb' 0 8

/-- mx = 8 - b[7:4] - MEAN_X (30_encoding.md R102). -/
def motionX (meanX b : Byte) : Int := 8 - ((b.extractLsb' 4 4).toNat : Int) - meanX.toInt

/-- my = 8 - b[3:0] - MEAN_Y (30_encoding.md R102). -/
def motionY (meanY b : Byte) : Int := 8 - ((b.extractLsb' 0 4).toNat : Int) - meanY.toInt

/-- The mono seed (30_encoding.md R106). -/
def seedMono (arg : Half) : Half := arg

/-- The left seed, arg & 0xFF00 (30_encoding.md R106). -/
def seedLeft (arg : Half) : Half := arg &&& 0xFF00#16

/-- The right seed, (arg & 0x00FF) << 8 (30_encoding.md R106). -/
def seedRight (arg : Half) : Half := (arg &&& 0x00FF#16) <<< 8

/-- SQR[b] (44_roq_audio.md R246). -/
def sqr (b : Byte) : Int :=
  let i : Int := b.toNat
  if b.toNat < 128 then i * i else -((i - 128) * (i - 128))

/-- The number of macroblocks of a frame, ceil(ROQ_W / 16) * ceil(ROQ_H / 16) (42_roq_vq.md R190). -/
def macroblocks (u : RoqUnit) : Nat := ((u.w.toNat + 15) / 16) * ((u.h.toNat + 15) / 16)

end Sys2Proof.Machine
end

