-- ==== Sys2Proof/Machine/Flags.lean ====
section
/-! DEFINITION. The status the block reports: the codes of its enumerations, the DIAG record and the reply a RESULT stands
for. CINDEC has no condition codes (10_state.md R50). -/

namespace Sys2Proof.Machine

/-- The 2-bit code of FMT (10_state.md R21). -/
def Fmt.code : Fmt → BitVec 2
  | .none => 0
  | .cin => 1
  | .roq => 2

/-- The 2-bit code of RESULT (10_state.md R28, 60_exceptions.md R280). -/
def Result.code : Result → BitVec 2
  | .continue_ => 0
  | .endOfStream => 1
  | .fault => 2
  | .openFail => 3

/-- The code of FAULT_REASON (60_exceptions.md R282). -/
def FaultReason.code : FaultReason → Nat
  | .none => 0
  | .hufLeafStep => 1
  | .payloadOverrun => 2
  | .infoZeroDim => 3
  | .vqNoInfo => 4
  | .mvOutOfFrame => 5
  | .cbStale => 6

/-- SET_DIAG(base, fsz) at the end of a decompression (40_huffman.md R129). -/
def setDiag (base : Nat) (fsz : Int) (s : State) : State :=
  let slack : Int := fsz - ((s.huf.inPos.toNat : Int) - base)
  let mismatch : Bool :=
    decide (1 < slack) || s.huf.pixRemain != 0 ||
      decide (s.cin.w.toInt * s.cin.h.toInt < (s.huf.pixPos.toNat : Int))
  { s with ses := { s.ses with diag := { slack := BitVec.ofInt 32 slack, mismatch := mismatch } } }

/-- What a STEP that left this RESULT returns (45_host_ops.md R264, 60_exceptions.md R280). -/
def Result.stepReply : Result → Reply
  | .continue_ => .continue_
  | .endOfStream => .endOfStream
  | .fault => .fault
  | .openFail => .openFail

/-- What an OPEN that left this RESULT returns (45_host_ops.md R262, R263). -/
def Result.openReply : Result → Reply
  | .continue_ => .ok
  | .endOfStream => .endOfStream
  | .fault => .fault
  | .openFail => .openFail

/-- The tuple READ_STATUS returns (45_host_ops.md R260). -/
def statusOf (s : State) : Status where
  fmt := s.ses.fmt
  result := s.ses.result
  faulted := s.ses.faulted
  faultReason := s.ses.faultReason
  diag := s.ses.diag
  frameRate := s.ses.frameRate
  stepCount := s.ses.stepCount
  flags := s.ses.flags
  dispValid := s.ports.dispValid

end Sys2Proof.Machine
end

