-- ==== Sys2Proof/Machine/RoqChunk.lean ====
section
/-! DEFINITION. The RoQ header parse, the chunk step shared by every chunk operation, and the operations INFO, CODEBOOK,
IDENT and OTHER (41_roq_chunks.md). -/

namespace Sys2Proof.Machine

/-! ### Opening -/

/-- ROQ.HEADER: the header parse, its ident already matched, with the end of OPEN_ROQ that follows it (41_roq_chunks.md R160,
45_host_ops.md R263). The middle field is never read (30_encoding.md R107). -/
def execRoqHeader (_unused : Word) (fps : Half) (s : State) : Host.Outcome State Fault Refusal :=
  if s.ses.streamSize.toNat < 8 then .next (openFailed s)
  else
    .next { s with
      ses := { s.ses with
        frameRate := if fps = 0 then 30 else fps
        headerOffset := 8, offset := 8, fmt := .roq, stepCount := 0, result := .continue_ }
      roq := { s.roq with vqFrame := 0, infoSeen := false } }

/-! ### The chunk step -/

/-- The payload window of the chunk whose header is at `h` (41_roq_chunks.md R161, 20_memory.md R65). -/
def openWindow (h : Nat) (size : Int) (s : State) : State :=
  { s with roq := { s.roq with
      payBase := BitVec.ofNat 32 (h + 8), payEnd := BitVec.ofInt 32 (h + 8 + size), payPos := BitVec.ofNat 32 (h + 8) } }

/-- The chunk step after its header is read and its id is not ROQ_IDENT: the size checks, the empty chunk, the payload
window, the operation, and OFFSET at the payload's end however much of it was used (41_roq_chunks.md R161, R163 to R165). -/
def chunkStep (size : Word) (op : State → Run Unit) (s : State) : Run Unit :=
  let h := s.ses.offset.toNat
  if (s.params.roqMaxSize.toNat : Int) < size.toInt then .done () (anomaly s)
  else if 0 < size.toInt ∧ shortOf s (h + 8) size.toInt then .done () (anomaly s)
  else if size.toInt ≤ 0 then .done () (retContinue (setOffset (BitVec.ofNat 32 (h + 8)) s))
  else
    (op (openWindow h size.toInt s)).bind fun _ s => .done () (retContinue (setOffset s.roq.payEnd s))

/-! ### INFO -/

/-- The initial content of a frame buffer of `n` pixels whose free bytes start at `base` (10_state.md R42, log entry 3). -/
def initialBuffer (p : Params) (draw base n : Nat) : List Pixel :=
  match p.bufInit with
  | .zero => List.replicate n Pixel.zero
  | .any => (List.range n).map fun k =>
      { r := Config.freeBufByte draw (base + 4 * k), g := Config.freeBufByte draw (base + 4 * k + 1),
        b := Config.freeBufByte draw (base + 4 * k + 2), a := Config.freeBufByte draw (base + 4 * k + 3) }

/-- ROQ_W, ROQ_H, INFO_SEEN and the two buffers, BUF[0] drawn before BUF[1] (41_roq_chunks.md R166). -/
def setInfo (w ht : Half) (s : State) : State :=
  let n := w.toNat * ht.toNat
  { s with
    roq := { s.roq with
      w := w, h := ht, infoSeen := true
      buf0 := initialBuffer s.params s.draws 0 n
      buf1 := initialBuffer s.params s.draws (4 * n) n
      wsel := false, dispSel := false }
    draws := s.draws + 1 }

/-- The operation of an INFO chunk: first wins (41_roq_chunks.md R166, R167). -/
def infoOp (s : State) : Run Unit :=
  if s.roq.infoSeen then .done () s
  else
    (payRead16 s).bind fun w s => (payRead16 s).bind fun ht s => (payRead4 s).bind fun _ s =>
      if w = 0 ∨ ht = 0 then .raised .infoZeroDim s else .done () (setInfo w ht s)

/-- ROQ.INFO (41_roq_chunks.md R166); its argument is ignored. -/
def execRoqInfo (size : Word) (_arg : Half) (s : State) : Host.Outcome State Fault Refusal :=
  (chunkStep size infoOp s).outcome

/-! ### CODEBOOK -/

/-- One cell from the payload, in the order Y0, Y1, Y2, Y3, U, V (30_encoding.md R95). -/
def readCell (s : State) : Run Cell :=
  (payRead4 s).bind fun (y0, y1, y2, y3) s => (payRead s).bind fun u s => (payRead s).bind fun v s =>
    .done { y0 := y0, y1 := y1, y2 := y2, y3 := y3, u := u, v := v } s

/-- CELLS[k], CELLS[k+1], ... read for `n` entries; what is read before a fault stays (41_roq_chunks.md R168). -/
def loadCells : (n k : Nat) → State → Run Unit
  | 0, _, s => .done () s
  | n + 1, k, s =>
    (readCell s).bind fun c s => loadCells n (k + 1) { s with roq.cells := s.roq.cells.setIfInBounds k c }

/-- QUADS[k], QUADS[k+1], ... read for `n` entries (41_roq_chunks.md R168). -/
def loadQuads : (n k : Nat) → State → Run Unit
  | 0, _, s => .done () s
  | n + 1, k, s =>
    (payRead4 s).bind fun (c0, c1, c2, c3) s =>
      loadQuads n (k + 1)
        { s with roq.quads := s.roq.quads.setIfInBounds k { c0 := c0, c1 := c1, c2 := c2, c3 := c3 } }

/-- N1_LAST and N2_LAST (10_state.md R41). -/
def setCounts (n1 n2 : Nat) (s : State) : State :=
  { s with roq := { s.roq with n1Last := BitVec.ofNat 9 n1, n2Last := BitVec.ofNat 9 n2 } }

/-- The operation of a CODEBOOK chunk (41_roq_chunks.md R168). -/
def codebookOp (size : Word) (arg : Half) (s : State) : Run Unit :=
  let n1 := codebookN1 arg
  let n2 := codebookN2 arg size
  (loadCells n1 0 s).bind fun _ s => (loadQuads n2 0 s).bind fun _ s => .done () (setCounts n1 n2 s)

/-- ROQ.CODEBOOK (41_roq_chunks.md R168). -/
def execRoqCodebook (size : Word) (arg : Half) (s : State) : Host.Outcome State Fault Refusal :=
  (chunkStep size (codebookOp size arg) s).outcome

/-! ### IDENT and OTHER -/

/-- ROQ.IDENT: the terminator, its size and argument never examined (41_roq_chunks.md R172). -/
def execRoqIdent (_size : Word) (_arg : Half) (s : State) : Host.Outcome State Fault Refusal := .next (anomaly s)

/-- ROQ.OTHER: nothing but the chunk step (41_roq_chunks.md R171). -/
def execRoqOther (_id : Half) (size : Word) (_arg : Half) (s : State) : Host.Outcome State Fault Refusal :=
  (chunkStep size (fun s => .done () s) s).outcome

end Sys2Proof.Machine
end

