-- ==== Sys2Proof/Machine/Audio.lean ====
section
/-! DEFINITION. The RoQ audio decompressor: mono and stereo sound chunks (44_roq_audio.md). -/

namespace Sys2Proof.Machine

/-- STEP_ADD(a, s) (44_roq_audio.md R249). -/
def stepAdd (o : AudioOverflow) (a : Half) (d : Int) : Half :=
  match o with
  | .wrap16 => BitVec.ofInt 16 (a.toInt + d)
  | .clamp16 => BitVec.ofInt 16 (min (max (a.toInt + d) (-32768)) 32767)

/-- AUDIO_APPEND(ROQ_PCM16, channels, S); a decode that yields no samples appends no record (44_roq_audio.md R250 to R253). -/
def audioAppend (channels : Int) (samples : List Half) (s : State) : State :=
  if samples = [] then s
  else audioOut { rate := s.params.roqAudioRate, width := 2, channels := channels, data := .roqPcm16 samples } s

/-- `n` mono samples; each is the accumulator after the add (44_roq_audio.md R247). -/
def monoLoop : (n : Nat) → State → Run (List Half)
  | 0, s => .done [] s
  | n + 1, s =>
    (payRead s).bind fun b s =>
      let acc := stepAdd s.params.audioOverflow s.roq.accL (sqr b)
      (monoLoop n { s with roq := { s.roq with accL := acc } }).bind fun rest s => .done (acc :: rest) s

/-- `n` stereo pairs, left before right (44_roq_audio.md R248, 20_memory.md R76). -/
def stereoLoop : (n : Nat) → State → Run (List Half)
  | 0, s => .done [] s
  | n + 1, s =>
    (payRead s).bind fun bl s => (payRead s).bind fun br s =>
      let l := stepAdd s.params.audioOverflow s.roq.accL (sqr bl)
      let r := stepAdd s.params.audioOverflow s.roq.accR (sqr br)
      (stereoLoop n { s with roq := { s.roq with accL := l, accR := r } }).bind fun rest s =>
        .done (l :: r :: rest) s

/-- The operation of a mono sound chunk; nothing at all when SILENT (44_roq_audio.md R245, R247). -/
def monoOp (size : Word) (arg : Half) (s : State) : Run Unit :=
  if s.ses.flags.silent then .done () s
  else
    (monoLoop size.toInt.toNat { s with roq := { s.roq with accL := seedMono arg } }).bind fun samples s =>
      .done () (audioAppend 1 samples s)

/-- The operation of a stereo sound chunk (44_roq_audio.md R245, R248). -/
def stereoOp (size : Word) (arg : Half) (s : State) : Run Unit :=
  if s.ses.flags.silent then .done () s
  else
    (stereoLoop (size.toInt.toNat / 2)
      { s with roq := { s.roq with accL := seedLeft arg, accR := seedRight arg } }).bind fun samples s =>
      .done () (audioAppend 2 samples s)

/-- ROQ.SND_MONO (44_roq_audio.md R247). -/
def execRoqSndMono (size : Word) (arg : Half) (s : State) : Host.Outcome State Fault Refusal :=
  (chunkStep size (monoOp size arg) s).outcome

/-- ROQ.SND_STEREO (44_roq_audio.md R248). -/
def execRoqSndStereo (size : Word) (arg : Half) (s : State) : Host.Outcome State Fault Refusal :=
  (chunkStep size (stereoOp size arg) s).outcome

end Sys2Proof.Machine
end

