-- ==== Sys2Proof/Machine/Huffman.lean ====
section
/-! DEFINITION. The Huffman unit: the forest build and the decompression of one frame payload (40_huffman.md sections 2, 3). -/

namespace Sys2Proof.Machine

/-! ### The forest build -/

/-- One test of the SMALLEST scan: node `i` replaces the best so far when it is unused, its count is not 0, and its count is
strictly below the best one's (40_huffman.md R122). -/
def smallestPick (count : Vector Word 511) (used : Vector Bool 511) (best : Option Nat) (i : Nat) : Option Nat :=
  if used[i]?.getD true = true ∨ count[i]?.getD 0 = 0 then best
  else
    match best with
    | none => some i
    | some b => if count[i]?.getD 0 < count[b]?.getD 0 then some i else some b

/-- The node SMALLEST(n) finds among nodes 0..n-1, before it marks it used (40_huffman.md R122). -/
def smallestOf (count : Vector Word 511) (used : Vector Bool 511) (n : Nat) : Option Nat :=
  (List.range n).foldl (smallestPick count used) none

/-- SMALLEST(n) (40_huffman.md R122). -/
def smallest (n : Nat) (s : State) : Option Nat × State :=
  match smallestOf s.cin.hcount s.cin.hused n with
  | none => (none, s)
  | some i => (some i, { s with cin.hused := s.cin.hused.setIfInBounds i true })

/-- PAIR[r][k][b] <- a. -/
def setPair (r : Byte) (k : Nat) (b : Bool) (a : Nat) (s : State) : State :=
  let row := at8 s.cin.pair r
  let old := row[k]?.getD (0, 0)
  let new := if b then (old.1, BitVec.ofNat 9 a) else (BitVec.ofNat 9 a, old.2)
  { s with cin.pair := put8 s.cin.pair r (row.setIfInBounds k new) }

/-- The merges of BUILD_ROW(r), at most `fuel` of them, from free node index `n` on; the node count when the loop stops
(40_huffman.md R122). -/
def buildMerges (r : Byte) : (fuel n : Nat) → State → Nat × State
  | 0, n, s => (n, s)
  | fuel + 1, n, s =>
    match smallest n s with
    | (none, s) => (n, s)
    | (some a, s) =>
      let s := setPair r (n - 256) false a s
      match smallest n s with
      | (none, s) => (n, s)
      | (some b, s) =>
        let s := setPair r (n - 256) true b s
        let sum := s.cin.hcount[a]?.getD 0 + s.cin.hcount[b]?.getD 0
        buildMerges r fuel (n + 1) { s with cin.hcount := s.cin.hcount.setIfInBounds n sum }

/-- HCOUNT and HUSED at the start of BUILD_ROW(r): the row's 256 counts, then zeros; nothing used (40_huffman.md R122, 30_encoding.md
R81). -/
def loadRow (r : Byte) (s : State) : State :=
  { s with
    cin.hcount := Vector.ofFn fun (i : Fin 511) =>
      if i.val < 256 then (memRead8 s (20 + 256 * r.toNat + i.val)).zeroExtend 32 else 0
    cin.hused := Vector.replicate 511 false }

/-- BUILD_ROW(r): node indices 256 to 510 are free, so at most 255 merges (40_huffman.md R122, R123). -/
def buildRow (r : Byte) (s : State) : State :=
  let (n, s) := buildMerges r 255 256 (loadRow r s)
  { s with cin.root := put8 s.cin.root r (BitVec.ofNat 9 (n - 1)) }

/-- The forest, rows 0 to 255 in order (40_huffman.md R121). -/
def buildForest (s : State) : State :=
  (List.range 256).foldl (fun s r => buildRow (BitVec.ofNat 8 r) s) s

/-- HCOUNT and HUSED after OPEN_CIN, whose content is unspecified: free values (10_state.md R31, log entry 4). -/
def freeCounts (s : State) : State :=
  { s with
    cin.hcount := Vector.ofFn fun (i : Fin 511) => Config.freeHcount s.draws i.val
    cin.hused := Vector.ofFn fun (i : Fin 511) => Config.freeHused s.draws i.val
    draws := s.draws + 1 }

/-! ### Decompression -/

/-- The number of pixels of a CIN frame. -/
def CinUnit.area (c : CinUnit) : Int := c.w.toInt * c.h.toInt

/-- EMIT(n) (40_huffman.md R127). -/
def hufEmit (n : Byte) (s : State) : State :=
  let s :=
    if (s.huf.pixPos.toNat : Int) < s.cin.area then
      { s with cin.idxBuf := s.cin.idxBuf.set s.huf.pixPos.toNat n }
    else s
  { s with huf.pixPos := s.huf.pixPos + 1 }

/-- A leaf has been reached: emit it, count it, and unless it was the last pixel switch context to the emitted byte
(40_huffman.md R126). -/
def hufLeaf (s : State) : State :=
  if s.huf.node.toNat < 256 then
    let leaf : Byte := s.huf.node.setWidth 8
    let s := hufEmit leaf s
    let s := { s with huf.pixRemain := s.huf.pixRemain - 1 }
    if s.huf.pixRemain = 0 then s
    else { s with huf := { s.huf with ctx := leaf, node := at8 s.cin.root leaf } }
  else s

/-- The next bit, LSB first; a byte is fetched only when a bit is needed, and none when the payload ends at `fin`
(40_huffman.md R126, 30_encoding.md R86). -/
def hufBit (fin : Nat) (s : State) : Option (Bool × State) :=
  let fetched : Option State :=
    if s.huf.bitsLeft = 0 then
      if s.huf.inPos.toNat = fin then none
      else some { s with huf := { s.huf with
        inbyte := memRead8 s s.huf.inPos.toNat, inPos := s.huf.inPos + 1, bitsLeft := 8 } }
    else some s
  fetched.map fun s =>
    (s.huf.inbyte.getLsbD 0,
      { s with huf := { s.huf with inbyte := s.huf.inbyte >>> 1, bitsLeft := s.huf.bitsLeft - 1 } })

/-- NODE <- CHILD(CTX, NODE, bit) (40_huffman.md R124, R128). -/
def hufChild (bit : Bool) (s : State) : Run Unit :=
  if s.huf.node.toNat < 256 then
    match s.params.hufLeafStep with
    | .fault => .raised .hufLeafStep s
    | .zero => .done () { s with huf.node := 0 }
  else
    match (at8 s.cin.pair s.huf.ctx)[s.huf.node.toNat - 256]? with
    | some kids => .done () { s with huf.node := if bit then kids.2 else kids.1 }
    | none => .broken .pairAbsent

/-- The loop of HUF_DECOMPRESS with the payload ending at `fin`; every pass that does not exit consumes a bit
(70_reset_and_hazards.md R323), so `fuel` above the bits left is never used up (40_huffman.md R126). -/
def hufLoop (fin : Nat) : (fuel : Nat) → State → Run Unit
  | 0, _ => .broken .loopBound
  | fuel + 1, s =>
    if s.huf.pixRemain = 0 then .done () s
    else
      let s := hufLeaf s
      if s.huf.pixRemain = 0 then .done () s
      else
        match hufBit fin s with
        | none => .done () s
        | some (bit, s) => (hufChild bit s).bind fun _ s => hufLoop fin fuel s

/-- The registers at the start of HUF_DECOMPRESS(base, fsz) (40_huffman.md R126). -/
def hufStart (base : Nat) (s : State) : State :=
  { s with huf :=
      { pixRemain := memRead32 s base, inPos := BitVec.ofNat 32 (base + 4), pixPos := 0, ctx := 0,
        node := at8 s.cin.root 0, inbyte := 0, bitsLeft := 0 } }

/-- HUF_DECOMPRESS(base, fsz) (40_huffman.md R126, R129). -/
def hufDecompress (base fsz : Nat) (s : State) : Run Unit :=
  (hufLoop (base + fsz) (8 * (fsz - 4) + 1) (hufStart base s)).bind fun _ s => .done () (setDiag base fsz s)

/-- The working registers between transactions, which are unspecified: free values inside their ranges (10_state.md R37, log
entry 5). -/
def freeHufRegs (s : State) : State :=
  { s with
    huf :=
      { node := BitVec.ofNat 9 ((Config.freeHufReg s.draws 0).toNat % 511)
        ctx := (Config.freeHufReg s.draws 1).setWidth 8
        inbyte := (Config.freeHufReg s.draws 2).setWidth 8
        bitsLeft := BitVec.ofNat 4 ((Config.freeHufReg s.draws 3).toNat % 9)
        pixRemain := Config.freeHufReg s.draws 4
        pixPos := Config.freeHufReg s.draws 5
        inPos := Config.freeHufReg s.draws 6 }
    draws := s.draws + 1 }

end Sys2Proof.Machine
end

