-- ==== Sys2Proof/Machine/Cin.lean ====
section
/-! DEFINITION. The CIN operations: the header parse, the records, the palette expansion and the raw-audio pass-through
(40_huffman.md sections 1, 4). -/

namespace Sys2Proof.Machine

/-! ### Opening -/

/-- The checks of the CIN header parse, all passed: 65556 stream bytes, a frame of positive size, no negative sound field
(40_huffman.md R120). -/
abbrev cinHeaderGood (w h rate width channels : Word) (s : State) : Prop :=
  20 + 65536 ≤ s.ses.streamSize.toNat ∧ 0 < w.toInt ∧ 0 < h.toInt ∧
    0 ≤ rate.toInt ∧ 0 ≤ width.toInt ∧ 0 ≤ channels.toInt

/-- The five header registers (40_huffman.md R120). -/
def setCinHeader (w h rate width channels : Word) (s : State) : State :=
  { s with cin := { s.cin with w := w, h := h, sndRate := rate, sndWidth := width, sndChannels := channels } }

/-- PALETTE, IDX_BUF and CIN_FB cleared (40_huffman.md R120, 10_state.md R34 to R36). -/
def clearCinBuffers (s : State) : State :=
  { s with cin := { s.cin with
      palette := Vector.replicate 256 { r := 0, g := 0, b := 0 }
      idxBuf := List.replicate s.cin.area.toNat 0
      fb := List.replicate s.cin.area.toNat Pixel.zero } }

/-- HEADER_OFFSET, OFFSET, FRAME_RATE, and the end of OPEN_CIN that returned OK: FMT, STEP_COUNT and RESULT (40_huffman.md R120,
45_host_ops.md R262). -/
def startCin (s : State) : State :=
  { s with ses := { s.ses with
      headerOffset := 65556, offset := 65556, frameRate := 14, fmt := .cin, stepCount := 0, result := .continue_ } }

/-- CIN.HEADER: the header parse with the end of OPEN_CIN that follows it (40_huffman.md R120, R121; 45_host_ops.md R262). -/
def execCinHeader (w h rate width channels : Word) (s : State) : Host.Outcome State Fault Refusal :=
  if cinHeaderGood w h rate width channels s then
    .next (startCin (clearCinBuffers (freeCounts (buildForest (setCinHeader w h rate width channels s)))))
  else .next (openFailed s)

/-! ### Records -/

/-- The RGBA pixel of a palette entry, alpha 255 (40_huffman.md R136). -/
def palettePixel (c : Rgb) : Pixel := { r := c.r, g := c.g, b := c.b, a := 255 }

/-- PALETTE_EXPAND (40_huffman.md R136). -/
def paletteExpand (s : State) : State :=
  { s with
    cin.fb := s.cin.idxBuf.map fun i => palettePixel (at8 s.cin.palette i)
    ports.dispValid := true }

/-- CIN_AUDIO(r), which ends a frame record (40_huffman.md R137). -/
def cinAudio (r : Nat) (s : State) : State :=
  let a := audioBytes s.cin
  if shortOf s r a then retContinue (setOffset s.ses.streamSize s)
  else
    let s1 :=
      if s.ses.flags.silent = false ∧ 0 < a then
        audioOut
          { rate := s.cin.sndRate.toInt, width := s.cin.sndWidth.toInt, channels := s.cin.sndChannels.toInt,
            data := .cinRaw (memReadBytes s r a.toNat) } s
      else s
    retContinue (setOffset (BitVec.ofInt 32 (r + a)) s1)

/-- FRAME_SIZE_ANOMALY: the stream is at its end, yet the result is CONTINUE (40_huffman.md R133). -/
def frameSizeAnomaly (s : State) : State := retContinue (setOffset s.ses.streamSize s)

/-- FRAME_BODY(r) (40_huffman.md R131, R133, R138); the Huffman working registers are unspecified after it (10_state.md R37). -/
def frameBody (r : Nat) (s : State) : Run Unit :=
  if shortOf s r 4 then .done () (anomaly s)
  else
    let fsz := (memRead32 s r).toInt
    if fsz < 4 ∨ 131072 < fsz then .done () (frameSizeAnomaly s)
    else if shortOf s (r + 4) fsz then .done () (anomaly s)
    else
      ((hufDecompress (r + 4) fsz.toNat s).finally_ freeHufRegs).bind fun _ s =>
        .done () (cinAudio (r + 4 + fsz.toNat) (paletteExpand s))

/-- Entry `i` of the palette body at `r` (30_encoding.md R84). -/
def paletteEntry (s : State) (r i : Nat) : Rgb :=
  { r := memRead8 s (r + 3 * i), g := memRead8 s (r + 3 * i + 1), b := memRead8 s (r + 3 * i + 2) }

/-- PALETTE loaded from the 768 bytes at `r` (40_huffman.md R132). -/
def loadPalette (r : Nat) (s : State) : State :=
  { s with cin.palette := Vector.ofFn fun (i : Fin 256) => paletteEntry s r i.val }

/-- The body of CIN.PALFRAME, from the byte after the command on (40_huffman.md R132). -/
def palframeBody (r : Nat) (s : State) : Run Unit :=
  if shortOf s r 768 then .done () (anomaly s)
  else frameBody (r + 768) (loadPalette r s)

/-- The address after the 4-byte command of the record at OFFSET (40_huffman.md R130). -/
def afterCommand (s : State) : Nat := s.ses.offset.toNat + 4

/-- CIN.FRAME (40_huffman.md R131). -/
def execCinFrame (s : State) : Host.Outcome State Fault Refusal := (frameBody (afterCommand s) s).outcome

/-- CIN.PALFRAME (40_huffman.md R132). -/
def execCinPalframe (s : State) : Host.Outcome State Fault Refusal := (palframeBody (afterCommand s) s).outcome

/-- CIN.END (40_huffman.md R134). -/
def execCinEnd (s : State) : Host.Outcome State Fault Refusal := .next (retEnd (setOffset s.ses.streamSize s))

/-- CIN.RSVD: the command's value selects nothing but this operation (40_huffman.md R135). -/
def execCinRsvd (_cmd : Word) (s : State) : Host.Outcome State Fault Refusal :=
  match s.params.cinUnknownCmd with
  | .endOfStream => .next (anomaly s)
  | .asFrame => (frameBody (afterCommand s) s).outcome

end Sys2Proof.Machine
end

