-- ==== Sys2Proof/Machine/Yuv.lean ====
section
/-! DEFINITION. The YUV-to-RGB converter: a pure function of a cell and the four tables (43_yuv_rgb.md). -/

namespace Sys2Proof.Machine

/-- clamp(z, 0, 255) as a byte (00_scope.md R10). -/
def clampByte (z : Int) : Byte := BitVec.ofInt 8 (min (max z 0) 255)

/-- YUV(y, u, v), the sums taken on unbounded integers and clamped once (43_yuv_rgb.md R230). -/
def yuvPixel (t : YuvTables) (y u v : Byte) : Pixel :=
  let luma : Int := y.toNat
  { r := clampByte (luma + at8 t.vr v)
    g := clampByte (luma - at8 t.ug u - at8 t.vg v)
    b := clampByte (luma + at8 t.ub u)
    a := 255 }

/-- YUV_CELL(c): the pixels p0, p1, p2, p3 (43_yuv_rgb.md R233). -/
def yuvCell (t : YuvTables) (c : Cell) : Pixel × Pixel × Pixel × Pixel :=
  (yuvPixel t c.y0 c.u c.v, yuvPixel t c.y1 c.u c.v, yuvPixel t c.y2 c.u c.v, yuvPixel t c.y3 c.u c.v)

end Sys2Proof.Machine
end

