-- ==== Sys2Proof/Machine/Vq.lean ====
section
/-! DEFINITION. The RoQ video frame: the code reader, the drawing and copy primitives, the eight VQ codes, the macroblock
loop and the buffer exchange (42_roq_vq.md). -/

namespace Sys2Proof.Machine

/-! ### The code reader -/

/-- The code at FLG_POS of a flag word: FLG[2*FLG_POS-1 : 2*FLG_POS-2] (42_roq_vq.md R191, 30_encoding.md R100). -/
def flagCode (flg : Half) (pos : BitVec 4) : BitVec 2 := flg.extractLsb' (2 * pos.toNat - 2) 2

/-- A new flag word when the reader holds no codes (42_roq_vq.md R191). -/
def refillFlags (s : State) : Run Unit :=
  if s.roq.flgPos = 0 then
    (payRead16 s).bind fun w s => .done () { s with roq := { s.roq with flg := w, flgPos := 8 } }
  else .done () s

/-- NEXT_CODE() (42_roq_vq.md R191). -/
def nextCode (s : State) : Run (BitVec 2) :=
  (refillFlags s).bind fun _ s =>
    .done (flagCode s.roq.flg s.roq.flgPos) { s with roq := { s.roq with flgPos := s.roq.flgPos - 1 } }

/-! ### Drawing and copying -/

/-- DRAW_CELL(px, py, cell) (42_roq_vq.md R201). -/
def drawCell (px py : Nat) (c : Cell) (s : State) : State :=
  let (p0, p1, p2, p3) := yuvCell s.params.yuv c
  pixWrite (px + 1) (py + 1) p3 (pixWrite px (py + 1) p2 (pixWrite (px + 1) py p1 (pixWrite px py p0 s)))

/-- The offsets (i, j) of an n×n block, row by row. -/
def blockOffsets (n : Nat) : List (Nat × Nat) :=
  (List.range n).flatMap fun j => (List.range n).map fun i => (i, j)

/-- The sample that covers offset (i, j) at double scale, k = 2*(j / 2) + (i / 2) (42_roq_vq.md R202). -/
def sampleAt (p : Pixel × Pixel × Pixel × Pixel) (i j : Nat) : Pixel :=
  match 2 * (j / 2) + i / 2 with
  | 0 => p.1
  | 1 => p.2.1
  | 2 => p.2.2.1
  | _ => p.2.2.2

/-- DRAW_CELL_X2(px, py, cell) (42_roq_vq.md R202). -/
def drawCellX2 (px py : Nat) (c : Cell) (s : State) : State :=
  let p := yuvCell s.params.yuv c
  (blockOffsets 4).foldl (fun s ij => pixWrite (px + ij.1) (py + ij.2) (sampleAt p ij.1 ij.2) s) s

/-- D of MC(px, py, n, ...): the destination pixels inside the frame (42_roq_vq.md R199). -/
def destPixels (u : RoqUnit) (px py n : Nat) : List (Nat × Nat) :=
  ((blockOffsets n).map fun ij => (px + ij.1, py + ij.2)).filter fun d => d.1 < u.w.toNat ∧ d.2 < u.h.toNat

/-- The source of a destination pixel lies inside the frame (42_roq_vq.md R199). -/
abbrev sourceInside (u : RoqUnit) (mx my : Int) (d : Nat × Nat) : Prop :=
  0 ≤ (d.1 : Int) + mx ∧ (d.1 : Int) + mx < u.w.toNat ∧ 0 ≤ (d.2 : Int) + my ∧ (d.2 : Int) + my < u.h.toNat

/-- PixWrite(Wb, dx, dy, PixRead(Pb, dx+mx, dy+my)) (42_roq_vq.md R199). -/
def copyPixel (mx my : Int) (s : State) (d : Nat × Nat) : State :=
  pixWrite d.1 d.2 (pixRead s.roq (!s.roq.wsel) ((d.1 : Int) + mx).toNat ((d.2 : Int) + my).toNat) s

/-- MC(px, py, n, mx, my): all sources are checked before any pixel is written (42_roq_vq.md R199). -/
def motionCopy (px py n : Nat) (mx my : Int) (s : State) : Run Unit :=
  if (destPixels s.roq px py n).all (fun d => decide (sourceInside s.roq mx my d)) then
    if (s.roq.buf (!s.roq.wsel)).length < s.roq.area then .broken .bufferAbsent
    else .done () ((destPixels s.roq px py n).foldl (copyPixel mx my) s)
  else .raised .mvOutOfFrame s

/-- CELL(i) drawn at native scale. -/
def drawIndexed (px py : Nat) (i : Byte) (s : State) : Run Unit :=
  (cellAt i s).bind fun c s => .done () (drawCell px py c s)

/-- CELL(i) drawn at double scale. -/
def drawIndexedX2 (px py : Nat) (i : Byte) (s : State) : Run Unit :=
  (cellAt i s).bind fun c s => .done () (drawCellX2 px py c s)

/-- Four cells at native scale, at the positions of 30_encoding.md R97 (42_roq_vq.md R197, R200). -/
def drawFour (x y : Nat) (q : Quad) (s : State) : Run Unit :=
  (drawIndexed x y q.c0 s).bind fun _ s => (drawIndexed (x + 2) y q.c1 s).bind fun _ s =>
    (drawIndexed x (y + 2) q.c2 s).bind fun _ s => drawIndexed (x + 2) (y + 2) q.c3 s

/-- Four cells at double scale (42_roq_vq.md R196). -/
def drawFourX2 (x y : Nat) (q : Quad) (s : State) : Run Unit :=
  (drawIndexedX2 x y q.c0 s).bind fun _ s => (drawIndexedX2 (x + 4) y q.c1 s).bind fun _ s =>
    (drawIndexedX2 x (y + 4) q.c2 s).bind fun _ s => drawIndexedX2 (x + 4) (y + 4) q.c3 s

/-! ### The codes, at the block whose origin the state holds -/

/-- x of the block in hand. -/
def blkX (s : State) : Nat := s.roq.blockX.toNat

/-- y of the block in hand. -/
def blkY (s : State) : Nat := s.roq.blockY.toNat

/-- The block in hand is at (x, y). -/
def atBlock (x y : Nat) (s : State) : State :=
  { s with roq := { s.roq with blockX := BitVec.ofNat 32 x, blockY := BitVec.ofNat 32 y } }

/-- A motion copy of an n×n block, its byte read from the payload (42_roq_vq.md R194, R195). -/
def fccBlock (n : Nat) (s : State) : Run Unit :=
  (payRead s).bind fun b s =>
    motionCopy (blkX s) (blkY s) n (motionX s.roq.meanX b) (motionY s.roq.meanY b) s

/-- MOT.8 (42_roq_vq.md R192). -/
def mot8 (s : State) : Run Unit := .done () s

/-- FCC.8 (42_roq_vq.md R194). -/
def fcc8 (s : State) : Run Unit := fccBlock 8 s

/-- SLD.8 (42_roq_vq.md R196). -/
def sld8 (s : State) : Run Unit :=
  (payRead s).bind fun q s => (quadAt q s).bind fun quad s => drawFourX2 (blkX s) (blkY s) quad s

/-- MOT.4 (42_roq_vq.md R193). -/
def mot4 (s : State) : Run Unit := .done () s

/-- FCC.4 (42_roq_vq.md R195). -/
def fcc4 (s : State) : Run Unit := fccBlock 4 s

/-- SLD.4 (42_roq_vq.md R197). -/
def sld4 (s : State) : Run Unit :=
  (payRead s).bind fun q s => (quadAt q s).bind fun quad s => drawFour (blkX s) (blkY s) quad s

/-- CCC.4: four raw cell indices, all read before any is drawn (42_roq_vq.md R200). -/
def ccc4 (s : State) : Run Unit :=
  (payRead4 s).bind fun (c0, c1, c2, c3) s =>
    drawFour (blkX s) (blkY s) { c0 := c0, c1 := c1, c2 := c2, c3 := c3 } s

/-- BLOCK4(x, y) (42_roq_vq.md R203). -/
def block4 (x y : Nat) (s : State) : Run Unit :=
  (nextCode (atBlock x y s)).bind fun c s =>
    match vqCode? s.params c with
    | some .mot => mot4 s
    | some .fcc => fcc4 s
    | some .sld => sld4 s
    | some .ccc => ccc4 s
    | none => .refused (.codeUnassigned c)

/-- The four 4×4 sub-subblocks of the 8×8 subblock at (x, y) (42_roq_vq.md R198, 30_encoding.md R103). -/
def subdivide (x y : Nat) (s : State) : Run Unit :=
  (block4 x y s).bind fun _ s => (block4 (x + 4) y s).bind fun _ s =>
    (block4 x (y + 4) s).bind fun _ s => block4 (x + 4) (y + 4) s

/-- CCC.8 (42_roq_vq.md R198). -/
def ccc8 (s : State) : Run Unit := subdivide (blkX s) (blkY s) s

/-- BLOCK8(x, y) (42_roq_vq.md R203). -/
def block8 (x y : Nat) (s : State) : Run Unit :=
  (nextCode (atBlock x y s)).bind fun c s =>
    match vqCode? s.params c with
    | some .mot => mot8 s
    | some .fcc => fcc8 s
    | some .sld => sld8 s
    | some .ccc => ccc8 s
    | none => .refused (.codeUnassigned c)

/-! ### The frame -/

/-- The four subblocks of the macroblock at (XP, YP) (42_roq_vq.md R190, 30_encoding.md R103). -/
def macroblock (s : State) : Run Unit :=
  let x := s.roq.xp.toNat
  let y := s.roq.yp.toNat
  (block8 x y s).bind fun _ s => (block8 (x + 8) y s).bind fun _ s =>
    (block8 x (y + 8) s).bind fun _ s => block8 (x + 8) (y + 8) s

/-- XP and YP moved to the next macroblock (42_roq_vq.md R190). -/
def nextMacroblock (s : State) : State :=
  let xp := s.roq.xp + 16
  if s.roq.w.toNat ≤ xp.toNat then { s with roq := { s.roq with xp := 0, yp := s.roq.yp + 16 } }
  else { s with roq := { s.roq with xp := xp } }

/-- The macroblock loop: while YP < ROQ_H (42_roq_vq.md R190, 30_encoding.md R104). -/
def vqLoop : (fuel : Nat) → State → Run Unit
  | 0, s => if s.roq.yp.toNat < s.roq.h.toNat then .broken .loopBound else .done () s
  | fuel + 1, s =>
    if s.roq.yp.toNat < s.roq.h.toNat then
      (macroblock s).bind fun _ s => vqLoop fuel (nextMacroblock s)
    else .done () s

/-- The working registers at the start of a VQ chunk (42_roq_vq.md R190). -/
def vqStart (arg : Half) (s : State) : State :=
  { s with roq := { s.roq with
      meanX := argMeanX arg, meanY := argMeanY arg, flg := 0, flgPos := 0, xp := 0, yp := 0 } }

/-- FRAME_END (42_roq_vq.md R205). -/
def frameEnd (s : State) : State :=
  let seeded :=
    if s.roq.vqFrame = 0 then s.roq.setBuf (!s.roq.wsel) (s.roq.buf s.roq.wsel) else s.roq
  { s with
    roq := { seeded with dispSel := s.roq.wsel, wsel := !s.roq.wsel, vqFrame := s.roq.vqFrame + 1 }
    ports := { s.ports with dispValid := true } }

/-- The operation of a VQ chunk (42_roq_vq.md R190, R206). -/
def vqOp (arg : Half) (s : State) : Run Unit :=
  if s.roq.infoSeen = false then .raised .vqNoInfo s
  else
    (vqLoop (macroblocks s.roq) (vqStart arg s)).bind fun _ s => .done () (frameEnd s)

/-- ROQ.VQ (42_roq_vq.md R190). -/
def execRoqVq (size : Word) (arg : Half) (s : State) : Host.Outcome State Fault Refusal :=
  (chunkStep size (vqOp arg) s).outcome

/-! ### The codes as operations of their own -/

/-- MOT.8 at the block in hand. -/
def execMot8 (s : State) : Host.Outcome State Fault Refusal := (mot8 s).outcome

/-- FCC.8 at the block in hand. -/
def execFcc8 (s : State) : Host.Outcome State Fault Refusal := (fcc8 s).outcome

/-- SLD.8 at the block in hand. -/
def execSld8 (s : State) : Host.Outcome State Fault Refusal := (sld8 s).outcome

/-- MOT.4 at the block in hand. -/
def execMot4 (s : State) : Host.Outcome State Fault Refusal := (mot4 s).outcome

/-- FCC.4 at the block in hand. -/
def execFcc4 (s : State) : Host.Outcome State Fault Refusal := (fcc4 s).outcome

/-- SLD.4 at the block in hand. -/
def execSld4 (s : State) : Host.Outcome State Fault Refusal := (sld4 s).outcome

/-- CCC.8 at the block in hand. -/
def execCcc8 (s : State) : Host.Outcome State Fault Refusal := (ccc8 s).outcome

/-- CCC.4 at the block in hand. -/
def execCcc4 (s : State) : Host.Outcome State Fault Refusal := (ccc4 s).outcome

end Sys2Proof.Machine
end

