-- ==== Sys2Proof/Machine/Dispatch.lean ====
section
/-! DEFINITION. What each unit does: one arm per constructor, one call of a meaning. -/

namespace Sys2Proof.Machine

def exec (i : Instr) (s : State) : Host.Outcome State Fault Refusal :=
  match i with
  | .cinHeader w h rate width channels => Sys2Proof.Machine.execCinHeader w h rate width channels s
  | .cinFrame => Sys2Proof.Machine.execCinFrame s
  | .cinPalframe => Sys2Proof.Machine.execCinPalframe s
  | .cinEnd => Sys2Proof.Machine.execCinEnd s
  | .cinRsvd cmd => Sys2Proof.Machine.execCinRsvd cmd s
  | .roqHeader unused fps => Sys2Proof.Machine.execRoqHeader unused fps s
  | .roqInfo size arg => Sys2Proof.Machine.execRoqInfo size arg s
  | .roqCodebook size arg => Sys2Proof.Machine.execRoqCodebook size arg s
  | .roqVq size arg => Sys2Proof.Machine.execRoqVq size arg s
  | .roqSndMono size arg => Sys2Proof.Machine.execRoqSndMono size arg s
  | .roqSndStereo size arg => Sys2Proof.Machine.execRoqSndStereo size arg s
  | .roqIdent size arg => Sys2Proof.Machine.execRoqIdent size arg s
  | .roqOther id size arg => Sys2Proof.Machine.execRoqOther id size arg s
  | .mot8 => Sys2Proof.Machine.execMot8 s
  | .fcc8 => Sys2Proof.Machine.execFcc8 s
  | .sld8 => Sys2Proof.Machine.execSld8 s
  | .mot4 => Sys2Proof.Machine.execMot4 s
  | .fcc4 => Sys2Proof.Machine.execFcc4 s
  | .sld4 => Sys2Proof.Machine.execSld4 s
  | .ccc8 => Sys2Proof.Machine.execCcc8 s
  | .ccc4 => Sys2Proof.Machine.execCcc4 s

end Sys2Proof.Machine
end

