-- ==== Sys2Proof/Machine/Transactions.lean ====
section
/-! DEFINITION. Fetching a unit, the host's five transactions and three port reads, and placing a table word where the next
transaction reads it (45_host_ops.md, 40_huffman.md R130, 41_roq_chunks.md R161). -/

namespace Sys2Proof.Machine

/-! ### STEP -/

/-- The unit decoded at a place runs. The decoder rejects no record command and no chunk header of full length. -/
def runDecoded (d : Except DecodeError (Instr × List Byte)) (s : State) : Host.Outcome State Fault Refusal :=
  match d with
  | .ok (i, _) => exec i s
  | .error _ => .refused .undecodable

/-- The header length of the unit at OFFSET: a 4-byte command or an 8-byte chunk header (30_encoding.md R82, R91). -/
def unitBytes : Place → Nat
  | .cinStart => 20
  | .cinRecord => 4
  | .roqStart => 8
  | .roqChunk => 8
  | .code8 => 1
  | .code4 => 1

/-- CIN_STEP and ROQ_STEP: an anomaly when the unit's header does not fit in the stream, else the unit at OFFSET
(40_huffman.md R130, R138; 41_roq_chunks.md R161, R162). -/
def stepUnit (place : Place) (s : State) : Host.Outcome State Fault Refusal :=
  if shortOf s s.ses.offset.toNat (unitBytes place) then .next (anomaly s)
  else runDecoded (decode s.params place (memReadBytes s s.ses.offset.toNat (unitBytes place))) s

/-- STEP (45_host_ops.md R264). -/
def stepTransaction (s : State) : Host.Outcome State Fault Refusal :=
  if s.ses.faulted then .next { s with ses := { s.ses with result := .fault } }
  else
    match s.ses.fmt with
    | .none => .next (retEnd s)
    | .cin => stepUnit .cinRecord s
    | .roq => stepUnit .roqChunk s

/-! ### OPEN_CIN and OPEN_ROQ -/

/-- The host's stream and flags taken over (45_host_ops.md R262, R263). -/
def loadStream (bytes : List Byte) (flags : Flags) (s : State) : State :=
  { s with
    stream := Memory.load bytes
    ses := { s.ses with streamSize := BitVec.ofNat 32 bytes.length, flags := flags } }

/-- OPEN_CIN and OPEN_ROQ up to the header parse, which is the meaning of the header at stream address 0; a stream with no
header there fails to open (45_host_ops.md R262, R263; 40_huffman.md R120; 41_roq_chunks.md R160). -/
def openTransaction (place : Place) (bytes : List Byte) (flags : Flags) (s : State) :
    Host.Outcome State Fault Refusal :=
  let s := resetBlock s
  if 2 ^ 32 - 1 < bytes.length then .next (openFailed s)
  else
    let s := loadStream bytes flags s
    match decode s.params place bytes with
    | .ok (i, _) => exec i s
    | .error _ => .next (openFailed s)

/-! ### REWIND and the ports -/

/-- The cursor back at the first unit (45_host_ops.md R265). -/
def rewound (s : State) : State :=
  { s with
    ses := { s.ses with offset := s.ses.headerOffset, stepCount := 0, result := .continue_ }
    roq := { s.roq with vqFrame := 0 } }

/-- REWIND and what it returns (45_host_ops.md R265). -/
def rewindTransaction (s : State) : Reply × State :=
  if s.ses.faulted then (.fault, { s with ses := { s.ses with result := .fault } })
  else if s.ses.fmt = .none then (.ok, s)
  else (.ok, rewound s)

/-- The display image: its width, height and pixels (10_state.md R48). -/
def displayImage (s : State) : Option (Nat × Nat × List Pixel) :=
  match s.ses.fmt with
  | .none => none
  | .cin => some (s.cin.w.toInt.toNat, s.cin.h.toInt.toNat, s.cin.fb)
  | .roq => some (s.roq.w.toNat, s.roq.h.toNat, s.roq.buf s.roq.dispSel)

/-- An image of free pixels, for FRAME_OUT after a FAULT (60_exceptions.md R283, R299; log entry 6). -/
def freeImage (draw n : Nat) : List Pixel :=
  (List.range n).map fun k =>
    { r := Config.freeFrameByte draw (4 * k), g := Config.freeFrameByte draw (4 * k + 1),
      b := Config.freeFrameByte draw (4 * k + 2), a := Config.freeFrameByte draw (4 * k + 3) }

/-- READ_FRAME and what it returns (45_host_ops.md R266). -/
def readFrame (s : State) : Reply × State :=
  if s.ports.dispValid = false then (.noFrame, s)
  else
    match displayImage s with
    | none => (.noFrame, s)
    | some (w, h, pixels) =>
      if s.ses.faulted then (.frame w h (freeImage s.draws (w * h)), { s with draws := s.draws + 1 })
      else (.frame w h pixels, s)

/-- DRAIN_AUDIO and what it returns (45_host_ops.md R267). -/
def drainAudio (s : State) : Reply × State :=
  match s.ports.audioOut with
  | [] => (.empty, s)
  | r :: rest => (.audio r, { s with ports := { s.ports with audioOut := rest } })

/-! ### One request of the host -/

/-- The block's reply is given to the host. -/
def respond (r : Reply) (s : State) : State := { s with replies := s.replies ++ [r] }

/-- One transaction or port read, to completion, with its reply (45_host_ops.md R260; 20_memory.md R71, R72). -/
def perform (op : HostOp) (s : State) : Host.Outcome State Fault Refusal :=
  match op with
  | .reset => .next (respond .ok (resetBlock s))
  | .openCin bytes flags =>
    onNext (openTransaction .cinStart bytes flags s) fun t => respond t.ses.result.openReply t
  | .openRoq bytes flags =>
    onNext (openTransaction .roqStart bytes flags s) fun t => respond t.ses.result.openReply t
  | .step => onNext (stepTransaction s) fun t => respond t.ses.result.stepReply t
  | .rewind => .next (respond (rewindTransaction s).1 (rewindTransaction s).2)
  | .readFrame => .next (respond (readFrame s).1 (readFrame s).2)
  | .drainAudio => .next (respond (drainAudio s).1 (drainAudio s).2)
  | .readStatus => .next (respond (.status (statusOf s)) s)

/-- The next request of the host is performed; with none pending the block does nothing (70_reset_and_hazards.md R312, log
entry 9). -/
def serve (s : State) : Host.Outcome State Fault Refusal :=
  match s.requests with
  | [] => .next s
  | op :: rest => perform op { s with requests := rest }

/-! ### Placing a table word (log entry 8) -/

/-- An open session of a format whose cursor is at `offset`, over a stream with these bytes there and zeros after them,
and one STEP requested. -/
def sessionAt (fmt : Fmt) (offset size : Nat) (bytes : List Byte) (s : State) : State :=
  { s with
    stream := Memory.cellsFrom offset bytes
    ses := { s.ses with
      fmt := fmt, offset := BitVec.ofNat 32 offset, headerOffset := BitVec.ofNat 32 offset,
      streamSize := BitVec.ofNat 32 size, faulted := false, faultReason := .none }
    requests := [.step] }

/-- A 16×16 RoQ frame with both buffers zero, and a VQ chunk whose first code is `c` and whose every other payload bit is 0. -/
def codeSession (c : BitVec 2) (s : State) : State :=
  let px := List.replicate 256 Pixel.zero
  let s := { s with roq := { s.roq with
    w := 16, h := 16, infoSeen := true, buf0 := px, buf1 := px, wsel := false, dispSel := false, vqFrame := 0 } }
  sessionAt .roq 8 22 (encode s.params (.roqVq 6 0) ++ [0, c ++ (0 : BitVec 6), 0, 0, 0, 0]) s

/-- A table word stored where the next transaction reads a unit of its place. -/
def placeWord (nbits w : Nat) (s : State) : State :=
  match tablePlace nbits with
  | .cinStart =>
    { s with requests := [.openCin (tableBytes nbits w ++ List.replicate 65536 0) s.ses.flags] }
  | .roqStart => { s with requests := [.openRoq (tableBytes nbits w) s.ses.flags] }
  | .cinRecord => sessionAt .cin 65556 (65556 + 776) (tableBytes nbits w) s
  | .roqChunk => sessionAt .roq 8 (16 + 65536) (tableBytes nbits w) s
  | .code8 => codeSession (BitVec.ofNat 2 w) s
  | .code4 => codeSession (BitVec.ofNat 2 w) s

end Sys2Proof.Machine
end

