-- ==== Sys2Proof/Machine/Step.lean ====
section
/-! DEFINITION. One step of the machine: one transaction or port read of the host, atomic (00_scope.md R6,
70_reset_and_hazards.md R322). -/

namespace Sys2Proof.Machine

/-- One step: the host's next request, to completion. -/
def step (s : State) : Host.Outcome State Fault Refusal := serve s

/-- The state in which the next step runs the unit a table word stands for (log entries 8, 9). -/
def State.withFetchWord (s : State) (nbits w : Nat) : State := placeWord nbits w s

end Sys2Proof.Machine
end

