-- ==== Sys2Proof/Safety.lean ====
section
/-! DEFINITION. The terms claims are made in: the session states, a well-defined run, the shape of a built forest, the
invariant of the machine, and reference functions a unit's result is compared with (written over lists of bytes and symbols,
without the machine's registers). -/

namespace Sys2Proof.Machine

/-! ### Sessions and runs -/

/-- The session states of 45_host_ops.md R269. -/
inductive SessionState where
  | idle
  | playing
  | ended
  | faulted
deriving DecidableEq, Repr

/-- Which session state the block is in (45_host_ops.md R269). -/
def sessionState (s : State) : SessionState :=
  if s.ses.faulted then .faulted
  else if s.ses.fmt = .none then .idle
  else if s.ses.offset.toNat < s.ses.streamSize.toNat then .playing
  else .ended

/-- The run in hand: what the block returned since the latest RESET, its own answer or that of its OPEN first
(70_reset_and_hazards.md R326, log entry 18). -/
def runReplies (s : State) : List Reply := s.replies.drop s.runStart

/-- A run is well defined when no transaction in it returned FAULT (70_reset_and_hazards.md R326). -/
abbrev wellDefined (s : State) : Prop := Reply.fault ∉ runReplies s

/-- The observation of the run in hand; the model refuses a run with a FAULT and gives it none (70_reset_and_hazards.md R326,
60_exceptions.md R283). -/
def observation (s : State) : Option (List Reply) := if wellDefined s then some (runReplies s) else none

/-! ### The forest -/

/-- The row of context `c` has the shape a build leaves: the root is 255, a leaf, or an internal node, and both children of
every internal node up to the root have smaller indices (40_huffman.md R123, R125, R140). -/
def rowOk (c : CinUnit) (ctx : Byte) : Prop :=
  255 ≤ (at8 c.root ctx).toNat ∧ (at8 c.root ctx).toNat ≤ 510 ∧
    ∀ (k : Nat) (hk : k < 255), 256 + k ≤ (at8 c.root ctx).toNat →
      ((at8 c.pair ctx)[k]).1.toNat < 256 + k ∧ ((at8 c.pair ctx)[k]).2.toNat < 256 + k

/-- Every row has that shape. -/
def forestOk (c : CinUnit) : Prop := ∀ ctx : Byte, rowOk c ctx

/-! ### The invariant -/

/-- What holds in every state a run reaches, whatever the parameters of 00_scope.md R8. -/
structure Inv (s : State) : Prop where
  /-- The parameters are a legal record. -/
  params : s.params.wf
  /-- The stream space keeps its canonical form, inside STREAM_SIZE (20_memory.md R60). -/
  stream : s.stream.wf ∧ ∀ c ∈ s.stream, c.1 < s.ses.streamSize.toNat
  /-- OFFSET and HEADER_OFFSET never exceed STREAM_SIZE (10_state.md R22). -/
  cursor : s.ses.offset.toNat ≤ s.ses.streamSize.toNat ∧ s.ses.headerOffset.toNat ≤ s.ses.streamSize.toNat
  /-- FAULTED, FAULT_REASON and RESULT agree (60_exceptions.md R282, R283). -/
  faulted : (s.ses.faulted = true ↔ s.ses.faultReason ≠ .none) ∧ (s.ses.faulted = true → s.ses.result = .fault)
  /-- With no session there is no stream, and nothing is displayed (45_host_ops.md R261). -/
  idle : s.ses.fmt = .none → s.ses.streamSize = 0 ∧ s.ports.dispValid = false
  /-- An open CIN session has a frame, buffers of its size, a built forest and no negative sound field (40_huffman.md R120). -/
  cin : s.ses.fmt = .cin →
    forestOk s.cin ∧ 0 < s.cin.w.toInt ∧ 0 < s.cin.h.toInt ∧
      0 ≤ s.cin.sndRate.toInt ∧ 0 ≤ s.cin.sndWidth.toInt ∧ 0 ≤ s.cin.sndChannels.toInt ∧
      (s.cin.idxBuf.length : Int) = s.cin.area ∧ (s.cin.fb.length : Int) = s.cin.area
  /-- After the first INFO the frame is not empty and both buffers have its size (41_roq_chunks.md R166, R167). -/
  frame : s.roq.infoSeen = true →
    0 < s.roq.w.toNat ∧ 0 < s.roq.h.toNat ∧ s.roq.buf0.length = s.roq.area ∧ s.roq.buf1.length = s.roq.area
  /-- Before it there is no frame and no buffer (10_state.md R38, R42). -/
  noFrame : s.roq.infoSeen = false → s.roq.w = 0 ∧ s.roq.h = 0 ∧ s.roq.buf0 = [] ∧ s.roq.buf1 = []
  /-- A displayed RoQ image exists (10_state.md R48). -/
  shown : s.ports.dispValid = true → s.ses.fmt = .roq → s.roq.infoSeen = true
  /-- The counts of the latest codebook (10_state.md R41, 41_roq_chunks.md R170). -/
  counts : s.roq.n1Last.toNat ≤ 256 ∧ s.roq.n2Last.toNat ≤ 256
  /-- The ranges of FLG_POS, BITS_LEFT and NODE (10_state.md R37, R44). -/
  ranges : s.roq.flgPos.toNat ≤ 8 ∧ s.huf.bitsLeft.toNat ≤ 8
  /-- The run in hand began at one of the replies, and it is well defined exactly while FAULTED = 0 (60_exceptions.md R283, R294;
  70_reset_and_hazards.md R326). -/
  run : s.runStart ≤ s.replies.length ∧ (wellDefined s ↔ s.ses.faulted = false)

/-! ### Reference functions -/

/-- The bytes of a payload or of any span of the stream, `n` of them from `addr` on. -/
def streamSpan (s : State) (addr n : Nat) : List Byte := (List.range n).map fun k => s.stream.read (addr + k)

/-- A chunk of this size at OFFSET is neither empty nor ended by the checks of 41_roq_chunks.md R162, R163. -/
abbrev chunkFits (size : Word) (s : State) : Prop :=
  0 < size.toInt ∧ size.toInt ≤ s.params.roqMaxSize.toNat ∧
    (s.ses.offset.toNat : Int) + 8 + size.toInt ≤ s.ses.streamSize.toNat

/-- The payload bytes of the chunk of this size at OFFSET. -/
def chunkPayload (size : Word) (s : State) : List Byte := streamSpan s (s.ses.offset.toNat + 8) size.toInt.toNat

/-- `n` more bytes can be read from the payload window (20_memory.md R65). -/
abbrev payloadLeft (n : Nat) (s : State) : Prop :=
  s.roq.payPos.toNat + n ≤ s.roq.payEnd.toNat ∧ s.roq.payEnd.toNat ≤ s.ses.streamSize.toNat

/-- The payload byte `k` places after PAY_POS. -/
def payloadByte (s : State) (k : Nat) : Byte := s.stream.read (s.roq.payPos.toNat + k)

/-- One channel's samples: the accumulator after each step (44_roq_audio.md R247). -/
def dpcm (o : AudioOverflow) : Half → List Byte → List Half
  | _, [] => []
  | acc, b :: bs => stepAdd o acc (sqr b) :: dpcm o (stepAdd o acc (sqr b)) bs

/-- The bytes of one channel of a stereo payload: every other byte, the odd last one left out (30_encoding.md R105). -/
def leftBytes : List Byte → List Byte
  | l :: _ :: rest => l :: leftBytes rest
  | _ => []

/-- The right channel's bytes (30_encoding.md R105). -/
def rightBytes : List Byte → List Byte
  | _ :: r :: rest => r :: rightBytes rest
  | _ => []

/-- Two channels interleaved, left first (20_memory.md R76). -/
def interleave : List Half → List Half → List Half
  | l :: ls, r :: rs => l :: r :: interleave ls rs
  | _, _ => []

/-- Cell `k` of a CODEBOOK payload (30_encoding.md R95). -/
def payloadCell (bs : List Byte) (k : Nat) : Cell :=
  { y0 := bs.getD (6 * k) 0, y1 := bs.getD (6 * k + 1) 0, y2 := bs.getD (6 * k + 2) 0,
    y3 := bs.getD (6 * k + 3) 0, u := bs.getD (6 * k + 4) 0, v := bs.getD (6 * k + 5) 0 }

/-- Quad-cell `k` of a CODEBOOK payload that starts with `n1` cells (30_encoding.md R95). -/
def payloadQuad (bs : List Byte) (n1 k : Nat) : Quad :=
  { c0 := bs.getD (6 * n1 + 4 * k) 0, c1 := bs.getD (6 * n1 + 4 * k + 1) 0,
    c2 := bs.getD (6 * n1 + 4 * k + 2) 0, c3 := bs.getD (6 * n1 + 4 * k + 3) 0 }

/-- The sample of a cell at offset (i, j) of its 2×2 block (30_encoding.md R96). -/
def cellPixel (t : YuvTables) (c : Cell) (i j : Nat) : Pixel :=
  yuvPixel t (if j = 0 then (if i = 0 then c.y0 else c.y1) else (if i = 0 then c.y2 else c.y3)) c.u c.v

/-- The cell index of a quad-cell at quadrant (i, j) (30_encoding.md R97). -/
def quadCell (q : Quad) (i j : Nat) : Byte :=
  if j = 0 then (if i = 0 then q.c0 else q.c1) else (if i = 0 then q.c2 else q.c3)

/-- A pixel lies in the frame. -/
abbrev inFrame (u : RoqUnit) (x y : Nat) : Prop := x < u.w.toNat ∧ y < u.h.toNat

/-- A pixel lies in the n×n block at (px, py). -/
abbrev inBlock (px py n x y : Nat) : Prop := px ≤ x ∧ x < px + n ∧ py ≤ y ∧ y < py + n

/-- Both frame buffers have the frame's size, as they have from the first INFO on (41_roq_chunks.md R166). -/
abbrev buffersHold (s : State) : Prop := s.roq.buf0.length = s.roq.area ∧ s.roq.buf1.length = s.roq.area

/-- The pixel at (x, y) of buffer `b` (20_memory.md R67). -/
def pixelAt (s : State) (b : Bool) (x y : Nat) : Option Pixel := (s.roq.buf b)[y * s.roq.w.toNat + x]?

/-- The source of pixel (x, y) under a displacement lies in the frame (42_roq_vq.md R199). -/
abbrev sourceInFrame (u : RoqUnit) (mx my : Int) (x y : Nat) : Prop :=
  0 ≤ (x : Int) + mx ∧ (x : Int) + mx < u.w.toNat ∧ 0 ≤ (y : Int) + my ∧ (y : Int) + my < u.h.toNat

/-- CELL(i) does not fault (41_roq_chunks.md R169). -/
abbrev cellLoaded (i : Byte) (s : State) : Prop := s.params.cbStale = .fault → i.toNat < s.roq.n1Last.toNat

/-- QUAD(q) does not fault, nor does CELL on any of its four indices (41_roq_chunks.md R169). -/
abbrev quadLoaded (q : Byte) (s : State) : Prop :=
  (s.params.cbStale = .fault → q.toNat < s.roq.n2Last.toNat) ∧
    cellLoaded (at8 s.roq.quads q).c0 s ∧ cellLoaded (at8 s.roq.quads q).c1 s ∧
    cellLoaded (at8 s.roq.quads q).c2 s ∧ cellLoaded (at8 s.roq.quads q).c3 s

/-- The pixels of the first `k` quadrants of a quad-cell drawn at (px, py), each quadrant an h×h square and each sample z×z
(30_encoding.md R97; 42_roq_vq.md R201, R202). -/
def quadPixels (h z px py k : Nat) (s : State) (q : Quad) (x y : Nat) : Option Pixel :=
  if inBlock px py (2 * h) x y ∧ 2 * ((y - py) / h) + (x - px) / h < k then
    some (cellPixel s.params.yuv (at8 s.roq.cells (quadCell q ((x - px) / h) ((y - py) / h)))
      ((x - px) % h / z) ((y - py) % h / z))
  else none

/-- The RoQ unit after a code that used `used` payload bytes and wrote these buffers, nothing else. -/
def drawnUnit (s : State) (used : Nat) (b0 b1 : List Pixel) : RoqUnit :=
  { s.roq with buf0 := b0, buf1 := b1, payPos := s.roq.payPos + BitVec.ofNat 32 used }

/-- `t` is `s` after a code that used `used` payload bytes, left the read buffer, and left at (x, y) of the write buffer
the pixel `px x y` (70_reset_and_hazards.md R318). -/
structure Drawn (used : Nat) (px : Nat → Nat → Option Pixel) (s t : State) : Prop where
  frame : t = { s with roq := drawnUnit s used t.roq.buf0 t.roq.buf1 }
  read : t.roq.buf (!s.roq.wsel) = s.roq.buf (!s.roq.wsel)
  hold : buffersHold t
  written : ∀ x y, inFrame s.roq x y → pixelAt t s.roq.wsel x y = px x y

/-- `t` is `s` after the codes of the 8×8 block in hand: no pixel outside it changed, and nothing but the write buffer, the code
reader, the block in hand and the cursor (70_reset_and_hazards.md R318). -/
structure BlockCoded (s t : State) : Prop where
  frame : t = { s with roq := { s.roq with
    buf0 := t.roq.buf0, buf1 := t.roq.buf1, flg := t.roq.flg, flgPos := t.roq.flgPos,
    blockX := t.roq.blockX, blockY := t.roq.blockY, payPos := t.roq.payPos } }
  read : t.roq.buf (!s.roq.wsel) = s.roq.buf (!s.roq.wsel)
  hold : buffersHold t
  outside : ∀ x y, inFrame s.roq x y → ¬ inBlock (blkX s) (blkY s) 8 x y →
    pixelAt t s.roq.wsel x y = pixelAt s s.roq.wsel x y

/-- The session after a STEP that decoded a chunk of this size at OFFSET (41_roq_chunks.md R161, 45_host_ops.md R264). -/
def afterChunk (size : Word) (s : State) : Session :=
  { s.ses with offset := s.ses.offset + 8 + size, stepCount := s.ses.stepCount + 1, result := .continue_ }

/-- The session after an anomaly, or after an end marker (60_exceptions.md R284). -/
def afterEnd (s : State) : Session := { s.ses with offset := s.ses.streamSize, result := .endOfStream }

/-- The session after a fault, the first one if none is recorded yet (60_exceptions.md R283). -/
def afterFault (r : FaultReason) (s : State) : Session :=
  { s.ses with
    faulted := true, faultReason := if s.ses.faultReason = .none then r else s.ses.faultReason, result := .fault }

/-- The RoQ unit with the payload window of the chunk of this size at OFFSET, `used` bytes of it read (20_memory.md R65). -/
def inWindow (size : Word) (used : Nat) (s : State) : RoqUnit :=
  { s.roq with
    payBase := s.ses.offset + 8, payEnd := s.ses.offset + 8 + size,
    payPos := s.ses.offset + 8 + BitVec.ofNat 32 used }

/-- The origins of a frame's macroblocks in raster order (30_encoding.md R104). -/
def macroblockOrigins (u : RoqUnit) : List (Nat × Nat) :=
  (List.range ((u.h.toNat + 15) / 16)).flatMap fun j =>
    (List.range ((u.w.toNat + 15) / 16)).map fun i => (16 * i, 16 * j)

/-- Macroblocks decoded one after another at listed origins. -/
def runMacroblocks : List (Nat × Nat) → State → Run Unit
  | [], s => .done () s
  | o :: rest, s =>
    (macroblock { s with roq := { s.roq with xp := BitVec.ofNat 32 o.1, yp := BitVec.ofNat 32 o.2 } }).bind
      fun _ s => runMacroblocks rest s

/-- No 2-bit field of a byte is VQ_FCC. -/
abbrev noMotionCode (p : Params) (b : Byte) : Prop :=
  b.extractLsb' 0 2 ≠ p.vqFcc ∧ b.extractLsb' 2 2 ≠ p.vqFcc ∧ b.extractLsb' 4 2 ≠ p.vqFcc ∧ b.extractLsb' 6 2 ≠ p.vqFcc

/-! ### Reading the codes of a frame, without drawing -/

/-- The code reader and the payload bytes after it: `left` codes of the flag word are not taken yet (42_roq_vq.md R191). -/
structure CodeReader where
  word : Half
  left : Nat
  rest : List Byte
deriving DecidableEq, Repr

/-- The next code, most significant pair first; an empty reader takes two payload bytes, low byte first (42_roq_vq.md R191,
30_encoding.md R100). -/
def CodeReader.take : CodeReader → Option (BitVec 2 × CodeReader)
  | ⟨word, left + 1, rest⟩ => some (word.extractLsb' (2 * left) 2, ⟨word, left, rest⟩)
  | ⟨_, 0, lo :: hi :: rest⟩ => some (hi.extractLsb' 6 2, ⟨hi ++ lo, 7, rest⟩)
  | ⟨_, 0, _⟩ => none

/-- Every source pixel of an n×n motion copy to (x, y) lies in the frame, for every destination pixel that does (42_roq_vq.md
R199). -/
abbrev copyStays (u : RoqUnit) (meanX meanY : Byte) (n x y : Nat) (b : Byte) : Prop :=
  ∀ i, i < n → ∀ j, j < n → inFrame u (x + i) (y + j) →
    sourceInFrame u (motionX meanX b) (motionY meanY b) (x + i) (y + j)

/-- What is left after the code of the 4×4 block at (x, y) and its operands; none where the payload ends, a motion source lies
outside the frame or an index is stale (42_roq_vq.md R193, R195, R197, R200, R203). -/
def readBlock4 (s : State) (meanX meanY : Byte) (x y : Nat) (r : CodeReader) : Option CodeReader :=
  r.take.bind fun cr =>
    match vqCode? s.params cr.1, cr.2.rest with
    | some .mot, _ => some cr.2
    | some .fcc, b :: rest => if copyStays s.roq meanX meanY 4 x y b then some { cr.2 with rest := rest } else none
    | some .sld, q :: rest => if quadLoaded q s then some { cr.2 with rest := rest } else none
    | some .ccc, c0 :: c1 :: c2 :: c3 :: rest =>
      if cellLoaded c0 s ∧ cellLoaded c1 s ∧ cellLoaded c2 s ∧ cellLoaded c3 s then some { cr.2 with rest := rest } else none
    | _, _ => none

/-- What is left after the four 4×4 blocks of the 8×8 block at (x, y) (42_roq_vq.md R198). -/
def readQuarters (s : State) (meanX meanY : Byte) (x y : Nat) (r : CodeReader) : Option CodeReader :=
  (readBlock4 s meanX meanY x y r).bind fun r => (readBlock4 s meanX meanY (x + 4) y r).bind fun r =>
    (readBlock4 s meanX meanY x (y + 4) r).bind fun r => readBlock4 s meanX meanY (x + 4) (y + 4) r

/-- What is left after the code of the 8×8 block at (x, y) and all that follows from it (42_roq_vq.md R192, R194, R196, R198,
R203). -/
def readBlock8 (s : State) (meanX meanY : Byte) (x y : Nat) (r : CodeReader) : Option CodeReader :=
  r.take.bind fun cr =>
    match vqCode? s.params cr.1, cr.2.rest with
    | some .mot, _ => some cr.2
    | some .fcc, b :: rest => if copyStays s.roq meanX meanY 8 x y b then some { cr.2 with rest := rest } else none
    | some .sld, q :: rest => if quadLoaded q s then some { cr.2 with rest := rest } else none
    | some .ccc, _ => readQuarters s meanX meanY x y cr.2
    | _, _ => none

/-- What is left after the macroblocks at these origins (42_roq_vq.md R190, 30_encoding.md R103, R104). -/
def readMacroblocks (s : State) (meanX meanY : Byte) : List (Nat × Nat) → CodeReader → Option CodeReader
  | [], r => some r
  | o :: rest, r =>
    (readBlock8 s meanX meanY o.1 o.2 r).bind fun r => (readBlock8 s meanX meanY (o.1 + 8) o.2 r).bind fun r =>
      (readBlock8 s meanX meanY o.1 (o.2 + 8) r).bind fun r =>
        (readBlock8 s meanX meanY (o.1 + 8) (o.2 + 8) r).bind fun r => readMacroblocks s meanX meanY rest r

/-- The code reader and the payload bytes of a state (10_state.md R44, 20_memory.md R65). -/
def codeReader (s : State) : CodeReader :=
  { word := s.roq.flg, left := s.roq.flgPos.toNat,
    rest := streamSpan s s.roq.payPos.toNat (s.roq.payEnd.toNat - s.roq.payPos.toNat) }

/-- `t` is `s` after a VQ chunk that decoded its frame: the buffers exchanged, the frame just written displayed, the history
seeded by frame 0, and nothing else but OFFSET, the count of STEPs, the pixels of the write buffer and the working registers of
the VQ unit (42_roq_vq.md R190, R205). -/
structure FrameShown (size : Word) (s t : State) : Prop where
  ses : t.ses = afterChunk size s
  ports : t.ports = { s.ports with dispValid := true }
  display : t.roq.dispSel = s.roq.wsel
  exchange : t.roq.wsel = !s.roq.wsel
  count : t.roq.vqFrame = s.roq.vqFrame + 1
  history : t.roq.buf (!s.roq.wsel) =
    if s.roq.vqFrame = 0 then t.roq.buf s.roq.wsel else s.roq.buf (!s.roq.wsel)
  hold : buffersHold t
  unit : t.roq = { s.roq with
    buf0 := t.roq.buf0, buf1 := t.roq.buf1, wsel := t.roq.wsel, dispSel := t.roq.dispSel, vqFrame := t.roq.vqFrame,
    flg := t.roq.flg, flgPos := t.roq.flgPos, xp := t.roq.xp, yp := t.roq.yp, meanX := t.roq.meanX,
    meanY := t.roq.meanY, blockX := t.roq.blockX, blockY := t.roq.blockY, payBase := t.roq.payBase,
    payEnd := t.roq.payEnd, payPos := t.roq.payPos }
  rest : t = { s with ses := t.ses, ports := t.ports, roq := t.roq }

/-! ### The forest build, seen from outside -/

/-- Node `i` may be picked by SMALLEST(n): below `n`, not used, its count not 0 (40_huffman.md R122). -/
abbrev forestCandidate (count : Vector Word 511) (used : Vector Bool 511) (n i : Nat) : Prop :=
  ∃ h : i < 511, i < n ∧ used[i] = false ∧ count[i] ≠ 0

/-- `a` is the first of the nodes that qualify with the least count, as the ascending scan with a strict `<` picks it
(40_huffman.md R122). -/
def firstLeast (count : Nat → Nat) (qualifies : Nat → Prop) (a : Nat) : Prop :=
  qualifies a ∧ ∀ i, qualifies i → count a ≤ count i ∧ (i < a → count a < count i)

/-- Node `i` is a child of an inner node of context `r` below node `n`, so a merge before node `n` has used it (40_huffman.md
R122). -/
def mergedBelow (c : CinUnit) (r : Byte) (n i : Nat) : Prop :=
  ∃ k kids, 256 + k < n ∧ (at8 c.pair r)[k]? = some kids ∧ (kids.1.toNat = i ∨ kids.2.toNat = i)

/-- Node `i` may become a child of node `n`: it is below `n`, its count is not 0, and no earlier merge has used it
(40_huffman.md R122). -/
def mergeable (c : CinUnit) (r : Byte) (count : Nat → Nat) (n i : Nat) : Prop :=
  i < n ∧ count i ≠ 0 ∧ ¬ mergedBelow c r n i

/-- Node `256 + k` of context `r` is what one merge makes: child 0 is the first pick, child 1 the second pick among the nodes left,
and its count is the sum of theirs (40_huffman.md R122, R124). -/
structure MergedAs (c : CinUnit) (r : Byte) (count : Nat → Nat) (k : Nat) (kids : NodeIx × NodeIx) : Prop where
  first : firstLeast count (mergeable c r count (256 + k)) kids.1.toNat
  second : firstLeast count (fun i => mergeable c r count (256 + k) i ∧ i ≠ kids.1.toNat) kids.2.toNat
  sum : count (256 + k) = count kids.1.toNat + count kids.2.toNat

/-- The tree of context `r` is the one R122 builds from the counts of its row in the stream: every inner node up to the root is
what its merge makes (40_huffman.md R122, R124; 30_encoding.md R81). -/
def treeOfCounts (s : State) (c : CinUnit) (r : Byte) : Prop :=
  ∃ count : Nat → Nat,
    (∀ j, j < 256 → count j = (s.stream.read (20 + 256 * r.toNat + j)).toNat) ∧
    ∀ k kids, 256 + k ≤ (at8 c.root r).toNat → (at8 c.pair r)[k]? = some kids → MergedAs c r count k kids

/-- The reset state as a transaction of `s` leaves it: the parameters stay, and so do the model's own fields, but for the mark of where
the run in hand begins, which is here (10_state.md R52, 45_host_ops.md R261; log entry 18). -/
def afterReset (s : State) : State :=
  { State.reset with
    params := s.params, requests := s.requests, replies := s.replies, runStart := s.replies.length, draws := s.draws }

/-- The block after OPEN took over these bytes and flags, before the header parse (45_host_ops.md R262, R263). -/
def openedWith (bytes : List Byte) (flags : Flags) (s : State) : State :=
  { afterReset s with
    stream := Memory.load bytes
    ses := { State.reset.ses with streamSize := BitVec.ofNat 32 bytes.length, flags := flags } }

/-- The reset state with RESULT = OPEN_FAIL (60_exceptions.md R287). -/
def refusedOpen (s : State) : State := { afterReset s with ses := { State.reset.ses with result := .openFail } }

/-- The host's next request is gone, and its reply is given. -/
def answered (rest : List HostOp) (r : Reply) (s : State) : State :=
  { s with requests := rest, replies := s.replies ++ [r] }

/-- The little-endian 32-bit field at offset `k` of a list of bytes (20_memory.md R63). -/
def fieldAt (bytes : List Byte) (k : Nat) : Word :=
  le32 (bytes.getD k 0) (bytes.getD (k + 1) 0) (bytes.getD (k + 2) 0) (bytes.getD (k + 3) 0)

/-- A request that closes the session, and so clears a fault. -/
def HostOp.closes : HostOp → Bool
  | .reset => true
  | .openCin _ _ => true
  | .openRoq _ _ => true
  | .step => false
  | .rewind => false
  | .readFrame => false
  | .drainAudio => false
  | .readStatus => false

/-! ### Huffman coding, as an encoder sees it -/

/-- `bits` lead from node `n` of context `ctx` down to the leaf `sym` (40_huffman.md R124, R125). -/
inductive HufPath (c : CinUnit) (ctx : Byte) : NodeIx → List Bool → Byte → Prop where
  | leaf (n : NodeIx) (h : n.toNat < 256) : HufPath c ctx n [] (n.setWidth 8)
  | node (n : NodeIx) (h : 256 ≤ n.toNat) (hk : n.toNat - 256 < 255) (b : Bool) (bits : List Bool) (sym : Byte)
      (below : HufPath c ctx
        (if b then ((at8 c.pair ctx)[n.toNat - 256]).2 else ((at8 c.pair ctx)[n.toNat - 256]).1) bits sym) :
      HufPath c ctx n (b :: bits) sym

/-- `bits` code the symbols, each in the context of the one before it; every context entered has a non-degenerate row
(40_huffman.md R139). -/
inductive HufCodes (c : CinUnit) : Byte → List Byte → List Bool → Prop where
  | nil (ctx : Byte) : HufCodes c ctx [] []
  | cons (ctx sym : Byte) (syms : List Byte) (bits rest : List Bool) (root : 256 ≤ (at8 c.root ctx).toNat)
      (path : HufPath c ctx (at8 c.root ctx) bits sym) (codes : HufCodes c sym syms rest) :
      HufCodes c ctx (sym :: syms) (bits ++ rest)

/-- The bits of bytes, each byte LSB first (30_encoding.md R86). -/
def bitsOf (bs : List Byte) : List Bool := bs.flatMap fun b => (List.range 8).map b.getLsbD

/-- The node below a node on a bit; 0 below a leaf, as under HUF_LEAF_STEP = zero (40_huffman.md R124, R128). -/
def childOf (c : CinUnit) (ctx : Byte) (n : NodeIx) (b : Bool) : NodeIx :=
  if n.toNat < 256 then 0
  else
    match (at8 c.pair ctx)[n.toNat - 256]? with
    | some kids => if b then kids.2 else kids.1
    | none => 0

/-- What `remain` pixels decode to from a node on, and how many bits that takes (40_huffman.md R126). -/
def hufWalk (c : CinUnit) : List Bool → (remain : Nat) → (ctx : Byte) → (node : NodeIx) → List Byte × Nat
  | [], remain, _, node => (if remain ≠ 0 ∧ node.toNat < 256 then [node.setWidth 8] else [], 0)
  | b :: bits, remain, ctx, node =>
    if remain = 0 then ([], 0)
    else if node.toNat < 256 then
      let sym : Byte := node.setWidth 8
      if remain = 1 then ([sym], 0)
      else
        let below := hufWalk c bits (remain - 1) sym (childOf c sym (at8 c.root sym) b)
        (sym :: below.1, below.2 + 1)
    else
      let below := hufWalk c bits remain ctx (childOf c ctx node b)
      (below.1, below.2 + 1)

/-- The symbols emitted before the first bit that is taken from a leaf, when there is one: after each symbol but the last, and
from every inner node, a bit is taken, and the tree of a symbol may be a leaf (40_huffman.md R126, R128). No walk goes on from
node 511, which does not exist (10_state.md R33). -/
def leafStepAt (c : CinUnit) : List Bool → (remain : Nat) → (ctx : Byte) → (node : NodeIx) → Option (List Byte)
  | [], _, _, _ => none
  | b :: bits, remain, ctx, node =>
    if remain = 0 ∨ node = 511 then none
    else if node.toNat < 256 then
      let sym : Byte := node.setWidth 8
      let root := at8 c.root sym
      if remain = 1 ∨ root = 511 then none
      else if root.toNat < 256 then some [sym]
      else (leafStepAt c bits (remain - 1) sym (childOf c sym root b)).map (sym :: ·)
    else leafStepAt c bits remain ctx (childOf c ctx node b)

/-! ### A CIN frame record -/

/-- The frame size at `r` is legal and the payload after it lies in the stream (40_huffman.md R131). -/
abbrev frameFits (r : Nat) (s : State) : Prop :=
  r + 4 ≤ s.ses.streamSize.toNat ∧ 4 ≤ (memRead32 s r).toInt ∧ (memRead32 s r).toInt ≤ 131072 ∧
    (r : Int) + 4 + (memRead32 s r).toInt ≤ s.ses.streamSize.toNat

/-- The pixel count of the payload of the frame-size field at `r` (30_encoding.md R85). -/
def frameCount (r : Nat) (s : State) : Nat := (memRead32 s (r + 4)).toNat

/-- The bits of that payload (30_encoding.md R85, R86). -/
def frameBits (r : Nat) (s : State) : List Bool := bitsOf (streamSpan s (r + 8) ((memRead32 s r).toInt.toNat - 4))

/-- What that payload decodes to, and how many bits it takes. -/
def frameWalk (r : Nat) (s : State) : List Byte × Nat :=
  hufWalk s.cin (frameBits r s) (frameCount r s) 0 (at8 s.cin.root 0)

/-- The symbols that payload emits before a bit is taken from a leaf, when one is (40_huffman.md R128). -/
def frameLeafStep (r : Nat) (s : State) : Option (List Byte) :=
  leafStepAt s.cin (frameBits r s) (frameCount r s) 0 (at8 s.cin.root 0)

/-- Symbols stored from entry 0 on, those past the end dropped, the entries after them kept (40_huffman.md R127). -/
def storeSymbols (old : List Byte) (syms : List Byte) : List Byte := syms.take old.length ++ old.drop syms.length

/-- DIAG after `count` pixels were asked for, `emitted` came out and `used` bits went in, of a payload of `fsz` bytes
(40_huffman.md R129). -/
def diagOf (fsz area : Int) (count emitted used : Nat) : Diag :=
  let slack : Int := fsz - 4 - ((used + 7) / 8 : Nat)
  { slack := BitVec.ofInt 32 slack
    mismatch := decide (1 < slack) || decide (emitted ≠ count) || decide (area < emitted) }

/-- The audio after the payload is in the stream (40_huffman.md R137). -/
abbrev audioFits (r : Nat) (s : State) : Prop :=
  (r : Int) + 4 + (memRead32 s r).toInt + audioBytes s.cin ≤ s.ses.streamSize.toNat

/-- `t` is `s` after the frame body whose frame-size field is at `r` gave these symbols for this many bits: the index
buffer, the expanded frame, DIAG, the audio record, OFFSET and the count of STEPs, and nothing else but the Huffman working
registers, which are unspecified, and the model's own counter of draws: both are left free (40_huffman.md R126, R129, R131, R136,
R137; 10_state.md R37; log entry 5). -/
structure FrameDecoded (r : Nat) (syms : List Byte) (used : Nat) (s t : State) : Prop where
  cin : t.cin = { s.cin with
    idxBuf := storeSymbols s.cin.idxBuf syms
    fb := (storeSymbols s.cin.idxBuf syms).map fun i =>
      { r := (at8 s.cin.palette i).r, g := (at8 s.cin.palette i).g, b := (at8 s.cin.palette i).b, a := 255 } }
  ses : t.ses = { s.ses with
    offset := if audioFits r s then BitVec.ofInt 32 ((r : Int) + 4 + (memRead32 s r).toInt + audioBytes s.cin)
      else s.ses.streamSize
    stepCount := s.ses.stepCount + 1
    result := .continue_
    diag := diagOf (memRead32 s r).toInt s.cin.area (frameCount r s) syms.length used }
  ports : t.ports =
    { audioOut := s.ports.audioOut ++
        (if audioFits r s ∧ s.ses.flags.silent = false ∧ 0 < audioBytes s.cin then
          [{ rate := s.cin.sndRate.toInt, width := s.cin.sndWidth.toInt, channels := s.cin.sndChannels.toInt,
             data := .cinRaw (streamSpan s (r + 4 + (memRead32 s r).toInt.toNat) (audioBytes s.cin).toNat) }]
         else [])
      dispValid := true }
  rest : t = { s with cin := t.cin, ses := t.ses, ports := t.ports, huf := t.huf, draws := t.draws }

/-- The palette of the 768 bytes at `r` (30_encoding.md R84). -/
def withPalette (r : Nat) (s : State) : State :=
  { s with cin.palette := Vector.ofFn fun (i : Fin 256) =>
      { r := s.stream.read (r + 3 * i.val), g := s.stream.read (r + 3 * i.val + 1), b := s.stream.read (r + 3 * i.val + 2) } }

/-- No bit step from a leaf faults in the payload whose frame-size field is at `r`: HUF_LEAF_STEP = zero, or none is made
(40_huffman.md R128). -/
abbrev leafStepsRun (r : Nat) (s : State) : Prop := s.params.hufLeafStep = .zero ∨ frameLeafStep r s = none

/-- `t` is `s` after a frame body that emitted these symbols and then took a bit from a leaf: the fault is recorded, the symbols are in
the index buffer, and nothing else changed but the Huffman working registers and the model's own counter of draws, which are left
free (40_huffman.md R128, 60_exceptions.md R283; log entries 5 and 11). -/
structure LeafStepTaken (syms : List Byte) (s t : State) : Prop where
  ses : t.ses = afterFault .hufLeafStep s
  cin : t.cin = { s.cin with idxBuf := storeSymbols s.cin.idxBuf syms }
  rest : t = { s with ses := t.ses, cin := t.cin, huf := t.huf, draws := t.draws }

/-- The index buffer has the frame's size, as it has in a CIN session (40_huffman.md R120). -/
abbrev indexBufferHolds (s : State) : Prop := (s.cin.idxBuf.length : Int) = s.cin.area

/-- How many symbols of the count table's row `r` have a count that is not 0 (30_encoding.md R81). -/
def symbolsUsed (s : State) (r : Byte) : Nat := (streamSpan s (20 + 256 * r.toNat) 256).countP (· ≠ 0)

end Sys2Proof.Machine
end

