-- ==== Sys2Proof/Certificates/Slice0/Obligations.lean ====
section
/-! DEFINITION. The statements for the provers. -/

open Sys2Proof Sys2Proof.Machine

/-! ### Encoding and fetching -/

/-- The decoder reads every well-formed unit back from its own encoding, at every value of its fields, whatever follows
(30_encoding.md R80, R82, R90 to R92, R101). -/
def Obligations.DecodeAfterEncode : Prop :=
  ∀ (p : Params) (i : Instr) (rest : List Byte), p.wf → i.wf p = true →
    decode p i.place (encode p i ++ rest) = .ok (i, rest)

/-- What the decoder reads is a unit of the place asked for and well formed; a header, a command or a chunk header is encoded by the
bytes it was read from, and of a VQ code's byte the low two bits are encoded back, since the other six are not read (that reading is
the model's, log entry 8); and the decoder reads a unit from any bytes that hold a whole CIN header, CIN command or chunk header. -/
def Obligations.DecodedUnitsAreWellFormed : Prop :=
  (∀ (p : Params) (place : Place) (bs : List Byte) (i : Instr) (rest : List Byte),
    decode p place bs = .ok (i, rest) →
      i.place = place ∧ i.wf p = true ∧
      (place ≠ .code8 → place ≠ .code4 → bs = encode p i ++ rest) ∧
      (place = .code8 ∨ place = .code4 →
        ∃ b, bs = b :: rest ∧ encode p i = [(b.extractLsb' 0 2).zeroExtend 8])) ∧
  (∀ (p : Params) (place : Place) (bs : List Byte),
    place = .cinStart ∨ place = .cinRecord ∨ place = .roqChunk → unitBytes place ≤ bs.length →
      ∃ i rest, decode p place bs = .ok (i, rest))

/-- A few words written out from the spec's encodings decode to the units they stand for. -/
def Obligations.DecodeReadsSpecWords : Prop :=
  decode defaultParams .cinStart
      [0x40, 0, 0, 0, 0x30, 0, 0, 0, 0x22, 0x56, 0, 0, 1, 0, 0, 0, 1, 0, 0, 0] =
    .ok (.cinHeader 64 48 22050 1 1, []) ∧
  decode defaultParams .cinRecord [2, 0, 0, 0] = .ok (.cinEnd, []) ∧
  decode defaultParams .cinRecord [3, 0, 0, 0] = .ok (.cinRsvd 3, []) ∧
  decode defaultParams .roqStart [0x84, 0x10, 0xFF, 0xFF, 0xFF, 0xFF, 0x1E, 0] =
    .ok (.roqHeader 0xFFFFFFFF 30, []) ∧
  decode defaultParams .roqChunk [0x02, 0x10, 0x0A, 0, 0, 0, 0x01, 0x02] = .ok (.roqCodebook 10 0x0201, []) ∧
  decode defaultParams .roqChunk [0x00, 0x20, 3, 0, 0, 0, 0, 0, 0xAA] = .ok (.roqOther 0x2000 3 0, [0xAA]) ∧
  decode defaultParams .code8 [0b10] = .ok (.sld8, []) ∧
  decode defaultParams .code4 [0b11] = .ok (.ccc4, [])

/-- STEP on an open session runs the unit the bytes at OFFSET decode to, and OPEN runs the header the stream starts with; what
the machine adds is taking the request and giving the reply (40_huffman.md R130; 41_roq_chunks.md R161; 45_host_ops.md R262 to
R264). -/
def Obligations.StepRunsTheDecodedUnit : Prop :=
  (∀ (s : State) (rest : List HostOp) (place : Place) (i : Instr) (tail : List Byte),
    s.requests = .step :: rest → s.ses.faulted = false →
    (s.ses.fmt = .cin ∧ place = .cinRecord ∨ s.ses.fmt = .roq ∧ place = .roqChunk) →
    s.ses.offset.toNat + unitBytes place ≤ s.ses.streamSize.toNat →
    decode s.params place (streamSpan s s.ses.offset.toNat (unitBytes place)) = .ok (i, tail) →
    i.wf s.params = true →
      step s = onNext (exec i { s with requests := rest }) fun t =>
        { t with replies := t.replies ++ [t.ses.result.stepReply] }) ∧
  (∀ (s : State) (rest : List HostOp) (place : Place) (bytes : List Byte) (flags : Flags) (i : Instr) (tail : List Byte),
    (place = .cinStart ∧ s.requests = .openCin bytes flags :: rest ∨
      place = .roqStart ∧ s.requests = .openRoq bytes flags :: rest) →
    bytes.length < 2 ^ 32 → decode s.params place bytes = .ok (i, tail) → i.wf s.params = true →
      step s = onNext (exec i (openedWith bytes flags { s with requests := rest })) fun t =>
        { t with replies := t.replies ++ [t.ses.result.openReply] })

/-- BLOCK8 and BLOCK4 run the code that the 2-bit value from the code reader decodes to (42_roq_vq.md R203). -/
def Obligations.BlockRunsTheDecodedCode : Prop :=
  ∀ (x y : Nat) (s t : State) (c : BitVec 2) (i : Instr),
    nextCode (atBlock x y s) = .done c t →
      (decode t.params .code8 [c.zeroExtend 8] = .ok (i, []) → (block8 x y s).outcome = exec i t) ∧
      (decode t.params .code4 [c.zeroExtend 8] = .ok (i, []) → (block4 x y s).outcome = exec i t)

/-! ### Operand forms and pure functions -/

/-- Code `i` of a flag word is FLG[15-2i : 14-2i]; an empty reader takes two payload bytes, low byte first, and the first code is
the top pair; at the payload's end it raises, and with one byte left it takes that byte and raises, the flag word unwritten
(42_roq_vq.md R191, 30_encoding.md R100, 20_memory.md R65). -/
def Obligations.NextCodeTakesMsbPairFirst : Prop :=
  (∀ (s : State) (i : Nat), i ≤ 7 → s.roq.flgPos.toNat = 8 - i →
    nextCode s = .done (s.roq.flg.extractLsb' (14 - 2 * i) 2)
      { s with roq := { s.roq with flgPos := BitVec.ofNat 4 (7 - i) } }) ∧
  (∀ s : State, s.roq.flgPos = 0 → payloadLeft 2 s →
    nextCode s = .done ((payloadByte s 1).extractLsb' 6 2)
      { s with roq := { s.roq with
        flg := payloadByte s 1 ++ payloadByte s 0, flgPos := 7, payPos := s.roq.payPos + 2 } }) ∧
  (∀ s : State, s.roq.flgPos = 0 → s.roq.payEnd.toNat ≤ s.roq.payPos.toNat →
    nextCode s = .raised .payloadOverrun s) ∧
  (∀ s : State, s.roq.flgPos = 0 → s.roq.payPos.toNat + 1 = s.roq.payEnd.toNat →
    s.roq.payEnd.toNat ≤ s.ses.streamSize.toNat →
      nextCode s = .raised .payloadOverrun { s with roq := { s.roq with payPos := s.roq.payPos + 1 } })

/-- The displacement of a motion byte: high nibble for x, low nibble for y, bias 8, less the mean; each lies in
[-7 - mean, 8 - mean], and every value there is some byte's (30_encoding.md R102). -/
def Obligations.MotionByteRange : Prop :=
  ∀ mean : Byte,
    (∀ b : Byte,
      motionX mean b = 8 - ((b.toNat / 16 : Nat) : Int) - mean.toInt ∧
      motionY mean b = 8 - ((b.toNat % 16 : Nat) : Int) - mean.toInt ∧
      -7 - mean.toInt ≤ motionX mean b ∧ motionX mean b ≤ 8 - mean.toInt ∧
      -7 - mean.toInt ≤ motionY mean b ∧ motionY mean b ≤ 8 - mean.toInt) ∧
    (∀ mx my : Int, -7 - mean.toInt ≤ mx → mx ≤ 8 - mean.toInt → -7 - mean.toInt ≤ my → my ≤ 8 - mean.toInt →
      ∃ b : Byte, motionX mean b = mx ∧ motionY mean b = my)

/-- The counts of a CODEBOOK argument: each field is its byte, 0 read as 256, for n2 only when `n1 * 6 < size`; n1 is in 1..256
and n2 in 0..256 (30_encoding.md R94; the bounds are 41_roq_chunks.md R170, which the spec marks as derived). -/
def Obligations.CodebookCounts : Prop :=
  ∀ (arg : Half) (size : Word),
    codebookN1 arg = (if arg.toNat / 256 = 0 then 256 else arg.toNat / 256) ∧
    codebookN2 arg size =
      (if arg.toNat % 256 = 0 ∧ ((codebookN1 arg * 6 : Nat) : Int) < size.toInt then 256 else arg.toNat % 256) ∧
    1 ≤ codebookN1 arg ∧ codebookN1 arg ≤ 256 ∧ codebookN2 arg size ≤ 256

/-- YUV(y, u, v): each sum on unbounded integers, clamped once, alpha 255; the four pixels of a cell share U and V
(43_yuv_rgb.md R230, R233). -/
def Obligations.YuvPixelClampsOnce : Prop :=
  (∀ (t : YuvTables) (y u v : Byte),
    ((yuvPixel t y u v).r.toNat : Int) = max 0 (min 255 ((y.toNat : Int) + at8 t.vr v)) ∧
    ((yuvPixel t y u v).g.toNat : Int) = max 0 (min 255 ((y.toNat : Int) - at8 t.ug u - at8 t.vg v)) ∧
    ((yuvPixel t y u v).b.toNat : Int) = max 0 (min 255 ((y.toNat : Int) + at8 t.ub u)) ∧
    (yuvPixel t y u v).a = 255) ∧
  (∀ (t : YuvTables) (c : Cell),
    yuvCell t c = (cellPixel t c 0 0, cellPixel t c 1 0, cellPixel t c 0 1, cellPixel t c 1 1))

/-- The default tables are the truncated products of 43_yuv_rgb.md R232, and neutral chroma gives grey (R231, which the
spec marks as derived). The table set is the default of a parameter (00_scope.md R8). -/
def Obligations.DefaultYuvTables : Prop :=
  (∀ i : Byte,
    at8 defaultParams.yuv.vr i = (((i.toNat : Int) - 128) * 1402).tdiv 1000 ∧
    at8 defaultParams.yuv.ug i = (((i.toNat : Int) - 128) * 34414).tdiv 100000 ∧
    at8 defaultParams.yuv.vg i = (((i.toNat : Int) - 128) * 71414).tdiv 100000 ∧
    at8 defaultParams.yuv.ub i = (((i.toNat : Int) - 128) * 1772).tdiv 1000) ∧
  (∀ y : Byte, yuvPixel defaultParams.yuv y 128 128 = { r := y, g := y, b := y, a := 255 })

/-- SQR is the signed square of the index's low seven bits, and STEP_ADD wraps or clamps to 16 bits as AUDIO_OVERFLOW says
(44_roq_audio.md R246, R249). -/
def Obligations.SquareTableAndStepAdd : Prop :=
  (∀ b : Byte,
    (b.toNat ≤ 127 → sqr b = (b.toNat : Int) * b.toNat) ∧
    (128 ≤ b.toNat → sqr b = -(((b.toNat : Int) - 128) * ((b.toNat : Int) - 128))) ∧
    -16129 ≤ sqr b ∧ sqr b ≤ 16129) ∧
  (∀ (a : Half) (d : Int),
    (stepAdd .wrap16 a d).toInt = (a.toInt + d).bmod (2 ^ 16) ∧
    (stepAdd .clamp16 a d).toInt = max (-32768) (min 32767 (a.toInt + d)))

/-- PayRead gives the byte at PAY_POS and moves the cursor by one, or raises F_PAYLOAD_OVERRUN at the payload's end and changes
nothing (20_memory.md R65). -/
def Obligations.PayReadReadsOrOverruns : Prop :=
  ∀ s : State,
    (s.roq.payPos.toNat < s.roq.payEnd.toNat → s.roq.payEnd.toNat ≤ s.ses.streamSize.toNat →
      payRead s = .done (s.stream.read s.roq.payPos.toNat)
        { s with roq := { s.roq with payPos := s.roq.payPos + 1 } }) ∧
    (s.roq.payEnd.toNat ≤ s.roq.payPos.toNat → payRead s = .raised .payloadOverrun s)

/-! ### CIN -/

/-- CIN.HEADER completes when the checks of 40_huffman.md R120 hold: the registers, the cleared palette and buffers, the cursor
and the session are as R120 and R262 say, and nothing outside the CIN unit and the session changes. -/
def Obligations.CinHeaderOpens : Prop :=
  ∀ (w h rate width channels : Word) (s : State), cinHeaderGood w h rate width channels s →
    ∃ t, exec (.cinHeader w h rate width channels) s = .next t ∧
      t.cin = { s.cin with
        w := w, h := h, sndRate := rate, sndWidth := width, sndChannels := channels
        hcount := t.cin.hcount, hused := t.cin.hused, root := t.cin.root, pair := t.cin.pair
        palette := Vector.replicate 256 { r := 0, g := 0, b := 0 }
        idxBuf := List.replicate (w.toNat * h.toNat) 0
        fb := List.replicate (w.toNat * h.toNat) { r := 0, g := 0, b := 0, a := 0 } } ∧
      t.ses = { s.ses with
        headerOffset := 65556, offset := 65556, frameRate := 14, fmt := .cin, stepCount := 0, result := .continue_ } ∧
      t = { s with cin := t.cin, ses := t.ses, draws := t.draws }

/-- CIN.HEADER leaves the reset state with RESULT = OPEN_FAIL when a check of 40_huffman.md R120 fails (60_exceptions.md R287). -/
def Obligations.CinHeaderRefuses : Prop :=
  ∀ (w h rate width channels : Word) (s : State),
    (s.ses.streamSize.toNat < 65556 ∨ w.toInt ≤ 0 ∨ h.toInt ≤ 0 ∨ rate.toInt < 0 ∨ width.toInt < 0 ∨ channels.toInt < 0) →
      exec (.cinHeader w h rate width channels) s = .next (refusedOpen s)

/-- SMALLEST(n) answers NONE exactly when there is no candidate, and else the first of the candidates with the least count, which
it marks used (40_huffman.md R122). -/
def Obligations.SmallestPicksFirstMinimum : Prop :=
  ∀ (n : Nat) (s : State), n ≤ 511 →
    ((smallest n s).1 = none ↔ ∀ i, ¬ forestCandidate s.cin.hcount s.cin.hused n i) ∧
    ((smallest n s).1 = none → (smallest n s).2 = s) ∧
    (∀ a, (smallest n s).1 = some a →
      ∃ h : a < 511, forestCandidate s.cin.hcount s.cin.hused n a ∧
        (∀ i (hi : i < 511), forestCandidate s.cin.hcount s.cin.hused n i →
          s.cin.hcount[a] ≤ s.cin.hcount[i] ∧ (i < a → s.cin.hcount[a] < s.cin.hcount[i])) ∧
        (smallest n s).2 = { s with cin.hused := s.cin.hused.set a true h })

/-- The tree of every row after OPEN_CIN: root 254 + m for m ≥ 2 nonzero counts, root 255 for fewer, both children of every
internal node up to the root defined and below it (40_huffman.md R123; R125, which the spec marks as derived); and it is the tree of
the row's counts: child 0 of every inner node is the first of the least counts among the nodes no earlier merge used, child 1 the first
of the least among the others, and the node's own count is the sum of theirs (40_huffman.md R122, R124). -/
def Obligations.BuiltForestShape : Prop :=
  ∀ (w h rate width channels : Word) (s : State), cinHeaderGood w h rate width channels s →
    ∃ t, exec (.cinHeader w h rate width channels) s = .next t ∧
      ∀ r : Byte,
        (2 ≤ symbolsUsed s r → (at8 t.cin.root r).toNat = 254 + symbolsUsed s r) ∧
        (symbolsUsed s r ≤ 1 → (at8 t.cin.root r).toNat = 255) ∧
        rowOk t.cin r ∧ treeOfCounts s t.cin r

/-- In a tree with at least two nonzero counts, the symbols that some bits lead to from the root are exactly those with a nonzero
count (40_huffman.md R125, which the spec marks as derived). -/
def Obligations.BuiltForestReachesItsSymbols : Prop :=
  ∀ (w h rate width channels : Word) (s : State), cinHeaderGood w h rate width channels s →
    ∃ t, exec (.cinHeader w h rate width channels) s = .next t ∧
      ∀ r sym : Byte, 2 ≤ symbolsUsed s r →
        ((∃ bits, HufPath t.cin r (at8 t.cin.root r) bits sym) ↔
          s.stream.read (20 + 256 * r.toNat + sym.toNat) ≠ 0)

/-- CIN.FRAME completes on a frame that lies in the stream, in a session whose forest is built, when HUF_LEAF_STEP = zero or no bit
is taken from a leaf (LeafStepFaults has the other case): the index buffer holds what the payload decodes to, the frame is that
buffer through the palette, the audio follows, and nothing else changes but the Huffman working registers of 10_state.md R37 (log
entry 5) and the model's own counter of draws, which the statement leaves free (40_huffman.md R126, R127, R128, R129, R131, R136,
R137). -/
def Obligations.CinFrameDecodes : Prop :=
  ∀ s : State, forestOk s.cin → leafStepsRun (s.ses.offset.toNat + 4) s → indexBufferHolds s →
    frameFits (s.ses.offset.toNat + 4) s →
    ∃ t, exec .cinFrame s = .next t ∧
      FrameDecoded (s.ses.offset.toNat + 4) (frameWalk (s.ses.offset.toNat + 4) s).1
        (frameWalk (s.ses.offset.toNat + 4) s).2 s t

/-- CIN.PALFRAME completes likewise: the palette is loaded first, and the frame body follows it; the Huffman working registers and
the counter of draws are left free as in CinFrameDecodes (40_huffman.md R132; log entry 5). -/
def Obligations.CinPalframeDecodes : Prop :=
  ∀ s : State, forestOk s.cin → leafStepsRun (s.ses.offset.toNat + 772) s → indexBufferHolds s →
    frameFits (s.ses.offset.toNat + 772) s →
    ∃ t, exec .cinPalframe s = .next t ∧
      FrameDecoded (s.ses.offset.toNat + 772) (frameWalk (s.ses.offset.toNat + 772) s).1
        (frameWalk (s.ses.offset.toNat + 772) s).2 (withPalette (s.ses.offset.toNat + 4) s) t

/-- A CIN record cut off by the stream's end ends the stream, with nothing decoded but a palette already loaded; a frame size below
4 or above 131072 moves OFFSET to the stream's end and answers CONTINUE (40_huffman.md R133, R138). -/
def Obligations.CinRecordAnomalies : Prop :=
  ∀ s : State,
    (s.ses.streamSize.toNat < s.ses.offset.toNat + 8 ∨
      (4 ≤ (memRead32 s (s.ses.offset.toNat + 4)).toInt ∧ (memRead32 s (s.ses.offset.toNat + 4)).toInt ≤ 131072 ∧
        (s.ses.streamSize.toNat : Int) < s.ses.offset.toNat + 8 + (memRead32 s (s.ses.offset.toNat + 4)).toInt) →
      exec .cinFrame s = .next { s with ses := afterEnd s }) ∧
    (s.ses.offset.toNat + 8 ≤ s.ses.streamSize.toNat →
      ((memRead32 s (s.ses.offset.toNat + 4)).toInt < 4 ∨ 131072 < (memRead32 s (s.ses.offset.toNat + 4)).toInt) →
      exec .cinFrame s = .next { s with ses := { s.ses with
        offset := s.ses.streamSize, stepCount := s.ses.stepCount + 1, result := .continue_ } }) ∧
    (s.ses.streamSize.toNat < s.ses.offset.toNat + 772 →
      exec .cinPalframe s = .next { s with ses := afterEnd s }) ∧
    (s.ses.offset.toNat + 772 ≤ s.ses.streamSize.toNat →
      (s.ses.streamSize.toNat < s.ses.offset.toNat + 776 ∨
        (4 ≤ (memRead32 s (s.ses.offset.toNat + 772)).toInt ∧ (memRead32 s (s.ses.offset.toNat + 772)).toInt ≤ 131072 ∧
          (s.ses.streamSize.toNat : Int) < s.ses.offset.toNat + 776 + (memRead32 s (s.ses.offset.toNat + 772)).toInt)) →
      exec .cinPalframe s = .next { withPalette (s.ses.offset.toNat + 4) s with ses := afterEnd s }) ∧
    (s.ses.offset.toNat + 776 ≤ s.ses.streamSize.toNat →
      ((memRead32 s (s.ses.offset.toNat + 772)).toInt < 4 ∨ 131072 < (memRead32 s (s.ses.offset.toNat + 772)).toInt) →
      exec .cinPalframe s = .next { withPalette (s.ses.offset.toNat + 4) s with ses := { s.ses with
        offset := s.ses.streamSize, stepCount := s.ses.stepCount + 1, result := .continue_ } })

/-- CIN.END ends the stream; CIN.RSVD does so too under CIN_UNKNOWN_CMD = end_of_stream, and is CIN.FRAME under as_frame
(40_huffman.md R134, R135; 30_encoding.md R88). -/
def Obligations.CinEndAndReserved : Prop :=
  ∀ (cmd : Word) (s : State),
    exec .cinEnd s = .next { s with ses := afterEnd s } ∧
    (s.params.cinUnknownCmd = .endOfStream → exec (.cinRsvd cmd) s = .next { s with ses := afterEnd s }) ∧
    (s.params.cinUnknownCmd = .asFrame → exec (.cinRsvd cmd) s = exec .cinFrame s)

/-- With HUF_LEAF_STEP = fault, a CIN.FRAME or CIN.PALFRAME whose payload takes a bit from a leaf, wherever it does, faults: the
symbols emitted before that bit are in the index buffer (after CIN.PALFRAME the palette is loaded too), the fault is recorded, and
the frame, DIAG, the ports and the cursor stay (40_huffman.md R126, R127, R128, R132; 60_exceptions.md R283). The Huffman working
registers and the counter of draws are left free (log entry 5); that what was written before the fault stays, and the frame with it,
is log entry 11. -/
def Obligations.LeafStepFaults : Prop :=
  ∀ (s : State) (syms : List Byte), s.params.hufLeafStep = .fault → indexBufferHolds s →
    (frameFits (s.ses.offset.toNat + 4) s → frameLeafStep (s.ses.offset.toNat + 4) s = some syms →
      ∃ t, exec .cinFrame s = .next t ∧ LeafStepTaken syms s t) ∧
    (frameFits (s.ses.offset.toNat + 772) s → frameLeafStep (s.ses.offset.toNat + 772) s = some syms →
      ∃ t, exec .cinPalframe s = .next t ∧ LeafStepTaken syms (withPalette (s.ses.offset.toNat + 4) s) t)

/-- The round trip of 40_huffman.md R139, in part marked as derived by the spec: a payload that codes `syms` with the trees of the session, each context entered
non-degenerate, and whose pixel count is their number decodes to exactly `syms`. -/
def Obligations.HuffmanRoundTrip : Prop :=
  ∀ (s : State) (syms : List Byte) (bits pad : List Bool), indexBufferHolds s → frameFits (s.ses.offset.toNat + 4) s →
    HufCodes s.cin 0 syms bits → frameBits (s.ses.offset.toNat + 4) s = bits ++ pad →
    frameCount (s.ses.offset.toNat + 4) s = syms.length →
      ∃ t, exec .cinFrame s = .next t ∧ FrameDecoded (s.ses.offset.toNat + 4) syms bits.length s t

/-! ### RoQ chunks -/

/-- ROQ.HEADER opens the session: FRAME_RATE, the cursor at 8, no frame yet; a stream shorter than 8 bytes fails to open
(41_roq_chunks.md R160, 45_host_ops.md R263). -/
def Obligations.RoqHeaderOpens : Prop :=
  ∀ (unused : Word) (fps : Half) (s : State),
    (8 ≤ s.ses.streamSize.toNat →
      exec (.roqHeader unused fps) s = .next { s with
        ses := { s.ses with
          frameRate := if fps = 0 then 30 else fps, headerOffset := 8, offset := 8, fmt := .roq, stepCount := 0,
          result := .continue_ }
        roq := { s.roq with vqFrame := 0, infoSeen := false } }) ∧
    (s.ses.streamSize.toNat < 8 → exec (.roqHeader unused fps) s = .next (refusedOpen s))

/-- The first ROQ.INFO sets the frame and allocates both buffers, zero under BUF_INIT = zero; a later one changes nothing but the
cursor (41_roq_chunks.md R166). PAY_BASE, PAY_END and PAY_POS after the chunk are log entry 13 (DEDUCED), and the model's own counter
of draws goes up by one as log entry 3 says. -/
def Obligations.InfoFirstWins : Prop :=
  ∀ (size : Word) (arg : Half) (s : State), chunkFits size s →
    let bs := chunkPayload size s
    let w := le16 (bs.getD 0 0) (bs.getD 1 0)
    let ht := le16 (bs.getD 2 0) (bs.getD 3 0)
    (s.roq.infoSeen = false → 8 ≤ size.toInt → w ≠ 0 → ht ≠ 0 →
      ∃ b0 b1 : List Pixel,
        exec (.roqInfo size arg) s = .next { s with
          ses := afterChunk size s
          roq := { inWindow size 8 s with
            w := w, h := ht, infoSeen := true, buf0 := b0, buf1 := b1, wsel := false, dispSel := false }
          draws := s.draws + 1 } ∧
        b0.length = w.toNat * ht.toNat ∧ b1.length = w.toNat * ht.toNat ∧
        (s.params.bufInit = .zero →
          b0 = List.replicate (w.toNat * ht.toNat) { r := 0, g := 0, b := 0, a := 0 } ∧ b1 = b0)) ∧
    (s.roq.infoSeen = true →
      exec (.roqInfo size arg) s = .next { s with ses := afterChunk size s, roq := inWindow size 0 s })

/-- A first INFO that is too short or declares a zero dimension, and a VQ chunk before any INFO, fault and write nothing but the
payload window (41_roq_chunks.md R166, R167; 42_roq_vq.md R206; 20_memory.md R65). PAY_BASE, PAY_END and PAY_POS after the transaction
are log entry 13 (DEDUCED). -/
def Obligations.InfoAndEarlyVqFaults : Prop :=
  ∀ (size : Word) (arg : Half) (s : State), chunkFits size s → s.roq.infoSeen = false →
    let bs := chunkPayload size s
    (size.toInt < 8 →
      exec (.roqInfo size arg) s = .next { s with
        ses := afterFault .payloadOverrun s, roq := inWindow size size.toInt.toNat s }) ∧
    (8 ≤ size.toInt → (bs.getD 0 0 = 0 ∧ bs.getD 1 0 = 0 ∨ bs.getD 2 0 = 0 ∧ bs.getD 3 0 = 0) →
      exec (.roqInfo size arg) s = .next { s with ses := afterFault .infoZeroDim s, roq := inWindow size 8 s }) ∧
    exec (.roqVq size arg) s = .next { s with ses := afterFault .vqNoInfo s, roq := inWindow size 0 s }

/-- ROQ.CODEBOOK loads n1 cells, then n2 quad-cells, and keeps every other entry (41_roq_chunks.md R168, 30_encoding.md R95). PAY_BASE,
PAY_END and PAY_POS after the chunk are log entry 13 (DEDUCED). -/
def Obligations.CodebookLoads : Prop :=
  ∀ (size : Word) (arg : Half) (s : State), chunkFits size s →
    ((6 * codebookN1 arg + 4 * codebookN2 arg size : Nat) : Int) ≤ size.toInt →
      exec (.roqCodebook size arg) s = .next { s with
        ses := afterChunk size s
        roq := { inWindow size (6 * codebookN1 arg + 4 * codebookN2 arg size) s with
          cells := Vector.ofFn fun (k : Fin 256) =>
            if k.val < codebookN1 arg then payloadCell (chunkPayload size s) k.val else s.roq.cells[k]
          quads := Vector.ofFn fun (k : Fin 256) =>
            if k.val < codebookN2 arg size then payloadQuad (chunkPayload size s) (codebookN1 arg) k.val
            else s.roq.quads[k]
          n1Last := BitVec.ofNat 9 (codebookN1 arg)
          n2Last := BitVec.ofNat 9 (codebookN2 arg size) } }

/-- A codebook whose payload is too short faults at the first missing byte: the entries read whole before it stay written, the counts
do not change (41_roq_chunks.md R168). PAY_BASE, PAY_END and PAY_POS after the chunk are log entry 13 (DEDUCED). -/
def Obligations.ShortCodebookFaults : Prop :=
  ∀ (size : Word) (arg : Half) (s : State), chunkFits size s →
    size.toInt < ((6 * codebookN1 arg + 4 * codebookN2 arg size : Nat) : Int) →
      exec (.roqCodebook size arg) s = .next { s with
        ses := afterFault .payloadOverrun s
        roq := { inWindow size size.toInt.toNat s with
          cells := Vector.ofFn fun (k : Fin 256) =>
            if k.val < codebookN1 arg ∧ 6 * (k.val + 1) ≤ size.toInt.toNat then payloadCell (chunkPayload size s) k.val
            else s.roq.cells[k]
          quads := Vector.ofFn fun (k : Fin 256) =>
            if k.val < codebookN2 arg size ∧ 6 * codebookN1 arg + 4 * (k.val + 1) ≤ size.toInt.toNat then
              payloadQuad (chunkPayload size s) (codebookN1 arg) k.val
            else s.roq.quads[k] } }

/-- ROQ.SND_MONO in a session that is not silent appends one record: every payload byte's step added to the seed in turn, the sum
after each one a sample (44_roq_audio.md R247, R250, R251). ACC_L, PAY_BASE, PAY_END and PAY_POS after the chunk are log entry 13
(DEDUCED). -/
def Obligations.MonoSound : Prop :=
  ∀ (size : Word) (arg : Half) (s : State), chunkFits size s → s.ses.flags.silent = false →
    let samples := dpcm s.params.audioOverflow arg (chunkPayload size s)
    exec (.roqSndMono size arg) s = .next { s with
      ses := afterChunk size s
      roq := { inWindow size size.toInt.toNat s with accL := samples.getLastD arg }
      ports := { s.ports with audioOut := s.ports.audioOut ++
        [{ rate := s.params.roqAudioRate, width := 2, channels := 1, data := .roqPcm16 samples }] } }

/-- ROQ.SND_STEREO in a session that is not silent appends one record of interleaved samples, none when there are no pairs; the seeds
are the argument's two bytes at the high place, and an odd last byte is not read (44_roq_audio.md R248, R252, R253). ACC_L, ACC_R,
PAY_BASE, PAY_END and PAY_POS after the chunk are log entry 13 (DEDUCED). -/
def Obligations.StereoSound : Prop :=
  ∀ (size : Word) (arg : Half) (s : State), chunkFits size s → s.ses.flags.silent = false →
    let bs := chunkPayload size s
    let left := dpcm s.params.audioOverflow (arg &&& 0xFF00) (leftBytes bs)
    let right := dpcm s.params.audioOverflow (arg <<< 8) (rightBytes bs)
    exec (.roqSndStereo size arg) s = .next { s with
      ses := afterChunk size s
      roq := { inWindow size (2 * (size.toInt.toNat / 2)) s with
        accL := left.getLastD (arg &&& 0xFF00), accR := right.getLastD (arg <<< 8) }
      ports := { s.ports with audioOut := s.ports.audioOut ++
        (if size.toInt = 1 then []
         else [{ rate := s.params.roqAudioRate, width := 2, channels := 2,
                 data := .roqPcm16 (interleave left right) }]) } }

/-- In a silent session a sound chunk only moves the cursor (44_roq_audio.md R245). PAY_BASE, PAY_END and PAY_POS after the chunk are
log entry 13 (DEDUCED). -/
def Obligations.SilentSoundIsSkipped : Prop :=
  ∀ (size : Word) (arg : Half) (s : State), chunkFits size s → s.ses.flags.silent = true →
    exec (.roqSndMono size arg) s = .next { s with ses := afterChunk size s, roq := inWindow size 0 s } ∧
    exec (.roqSndStereo size arg) s = .next { s with ses := afterChunk size s, roq := inWindow size 0 s }

/-- ROQ.IDENT ends the stream whatever its size and argument; ROQ.OTHER skips its payload (41_roq_chunks.md R171, R172). PAY_BASE,
PAY_END and PAY_POS after the skipped chunk are log entry 13 (DEDUCED). -/
def Obligations.IdentEndsAndOtherSkips : Prop :=
  ∀ (id : Half) (size : Word) (arg : Half) (s : State),
    exec (.roqIdent size arg) s = .next { s with ses := afterEnd s } ∧
    (chunkFits size s →
      exec (.roqOther id size arg) s = .next { s with ses := afterChunk size s, roq := inWindow size 0 s })

/-- A chunk of size ≤ 0 advances OFFSET by its header alone, and one above ROQ_MAX_SIZE or past the stream's end ends the stream,
for every id but ROQ_IDENT (41_roq_chunks.md R163, R164). -/
def Obligations.ChunkChecks : Prop :=
  ∀ (id : Half) (size : Word) (arg : Half) (s : State),
    ∀ i ∈ [Instr.roqInfo size arg, .roqCodebook size arg, .roqVq size arg, .roqSndMono size arg,
      .roqSndStereo size arg, .roqOther id size arg],
    (size.toInt ≤ 0 →
      exec i s = .next { s with ses := { s.ses with
        offset := s.ses.offset + 8, stepCount := s.ses.stepCount + 1, result := .continue_ } }) ∧
    ((s.params.roqMaxSize.toNat : Int) < size.toInt ∨
      0 < size.toInt ∧ (s.ses.streamSize.toNat : Int) < s.ses.offset.toNat + 8 + size.toInt →
      exec i s = .next { s with ses := afterEnd s })

/-! ### The VQ frame -/

/-- A VQ chunk decodes its macroblocks in raster order, ceil(ROQ_W/16) in each of ceil(ROQ_H/16) rows, each as its four 8×8
subblocks at (0,0), (8,0), (0,8), (8,8), and then ends the frame (42_roq_vq.md R190; 30_encoding.md R103, R104). -/
def Obligations.MacroblocksInRasterOrder : Prop :=
  (∀ (arg : Half) (s : State), s.roq.infoSeen = true → s.roq.w ≠ 0 → s.roq.h ≠ 0 →
    vqOp arg s =
      (runMacroblocks (macroblockOrigins s.roq)
        { s with roq := { s.roq with
          meanX := arg.extractLsb' 8 8, meanY := arg.extractLsb' 0 8, flg := 0, flgPos := 0, xp := 0, yp := 0 } }).bind
        fun _ u => .done () (frameEnd { u with roq := { u.roq with
          xp := 0, yp := BitVec.ofNat 32 (16 * ((s.roq.h.toNat + 15) / 16)) } })) ∧
  (∀ s : State,
    macroblock s =
      (block8 s.roq.xp.toNat s.roq.yp.toNat s).bind fun _ s1 =>
        (block8 (s.roq.xp.toNat + 8) s.roq.yp.toNat s1).bind fun _ s2 =>
          (block8 s.roq.xp.toNat (s.roq.yp.toNat + 8) s2).bind fun _ s3 =>
            block8 (s.roq.xp.toNat + 8) (s.roq.yp.toNat + 8) s3)

/-- A VQ chunk that does not fault exchanges the buffers, shows the frame just written, and seeds the history after frame 0; one that
faults leaves the read buffer, the buffer registers, the ports and the cursor, while the write buffer may be partly drawn (42_roq_vq.md
R205; 00_scope.md R12; 60_exceptions.md R283). That the read buffer stays after a FAULT is log entry 11. -/
def Obligations.VqExchangesBuffers : Prop :=
  ∀ (size : Word) (arg : Half) (s t : State), chunkFits size s → s.roq.infoSeen = true → buffersHold s →
    exec (.roqVq size arg) s = .next t →
      (t.ses.faulted = false → FrameShown size s t) ∧
      (t.ses.faulted = true → s.ses.faulted = false →
        (∃ r, t.ses = afterFault r s) ∧ t.ports = s.ports ∧ t.roq.wsel = s.roq.wsel ∧ t.roq.dispSel = s.roq.dispSel ∧
          t.roq.vqFrame = s.roq.vqFrame ∧ t.roq.buf (!s.roq.wsel) = s.roq.buf (!s.roq.wsel))

/-- ROQ.VQ completes where reading its codes from the payload does: each code and its operands are there, every motion copy that is
coded has its sources in the frame, and no index that is used is stale (42_roq_vq.md R190 to R200, R203). And so without reading them
when the payload holds 70 bytes for each macroblock, CB_STALE = stored, and no byte of the payload, operand bytes too, has a 2-bit
pair equal to VQ_FCC. Either way the frame is shown as 42_roq_vq.md R205 says. -/
def Obligations.VqCompletes : Prop :=
  (∀ (size : Word) (arg : Half) (s : State) (r : CodeReader), chunkFits size s → s.roq.infoSeen = true → s.roq.w ≠ 0 →
    buffersHold s →
    readMacroblocks s (arg.extractLsb' 8 8) (arg.extractLsb' 0 8) (macroblockOrigins s.roq)
      { word := 0, left := 0, rest := chunkPayload size s } = some r →
      ∃ t, exec (.roqVq size arg) s = .next t ∧ FrameShown size s t) ∧
  (∀ (size : Word) (arg : Half) (s : State), s.params.wf → s.params.cbStale = .stored → chunkFits size s →
    s.roq.infoSeen = true → s.roq.w ≠ 0 → buffersHold s →
    (∀ b ∈ chunkPayload size s, noMotionCode s.params b) →
    ((70 * macroblocks s.roq : Nat) : Int) ≤ size.toInt →
      ∃ t, exec (.roqVq size arg) s = .next t ∧ FrameShown size s t)

/-- A macroblock uses at most 70 payload bytes, and none when its four codes are MOT from a word already read (30_encoding.md
R109, which the spec marks as derived). -/
def Obligations.MacroblockUsesAtMostSeventyBytes : Prop :=
  (∀ s t : State, s.roq.flgPos.toNat ≤ 8 → macroblock s = .done () t →
    s.roq.payPos.toNat ≤ t.roq.payPos.toNat ∧ t.roq.payPos.toNat ≤ s.roq.payPos.toNat + 70) ∧
  (∀ s : State, 4 ≤ s.roq.flgPos.toNat → s.roq.flgPos.toNat ≤ 8 →
    (∀ k, k < 4 → s.roq.flg.extractLsb' (2 * (s.roq.flgPos.toNat - k) - 2) 2 = s.params.vqMot) →
      ∃ t, macroblock s = .done () t ∧ t.roq.payPos = s.roq.payPos ∧ t.roq.buf0 = s.roq.buf0 ∧ t.roq.buf1 = s.roq.buf1)

/-! ### The VQ codes -/

/-- MOT.8 and MOT.4 change nothing (42_roq_vq.md R192, R193). -/
def Obligations.MotKeepsTheBlock : Prop := ∀ s : State, exec .mot8 s = .next s ∧ exec .mot4 s = .next s

/-- FCC.8 and FCC.4 copy the block from the read buffer when every source pixel lies in the frame: each destination pixel inside the
frame holds its source, every other pixel stays (42_roq_vq.md R194, R195, R199). -/
def Obligations.FccCopies : Prop :=
  ∀ (s : State) (i : Instr) (n : Nat), (i = .fcc8 ∧ n = 8 ∨ i = .fcc4 ∧ n = 4) → payloadLeft 1 s → buffersHold s →
    let mx := 8 - (((payloadByte s 0).toNat / 16 : Nat) : Int) - s.roq.meanX.toInt
    let my := 8 - (((payloadByte s 0).toNat % 16 : Nat) : Int) - s.roq.meanY.toInt
    (∀ x y, inFrame s.roq x y → inBlock (blkX s) (blkY s) n x y → sourceInFrame s.roq mx my x y) →
      ∃ t, exec i s = .next t ∧
        Drawn 1 (fun x y =>
          if inBlock (blkX s) (blkY s) n x y then
            pixelAt s (!s.roq.wsel) ((x : Int) + mx).toNat ((y : Int) + my).toNat
          else pixelAt s s.roq.wsel x y) s t

/-- One source pixel outside the frame faults FCC.8 and FCC.4 before any pixel is written (42_roq_vq.md R199). PAY_POS after the fault
is log entry 13 (DEDUCED). -/
def Obligations.FccFaults : Prop :=
  ∀ (s : State) (i : Instr) (n x y : Nat), (i = .fcc8 ∧ n = 8 ∨ i = .fcc4 ∧ n = 4) → payloadLeft 1 s →
    inFrame s.roq x y → inBlock (blkX s) (blkY s) n x y →
    ¬ sourceInFrame s.roq (8 - (((payloadByte s 0).toNat / 16 : Nat) : Int) - s.roq.meanX.toInt)
      (8 - (((payloadByte s 0).toNat % 16 : Nat) : Int) - s.roq.meanY.toInt) x y →
      exec i s = .next { s with
        ses := afterFault .mvOutOfFrame s, roq := { s.roq with payPos := s.roq.payPos + 1 } }

/-- SLD.8 draws the four cells of a quad-cell at double scale, each sample a 2×2 square (42_roq_vq.md R196, R202; 30_encoding.md R96,
R97). -/
def Obligations.Sld8Draws : Prop :=
  ∀ s : State, payloadLeft 1 s → buffersHold s → quadLoaded (payloadByte s 0) s →
    let q := at8 s.roq.quads (payloadByte s 0)
    ∃ t, exec .sld8 s = .next t ∧
      Drawn 1 (fun x y =>
        if inBlock (blkX s) (blkY s) 8 x y then
          some (cellPixel s.params.yuv
            (at8 s.roq.cells (quadCell q ((x - blkX s) / 4) ((y - blkY s) / 4)))
            ((x - blkX s) % 4 / 2) ((y - blkY s) % 4 / 2))
        else pixelAt s s.roq.wsel x y) s t

/-- SLD.4 draws the four cells of a quad-cell at native scale (42_roq_vq.md R197, R201). -/
def Obligations.Sld4Draws : Prop :=
  ∀ s : State, payloadLeft 1 s → buffersHold s → quadLoaded (payloadByte s 0) s →
    let q := at8 s.roq.quads (payloadByte s 0)
    ∃ t, exec .sld4 s = .next t ∧
      Drawn 1 (fun x y =>
        if inBlock (blkX s) (blkY s) 4 x y then
          some (cellPixel s.params.yuv
            (at8 s.roq.cells (quadCell q ((x - blkX s) / 2) ((y - blkY s) / 2)))
            ((x - blkX s) % 2) ((y - blkY s) % 2))
        else pixelAt s s.roq.wsel x y) s t

/-- CCC.4 draws four cells given by raw indices at native scale (42_roq_vq.md R200). -/
def Obligations.Ccc4Draws : Prop :=
  ∀ s : State, payloadLeft 4 s → buffersHold s → (∀ k, k < 4 → cellLoaded (payloadByte s k) s) →
    ∃ t, exec .ccc4 s = .next t ∧
      Drawn 4 (fun x y =>
        if inBlock (blkX s) (blkY s) 4 x y then
          some (cellPixel s.params.yuv
            (at8 s.roq.cells (payloadByte s (2 * ((y - blkY s) / 2) + (x - blkX s) / 2)))
            ((x - blkX s) % 2) ((y - blkY s) % 2))
        else pixelAt s s.roq.wsel x y) s t

/-- Under CB_STALE = fault, an index the latest codebook did not load faults: a quad-cell index faults SLD.8 and SLD.4 with nothing
drawn; a cell index, of a loaded quad-cell or given to CCC.4, faults with the cells before it drawn and nothing else (41_roq_chunks.md
R169; 42_roq_vq.md R196, R197, R200; 00_scope.md R12). What the buffers hold after a FAULT is log entry 11, and PAY_POS after it log
entry 13 (DEDUCED). -/
def Obligations.StaleIndexFaults : Prop :=
  ∀ s : State, s.params.cbStale = .fault →
    (payloadLeft 1 s → s.roq.n2Last.toNat ≤ (payloadByte s 0).toNat →
      exec .sld8 s = .next { s with
        ses := afterFault .cbStale s, roq := { s.roq with payPos := s.roq.payPos + 1 } } ∧
      exec .sld4 s = .next { s with
        ses := afterFault .cbStale s, roq := { s.roq with payPos := s.roq.payPos + 1 } }) ∧
    (payloadLeft 4 s → s.roq.n1Last.toNat ≤ (payloadByte s 0).toNat →
      exec .ccc4 s = .next { s with
        ses := afterFault .cbStale s, roq := { s.roq with payPos := s.roq.payPos + 4 } }) ∧
    (∀ (i : Instr) (h z used : Nat) (q : Quad) (k : Nat), buffersHold s → payloadLeft used s →
      (i = .sld8 ∧ h = 4 ∧ z = 2 ∧ used = 1 ∧ (payloadByte s 0).toNat < s.roq.n2Last.toNat ∧
          q = at8 s.roq.quads (payloadByte s 0) ∨
        i = .sld4 ∧ h = 2 ∧ z = 1 ∧ used = 1 ∧ (payloadByte s 0).toNat < s.roq.n2Last.toNat ∧
          q = at8 s.roq.quads (payloadByte s 0) ∨
        i = .ccc4 ∧ h = 2 ∧ z = 1 ∧ used = 4 ∧
          q = Quad.mk (payloadByte s 0) (payloadByte s 1) (payloadByte s 2) (payloadByte s 3)) →
      k < 4 → (∀ j, j < k → cellLoaded (quadCell q (j % 2) (j / 2)) s) →
      s.roq.n1Last.toNat ≤ (quadCell q (k % 2) (k / 2)).toNat →
        ∃ u, exec i s = .next { u with ses := afterFault .cbStale s } ∧
          Drawn used (fun x y => (quadPixels h z (blkX s) (blkY s) k s q x y).or (pixelAt s s.roq.wsel x y)) s u)

/-- A code whose operands the payload's end cuts off, or a CCC.8 that begins with a flag word the payload's end cuts off, faults with
F_PAYLOAD_OVERRUN and draws nothing: with no byte left any code that has operands, and CCC.8 with an empty code reader; with one to
three bytes left CCC.4, and with one byte left CCC.8 with an empty code reader, the bytes there taken (20_memory.md R65; 42_roq_vq.md
R191, R194 to R200). PAY_POS after the fault is log entry 13 (DEDUCED). -/
def Obligations.CodesOverrunThePayload : Prop :=
  (∀ (s : State) (i : Instr), s.roq.payEnd.toNat ≤ s.roq.payPos.toNat →
    (i ∈ [Instr.fcc8, .fcc4, .sld8, .sld4, .ccc4] ∨ i = .ccc8 ∧ s.roq.flgPos = 0) →
      exec i s = .next { s with ses := afterFault .payloadOverrun s }) ∧
  (∀ (s : State) (i : Instr) (left : Nat), s.roq.payPos.toNat + left = s.roq.payEnd.toNat →
    s.roq.payEnd.toNat ≤ s.ses.streamSize.toNat →
    (i = .ccc4 ∧ 1 ≤ left ∧ left ≤ 3 ∨ i = .ccc8 ∧ s.roq.flgPos = 0 ∧ left = 1) →
      exec i s = .next { s with
        ses := afterFault .payloadOverrun s, roq := { s.roq with payPos := s.roq.payEnd } })

/-- CCC.8 runs BLOCK4 at its four quarters, in order (42_roq_vq.md R198, 30_encoding.md R103). It completes where reading the codes of
its four quarters does, with the code reader where reading leaves it; and so without reading them when 18 payload bytes are left,
CB_STALE = stored, and neither the flag word nor any of those 18 bytes, operand bytes too, has a 2-bit pair equal to VQ_FCC. Either way
it touches no pixel outside its 8×8 block and nothing but the write buffer, the code reader, the block in hand and the cursor. The
block's far corner is below 2^32, as it is in every frame. -/
def Obligations.Ccc8Subdivides : Prop :=
  (∀ s : State,
    exec .ccc8 s = ((block4 (blkX s) (blkY s) s).bind fun _ s1 => (block4 (blkX s + 4) (blkY s) s1).bind fun _ s2 =>
      (block4 (blkX s) (blkY s + 4) s2).bind fun _ s3 => block4 (blkX s + 4) (blkY s + 4) s3).outcome) ∧
  (∀ (s : State) (r : CodeReader), buffersHold s → s.roq.payEnd.toNat ≤ s.ses.streamSize.toNat →
    blkX s + 8 ≤ 2 ^ 32 → blkY s + 8 ≤ 2 ^ 32 →
    readQuarters s s.roq.meanX s.roq.meanY (blkX s) (blkY s) (codeReader s) = some r →
      ∃ t, exec .ccc8 s = .next t ∧ BlockCoded s t ∧ codeReader t = r) ∧
  (∀ s : State, s.params.wf → s.params.cbStale = .stored → buffersHold s → payloadLeft 18 s → s.roq.flgPos.toNat ≤ 8 →
    blkX s + 8 ≤ 2 ^ 32 → blkY s + 8 ≤ 2 ^ 32 →
    noMotionCode s.params (s.roq.flg.extractLsb' 0 8) → noMotionCode s.params (s.roq.flg.extractLsb' 8 8) →
    (∀ k, k < 18 → noMotionCode s.params (payloadByte s k)) →
      ∃ t, exec .ccc8 s = .next t ∧ BlockCoded s t ∧
        s.roq.payPos.toNat ≤ t.roq.payPos.toNat ∧ t.roq.payPos.toNat ≤ s.roq.payPos.toNat + 18)

/-! ### The host's transactions and ports -/

/-- RESET leaves the state of 10_state.md R52, whatever the state before it, and RESET twice is RESET once (45_host_ops.md R261;
70_reset_and_hazards.md R311, its second sentence marked as derived). The parameters and the model's own requests, replies and draws
are not part of it (log entries 1 and 9); blockX and blockY, also the model's own, are 0 after it (log entry 10), and the mark where
the run in hand begins is set (log entry 18). -/
def Obligations.ResetClearsTheBlock : Prop :=
  (∀ (s : State) (rest : List HostOp), s.requests = .reset :: rest →
    step s = .next (answered rest .ok (afterReset s))) ∧
  (∀ s : State, afterReset (afterReset s) = afterReset s) ∧
  (∀ s : State,
    let t := afterReset s
    t.stream = [] ∧ sessionState t = .idle ∧
    t.ses = { fmt := .none, offset := 0, streamSize := 0, headerOffset := 0, flags := ⟨false, false, false, false⟩,
              frameRate := 0, stepCount := 0, result := .continue_, faulted := false, faultReason := .none, diag := ⟨0, false⟩ } ∧
    t.cin = { w := 0, h := 0, sndRate := 0, sndWidth := 0, sndChannels := 0, hcount := Vector.replicate 511 0,
              hused := Vector.replicate 511 false, root := Vector.replicate 256 0,
              pair := Vector.replicate 256 (Vector.replicate 255 (0, 0)), palette := Vector.replicate 256 ⟨0, 0, 0⟩,
              idxBuf := [], fb := [] } ∧
    t.huf = { node := 0, ctx := 0, inbyte := 0, bitsLeft := 0, pixRemain := 0, pixPos := 0, inPos := 0 } ∧
    t.roq = { w := 0, h := 0, infoSeen := false, cells := Vector.replicate 256 ⟨0, 0, 0, 0, 0, 0⟩,
              quads := Vector.replicate 256 ⟨0, 0, 0, 0⟩, n1Last := 0, n2Last := 0, buf0 := [], buf1 := [], wsel := false,
              dispSel := false, vqFrame := 0, flg := 0, flgPos := 0, xp := 0, yp := 0, meanX := 0, meanY := 0,
              blockX := 0, blockY := 0, accL := 0, accR := 0, payBase := 0, payEnd := 0, payPos := 0 } ∧
    t.ports = { audioOut := [], dispValid := false })

/-- OPEN_CIN and OPEN_ROQ fail, leaving the reset state with RESULT = OPEN_FAIL, on a stream that is too long, too short, or has a bad
header; OPEN_ROQ on any other stream opens it (45_host_ops.md R262, R263; 60_exceptions.md R287). -/
def Obligations.OpenSucceedsOrRefuses : Prop :=
  ∀ (s : State) (rest : List HostOp) (bytes : List Byte) (flags : Flags),
    (s.requests = .openCin bytes flags :: rest →
      (2 ^ 32 ≤ bytes.length ∨ bytes.length < 65556 ∨ (fieldAt bytes 0).toInt ≤ 0 ∨ (fieldAt bytes 4).toInt ≤ 0 ∨
        (fieldAt bytes 8).toInt < 0 ∨ (fieldAt bytes 12).toInt < 0 ∨ (fieldAt bytes 16).toInt < 0) →
      step s = .next (answered rest .openFail (refusedOpen s))) ∧
    (s.requests = .openRoq bytes flags :: rest →
      (2 ^ 32 ≤ bytes.length ∨ bytes.length < 8 ∨ le16 (bytes.getD 0 0) (bytes.getD 1 0) ≠ s.params.roqIdent) →
      step s = .next (answered rest .openFail (refusedOpen s))) ∧
    (s.requests = .openRoq bytes flags :: rest → bytes.length < 2 ^ 32 → 8 ≤ bytes.length →
      le16 (bytes.getD 0 0) (bytes.getD 1 0) = s.params.roqIdent →
      step s = .next (answered rest .ok { openedWith bytes flags s with
        ses := { (openedWith bytes flags s).ses with
          frameRate :=
            if le16 (bytes.getD 6 0) (bytes.getD 7 0) = 0 then 30 else le16 (bytes.getD 6 0) (bytes.getD 7 0)
          headerOffset := 8, offset := 8, fmt := .roq } }))

/-- After a fault, STEP and REWIND answer FAULT and change nothing else, and only RESET or OPEN clears the fault. RESET or OPEN begins
a well-defined run, whatever was returned before; every other request adds its answer to the run in hand, and the answer FAULT refuses
the run: it has no observation from then on (60_exceptions.md R283; 70_reset_and_hazards.md R326, and R313, which the spec marks as
derived). That an OPEN begins a run, as the RESET inside it does, is log entry 18 (DEDUCED). -/
def Obligations.FaultIsSticky : Prop :=
  (∀ (s : State) (op : HostOp) (rest : List HostOp), s.ses.faulted = true → (op = .step ∨ op = .rewind) →
    s.requests = op :: rest →
    step s = .next (answered rest .fault { s with ses := { s.ses with result := .fault } })) ∧
  (∀ (s t : State) (op : HostOp) (rest : List HostOp), s.requests = op :: rest → op.closes = false →
    s.ses.faulted = true → step s = .next t → t.ses.faulted = true ∧ t.ses.faultReason = s.ses.faultReason) ∧
  (∀ (s t : State) (op : HostOp) (rest : List HostOp), s.requests = op :: rest → op.closes = true → step s = .next t →
    ∃ r, (r = .ok ∨ r = .openFail) ∧ t.replies = s.replies ++ [r] ∧ observation t = some [r]) ∧
  (∀ (s t : State) (op : HostOp) (rest : List HostOp), s.requests = op :: rest → op.closes = false → step s = .next t →
    s.runStart ≤ s.replies.length →
      ∃ r, t.replies = s.replies ++ [r] ∧
        observation t = if r = .fault then none else (observation s).map (· ++ [r]))

/-- REWIND puts the cursor back and keeps everything else; with no session it does nothing (45_host_ops.md R265). -/
def Obligations.RewindKeepsTheRest : Prop :=
  ∀ (s : State) (rest : List HostOp), s.requests = .rewind :: rest → s.ses.faulted = false →
    (s.ses.fmt = .none → step s = .next (answered rest .ok s)) ∧
    (s.ses.fmt ≠ .none → step s = .next (answered rest .ok { s with
      ses := { s.ses with offset := s.ses.headerOffset, stepCount := 0, result := .continue_ }
      roq := { s.roq with vqFrame := 0 } }))

/-- The port reads: READ_FRAME gives the display image, DRAIN_AUDIO takes the oldest record, READ_STATUS shows the registers; none
changes anything else (45_host_ops.md R266 to R268, 10_state.md R48). After a FAULT the image is free (log entry 6). -/
def Obligations.PortReads : Prop :=
  ∀ (s : State) (rest : List HostOp),
    (s.requests = .readFrame :: rest → s.ports.dispValid = false → step s = .next (answered rest .noFrame s)) ∧
    (s.requests = .readFrame :: rest → s.ports.dispValid = true → s.ses.faulted = false → s.ses.fmt = .cin →
      step s = .next (answered rest (.frame s.cin.w.toInt.toNat s.cin.h.toInt.toNat s.cin.fb) s)) ∧
    (s.requests = .readFrame :: rest → s.ports.dispValid = true → s.ses.faulted = false → s.ses.fmt = .roq →
      step s = .next (answered rest
        (.frame s.roq.w.toNat s.roq.h.toNat (if s.roq.dispSel then s.roq.buf1 else s.roq.buf0)) s)) ∧
    (s.requests = .drainAudio :: rest → s.ports.audioOut = [] → step s = .next (answered rest .empty s)) ∧
    (∀ r more, s.requests = .drainAudio :: rest → s.ports.audioOut = r :: more →
      step s = .next (answered rest (.audio r) { s with ports := { s.ports with audioOut := more } })) ∧
    (s.requests = .readStatus :: rest →
      step s = .next (answered rest (.status
        { fmt := s.ses.fmt, result := s.ses.result, faulted := s.ses.faulted, faultReason := s.ses.faultReason,
          diag := s.ses.diag, frameRate := s.ses.frameRate, stepCount := s.ses.stepCount, flags := s.ses.flags,
          dispValid := s.ports.dispValid }) s))

/-- STEP with no session, and STEP with OFFSET at the stream's end, answer END_OF_STREAM and change nothing but RESULT; STEP where the
stream ends inside the command or the chunk header answers END_OF_STREAM with OFFSET at the stream's end (40_huffman.md R130, R138;
41_roq_chunks.md R162; 60_exceptions.md R284, R285); with no request the block does nothing (45_host_ops.md R264; R270 and
70_reset_and_hazards.md R312, which the spec marks as derived). -/
def Obligations.IdleAndEndedSteps : Prop :=
  (∀ (s : State) (rest : List HostOp), s.requests = .step :: rest → s.ses.faulted = false →
    (s.ses.fmt = .none ∨ s.ses.offset = s.ses.streamSize) →
      step s = .next (answered rest .endOfStream { s with ses := { s.ses with result := .endOfStream } })) ∧
  (∀ (s : State) (rest : List HostOp) (place : Place), s.requests = .step :: rest → s.ses.faulted = false →
    (s.ses.fmt = .cin ∧ place = .cinRecord ∨ s.ses.fmt = .roq ∧ place = .roqChunk) →
    s.ses.streamSize.toNat < s.ses.offset.toNat + unitBytes place →
      step s = .next (answered rest .endOfStream { s with ses := afterEnd s })) ∧
  (∀ s : State, s.requests = [] → step s = .next s)

/-! ### The whole machine -/

/-- A STEP that faults leaves the cursor, the counts, DIAG and the ports, and records its reason (60_exceptions.md R283). -/
def Obligations.FaultKeepsTheCursor : Prop :=
  ∀ (s t : State) (rest : List HostOp), s.requests = .step :: rest → s.ses.faulted = false → s.ses.faultReason = .none →
    step s = .next t → t.ses.faulted = true →
      (∃ r, r ≠ .none ∧ t.ses = afterFault r s) ∧ t.ports = s.ports ∧ t.replies = s.replies ++ [.fault]

/-- Nothing writes the parameters, which are a read-only field of the model's State (00_scope.md R8; log entry 1, DESIGN CHOICE), and
nothing but RESET and OPEN writes the stream, STREAM_SIZE, HEADER_OFFSET, FMT, FRAME_RATE or FLAGS (20_memory.md R60, R61; 10_state.md
R21 to R26). -/
def Obligations.StreamAndParametersStay : Prop :=
  ∀ s t : State, step s = .next t →
    t.params = s.params ∧
    ((∀ op rest, s.requests = op :: rest → op.closes = false) →
      t.stream = s.stream ∧ t.ses.streamSize = s.ses.streamSize ∧ t.ses.headerOffset = s.ses.headerOffset ∧
      t.ses.fmt = s.ses.fmt ∧ t.ses.frameRate = s.ses.frameRate ∧ t.ses.flags = s.ses.flags)

/-- A STEP of a RoQ session leaves the CIN unit, the Huffman registers and DIAG; one of a CIN session leaves the RoQ unit and the
forest, and appends at most one audio record; both leave every record already in AUDIO_OUT (60_exceptions.md R288; 20_memory.md R76;
40_huffman.md R121). -/
def Obligations.UnitsStayApart : Prop :=
  ∀ (s t : State) (rest : List HostOp), s.requests = .step :: rest → step s = .next t →
    (s.ses.fmt = .roq → t.cin = s.cin ∧ t.huf = s.huf ∧ t.ses.diag = s.ses.diag) ∧
    (s.ses.fmt = .cin → t.roq = s.roq ∧ t.cin.root = s.cin.root ∧ t.cin.pair = s.cin.pair) ∧
    (∃ l, t.ports.audioOut = s.ports.audioOut ++ l ∧ l.length ≤ 1 ∧ (s.ses.flags.silent = true → l = []))

/-- Every STEP that answers CONTINUE moves OFFSET strictly forward, and not past STREAM_SIZE (45_host_ops.md R271,
which the spec marks as derived). -/
def Obligations.ContinueAdvances : Prop :=
  ∀ (s t : State) (rest : List HostOp), Inv s → s.requests = .step :: rest → step s = .next t →
    t.replies = s.replies ++ [.continue_] →
      s.ses.offset.toNat < t.ses.offset.toNat ∧ t.ses.offset.toNat ≤ s.ses.streamSize.toNat

/-- A host that calls STEP until another answer than CONTINUE comes has it within STREAM_SIZE + 1 STEPs (45_host_ops.md R271,
which the spec marks as derived, and 70_reset_and_hazards.md R324). -/
def Obligations.StepsEndWithinTheStream : Prop :=
  ∀ s : State, Inv s → s.requests = List.replicate (s.ses.streamSize.toNat + 1) .step →
    ∃ (t : State) (answers : List Reply),
      Host.Core.run Sys2Proof.core (s.ses.streamSize.toNat + 1) s = .next t ∧
      t.replies = s.replies ++ answers ∧ ∃ r ∈ answers, r ≠ .continue_

/-- Every step keeps the invariant, from every state that has it (20_memory.md R60; 10_state.md R22, R32, R41, R44; 40_huffman.md
R140; 41_roq_chunks.md R166; 60_exceptions.md R283; 70_reset_and_hazards.md R326). Where a run begins is log entry 18 (DEDUCED). -/
def Obligations.EveryStepKeepsTheInvariant : Prop := ∀ s t : State, Inv s → step s = .next t → Inv t

/-- The reset state has the invariant. -/
def Obligations.ResetMeetsTheInvariant : Prop := Inv State.reset

/-- In a state that has the invariant every step answers a next state: no access the spec rules out is made, no VQ code is
unassigned, and every decode loop ends within its bound (40_huffman.md R140; 42_roq_vq.md R203; 70_reset_and_hazards.md R323; the
spec marks all three as derived). -/
def Obligations.TheMachineNeverStops : Prop := ∀ s : State, Inv s → ∃ t, step s = .next t
end

