-- ==== Sys2Proof/Laws/Encoding.lean ====
section
/-! SUPPORT. Fields and their bytes: each field is read back from its bytes, and each run of bytes is the bytes of the field it is
read as (20_memory.md R63). -/

namespace Sys2Proof

theorem le16_toNat (b0 b1 : Byte) : (le16 b0 b1).toNat = b0.toNat + 256 * b1.toNat := by
  have := b0.isLt
  simp only [le16, BitVec.toNat_append]
  rw [← Nat.shiftLeft_add_eq_or_of_lt this, Nat.shiftLeft_eq]
  omega

theorem le32_toNat (b0 b1 b2 b3 : Byte) :
    (le32 b0 b1 b2 b3).toNat = b0.toNat + 256 * b1.toNat + 65536 * b2.toNat + 16777216 * b3.toNat := by
  simp only [le32, BitVec.toNat_append]
  rw [← Nat.shiftLeft_add_eq_or_of_lt (le16 b0 b1).isLt, Nat.shiftLeft_eq, le16_toNat, le16_toNat]
  omega

/-- A 16-bit field is read back from its bytes. -/
theorem le16_bytes (h : Half) : le16 (h.extractLsb' 0 8) (h.extractLsb' 8 8) = h := by
  have := h.isLt
  apply BitVec.eq_of_toNat_eq
  rw [le16_toNat]
  simp only [BitVec.extractLsb'_toNat, Nat.shiftRight_eq_div_pow]
  omega

/-- A 32-bit field is read back from its bytes. -/
theorem le32_bytes (w : Word) :
    le32 (w.extractLsb' 0 8) (w.extractLsb' 8 8) (w.extractLsb' 16 8) (w.extractLsb' 24 8) = w := by
  have := w.isLt
  apply BitVec.eq_of_toNat_eq
  rw [le32_toNat]
  simp only [BitVec.extractLsb'_toNat, Nat.shiftRight_eq_div_pow]
  omega

/-- Two bytes are the bytes of the field they are read as. -/
theorem bytes16_le (b0 b1 : Byte) : bytes16 (le16 b0 b1) = [b0, b1] := by
  have h0 := b0.isLt
  have h1 := b1.isLt
  simp only [bytes16, List.cons.injEq, and_true]
  constructor <;> apply BitVec.eq_of_toNat_eq <;>
    simp only [BitVec.extractLsb'_toNat, Nat.shiftRight_eq_div_pow, le16_toNat] <;> omega

/-- Four bytes are the bytes of the field they are read as. -/
theorem bytes32_le (b0 b1 b2 b3 : Byte) : bytes32 (le32 b0 b1 b2 b3) = [b0, b1, b2, b3] := by
  have h0 := b0.isLt
  have h1 := b1.isLt
  have h2 := b2.isLt
  have h3 := b3.isLt
  simp only [bytes32, List.cons.injEq, and_true]
  refine ⟨?_, ?_, ?_, ?_⟩ <;> apply BitVec.eq_of_toNat_eq <;>
    simp only [BitVec.extractLsb'_toNat, Nat.shiftRight_eq_div_pow, le32_toNat] <;> omega

/-- A 2-bit code is read back from the byte it stands in. -/
theorem code_of_byte (c : BitVec 2) : (c.zeroExtend 8).extractLsb' 0 2 = c := by revert c; decide

/-! ### What each reader answers on a header written out by the encoder -/

theorem decodeCinStart_bytes (a b c d e : Word) (rest : List Byte) :
    decodeCinStart (bytes32 a ++ bytes32 b ++ bytes32 c ++ bytes32 d ++ bytes32 e ++ rest) =
      .ok (.cinHeader a b c d e, rest) := by
  simp only [bytes32, List.cons_append, List.nil_append, decodeCinStart, le32_bytes]

theorem decodeCinRecord_bytes (cmd : Word) (rest : List Byte) :
    decodeCinRecord (bytes32 cmd ++ rest) = .ok (cinInstr cmd, rest) := by
  simp only [bytes32, List.cons_append, List.nil_append, decodeCinRecord, le32_bytes]

theorem decodeRoqStart_bytes (p : Params) (unused : Word) (fps : Half) (rest : List Byte) :
    decodeRoqStart p (bytes16 p.roqIdent ++ bytes32 unused ++ bytes16 fps ++ rest) =
      .ok (.roqHeader unused fps, rest) := by
  simp only [bytes16, bytes32, List.cons_append, List.nil_append, decodeRoqStart, le16_bytes, le32_bytes, if_true]

theorem decodeRoqChunk_bytes (p : Params) (id : Half) (size : Word) (arg : Half) (rest : List Byte) :
    decodeRoqChunk p (encodeChunk id size arg ++ rest) = .ok (chunkInstr p id size arg, rest) := by
  simp only [encodeChunk, bytes16, bytes32, List.cons_append, List.nil_append, decodeRoqChunk, le16_bytes, le32_bytes]

theorem decodeCode_byte (p : Params) (place : Place) (f : VqCode → Instr) (c : BitVec 2) (rest : List Byte) :
    decodeCode p place f (encodeCode c ++ rest) =
      match vqCode? p c with
      | some k => .ok (f k, rest)
      | none => .error (.noSuchCode c) := by
  cases h : vqCode? p c <;> simp only [encodeCode, List.cons_append, List.nil_append, decodeCode, code_of_byte, h]

/-- The value a code kind has among the parameters. -/
def VqCode.value (p : Params) : VqCode → BitVec 2
  | .mot => p.vqMot
  | .fcc => p.vqFcc
  | .sld => p.vqSld
  | .ccc => p.vqCcc

/-- A kind is selected by its own value only. -/
theorem vqCode?_value {p : Params} {c : BitVec 2} {k : VqCode} (h : vqCode? p c = some k) : k.value p = c := by
  unfold vqCode? at h
  split at h
  · cases h; simp [VqCode.value, *]
  · split at h
    · cases h; simp [VqCode.value, *]
    · split at h
      · cases h; simp [VqCode.value, *]
      · split at h
        · cases h; simp [VqCode.value, *]
        · cases h

/-- Four distinct values leave none of the four 2-bit values without a kind (42_roq_vq.md R203). -/
theorem vqCode?_isSome {p : Params} (hp : p.wf) (c : BitVec 2) : ∃ k, vqCode? p c = some k := by
  have key : ∀ a b c d e : BitVec 2, [a, b, c, d].Nodup → e = a ∨ e = b ∨ e = c ∨ e = d := by decide
  unfold vqCode?
  rcases key _ _ _ _ c hp.2.1 with h | h | h | h <;> subst h <;> (repeat' split) <;> simp_all

/-- Under four distinct values, each kind's own value selects it. -/
theorem vqCode?_of_value {p : Params} (hp : p.wf) (k : VqCode) : vqCode? p (k.value p) = some k := by
  have h := hp.2.1
  simp only [List.nodup_cons, List.mem_cons, List.not_mem_nil, or_false, not_or] at h
  obtain ⟨⟨h1, h2, h3⟩, ⟨h4, h5⟩, h6, -⟩ := h
  cases k
  · simp [vqCode?, VqCode.value]
  · simp [vqCode?, VqCode.value, Ne.symm h1]
  · simp [vqCode?, VqCode.value, Ne.symm h2, Ne.symm h4]
  · simp [vqCode?, VqCode.value, Ne.symm h3, Ne.symm h5, Ne.symm h6]

end Sys2Proof
end

