-- ==== Sys2Proof/Laws/State.lean ====
section
/-! SUPPORT. For every update of the state, one lemma per field: what it leaves and what it writes. -/

namespace Sys2Proof.Machine

/-! `setOffset` -/
@[simp] theorem setOffset_params (v : Word) (s : State) :
    (setOffset v s).params = s.params := rfl
@[simp] theorem setOffset_stream (v : Word) (s : State) :
    (setOffset v s).stream = s.stream := rfl
@[simp] theorem setOffset_ses (v : Word) (s : State) :
    (setOffset v s).ses = { s.ses with offset := v } := rfl
@[simp] theorem setOffset_cin (v : Word) (s : State) :
    (setOffset v s).cin = s.cin := rfl
@[simp] theorem setOffset_huf (v : Word) (s : State) :
    (setOffset v s).huf = s.huf := rfl
@[simp] theorem setOffset_roq (v : Word) (s : State) :
    (setOffset v s).roq = s.roq := rfl
@[simp] theorem setOffset_ports (v : Word) (s : State) :
    (setOffset v s).ports = s.ports := rfl
@[simp] theorem setOffset_requests (v : Word) (s : State) :
    (setOffset v s).requests = s.requests := rfl
@[simp] theorem setOffset_replies (v : Word) (s : State) :
    (setOffset v s).replies = s.replies := rfl
@[simp] theorem setOffset_runStart (v : Word) (s : State) :
    (setOffset v s).runStart = s.runStart := rfl
@[simp] theorem setOffset_draws (v : Word) (s : State) :
    (setOffset v s).draws = s.draws := rfl

/-! `retContinue` -/
@[simp] theorem retContinue_params (s : State) :
    (retContinue s).params = s.params := rfl
@[simp] theorem retContinue_stream (s : State) :
    (retContinue s).stream = s.stream := rfl
@[simp] theorem retContinue_ses (s : State) :
    (retContinue s).ses = { s.ses with stepCount := s.ses.stepCount + 1, result := .continue_ } := rfl
@[simp] theorem retContinue_cin (s : State) :
    (retContinue s).cin = s.cin := rfl
@[simp] theorem retContinue_huf (s : State) :
    (retContinue s).huf = s.huf := rfl
@[simp] theorem retContinue_roq (s : State) :
    (retContinue s).roq = s.roq := rfl
@[simp] theorem retContinue_ports (s : State) :
    (retContinue s).ports = s.ports := rfl
@[simp] theorem retContinue_requests (s : State) :
    (retContinue s).requests = s.requests := rfl
@[simp] theorem retContinue_replies (s : State) :
    (retContinue s).replies = s.replies := rfl
@[simp] theorem retContinue_runStart (s : State) :
    (retContinue s).runStart = s.runStart := rfl
@[simp] theorem retContinue_draws (s : State) :
    (retContinue s).draws = s.draws := rfl

/-! `retEnd` -/
@[simp] theorem retEnd_params (s : State) :
    (retEnd s).params = s.params := rfl
@[simp] theorem retEnd_stream (s : State) :
    (retEnd s).stream = s.stream := rfl
@[simp] theorem retEnd_ses (s : State) :
    (retEnd s).ses = { s.ses with result := .endOfStream } := rfl
@[simp] theorem retEnd_cin (s : State) :
    (retEnd s).cin = s.cin := rfl
@[simp] theorem retEnd_huf (s : State) :
    (retEnd s).huf = s.huf := rfl
@[simp] theorem retEnd_roq (s : State) :
    (retEnd s).roq = s.roq := rfl
@[simp] theorem retEnd_ports (s : State) :
    (retEnd s).ports = s.ports := rfl
@[simp] theorem retEnd_requests (s : State) :
    (retEnd s).requests = s.requests := rfl
@[simp] theorem retEnd_replies (s : State) :
    (retEnd s).replies = s.replies := rfl
@[simp] theorem retEnd_runStart (s : State) :
    (retEnd s).runStart = s.runStart := rfl
@[simp] theorem retEnd_draws (s : State) :
    (retEnd s).draws = s.draws := rfl

/-! `anomaly` -/
@[simp] theorem anomaly_params (s : State) :
    (anomaly s).params = s.params := rfl
@[simp] theorem anomaly_stream (s : State) :
    (anomaly s).stream = s.stream := rfl
@[simp] theorem anomaly_ses (s : State) :
    (anomaly s).ses = { s.ses with offset := s.ses.streamSize, result := .endOfStream } := rfl
@[simp] theorem anomaly_cin (s : State) :
    (anomaly s).cin = s.cin := rfl
@[simp] theorem anomaly_huf (s : State) :
    (anomaly s).huf = s.huf := rfl
@[simp] theorem anomaly_roq (s : State) :
    (anomaly s).roq = s.roq := rfl
@[simp] theorem anomaly_ports (s : State) :
    (anomaly s).ports = s.ports := rfl
@[simp] theorem anomaly_requests (s : State) :
    (anomaly s).requests = s.requests := rfl
@[simp] theorem anomaly_replies (s : State) :
    (anomaly s).replies = s.replies := rfl
@[simp] theorem anomaly_runStart (s : State) :
    (anomaly s).runStart = s.runStart := rfl
@[simp] theorem anomaly_draws (s : State) :
    (anomaly s).draws = s.draws := rfl

/-! `frameSizeAnomaly` -/
@[simp] theorem frameSizeAnomaly_params (s : State) :
    (frameSizeAnomaly s).params = s.params := rfl
@[simp] theorem frameSizeAnomaly_stream (s : State) :
    (frameSizeAnomaly s).stream = s.stream := rfl
@[simp] theorem frameSizeAnomaly_ses (s : State) :
    (frameSizeAnomaly s).ses = { s.ses with offset := s.ses.streamSize, stepCount := s.ses.stepCount + 1, result := .continue_ } := rfl
@[simp] theorem frameSizeAnomaly_cin (s : State) :
    (frameSizeAnomaly s).cin = s.cin := rfl
@[simp] theorem frameSizeAnomaly_huf (s : State) :
    (frameSizeAnomaly s).huf = s.huf := rfl
@[simp] theorem frameSizeAnomaly_roq (s : State) :
    (frameSizeAnomaly s).roq = s.roq := rfl
@[simp] theorem frameSizeAnomaly_ports (s : State) :
    (frameSizeAnomaly s).ports = s.ports := rfl
@[simp] theorem frameSizeAnomaly_requests (s : State) :
    (frameSizeAnomaly s).requests = s.requests := rfl
@[simp] theorem frameSizeAnomaly_replies (s : State) :
    (frameSizeAnomaly s).replies = s.replies := rfl
@[simp] theorem frameSizeAnomaly_runStart (s : State) :
    (frameSizeAnomaly s).runStart = s.runStart := rfl
@[simp] theorem frameSizeAnomaly_draws (s : State) :
    (frameSizeAnomaly s).draws = s.draws := rfl

/-! `takeFault` -/
@[simp] theorem takeFault_params (r : FaultReason) (s : State) :
    (takeFault r s).params = s.params := rfl
@[simp] theorem takeFault_stream (r : FaultReason) (s : State) :
    (takeFault r s).stream = s.stream := rfl
@[simp] theorem takeFault_ses (r : FaultReason) (s : State) :
    (takeFault r s).ses = { s.ses with
      faulted := true, faultReason := if s.ses.faultReason = .none then r else s.ses.faultReason, result := .fault } := rfl
@[simp] theorem takeFault_cin (r : FaultReason) (s : State) :
    (takeFault r s).cin = s.cin := rfl
@[simp] theorem takeFault_huf (r : FaultReason) (s : State) :
    (takeFault r s).huf = s.huf := rfl
@[simp] theorem takeFault_roq (r : FaultReason) (s : State) :
    (takeFault r s).roq = s.roq := rfl
@[simp] theorem takeFault_ports (r : FaultReason) (s : State) :
    (takeFault r s).ports = s.ports := rfl
@[simp] theorem takeFault_requests (r : FaultReason) (s : State) :
    (takeFault r s).requests = s.requests := rfl
@[simp] theorem takeFault_replies (r : FaultReason) (s : State) :
    (takeFault r s).replies = s.replies := rfl
@[simp] theorem takeFault_runStart (r : FaultReason) (s : State) :
    (takeFault r s).runStart = s.runStart := rfl
@[simp] theorem takeFault_draws (r : FaultReason) (s : State) :
    (takeFault r s).draws = s.draws := rfl

/-! `audioOut` -/
@[simp] theorem audioOut_params (r : AudioRecord) (s : State) :
    (audioOut r s).params = s.params := rfl
@[simp] theorem audioOut_stream (r : AudioRecord) (s : State) :
    (audioOut r s).stream = s.stream := rfl
@[simp] theorem audioOut_ses (r : AudioRecord) (s : State) :
    (audioOut r s).ses = s.ses := rfl
@[simp] theorem audioOut_cin (r : AudioRecord) (s : State) :
    (audioOut r s).cin = s.cin := rfl
@[simp] theorem audioOut_huf (r : AudioRecord) (s : State) :
    (audioOut r s).huf = s.huf := rfl
@[simp] theorem audioOut_roq (r : AudioRecord) (s : State) :
    (audioOut r s).roq = s.roq := rfl
@[simp] theorem audioOut_ports (r : AudioRecord) (s : State) :
    (audioOut r s).ports = { s.ports with audioOut := s.ports.audioOut ++ [r] } := rfl
@[simp] theorem audioOut_requests (r : AudioRecord) (s : State) :
    (audioOut r s).requests = s.requests := rfl
@[simp] theorem audioOut_replies (r : AudioRecord) (s : State) :
    (audioOut r s).replies = s.replies := rfl
@[simp] theorem audioOut_runStart (r : AudioRecord) (s : State) :
    (audioOut r s).runStart = s.runStart := rfl
@[simp] theorem audioOut_draws (r : AudioRecord) (s : State) :
    (audioOut r s).draws = s.draws := rfl

/-! `respond` -/
@[simp] theorem respond_params (r : Reply) (s : State) :
    (respond r s).params = s.params := rfl
@[simp] theorem respond_stream (r : Reply) (s : State) :
    (respond r s).stream = s.stream := rfl
@[simp] theorem respond_ses (r : Reply) (s : State) :
    (respond r s).ses = s.ses := rfl
@[simp] theorem respond_cin (r : Reply) (s : State) :
    (respond r s).cin = s.cin := rfl
@[simp] theorem respond_huf (r : Reply) (s : State) :
    (respond r s).huf = s.huf := rfl
@[simp] theorem respond_roq (r : Reply) (s : State) :
    (respond r s).roq = s.roq := rfl
@[simp] theorem respond_ports (r : Reply) (s : State) :
    (respond r s).ports = s.ports := rfl
@[simp] theorem respond_requests (r : Reply) (s : State) :
    (respond r s).requests = s.requests := rfl
@[simp] theorem respond_replies (r : Reply) (s : State) :
    (respond r s).replies = s.replies ++ [r] := rfl
@[simp] theorem respond_runStart (r : Reply) (s : State) :
    (respond r s).runStart = s.runStart := rfl
@[simp] theorem respond_draws (r : Reply) (s : State) :
    (respond r s).draws = s.draws := rfl

/-! `resetBlock` -/
@[simp] theorem resetBlock_params (s : State) :
    (resetBlock s).params = s.params := rfl
@[simp] theorem resetBlock_stream (s : State) :
    (resetBlock s).stream = [] := rfl
@[simp] theorem resetBlock_ses (s : State) :
    (resetBlock s).ses = State.reset.ses := rfl
@[simp] theorem resetBlock_cin (s : State) :
    (resetBlock s).cin = State.reset.cin := rfl
@[simp] theorem resetBlock_huf (s : State) :
    (resetBlock s).huf = State.reset.huf := rfl
@[simp] theorem resetBlock_roq (s : State) :
    (resetBlock s).roq = State.reset.roq := rfl
@[simp] theorem resetBlock_ports (s : State) :
    (resetBlock s).ports = State.reset.ports := rfl
@[simp] theorem resetBlock_requests (s : State) :
    (resetBlock s).requests = s.requests := rfl
@[simp] theorem resetBlock_replies (s : State) :
    (resetBlock s).replies = s.replies := rfl
@[simp] theorem resetBlock_runStart (s : State) :
    (resetBlock s).runStart = s.replies.length := rfl
@[simp] theorem resetBlock_draws (s : State) :
    (resetBlock s).draws = s.draws := rfl

/-! `openFailed` -/
@[simp] theorem openFailed_params (s : State) :
    (openFailed s).params = s.params := rfl
@[simp] theorem openFailed_stream (s : State) :
    (openFailed s).stream = [] := rfl
@[simp] theorem openFailed_ses (s : State) :
    (openFailed s).ses = { State.reset.ses with result := .openFail } := rfl
@[simp] theorem openFailed_cin (s : State) :
    (openFailed s).cin = State.reset.cin := rfl
@[simp] theorem openFailed_huf (s : State) :
    (openFailed s).huf = State.reset.huf := rfl
@[simp] theorem openFailed_roq (s : State) :
    (openFailed s).roq = State.reset.roq := rfl
@[simp] theorem openFailed_ports (s : State) :
    (openFailed s).ports = State.reset.ports := rfl
@[simp] theorem openFailed_requests (s : State) :
    (openFailed s).requests = s.requests := rfl
@[simp] theorem openFailed_replies (s : State) :
    (openFailed s).replies = s.replies := rfl
@[simp] theorem openFailed_runStart (s : State) :
    (openFailed s).runStart = s.replies.length := rfl
@[simp] theorem openFailed_draws (s : State) :
    (openFailed s).draws = s.draws := rfl

/-! `loadStream` -/
@[simp] theorem loadStream_params (bs : List Byte) (f : Flags) (s : State) :
    (loadStream bs f s).params = s.params := rfl
@[simp] theorem loadStream_stream (bs : List Byte) (f : Flags) (s : State) :
    (loadStream bs f s).stream = Memory.load bs := rfl
@[simp] theorem loadStream_ses (bs : List Byte) (f : Flags) (s : State) :
    (loadStream bs f s).ses = { s.ses with streamSize := BitVec.ofNat 32 bs.length, flags := f } := rfl
@[simp] theorem loadStream_cin (bs : List Byte) (f : Flags) (s : State) :
    (loadStream bs f s).cin = s.cin := rfl
@[simp] theorem loadStream_huf (bs : List Byte) (f : Flags) (s : State) :
    (loadStream bs f s).huf = s.huf := rfl
@[simp] theorem loadStream_roq (bs : List Byte) (f : Flags) (s : State) :
    (loadStream bs f s).roq = s.roq := rfl
@[simp] theorem loadStream_ports (bs : List Byte) (f : Flags) (s : State) :
    (loadStream bs f s).ports = s.ports := rfl
@[simp] theorem loadStream_requests (bs : List Byte) (f : Flags) (s : State) :
    (loadStream bs f s).requests = s.requests := rfl
@[simp] theorem loadStream_replies (bs : List Byte) (f : Flags) (s : State) :
    (loadStream bs f s).replies = s.replies := rfl
@[simp] theorem loadStream_runStart (bs : List Byte) (f : Flags) (s : State) :
    (loadStream bs f s).runStart = s.runStart := rfl
@[simp] theorem loadStream_draws (bs : List Byte) (f : Flags) (s : State) :
    (loadStream bs f s).draws = s.draws := rfl

/-! `rewound` -/
@[simp] theorem rewound_params (s : State) :
    (rewound s).params = s.params := rfl
@[simp] theorem rewound_stream (s : State) :
    (rewound s).stream = s.stream := rfl
@[simp] theorem rewound_ses (s : State) :
    (rewound s).ses = { s.ses with offset := s.ses.headerOffset, stepCount := 0, result := .continue_ } := rfl
@[simp] theorem rewound_cin (s : State) :
    (rewound s).cin = s.cin := rfl
@[simp] theorem rewound_huf (s : State) :
    (rewound s).huf = s.huf := rfl
@[simp] theorem rewound_roq (s : State) :
    (rewound s).roq = { s.roq with vqFrame := 0 } := rfl
@[simp] theorem rewound_ports (s : State) :
    (rewound s).ports = s.ports := rfl
@[simp] theorem rewound_requests (s : State) :
    (rewound s).requests = s.requests := rfl
@[simp] theorem rewound_replies (s : State) :
    (rewound s).replies = s.replies := rfl
@[simp] theorem rewound_runStart (s : State) :
    (rewound s).runStart = s.runStart := rfl
@[simp] theorem rewound_draws (s : State) :
    (rewound s).draws = s.draws := rfl

/-! `setCinHeader` -/
@[simp] theorem setCinHeader_params (w h rate width channels : Word) (s : State) :
    (setCinHeader w h rate width channels s).params = s.params := rfl
@[simp] theorem setCinHeader_stream (w h rate width channels : Word) (s : State) :
    (setCinHeader w h rate width channels s).stream = s.stream := rfl
@[simp] theorem setCinHeader_ses (w h rate width channels : Word) (s : State) :
    (setCinHeader w h rate width channels s).ses = s.ses := rfl
@[simp] theorem setCinHeader_cin (w h rate width channels : Word) (s : State) :
    (setCinHeader w h rate width channels s).cin = { s.cin with w := w, h := h, sndRate := rate, sndWidth := width, sndChannels := channels } := rfl
@[simp] theorem setCinHeader_huf (w h rate width channels : Word) (s : State) :
    (setCinHeader w h rate width channels s).huf = s.huf := rfl
@[simp] theorem setCinHeader_roq (w h rate width channels : Word) (s : State) :
    (setCinHeader w h rate width channels s).roq = s.roq := rfl
@[simp] theorem setCinHeader_ports (w h rate width channels : Word) (s : State) :
    (setCinHeader w h rate width channels s).ports = s.ports := rfl
@[simp] theorem setCinHeader_requests (w h rate width channels : Word) (s : State) :
    (setCinHeader w h rate width channels s).requests = s.requests := rfl
@[simp] theorem setCinHeader_replies (w h rate width channels : Word) (s : State) :
    (setCinHeader w h rate width channels s).replies = s.replies := rfl
@[simp] theorem setCinHeader_runStart (w h rate width channels : Word) (s : State) :
    (setCinHeader w h rate width channels s).runStart = s.runStart := rfl
@[simp] theorem setCinHeader_draws (w h rate width channels : Word) (s : State) :
    (setCinHeader w h rate width channels s).draws = s.draws := rfl

/-! `startCin` -/
@[simp] theorem startCin_params (s : State) :
    (startCin s).params = s.params := rfl
@[simp] theorem startCin_stream (s : State) :
    (startCin s).stream = s.stream := rfl
@[simp] theorem startCin_ses (s : State) :
    (startCin s).ses = { s.ses with headerOffset := 65556, offset := 65556, frameRate := 14, fmt := .cin, stepCount := 0, result := .continue_ } := rfl
@[simp] theorem startCin_cin (s : State) :
    (startCin s).cin = s.cin := rfl
@[simp] theorem startCin_huf (s : State) :
    (startCin s).huf = s.huf := rfl
@[simp] theorem startCin_roq (s : State) :
    (startCin s).roq = s.roq := rfl
@[simp] theorem startCin_ports (s : State) :
    (startCin s).ports = s.ports := rfl
@[simp] theorem startCin_requests (s : State) :
    (startCin s).requests = s.requests := rfl
@[simp] theorem startCin_replies (s : State) :
    (startCin s).replies = s.replies := rfl
@[simp] theorem startCin_runStart (s : State) :
    (startCin s).runStart = s.runStart := rfl
@[simp] theorem startCin_draws (s : State) :
    (startCin s).draws = s.draws := rfl

/-! `clearCinBuffers` -/
@[simp] theorem clearCinBuffers_params (s : State) :
    (clearCinBuffers s).params = s.params := rfl
@[simp] theorem clearCinBuffers_stream (s : State) :
    (clearCinBuffers s).stream = s.stream := rfl
@[simp] theorem clearCinBuffers_ses (s : State) :
    (clearCinBuffers s).ses = s.ses := rfl
@[simp] theorem clearCinBuffers_cin (s : State) :
    (clearCinBuffers s).cin = { s.cin with
      palette := Vector.replicate 256 { r := 0, g := 0, b := 0 }
      idxBuf := List.replicate s.cin.area.toNat 0
      fb := List.replicate s.cin.area.toNat Pixel.zero } := rfl
@[simp] theorem clearCinBuffers_huf (s : State) :
    (clearCinBuffers s).huf = s.huf := rfl
@[simp] theorem clearCinBuffers_roq (s : State) :
    (clearCinBuffers s).roq = s.roq := rfl
@[simp] theorem clearCinBuffers_ports (s : State) :
    (clearCinBuffers s).ports = s.ports := rfl
@[simp] theorem clearCinBuffers_requests (s : State) :
    (clearCinBuffers s).requests = s.requests := rfl
@[simp] theorem clearCinBuffers_replies (s : State) :
    (clearCinBuffers s).replies = s.replies := rfl
@[simp] theorem clearCinBuffers_runStart (s : State) :
    (clearCinBuffers s).runStart = s.runStart := rfl
@[simp] theorem clearCinBuffers_draws (s : State) :
    (clearCinBuffers s).draws = s.draws := rfl

/-! `freeCounts` -/
@[simp] theorem freeCounts_params (s : State) :
    (freeCounts s).params = s.params := by unfold freeCounts; rfl
@[simp] theorem freeCounts_stream (s : State) :
    (freeCounts s).stream = s.stream := by unfold freeCounts; rfl
@[simp] theorem freeCounts_ses (s : State) :
    (freeCounts s).ses = s.ses := by unfold freeCounts; rfl
@[simp] theorem freeCounts_cin (s : State) :
    (freeCounts s).cin = { s.cin with
      hcount := Vector.ofFn fun (i : Fin 511) => Config.freeHcount s.draws i.val
      hused := Vector.ofFn fun (i : Fin 511) => Config.freeHused s.draws i.val } := by unfold freeCounts; rfl
@[simp] theorem freeCounts_huf (s : State) :
    (freeCounts s).huf = s.huf := by unfold freeCounts; rfl
@[simp] theorem freeCounts_roq (s : State) :
    (freeCounts s).roq = s.roq := by unfold freeCounts; rfl
@[simp] theorem freeCounts_ports (s : State) :
    (freeCounts s).ports = s.ports := by unfold freeCounts; rfl
@[simp] theorem freeCounts_requests (s : State) :
    (freeCounts s).requests = s.requests := by unfold freeCounts; rfl
@[simp] theorem freeCounts_replies (s : State) :
    (freeCounts s).replies = s.replies := by unfold freeCounts; rfl
@[simp] theorem freeCounts_runStart (s : State) :
    (freeCounts s).runStart = s.runStart := by unfold freeCounts; rfl
@[simp] theorem freeCounts_draws (s : State) :
    (freeCounts s).draws = s.draws + 1 := by unfold freeCounts; rfl

/-! `loadPalette` -/
@[simp] theorem loadPalette_params (r : Nat) (s : State) :
    (loadPalette r s).params = s.params := by unfold loadPalette; rfl
@[simp] theorem loadPalette_stream (r : Nat) (s : State) :
    (loadPalette r s).stream = s.stream := by unfold loadPalette; rfl
@[simp] theorem loadPalette_ses (r : Nat) (s : State) :
    (loadPalette r s).ses = s.ses := by unfold loadPalette; rfl
@[simp] theorem loadPalette_cin (r : Nat) (s : State) :
    (loadPalette r s).cin = { s.cin with palette := Vector.ofFn fun (i : Fin 256) => paletteEntry s r i.val } := by unfold loadPalette; rfl
@[simp] theorem loadPalette_huf (r : Nat) (s : State) :
    (loadPalette r s).huf = s.huf := by unfold loadPalette; rfl
@[simp] theorem loadPalette_roq (r : Nat) (s : State) :
    (loadPalette r s).roq = s.roq := by unfold loadPalette; rfl
@[simp] theorem loadPalette_ports (r : Nat) (s : State) :
    (loadPalette r s).ports = s.ports := by unfold loadPalette; rfl
@[simp] theorem loadPalette_requests (r : Nat) (s : State) :
    (loadPalette r s).requests = s.requests := by unfold loadPalette; rfl
@[simp] theorem loadPalette_replies (r : Nat) (s : State) :
    (loadPalette r s).replies = s.replies := by unfold loadPalette; rfl
@[simp] theorem loadPalette_runStart (r : Nat) (s : State) :
    (loadPalette r s).runStart = s.runStart := by unfold loadPalette; rfl
@[simp] theorem loadPalette_draws (r : Nat) (s : State) :
    (loadPalette r s).draws = s.draws := by unfold loadPalette; rfl

/-! `paletteExpand` -/
@[simp] theorem paletteExpand_params (s : State) :
    (paletteExpand s).params = s.params := rfl
@[simp] theorem paletteExpand_stream (s : State) :
    (paletteExpand s).stream = s.stream := rfl
@[simp] theorem paletteExpand_ses (s : State) :
    (paletteExpand s).ses = s.ses := rfl
@[simp] theorem paletteExpand_cin (s : State) :
    (paletteExpand s).cin = { s.cin with fb := s.cin.idxBuf.map fun i => palettePixel (at8 s.cin.palette i) } := rfl
@[simp] theorem paletteExpand_huf (s : State) :
    (paletteExpand s).huf = s.huf := rfl
@[simp] theorem paletteExpand_roq (s : State) :
    (paletteExpand s).roq = s.roq := rfl
@[simp] theorem paletteExpand_ports (s : State) :
    (paletteExpand s).ports = { s.ports with dispValid := true } := rfl
@[simp] theorem paletteExpand_requests (s : State) :
    (paletteExpand s).requests = s.requests := rfl
@[simp] theorem paletteExpand_replies (s : State) :
    (paletteExpand s).replies = s.replies := rfl
@[simp] theorem paletteExpand_runStart (s : State) :
    (paletteExpand s).runStart = s.runStart := rfl
@[simp] theorem paletteExpand_draws (s : State) :
    (paletteExpand s).draws = s.draws := rfl

/-! `setDiag` -/
@[simp] theorem setDiag_params (base : Nat) (fsz : Int) (s : State) :
    (setDiag base fsz s).params = s.params := rfl
@[simp] theorem setDiag_stream (base : Nat) (fsz : Int) (s : State) :
    (setDiag base fsz s).stream = s.stream := rfl
@[simp] theorem setDiag_cin (base : Nat) (fsz : Int) (s : State) :
    (setDiag base fsz s).cin = s.cin := rfl
@[simp] theorem setDiag_huf (base : Nat) (fsz : Int) (s : State) :
    (setDiag base fsz s).huf = s.huf := rfl
@[simp] theorem setDiag_roq (base : Nat) (fsz : Int) (s : State) :
    (setDiag base fsz s).roq = s.roq := rfl
@[simp] theorem setDiag_ports (base : Nat) (fsz : Int) (s : State) :
    (setDiag base fsz s).ports = s.ports := rfl
@[simp] theorem setDiag_requests (base : Nat) (fsz : Int) (s : State) :
    (setDiag base fsz s).requests = s.requests := rfl
@[simp] theorem setDiag_replies (base : Nat) (fsz : Int) (s : State) :
    (setDiag base fsz s).replies = s.replies := rfl
@[simp] theorem setDiag_runStart (base : Nat) (fsz : Int) (s : State) :
    (setDiag base fsz s).runStart = s.runStart := rfl
@[simp] theorem setDiag_draws (base : Nat) (fsz : Int) (s : State) :
    (setDiag base fsz s).draws = s.draws := rfl

/-! `freeHufRegs` -/
@[simp] theorem freeHufRegs_params (s : State) :
    (freeHufRegs s).params = s.params := rfl
@[simp] theorem freeHufRegs_stream (s : State) :
    (freeHufRegs s).stream = s.stream := rfl
@[simp] theorem freeHufRegs_ses (s : State) :
    (freeHufRegs s).ses = s.ses := rfl
@[simp] theorem freeHufRegs_cin (s : State) :
    (freeHufRegs s).cin = s.cin := rfl
@[simp] theorem freeHufRegs_roq (s : State) :
    (freeHufRegs s).roq = s.roq := rfl
@[simp] theorem freeHufRegs_ports (s : State) :
    (freeHufRegs s).ports = s.ports := rfl
@[simp] theorem freeHufRegs_requests (s : State) :
    (freeHufRegs s).requests = s.requests := rfl
@[simp] theorem freeHufRegs_replies (s : State) :
    (freeHufRegs s).replies = s.replies := rfl
@[simp] theorem freeHufRegs_runStart (s : State) :
    (freeHufRegs s).runStart = s.runStart := rfl
@[simp] theorem freeHufRegs_draws (s : State) :
    (freeHufRegs s).draws = s.draws + 1 := rfl

/-! `hufStart` -/
@[simp] theorem hufStart_params (base : Nat) (s : State) :
    (hufStart base s).params = s.params := rfl
@[simp] theorem hufStart_stream (base : Nat) (s : State) :
    (hufStart base s).stream = s.stream := rfl
@[simp] theorem hufStart_ses (base : Nat) (s : State) :
    (hufStart base s).ses = s.ses := rfl
@[simp] theorem hufStart_cin (base : Nat) (s : State) :
    (hufStart base s).cin = s.cin := rfl
@[simp] theorem hufStart_roq (base : Nat) (s : State) :
    (hufStart base s).roq = s.roq := rfl
@[simp] theorem hufStart_ports (base : Nat) (s : State) :
    (hufStart base s).ports = s.ports := rfl
@[simp] theorem hufStart_requests (base : Nat) (s : State) :
    (hufStart base s).requests = s.requests := rfl
@[simp] theorem hufStart_replies (base : Nat) (s : State) :
    (hufStart base s).replies = s.replies := rfl
@[simp] theorem hufStart_runStart (base : Nat) (s : State) :
    (hufStart base s).runStart = s.runStart := rfl
@[simp] theorem hufStart_draws (base : Nat) (s : State) :
    (hufStart base s).draws = s.draws := rfl

/-! `loadRow` -/
@[simp] theorem loadRow_params (r : Byte) (s : State) :
    (loadRow r s).params = s.params := by unfold loadRow; rfl
@[simp] theorem loadRow_stream (r : Byte) (s : State) :
    (loadRow r s).stream = s.stream := by unfold loadRow; rfl
@[simp] theorem loadRow_ses (r : Byte) (s : State) :
    (loadRow r s).ses = s.ses := by unfold loadRow; rfl
@[simp] theorem loadRow_huf (r : Byte) (s : State) :
    (loadRow r s).huf = s.huf := by unfold loadRow; rfl
@[simp] theorem loadRow_roq (r : Byte) (s : State) :
    (loadRow r s).roq = s.roq := by unfold loadRow; rfl
@[simp] theorem loadRow_ports (r : Byte) (s : State) :
    (loadRow r s).ports = s.ports := by unfold loadRow; rfl
@[simp] theorem loadRow_requests (r : Byte) (s : State) :
    (loadRow r s).requests = s.requests := by unfold loadRow; rfl
@[simp] theorem loadRow_replies (r : Byte) (s : State) :
    (loadRow r s).replies = s.replies := by unfold loadRow; rfl
@[simp] theorem loadRow_runStart (r : Byte) (s : State) :
    (loadRow r s).runStart = s.runStart := by unfold loadRow; rfl
@[simp] theorem loadRow_draws (r : Byte) (s : State) :
    (loadRow r s).draws = s.draws := by unfold loadRow; rfl

/-! `setPair` -/
@[simp] theorem setPair_params (r : Byte) (k : Nat) (b : Bool) (a : Nat) (s : State) :
    (setPair r k b a s).params = s.params := rfl
@[simp] theorem setPair_stream (r : Byte) (k : Nat) (b : Bool) (a : Nat) (s : State) :
    (setPair r k b a s).stream = s.stream := rfl
@[simp] theorem setPair_ses (r : Byte) (k : Nat) (b : Bool) (a : Nat) (s : State) :
    (setPair r k b a s).ses = s.ses := rfl
@[simp] theorem setPair_huf (r : Byte) (k : Nat) (b : Bool) (a : Nat) (s : State) :
    (setPair r k b a s).huf = s.huf := rfl
@[simp] theorem setPair_roq (r : Byte) (k : Nat) (b : Bool) (a : Nat) (s : State) :
    (setPair r k b a s).roq = s.roq := rfl
@[simp] theorem setPair_ports (r : Byte) (k : Nat) (b : Bool) (a : Nat) (s : State) :
    (setPair r k b a s).ports = s.ports := rfl
@[simp] theorem setPair_requests (r : Byte) (k : Nat) (b : Bool) (a : Nat) (s : State) :
    (setPair r k b a s).requests = s.requests := rfl
@[simp] theorem setPair_replies (r : Byte) (k : Nat) (b : Bool) (a : Nat) (s : State) :
    (setPair r k b a s).replies = s.replies := rfl
@[simp] theorem setPair_runStart (r : Byte) (k : Nat) (b : Bool) (a : Nat) (s : State) :
    (setPair r k b a s).runStart = s.runStart := rfl
@[simp] theorem setPair_draws (r : Byte) (k : Nat) (b : Bool) (a : Nat) (s : State) :
    (setPair r k b a s).draws = s.draws := rfl

/-! `openWindow` -/
@[simp] theorem openWindow_params (h : Nat) (size : Int) (s : State) :
    (openWindow h size s).params = s.params := rfl
@[simp] theorem openWindow_stream (h : Nat) (size : Int) (s : State) :
    (openWindow h size s).stream = s.stream := rfl
@[simp] theorem openWindow_ses (h : Nat) (size : Int) (s : State) :
    (openWindow h size s).ses = s.ses := rfl
@[simp] theorem openWindow_cin (h : Nat) (size : Int) (s : State) :
    (openWindow h size s).cin = s.cin := rfl
@[simp] theorem openWindow_huf (h : Nat) (size : Int) (s : State) :
    (openWindow h size s).huf = s.huf := rfl
@[simp] theorem openWindow_roq (h : Nat) (size : Int) (s : State) :
    (openWindow h size s).roq = { s.roq with
      payBase := BitVec.ofNat 32 (h + 8), payEnd := BitVec.ofInt 32 (h + 8 + size), payPos := BitVec.ofNat 32 (h + 8) } := rfl
@[simp] theorem openWindow_ports (h : Nat) (size : Int) (s : State) :
    (openWindow h size s).ports = s.ports := rfl
@[simp] theorem openWindow_requests (h : Nat) (size : Int) (s : State) :
    (openWindow h size s).requests = s.requests := rfl
@[simp] theorem openWindow_replies (h : Nat) (size : Int) (s : State) :
    (openWindow h size s).replies = s.replies := rfl
@[simp] theorem openWindow_runStart (h : Nat) (size : Int) (s : State) :
    (openWindow h size s).runStart = s.runStart := rfl
@[simp] theorem openWindow_draws (h : Nat) (size : Int) (s : State) :
    (openWindow h size s).draws = s.draws := rfl

/-! `setInfo` -/
@[simp] theorem setInfo_params (w ht : Half) (s : State) :
    (setInfo w ht s).params = s.params := rfl
@[simp] theorem setInfo_stream (w ht : Half) (s : State) :
    (setInfo w ht s).stream = s.stream := rfl
@[simp] theorem setInfo_ses (w ht : Half) (s : State) :
    (setInfo w ht s).ses = s.ses := rfl
@[simp] theorem setInfo_cin (w ht : Half) (s : State) :
    (setInfo w ht s).cin = s.cin := rfl
@[simp] theorem setInfo_huf (w ht : Half) (s : State) :
    (setInfo w ht s).huf = s.huf := rfl
@[simp] theorem setInfo_roq (w ht : Half) (s : State) :
    (setInfo w ht s).roq = { s.roq with
      w := w, h := ht, infoSeen := true
      buf0 := initialBuffer s.params s.draws 0 (w.toNat * ht.toNat)
      buf1 := initialBuffer s.params s.draws (4 * (w.toNat * ht.toNat)) (w.toNat * ht.toNat)
      wsel := false, dispSel := false } := rfl
@[simp] theorem setInfo_ports (w ht : Half) (s : State) :
    (setInfo w ht s).ports = s.ports := rfl
@[simp] theorem setInfo_requests (w ht : Half) (s : State) :
    (setInfo w ht s).requests = s.requests := rfl
@[simp] theorem setInfo_replies (w ht : Half) (s : State) :
    (setInfo w ht s).replies = s.replies := rfl
@[simp] theorem setInfo_runStart (w ht : Half) (s : State) :
    (setInfo w ht s).runStart = s.runStart := rfl
@[simp] theorem setInfo_draws (w ht : Half) (s : State) :
    (setInfo w ht s).draws = s.draws + 1 := rfl

/-! `setCounts` -/
@[simp] theorem setCounts_params (n1 n2 : Nat) (s : State) :
    (setCounts n1 n2 s).params = s.params := rfl
@[simp] theorem setCounts_stream (n1 n2 : Nat) (s : State) :
    (setCounts n1 n2 s).stream = s.stream := rfl
@[simp] theorem setCounts_ses (n1 n2 : Nat) (s : State) :
    (setCounts n1 n2 s).ses = s.ses := rfl
@[simp] theorem setCounts_cin (n1 n2 : Nat) (s : State) :
    (setCounts n1 n2 s).cin = s.cin := rfl
@[simp] theorem setCounts_huf (n1 n2 : Nat) (s : State) :
    (setCounts n1 n2 s).huf = s.huf := rfl
@[simp] theorem setCounts_roq (n1 n2 : Nat) (s : State) :
    (setCounts n1 n2 s).roq = { s.roq with n1Last := BitVec.ofNat 9 n1, n2Last := BitVec.ofNat 9 n2 } := rfl
@[simp] theorem setCounts_ports (n1 n2 : Nat) (s : State) :
    (setCounts n1 n2 s).ports = s.ports := rfl
@[simp] theorem setCounts_requests (n1 n2 : Nat) (s : State) :
    (setCounts n1 n2 s).requests = s.requests := rfl
@[simp] theorem setCounts_replies (n1 n2 : Nat) (s : State) :
    (setCounts n1 n2 s).replies = s.replies := rfl
@[simp] theorem setCounts_runStart (n1 n2 : Nat) (s : State) :
    (setCounts n1 n2 s).runStart = s.runStart := rfl
@[simp] theorem setCounts_draws (n1 n2 : Nat) (s : State) :
    (setCounts n1 n2 s).draws = s.draws := rfl

/-! `atBlock` -/
@[simp] theorem atBlock_params (x y : Nat) (s : State) :
    (atBlock x y s).params = s.params := rfl
@[simp] theorem atBlock_stream (x y : Nat) (s : State) :
    (atBlock x y s).stream = s.stream := rfl
@[simp] theorem atBlock_ses (x y : Nat) (s : State) :
    (atBlock x y s).ses = s.ses := rfl
@[simp] theorem atBlock_cin (x y : Nat) (s : State) :
    (atBlock x y s).cin = s.cin := rfl
@[simp] theorem atBlock_huf (x y : Nat) (s : State) :
    (atBlock x y s).huf = s.huf := rfl
@[simp] theorem atBlock_roq (x y : Nat) (s : State) :
    (atBlock x y s).roq = { s.roq with blockX := BitVec.ofNat 32 x, blockY := BitVec.ofNat 32 y } := rfl
@[simp] theorem atBlock_ports (x y : Nat) (s : State) :
    (atBlock x y s).ports = s.ports := rfl
@[simp] theorem atBlock_requests (x y : Nat) (s : State) :
    (atBlock x y s).requests = s.requests := rfl
@[simp] theorem atBlock_replies (x y : Nat) (s : State) :
    (atBlock x y s).replies = s.replies := rfl
@[simp] theorem atBlock_runStart (x y : Nat) (s : State) :
    (atBlock x y s).runStart = s.runStart := rfl
@[simp] theorem atBlock_draws (x y : Nat) (s : State) :
    (atBlock x y s).draws = s.draws := rfl

/-! `vqStart` -/
@[simp] theorem vqStart_params (arg : Half) (s : State) :
    (vqStart arg s).params = s.params := rfl
@[simp] theorem vqStart_stream (arg : Half) (s : State) :
    (vqStart arg s).stream = s.stream := rfl
@[simp] theorem vqStart_ses (arg : Half) (s : State) :
    (vqStart arg s).ses = s.ses := rfl
@[simp] theorem vqStart_cin (arg : Half) (s : State) :
    (vqStart arg s).cin = s.cin := rfl
@[simp] theorem vqStart_huf (arg : Half) (s : State) :
    (vqStart arg s).huf = s.huf := rfl
@[simp] theorem vqStart_roq (arg : Half) (s : State) :
    (vqStart arg s).roq = { s.roq with
      meanX := argMeanX arg, meanY := argMeanY arg, flg := 0, flgPos := 0, xp := 0, yp := 0 } := rfl
@[simp] theorem vqStart_ports (arg : Half) (s : State) :
    (vqStart arg s).ports = s.ports := rfl
@[simp] theorem vqStart_requests (arg : Half) (s : State) :
    (vqStart arg s).requests = s.requests := rfl
@[simp] theorem vqStart_replies (arg : Half) (s : State) :
    (vqStart arg s).replies = s.replies := rfl
@[simp] theorem vqStart_runStart (arg : Half) (s : State) :
    (vqStart arg s).runStart = s.runStart := rfl
@[simp] theorem vqStart_draws (arg : Half) (s : State) :
    (vqStart arg s).draws = s.draws := rfl

/-! `frameEnd` -/
@[simp] theorem frameEnd_params (s : State) :
    (frameEnd s).params = s.params := rfl
@[simp] theorem frameEnd_stream (s : State) :
    (frameEnd s).stream = s.stream := rfl
@[simp] theorem frameEnd_ses (s : State) :
    (frameEnd s).ses = s.ses := rfl
@[simp] theorem frameEnd_cin (s : State) :
    (frameEnd s).cin = s.cin := rfl
@[simp] theorem frameEnd_huf (s : State) :
    (frameEnd s).huf = s.huf := rfl
@[simp] theorem frameEnd_roq (s : State) :
    (frameEnd s).roq = { (if s.roq.vqFrame = 0 then s.roq.setBuf (!s.roq.wsel) (s.roq.buf s.roq.wsel) else s.roq) with
      dispSel := s.roq.wsel, wsel := !s.roq.wsel, vqFrame := s.roq.vqFrame + 1 } := rfl
@[simp] theorem frameEnd_ports (s : State) :
    (frameEnd s).ports = { s.ports with dispValid := true } := rfl
@[simp] theorem frameEnd_requests (s : State) :
    (frameEnd s).requests = s.requests := rfl
@[simp] theorem frameEnd_replies (s : State) :
    (frameEnd s).replies = s.replies := rfl
@[simp] theorem frameEnd_runStart (s : State) :
    (frameEnd s).runStart = s.runStart := rfl
@[simp] theorem frameEnd_draws (s : State) :
    (frameEnd s).draws = s.draws := rfl

/-! `pixWrite`: the write buffer only -/

@[simp] theorem pixWrite_params (x y : Nat) (px : Pixel) (s : State) : (pixWrite x y px s).params = s.params := by
  unfold pixWrite; split <;> rfl
@[simp] theorem pixWrite_stream (x y : Nat) (px : Pixel) (s : State) : (pixWrite x y px s).stream = s.stream := by
  unfold pixWrite; split <;> rfl
@[simp] theorem pixWrite_ses (x y : Nat) (px : Pixel) (s : State) : (pixWrite x y px s).ses = s.ses := by
  unfold pixWrite; split <;> rfl
@[simp] theorem pixWrite_cin (x y : Nat) (px : Pixel) (s : State) : (pixWrite x y px s).cin = s.cin := by
  unfold pixWrite; split <;> rfl
@[simp] theorem pixWrite_huf (x y : Nat) (px : Pixel) (s : State) : (pixWrite x y px s).huf = s.huf := by
  unfold pixWrite; split <;> rfl
@[simp] theorem pixWrite_ports (x y : Nat) (px : Pixel) (s : State) : (pixWrite x y px s).ports = s.ports := by
  unfold pixWrite; split <;> rfl
@[simp] theorem pixWrite_requests (x y : Nat) (px : Pixel) (s : State) : (pixWrite x y px s).requests = s.requests := by
  unfold pixWrite; split <;> rfl
@[simp] theorem pixWrite_replies (x y : Nat) (px : Pixel) (s : State) : (pixWrite x y px s).replies = s.replies := by
  unfold pixWrite; split <;> rfl
@[simp] theorem pixWrite_runStart (x y : Nat) (px : Pixel) (s : State) : (pixWrite x y px s).runStart = s.runStart := by
  unfold pixWrite; split <;> rfl
@[simp] theorem pixWrite_draws (x y : Nat) (px : Pixel) (s : State) : (pixWrite x y px s).draws = s.draws := by
  unfold pixWrite; split <;> rfl

/-! The two buffers -/

@[simp] theorem buf_setBuf (u : RoqUnit) (b : Bool) (px : List Pixel) : (u.setBuf b px).buf b = px := by
  cases b <;> rfl
@[simp] theorem buf_setBuf_not (u : RoqUnit) (b : Bool) (px : List Pixel) : (u.setBuf b px).buf (!b) = u.buf (!b) := by
  cases b <;> rfl
@[simp] theorem buf_not_setBuf (u : RoqUnit) (b : Bool) (px : List Pixel) : (u.setBuf (!b) px).buf b = u.buf b := by
  cases b <;> rfl

@[simp] theorem setBuf_w (u : RoqUnit) (b : Bool) (px : List Pixel) : (u.setBuf b px).w = u.w := by
  cases b <;> rfl
@[simp] theorem setBuf_h (u : RoqUnit) (b : Bool) (px : List Pixel) : (u.setBuf b px).h = u.h := by
  cases b <;> rfl
@[simp] theorem setBuf_infoSeen (u : RoqUnit) (b : Bool) (px : List Pixel) : (u.setBuf b px).infoSeen = u.infoSeen := by
  cases b <;> rfl
@[simp] theorem setBuf_cells (u : RoqUnit) (b : Bool) (px : List Pixel) : (u.setBuf b px).cells = u.cells := by
  cases b <;> rfl
@[simp] theorem setBuf_quads (u : RoqUnit) (b : Bool) (px : List Pixel) : (u.setBuf b px).quads = u.quads := by
  cases b <;> rfl
@[simp] theorem setBuf_n1Last (u : RoqUnit) (b : Bool) (px : List Pixel) : (u.setBuf b px).n1Last = u.n1Last := by
  cases b <;> rfl
@[simp] theorem setBuf_n2Last (u : RoqUnit) (b : Bool) (px : List Pixel) : (u.setBuf b px).n2Last = u.n2Last := by
  cases b <;> rfl
@[simp] theorem setBuf_wsel (u : RoqUnit) (b : Bool) (px : List Pixel) : (u.setBuf b px).wsel = u.wsel := by
  cases b <;> rfl
@[simp] theorem setBuf_dispSel (u : RoqUnit) (b : Bool) (px : List Pixel) : (u.setBuf b px).dispSel = u.dispSel := by
  cases b <;> rfl
@[simp] theorem setBuf_vqFrame (u : RoqUnit) (b : Bool) (px : List Pixel) : (u.setBuf b px).vqFrame = u.vqFrame := by
  cases b <;> rfl
@[simp] theorem setBuf_flg (u : RoqUnit) (b : Bool) (px : List Pixel) : (u.setBuf b px).flg = u.flg := by
  cases b <;> rfl
@[simp] theorem setBuf_flgPos (u : RoqUnit) (b : Bool) (px : List Pixel) : (u.setBuf b px).flgPos = u.flgPos := by
  cases b <;> rfl
@[simp] theorem setBuf_xp (u : RoqUnit) (b : Bool) (px : List Pixel) : (u.setBuf b px).xp = u.xp := by
  cases b <;> rfl
@[simp] theorem setBuf_yp (u : RoqUnit) (b : Bool) (px : List Pixel) : (u.setBuf b px).yp = u.yp := by
  cases b <;> rfl
@[simp] theorem setBuf_meanX (u : RoqUnit) (b : Bool) (px : List Pixel) : (u.setBuf b px).meanX = u.meanX := by
  cases b <;> rfl
@[simp] theorem setBuf_meanY (u : RoqUnit) (b : Bool) (px : List Pixel) : (u.setBuf b px).meanY = u.meanY := by
  cases b <;> rfl
@[simp] theorem setBuf_blockX (u : RoqUnit) (b : Bool) (px : List Pixel) : (u.setBuf b px).blockX = u.blockX := by
  cases b <;> rfl
@[simp] theorem setBuf_blockY (u : RoqUnit) (b : Bool) (px : List Pixel) : (u.setBuf b px).blockY = u.blockY := by
  cases b <;> rfl
@[simp] theorem setBuf_accL (u : RoqUnit) (b : Bool) (px : List Pixel) : (u.setBuf b px).accL = u.accL := by
  cases b <;> rfl
@[simp] theorem setBuf_accR (u : RoqUnit) (b : Bool) (px : List Pixel) : (u.setBuf b px).accR = u.accR := by
  cases b <;> rfl
@[simp] theorem setBuf_payBase (u : RoqUnit) (b : Bool) (px : List Pixel) : (u.setBuf b px).payBase = u.payBase := by
  cases b <;> rfl
@[simp] theorem setBuf_payEnd (u : RoqUnit) (b : Bool) (px : List Pixel) : (u.setBuf b px).payEnd = u.payEnd := by
  cases b <;> rfl
@[simp] theorem setBuf_payPos (u : RoqUnit) (b : Bool) (px : List Pixel) : (u.setBuf b px).payPos = u.payPos := by
  cases b <;> rfl
@[simp] theorem setBuf_area (u : RoqUnit) (b : Bool) (px : List Pixel) : (u.setBuf b px).area = u.area := by
  cases b <;> rfl

/-! Fields of the RoQ unit that a pixel write leaves -/

@[simp] theorem pixWrite_roq_w (x y : Nat) (px : Pixel) (s : State) :
    (pixWrite x y px s).roq.w = s.roq.w := by
  unfold pixWrite; split <;> simp
@[simp] theorem pixWrite_roq_h (x y : Nat) (px : Pixel) (s : State) :
    (pixWrite x y px s).roq.h = s.roq.h := by
  unfold pixWrite; split <;> simp
@[simp] theorem pixWrite_roq_infoSeen (x y : Nat) (px : Pixel) (s : State) :
    (pixWrite x y px s).roq.infoSeen = s.roq.infoSeen := by
  unfold pixWrite; split <;> simp
@[simp] theorem pixWrite_roq_cells (x y : Nat) (px : Pixel) (s : State) :
    (pixWrite x y px s).roq.cells = s.roq.cells := by
  unfold pixWrite; split <;> simp
@[simp] theorem pixWrite_roq_quads (x y : Nat) (px : Pixel) (s : State) :
    (pixWrite x y px s).roq.quads = s.roq.quads := by
  unfold pixWrite; split <;> simp
@[simp] theorem pixWrite_roq_n1Last (x y : Nat) (px : Pixel) (s : State) :
    (pixWrite x y px s).roq.n1Last = s.roq.n1Last := by
  unfold pixWrite; split <;> simp
@[simp] theorem pixWrite_roq_n2Last (x y : Nat) (px : Pixel) (s : State) :
    (pixWrite x y px s).roq.n2Last = s.roq.n2Last := by
  unfold pixWrite; split <;> simp
@[simp] theorem pixWrite_roq_wsel (x y : Nat) (px : Pixel) (s : State) :
    (pixWrite x y px s).roq.wsel = s.roq.wsel := by
  unfold pixWrite; split <;> simp
@[simp] theorem pixWrite_roq_dispSel (x y : Nat) (px : Pixel) (s : State) :
    (pixWrite x y px s).roq.dispSel = s.roq.dispSel := by
  unfold pixWrite; split <;> simp
@[simp] theorem pixWrite_roq_vqFrame (x y : Nat) (px : Pixel) (s : State) :
    (pixWrite x y px s).roq.vqFrame = s.roq.vqFrame := by
  unfold pixWrite; split <;> simp
@[simp] theorem pixWrite_roq_flg (x y : Nat) (px : Pixel) (s : State) :
    (pixWrite x y px s).roq.flg = s.roq.flg := by
  unfold pixWrite; split <;> simp
@[simp] theorem pixWrite_roq_flgPos (x y : Nat) (px : Pixel) (s : State) :
    (pixWrite x y px s).roq.flgPos = s.roq.flgPos := by
  unfold pixWrite; split <;> simp
@[simp] theorem pixWrite_roq_xp (x y : Nat) (px : Pixel) (s : State) :
    (pixWrite x y px s).roq.xp = s.roq.xp := by
  unfold pixWrite; split <;> simp
@[simp] theorem pixWrite_roq_yp (x y : Nat) (px : Pixel) (s : State) :
    (pixWrite x y px s).roq.yp = s.roq.yp := by
  unfold pixWrite; split <;> simp
@[simp] theorem pixWrite_roq_meanX (x y : Nat) (px : Pixel) (s : State) :
    (pixWrite x y px s).roq.meanX = s.roq.meanX := by
  unfold pixWrite; split <;> simp
@[simp] theorem pixWrite_roq_meanY (x y : Nat) (px : Pixel) (s : State) :
    (pixWrite x y px s).roq.meanY = s.roq.meanY := by
  unfold pixWrite; split <;> simp
@[simp] theorem pixWrite_roq_blockX (x y : Nat) (px : Pixel) (s : State) :
    (pixWrite x y px s).roq.blockX = s.roq.blockX := by
  unfold pixWrite; split <;> simp
@[simp] theorem pixWrite_roq_blockY (x y : Nat) (px : Pixel) (s : State) :
    (pixWrite x y px s).roq.blockY = s.roq.blockY := by
  unfold pixWrite; split <;> simp
@[simp] theorem pixWrite_roq_accL (x y : Nat) (px : Pixel) (s : State) :
    (pixWrite x y px s).roq.accL = s.roq.accL := by
  unfold pixWrite; split <;> simp
@[simp] theorem pixWrite_roq_accR (x y : Nat) (px : Pixel) (s : State) :
    (pixWrite x y px s).roq.accR = s.roq.accR := by
  unfold pixWrite; split <;> simp
@[simp] theorem pixWrite_roq_payBase (x y : Nat) (px : Pixel) (s : State) :
    (pixWrite x y px s).roq.payBase = s.roq.payBase := by
  unfold pixWrite; split <;> simp
@[simp] theorem pixWrite_roq_payEnd (x y : Nat) (px : Pixel) (s : State) :
    (pixWrite x y px s).roq.payEnd = s.roq.payEnd := by
  unfold pixWrite; split <;> simp
@[simp] theorem pixWrite_roq_payPos (x y : Nat) (px : Pixel) (s : State) :
    (pixWrite x y px s).roq.payPos = s.roq.payPos := by
  unfold pixWrite; split <;> simp
@[simp] theorem pixWrite_roq_area (x y : Nat) (px : Pixel) (s : State) :
    (pixWrite x y px s).roq.area = s.roq.area := by
  unfold pixWrite; split <;> simp

end Sys2Proof.Machine
end

