-- ==== Sys2Proof/Laws/Run.lean ====
section
/-! SUPPORT. How pieces of a transaction compose: what a sequence that ends in `done` or `raised` went through, and two ways to
carry a property through it. -/

namespace Sys2Proof.Machine

variable {α β : Type}

/-- Every state a piece ends in, by going on or by raising a fault, has the property. -/
def Run.sat (P : State → Prop) : Run α → Prop
  | .done _ s => P s
  | .raised _ s => P s
  | .broken _ => True
  | .refused _ => True

/-- The piece goes on, with a value and a state that have the property. -/
def Run.completes (P : α → State → Prop) : Run α → Prop
  | .done a s => P a s
  | .raised _ _ => False
  | .broken _ => False
  | .refused _ => False

/-- The machine does not stop in the piece. -/
def Run.total : Run α → Prop
  | .done _ _ => True
  | .raised _ _ => True
  | .broken _ => False
  | .refused _ => False

@[simp] theorem bind_done (a : α) (s : State) (k : α → State → Run β) : (Run.done a s).bind k = k a s := rfl
@[simp] theorem bind_raised (r : FaultReason) (s : State) (k : α → State → Run β) :
    (Run.raised r s).bind k = .raised r s := rfl
@[simp] theorem bind_broken (f : Fault) (k : α → State → Run β) : (Run.broken f).bind k = .broken f := rfl
@[simp] theorem bind_refused (r : Refusal) (k : α → State → Run β) : (Run.refused r).bind k = .refused r := rfl

@[simp] theorem sat_done (P : State → Prop) (a : α) (s : State) : (Run.done a s).sat P ↔ P s := Iff.rfl
@[simp] theorem sat_raised (P : State → Prop) (r : FaultReason) (s : State) :
    (Run.raised r s : Run α).sat P ↔ P s := Iff.rfl
@[simp] theorem sat_broken (P : State → Prop) (f : Fault) : (Run.broken f : Run α).sat P := trivial
@[simp] theorem sat_refused (P : State → Prop) (r : Refusal) : (Run.refused r : Run α).sat P := trivial

@[simp] theorem completes_done (P : α → State → Prop) (a : α) (s : State) : (Run.done a s).completes P ↔ P a s := Iff.rfl
@[simp] theorem completes_raised (P : α → State → Prop) (r : FaultReason) (s : State) :
    ¬ (Run.raised r s).completes P := id
@[simp] theorem completes_broken (P : α → State → Prop) (f : Fault) : ¬ (Run.broken f).completes P := id
@[simp] theorem completes_refused (P : α → State → Prop) (r : Refusal) : ¬ (Run.refused r).completes P := id

@[simp] theorem total_done (a : α) (s : State) : (Run.done a s).total := trivial
@[simp] theorem total_raised (r : FaultReason) (s : State) : (Run.raised r s : Run α).total := trivial
@[simp] theorem total_broken (f : Fault) : ¬ (Run.broken f : Run α).total := id
@[simp] theorem total_refused (r : Refusal) : ¬ (Run.refused r : Run α).total := id

/-- A sequence that goes on to the end went on in both parts. -/
theorem bind_eq_done {m : Run α} {k : α → State → Run β} {b : β} {t : State} :
    m.bind k = .done b t ↔ ∃ a s, m = .done a s ∧ k a s = .done b t := by
  cases m <;> simp [Run.bind]

/-- A sequence that raises raised in its first part, or went on and raised in its second. -/
theorem bind_eq_raised {m : Run α} {k : α → State → Run β} {r : FaultReason} {t : State} :
    m.bind k = .raised r t ↔ m = .raised r t ∨ ∃ a s, m = .done a s ∧ k a s = .raised r t := by
  cases m <;> simp [Run.bind]

theorem bind_assoc {γ : Type} (m : Run α) (k : α → State → Run β) (l : β → State → Run γ) :
    (m.bind k).bind l = m.bind fun a s => (k a s).bind l := by
  cases m <;> rfl

/-- A property that the first part's ends have, and that the second part carries on, holds at the sequence's ends. -/
theorem sat_bind {P Q : State → Prop} {m : Run α} {k : α → State → Run β} (hm : m.sat P)
    (hr : ∀ s, P s → Q s) (hk : ∀ a s, P s → (k a s).sat Q) : (m.bind k).sat Q := by
  cases m with
  | done a s => exact hk a s hm
  | raised r s => exact hr s hm
  | broken f => trivial
  | refused r => trivial

theorem sat_mono {P Q : State → Prop} {m : Run α} (h : m.sat P) (hPQ : ∀ s, P s → Q s) : m.sat Q := by
  cases m <;> first | exact hPQ _ h | trivial

theorem sat_and {P Q : State → Prop} {m : Run α} (hP : m.sat P) (hQ : m.sat Q) : m.sat fun s => P s ∧ Q s := by
  cases m <;> first | exact ⟨hP, hQ⟩ | trivial

theorem sat_of_done {P : State → Prop} {m : Run α} {a : α} {t : State} (h : m.sat P) (hm : m = .done a t) : P t := by
  subst hm; exact h

theorem sat_of_raised {P : State → Prop} {m : Run α} {r : FaultReason} {t : State} (h : m.sat P)
    (hm : m = .raised r t) : P t := by
  subst hm; exact h

/-- A sequence completes when its parts do. -/
theorem completes_bind {P : α → State → Prop} {Q : β → State → Prop} {m : Run α} {k : α → State → Run β}
    (hm : m.completes P) (hk : ∀ a s, P a s → (k a s).completes Q) : (m.bind k).completes Q := by
  cases m with
  | done a s => exact hk a s hm
  | raised r s => exact hm.elim
  | broken f => exact hm.elim
  | refused r => exact hm.elim

theorem completes_mono {P Q : α → State → Prop} {m : Run α} (h : m.completes P) (hPQ : ∀ a s, P a s → Q a s) :
    m.completes Q := by
  cases m <;> first | exact hPQ _ _ h | exact h.elim

theorem completes_iff {P : α → State → Prop} {m : Run α} : m.completes P ↔ ∃ a s, m = .done a s ∧ P a s := by
  cases m <;> simp [Run.completes]

theorem completes_and_sat {P : α → State → Prop} {Q : State → Prop} {m : Run α} (h : m.completes P) (hQ : m.sat Q) :
    m.completes fun a s => P a s ∧ Q s := by
  cases m <;> first | exact ⟨h, hQ⟩ | exact h.elim

theorem total_of_completes {P : α → State → Prop} {m : Run α} (h : m.completes P) : m.total := by
  cases m <;> trivial

/-- A sequence does not stop the machine when its first part does not, and its second does not where the first goes on. -/
theorem total_bind {P : State → Prop} {m : Run α} {k : α → State → Run β} (hm : m.total) (hs : m.sat P)
    (hk : ∀ a s, P s → (k a s).total) : (m.bind k).total := by
  cases m with
  | done a s => exact hk a s hs
  | raised r s => trivial
  | broken f => exact hm.elim
  | refused r => exact hm.elim

/-! ### Outcomes -/

@[simp] theorem outcome_done (s : State) : (Run.done () s).outcome = .next s := rfl
@[simp] theorem outcome_raised (r : FaultReason) (s : State) : (Run.raised r s : Run Unit).outcome = .next (takeFault r s) := rfl
@[simp] theorem outcome_broken (f : Fault) : (Run.broken f : Run Unit).outcome = .fault f := rfl
@[simp] theorem outcome_refused (r : Refusal) : (Run.refused r : Run Unit).outcome = .refused r := rfl

/-- A next state is where the piece went on to, or where it raised a fault that is then taken. -/
theorem outcome_eq_next {m : Run Unit} {t : State} :
    m.outcome = .next t ↔ m = .done () t ∨ ∃ r s, m = .raised r s ∧ t = takeFault r s := by
  cases m <;> simp [Run.outcome, eq_comm]

theorem outcome_total {m : Run Unit} (h : m.total) : ∃ t, m.outcome = .next t := by
  cases m <;> first | exact ⟨_, rfl⟩ | exact h.elim

@[simp] theorem finally_done (a : α) (s : State) (f : State → State) : (Run.done a s).finally_ f = .done a (f s) := rfl
@[simp] theorem finally_raised (r : FaultReason) (s : State) (f : State → State) :
    (Run.raised r s : Run α).finally_ f = .raised r (f s) := rfl

theorem sat_finally {P Q : State → Prop} {m : Run α} {f : State → State} (h : m.sat P) (hf : ∀ s, P s → Q (f s)) :
    (m.finally_ f).sat Q := by
  cases m <;> first | exact hf _ h | trivial

theorem completes_finally {P Q : α → State → Prop} {m : Run α} {f : State → State} (h : m.completes P)
    (hf : ∀ a s, P a s → Q a (f s)) : (m.finally_ f).completes Q := by
  cases m <;> first | exact hf _ _ h | exact h.elim

theorem total_finally {m : Run α} {f : State → State} (h : m.total) : (m.finally_ f).total := by
  cases m <;> trivial

@[simp] theorem onNext_next (s : State) (f : State → State) : onNext (.next s) f = .next (f s) := rfl
@[simp] theorem onNext_fault (r : Fault) (f : State → State) : onNext (.fault r) f = .fault r := rfl
@[simp] theorem onNext_refused (r : Refusal) (f : State → State) : onNext (.refused r) f = .refused r := rfl

theorem onNext_eq_next {o : Host.Outcome State Fault Refusal} {f : State → State} {t : State} :
    onNext o f = .next t ↔ ∃ s, o = .next s ∧ t = f s := by
  cases o <;> simp [onNext, eq_comm]

end Sys2Proof.Machine
end

