-- ==== Sys2Proof/Laws/Memory.lean ====
section
/-! SUPPORT. The stream space: reading what was loaded, and the canonical form that loading gives and keeps. -/

namespace Sys2Proof.Machine

/-- Every cell of consecutive bytes lies at or above the first address and below the end, and holds a byte that is not 0. -/
theorem cellsFrom_mem {a : Nat} {bs : List Byte} {c : Host.Cell} (h : c ∈ Memory.cellsFrom a bs) :
    a ≤ c.1 ∧ c.1 < a + bs.length ∧ c.2 ≠ 0 := by
  induction bs generalizing a with
  | nil => simp [Memory.cellsFrom] at h
  | cons b bs ih =>
    simp only [Memory.cellsFrom] at h
    simp only [List.length_cons]
    split at h
    · have := ih h; exact ⟨by omega, by omega, this.2.2⟩
    · rename_i hb
      rcases List.mem_cons.1 h with rfl | h
      · exact ⟨by simp, by simp, hb⟩
      · have := ih h; exact ⟨by omega, by omega, this.2.2⟩

/-- Loading gives the canonical form. -/
theorem cellsFrom_wf (a : Nat) (bs : List Byte) : (Memory.cellsFrom a bs).wf := by
  refine ⟨?_, fun c hc => (cellsFrom_mem hc).2.2⟩
  induction bs generalizing a with
  | nil => simp [Memory.cellsFrom]
  | cons b bs ih =>
    simp only [Memory.cellsFrom]
    split
    · exact ih _
    · exact List.pairwise_cons.2 ⟨fun c hc => by have := (cellsFrom_mem hc).1; omega, ih _⟩

/-- An address that is not listed reads as 0. -/
theorem read_of_not_mem {m : Memory} {x : Nat} (h : ∀ c ∈ m, c.1 ≠ x) : m.read x = 0 := by
  induction m with
  | nil => rfl
  | cons c m ih =>
    obtain ⟨a, b⟩ := c
    have ha : a ≠ x := h (a, b) (by simp)
    simp only [Memory.read, if_neg ha]
    exact ih fun c hc => h c (by simp [hc])

/-- Reading consecutive bytes back: the byte at its place, 0 elsewhere. -/
theorem read_cellsFrom (a : Nat) (bs : List Byte) (x : Nat) :
    (Memory.cellsFrom a bs).read x = if a ≤ x then bs.getD (x - a) 0 else 0 := by
  induction bs generalizing a with
  | nil => simp [Memory.cellsFrom, Memory.read]
  | cons b bs ih =>
    have tail : (Memory.cellsFrom (a + 1) bs).read x = if a + 1 ≤ x then bs.getD (x - (a + 1)) 0 else 0 := ih _
    have here : (Memory.cellsFrom a (b :: bs)).read x =
        if a = x then b else (Memory.cellsFrom (a + 1) bs).read x := by
      rw [show Memory.cellsFrom a (b :: bs) =
        if b = 0 then Memory.cellsFrom (a + 1) bs else (a, b) :: Memory.cellsFrom (a + 1) bs from rfl]
      split
      · rename_i hb
        by_cases hx : a = x
        · subst hx; rw [tail, if_neg (by omega), if_pos rfl, hb]
        · rw [if_neg hx]
      · rfl
    rw [here, tail]
    by_cases hx : a = x
    · subst hx; simp
    · by_cases hlt : a + 1 ≤ x
      · rw [if_neg hx, if_pos hlt, if_pos (by omega), show x - a = (x - (a + 1)) + 1 by omega]; simp
      · rw [if_neg hx, if_neg hlt, if_neg (by omega)]

/-- Byte `k` of the host's stream is at address `k` (20_memory.md R60). -/
theorem read_load (bs : List Byte) (k : Nat) : (Memory.load bs).read k = bs.getD k 0 := by
  simp [Memory.load, read_cellsFrom]

theorem load_wf (bs : List Byte) : (Memory.load bs).wf := cellsFrom_wf 0 bs

theorem load_mem {bs : List Byte} {c : Host.Cell} (h : c ∈ Memory.load bs) : c.1 < bs.length := by
  have := cellsFrom_mem h; omega

theorem reset_stream_wf : State.reset.stream.wf := by decide

/-- Two canonical memories that read alike everywhere are equal data. -/
theorem wf_ext {m n : Memory} (hm : m.wf) (hn : n.wf) (h : ∀ x, m.read x = n.read x) : m = n := by
  induction m generalizing n with
  | nil =>
    cases n with
    | nil => rfl
    | cons c n =>
      have h0 := h c.1
      simp only [Memory.read, if_true] at h0
      exact absurd h0.symm (hn.2 c (by simp))
  | cons c m ih =>
    have below : ∀ {l : Memory} {x : Nat} {d : Host.Cell}, Memory.wf (d :: l) → x < d.1 → Memory.read (d :: l) x = 0 := by
      intro l x d hl hx
      refine read_of_not_mem fun e he => ?_
      rcases List.mem_cons.1 he with rfl | he
      · omega
      · have := (List.pairwise_cons.1 hl.1).1 e he; omega
    have self : ∀ {l : Memory} {d : Host.Cell}, Memory.read (d :: l) d.1 = d.2 := by
      intro l d; simp [Memory.read]
    cases n with
    | nil => exact absurd (self.symm.trans (h c.1)) (hm.2 c (by simp))
    | cons d n =>
      have hcd : c.1 = d.1 := by
        rcases Nat.lt_trichotomy c.1 d.1 with hlt | heq | hgt
        · have := h c.1; rw [self, below hn hlt] at this; exact absurd this (hm.2 c (by simp))
        · exact heq
        · have := h d.1; rw [self, below hm hgt] at this; exact absurd this.symm (hn.2 d (by simp))
      have hval : c.2 = d.2 := by have := h c.1; rw [self, hcd, self] at this; exact this
      have hc : c = d := Prod.ext hcd hval
      subst hc
      congr 1
      refine ih ⟨(List.pairwise_cons.1 hm.1).2, fun e he => hm.2 e (by simp [he])⟩
        ⟨(List.pairwise_cons.1 hn.1).2, fun e he => hn.2 e (by simp [he])⟩ fun x => ?_
      by_cases hx : c.1 = x
      · subst hx
        rw [read_of_not_mem fun e he => ?_, read_of_not_mem fun e he => ?_]
        · have := (List.pairwise_cons.1 hn.1).1 e he; omega
        · have := (List.pairwise_cons.1 hm.1).1 e he; omega
      · have := h x
        simpa [Memory.read, hx] using this

/-! ### Spans of the stream -/

theorem streamSpan_length (s : State) (addr n : Nat) : (streamSpan s addr n).length = n := by simp [streamSpan]

theorem streamSpan_succ (s : State) (addr n : Nat) :
    streamSpan s addr (n + 1) = s.stream.read addr :: streamSpan s (addr + 1) n := by
  simp only [streamSpan, List.range_succ_eq_map, List.map_cons, List.map_map, Nat.add_zero]
  congr 1
  refine List.map_congr_left fun k _ => ?_
  simp only [Function.comp]
  rw [show addr + k.succ = addr + 1 + k by omega]

theorem streamSpan_add (s : State) (a m n : Nat) : streamSpan s a (m + n) = streamSpan s a m ++ streamSpan s (a + m) n := by
  simp only [streamSpan, List.range_add, List.map_append, List.map_map]
  congr 1
  exact List.map_congr_left fun k _ => by simp only [Function.comp, Nat.add_assoc]

end Sys2Proof.Machine
end

