-- ==== Sys2Proof/Laws/Payload.lean ====
section
/-! SUPPORT. The payload window and the chunk step: what a payload read can do, and every way a chunk can end. -/

namespace Sys2Proof.Machine

/-- The payload cursor moved on by `n` bytes. -/
def payAdvance (n : Nat) (s : State) : State :=
  { s with roq := { s.roq with payPos := s.roq.payPos + BitVec.ofNat 32 n } }

@[simp] theorem payAdvance_params (n : Nat) (s : State) : (payAdvance n s).params = s.params := rfl
@[simp] theorem payAdvance_stream (n : Nat) (s : State) : (payAdvance n s).stream = s.stream := rfl
@[simp] theorem payAdvance_ses (n : Nat) (s : State) : (payAdvance n s).ses = s.ses := rfl
@[simp] theorem payAdvance_cin (n : Nat) (s : State) : (payAdvance n s).cin = s.cin := rfl
@[simp] theorem payAdvance_huf (n : Nat) (s : State) : (payAdvance n s).huf = s.huf := rfl
@[simp] theorem payAdvance_roq (n : Nat) (s : State) :
    (payAdvance n s).roq = { s.roq with payPos := s.roq.payPos + BitVec.ofNat 32 n } := rfl
@[simp] theorem payAdvance_ports (n : Nat) (s : State) : (payAdvance n s).ports = s.ports := rfl
@[simp] theorem payAdvance_requests (n : Nat) (s : State) : (payAdvance n s).requests = s.requests := rfl
@[simp] theorem payAdvance_replies (n : Nat) (s : State) : (payAdvance n s).replies = s.replies := rfl
@[simp] theorem payAdvance_runStart (n : Nat) (s : State) : (payAdvance n s).runStart = s.runStart := rfl
@[simp] theorem payAdvance_draws (n : Nat) (s : State) : (payAdvance n s).draws = s.draws := rfl

theorem payAdvance_add (m n : Nat) (s : State) : payAdvance n (payAdvance m s) = payAdvance (m + n) s := by
  simp [payAdvance, BitVec.ofNat_add, BitVec.add_assoc]

theorem payAdvance_zero (s : State) : payAdvance 0 s = s := by simp [payAdvance]

/-- Inside the window the cursor does not wrap. -/
theorem payAdvance_payPos {n : Nat} {s : State} (h : s.roq.payPos.toNat + n ≤ s.roq.payEnd.toNat) :
    (payAdvance n s).roq.payPos.toNat = s.roq.payPos.toNat + n := by
  have := s.roq.payEnd.isLt
  simp only [payAdvance_roq, BitVec.toNat_add, BitVec.toNat_ofNat]
  omega

theorem payloadLeft_advance {m n : Nat} {s : State} (h : payloadLeft (m + n) s) : payloadLeft n (payAdvance m s) := by
  have h1 : s.roq.payPos.toNat + m ≤ s.roq.payEnd.toNat := by have := h.1; omega
  refine ⟨?_, h.2⟩
  rw [payAdvance_payPos h1]
  have := h.1
  simp only [payAdvance_roq]
  omega

theorem payloadByte_advance {m : Nat} {s : State} (h : s.roq.payPos.toNat + m ≤ s.roq.payEnd.toNat) (k : Nat) :
    payloadByte (payAdvance m s) k = payloadByte s (m + k) := by
  simp only [payloadByte, payAdvance_payPos h, payAdvance_stream]
  rw [Nat.add_assoc]

/-- PayRead that answers a byte: it was in the window, and only the cursor moved (20_memory.md R65). -/
theorem payRead_eq_done {s t : State} {b : Byte} (h : payRead s = .done b t) :
    s.roq.payPos.toNat < s.roq.payEnd.toNat ∧ s.roq.payPos.toNat < s.ses.streamSize.toNat ∧
      b = payloadByte s 0 ∧ t = payAdvance 1 s := by
  unfold payRead at h
  split at h
  · split at h
    · cases h; exact ⟨by assumption, by assumption, rfl, rfl⟩
    · cases h
  · cases h

/-- PayRead that raises: the cursor was at the payload's end, and nothing changed (20_memory.md R65). -/
theorem payRead_eq_raised {s t : State} {r : FaultReason} (h : payRead s = .raised r t) :
    s.roq.payEnd.toNat ≤ s.roq.payPos.toNat ∧ r = .payloadOverrun ∧ t = s := by
  unfold payRead at h
  split at h
  · split at h <;> cases h
  · cases h; exact ⟨by omega, rfl, rfl⟩

/-- With a byte left, PayRead answers it. -/
theorem payRead_of_left {s : State} (h : payloadLeft 1 s) : payRead s = .done (payloadByte s 0) (payAdvance 1 s) := by
  have h1 := h.1
  have h2 := h.2
  unfold payRead
  rw [if_pos (by omega), if_pos (by omega)]
  rfl

/-- At the payload's end, PayRead raises. -/
theorem payRead_of_none {s : State} (h : s.roq.payEnd.toNat ≤ s.roq.payPos.toNat) :
    payRead s = .raised .payloadOverrun s := by
  unfold payRead
  rw [if_neg (by omega)]

theorem payRead16_of_left {s : State} (h : payloadLeft 2 s) :
    payRead16 s = .done (le16 (payloadByte s 0) (payloadByte s 1)) (payAdvance 2 s) := by
  have h1 := h.1
  have h2 := h.2
  rw [payRead16, payRead_of_left ⟨by omega, h2⟩, bind_done,
    payRead_of_left (payloadLeft_advance (m := 1) (n := 1) h), bind_done, payAdvance_add,
    payloadByte_advance (by omega)]

theorem payRead4_of_left {s : State} (h : payloadLeft 4 s) :
    payRead4 s = .done (payloadByte s 0, payloadByte s 1, payloadByte s 2, payloadByte s 3) (payAdvance 4 s) := by
  have h1 := h.1
  have h2 := h.2
  rw [payRead4, payRead_of_left ⟨by omega, h2⟩, bind_done,
    payRead_of_left (payloadLeft_advance (m := 1) (n := 1) ⟨by omega, h2⟩), bind_done, payAdvance_add,
    payRead_of_left (payloadLeft_advance (m := 2) (n := 1) ⟨by omega, h2⟩), bind_done, payAdvance_add,
    payRead_of_left (payloadLeft_advance (m := 3) (n := 1) ⟨by omega, h2⟩), bind_done, payAdvance_add,
    payloadByte_advance (by omega), payloadByte_advance (by omega), payloadByte_advance (by omega)]

/-! ### What a unit of the RoQ format may touch -/

/-- Only the payload cursor has moved, and not back. -/
def CursorOnly (s t : State) : Prop :=
  t = { s with roq := { s.roq with payPos := t.roq.payPos } } ∧ s.roq.payPos.toNat ≤ t.roq.payPos.toNat

theorem CursorOnly.refl (s : State) : CursorOnly s s := ⟨rfl, Nat.le_refl _⟩

theorem CursorOnly.trans {s t u : State} (h : CursorOnly s t) (k : CursorOnly t u) : CursorOnly s u := by
  refine ⟨?_, Nat.le_trans h.2 k.2⟩
  rw [k.1, h.1]

theorem payRead_cursorOnly (s : State) : (payRead s).sat (CursorOnly s) := by
  cases h : payRead s with
  | done b t =>
    obtain ⟨h1, -, -, rfl⟩ := payRead_eq_done h
    exact ⟨rfl, by rw [payAdvance_payPos (by omega)]; omega⟩
  | raised r t => obtain ⟨-, -, rfl⟩ := payRead_eq_raised h; exact .refl _
  | broken f => trivial
  | refused r => trivial

theorem sat_cursorOnly_bind {α β : Type} {s : State} {m : Run α} {k : α → State → Run β} (hm : m.sat (CursorOnly s))
    (hk : ∀ a t, (k a t).sat (CursorOnly t)) : (m.bind k).sat (CursorOnly s) :=
  sat_bind hm (fun _ h => h) fun a t h => sat_mono (hk a t) fun _ h' => h.trans h'

theorem payRead16_cursorOnly (s : State) : (payRead16 s).sat (CursorOnly s) :=
  sat_cursorOnly_bind (payRead_cursorOnly s) fun _ t =>
    sat_cursorOnly_bind (payRead_cursorOnly t) fun _ u => CursorOnly.refl u

theorem payRead4_cursorOnly (s : State) : (payRead4 s).sat (CursorOnly s) :=
  sat_cursorOnly_bind (payRead_cursorOnly s) fun _ t =>
    sat_cursorOnly_bind (payRead_cursorOnly t) fun _ u =>
      sat_cursorOnly_bind (payRead_cursorOnly u) fun _ v =>
        sat_cursorOnly_bind (payRead_cursorOnly v) fun _ w => CursorOnly.refl w

/-- A payload read stops the machine only where the window reaches past the stream. -/
theorem payRead_total {s : State} (h : s.roq.payEnd.toNat ≤ s.ses.streamSize.toNat) : (payRead s).total := by
  unfold payRead
  split
  · rw [if_pos (by omega)]; trivial
  · trivial

/-- The window is inside the stream, and stays so while only the cursor moves. -/
theorem CursorOnly.window {s t : State} (h : CursorOnly s t) :
    t.roq.payEnd = s.roq.payEnd ∧ t.ses = s.ses ∧ t.stream = s.stream ∧ t.params = s.params := by
  rw [h.1]; simp

/-! ### The chunk step -/

/-- The three ways a chunk ends before its operation (41_roq_chunks.md R163, R164). -/
theorem chunkStep_too_large {size : Word} {op : State → Run Unit} {s : State}
    (h : (s.params.roqMaxSize.toNat : Int) < size.toInt) : chunkStep size op s = .done () (anomaly s) := by
  simp [chunkStep, h]

theorem chunkStep_truncated {size : Word} {op : State → Run Unit} {s : State} (h0 : 0 < size.toInt)
    (h : (s.ses.streamSize.toNat : Int) - (s.ses.offset.toNat + 8 : Nat) < size.toInt) :
    chunkStep size op s = .done () (anomaly s) := by
  unfold chunkStep
  split
  · rfl
  · rw [if_pos ⟨h0, h⟩]

theorem chunkStep_empty {size : Word} {op : State → Run Unit} {s : State} (h : size.toInt ≤ 0) :
    chunkStep size op s = .done () (retContinue (setOffset (BitVec.ofNat 32 (s.ses.offset.toNat + 8)) s)) := by
  unfold chunkStep
  rw [if_neg (by omega), if_neg (by omega), if_pos h]

/-- A chunk that fits runs its operation in its payload window, and OFFSET moves to the payload's end. -/
theorem chunkStep_fits {size : Word} {op : State → Run Unit} {s : State} (h : chunkFits size s) :
    chunkStep size op s =
      (op (openWindow s.ses.offset.toNat size.toInt s)).bind fun _ t => .done () (retContinue (setOffset t.roq.payEnd t)) := by
  obtain ⟨h0, h1, h2⟩ := h
  unfold chunkStep
  rw [if_neg (by omega), if_neg (by simp only [shortOf]; push_cast; omega), if_neg (by omega)]

/-- Every way a chunk can end, once. -/
theorem chunkStep_cases (size : Word) (op : State → Run Unit) (s : State) :
    chunkStep size op s = .done () (anomaly s) ∨
    (size.toInt ≤ 0 ∧
      chunkStep size op s = .done () (retContinue (setOffset (BitVec.ofNat 32 (s.ses.offset.toNat + 8)) s))) ∨
    (chunkFits size s ∧ chunkStep size op s =
      (op (openWindow s.ses.offset.toNat size.toInt s)).bind fun _ t =>
        .done () (retContinue (setOffset t.roq.payEnd t))) := by
  by_cases h0 : size.toInt ≤ 0
  · exact .inr (.inl ⟨h0, chunkStep_empty h0⟩)
  · by_cases h1 : (s.params.roqMaxSize.toNat : Int) < size.toInt
    · exact .inl (chunkStep_too_large h1)
    · by_cases h2 : (s.ses.streamSize.toNat : Int) - (s.ses.offset.toNat + 8 : Nat) < size.toInt
      · exact .inl (chunkStep_truncated (by omega) h2)
      · have hf : chunkFits size s := ⟨by omega, by omega, by push_cast at h2; omega⟩
        exact .inr (.inr ⟨hf, chunkStep_fits hf⟩)

/-- The payload window of a chunk that fits: its ends as numbers, inside the stream. -/
theorem openWindow_bounds {size : Word} {s : State} (h : chunkFits size s) :
    let t := openWindow s.ses.offset.toNat size.toInt s
    t.roq.payPos.toNat = s.ses.offset.toNat + 8 ∧
      (t.roq.payEnd.toNat : Int) = s.ses.offset.toNat + 8 + size.toInt ∧
      t.roq.payEnd.toNat ≤ t.ses.streamSize.toNat := by
  obtain ⟨h0, h1, h2⟩ := h
  have hs := s.ses.streamSize.isLt
  have hpos : (openWindow s.ses.offset.toNat size.toInt s).roq.payPos.toNat = s.ses.offset.toNat + 8 := by
    simp only [openWindow_roq, BitVec.toNat_ofNat]; omega
  have hend : ((openWindow s.ses.offset.toNat size.toInt s).roq.payEnd.toNat : Int) =
      s.ses.offset.toNat + 8 + size.toInt := by
    simp only [openWindow_roq, BitVec.toNat_ofInt]; omega
  refine ⟨hpos, hend, ?_⟩
  simp only [openWindow_ses]
  omega

/-- In the window of a chunk that fits, the bytes left are the chunk's payload. -/
theorem openWindow_left {size : Word} {s : State} (h : chunkFits size s) {n : Nat} (hn : (n : Int) ≤ size.toInt) :
    payloadLeft n (openWindow s.ses.offset.toNat size.toInt s) := by
  obtain ⟨h1, h2, h3⟩ := openWindow_bounds h
  exact ⟨by omega, h3⟩

/-- Byte `k` of the payload, in the window and as the chunk's payload list. -/
theorem openWindow_byte {size : Word} {s : State} (h : chunkFits size s) {k : Nat} (hk : (k : Int) < size.toInt) :
    payloadByte (openWindow s.ses.offset.toNat size.toInt s) k = (chunkPayload size s).getD k 0 := by
  have h1 := (openWindow_bounds h).1
  have hk' : k < size.toInt.toNat := by omega
  rw [payloadByte, h1, openWindow_stream]
  simp [chunkPayload, streamSpan, List.getD_eq_getElem?_getD, hk']

end Sys2Proof.Machine
end

