-- ==== Sys2Proof/Laws/Vq.lean ====
section
/-! SUPPORT. The VQ unit: what a code and a whole frame may touch, and the pixels the primitives write. -/

namespace Sys2Proof.Machine

/-! ### What a code may touch -/

/-- What any code, and any run of codes, may change: the payload cursor forward, the code reader, the block in hand, and the
pixels of the write buffer, whose length stays (42_roq_vq.md R190 to R203; 70_reset_and_hazards.md R318). -/
structure CodeStep (s t : State) : Prop where
  state : t = { s with roq := t.roq }
  unit : t.roq = { s.roq with
    buf0 := t.roq.buf0, buf1 := t.roq.buf1, flg := t.roq.flg, flgPos := t.roq.flgPos,
    blockX := t.roq.blockX, blockY := t.roq.blockY, payPos := t.roq.payPos }
  readBuffer : t.roq.buf (!s.roq.wsel) = s.roq.buf (!s.roq.wsel)
  writeLength : (t.roq.buf s.roq.wsel).length = (s.roq.buf s.roq.wsel).length
  cursor : s.roq.payPos.toNat ≤ t.roq.payPos.toNat
  reader : s.roq.flgPos.toNat ≤ 8 → t.roq.flgPos.toNat ≤ 8

theorem CodeStep.refl (s : State) : CodeStep s s := ⟨rfl, rfl, rfl, rfl, Nat.le_refl _, id⟩

theorem CodeStep.wsel {s t : State} (h : CodeStep s t) : t.roq.wsel = s.roq.wsel := by rw [h.unit]

theorem CodeStep.trans {s t u : State} (h : CodeStep s t) (k : CodeStep t u) : CodeStep s u where
  state := by rw [k.state, h.state]
  unit := by rw [k.unit, h.unit]
  readBuffer := by rw [← h.wsel, k.readBuffer, h.wsel, h.readBuffer]
  writeLength := by rw [← h.wsel, k.writeLength, h.wsel, h.writeLength]
  cursor := Nat.le_trans h.cursor k.cursor
  reader := fun hs => k.reader (h.reader hs)

theorem CursorOnly.codeStep {s t : State} (h : CursorOnly s t) : CodeStep s t := by
  obtain ⟨h1, h2⟩ := h
  have hb : ∀ b, t.roq.buf b = s.roq.buf b := by intro b; rw [h1]; cases b <;> rfl
  refine ⟨by rw [h1], by rw [h1], hb _, by rw [hb], h2, ?_⟩
  rw [h1]; exact id

theorem sat_codeStep_bind {α β : Type} {s : State} {m : Run α} {k : α → State → Run β} (hm : m.sat (CodeStep s))
    (hk : ∀ a t, (k a t).sat (CodeStep t)) : (m.bind k).sat (CodeStep s) :=
  sat_bind hm (fun _ h => h) fun a t h => sat_mono (hk a t) fun _ h' => h.trans h'

theorem pixWrite_codeStep (x y : Nat) (px : Pixel) (s : State) : CodeStep s (pixWrite x y px s) := by
  unfold pixWrite
  split
  · refine ⟨rfl, ?_, ?_, ?_, ?_, ?_⟩
    · cases h : s.roq.wsel <;> simp [RoqUnit.setBuf]
    · simp
    · simp
    · simp
    · simp
  · exact .refl s

theorem foldl_codeStep {ι : Type} (f : State → ι → State) (hf : ∀ s i, CodeStep s (f s i)) (l : List ι) (s : State) :
    CodeStep s (l.foldl f s) := by
  induction l generalizing s with
  | nil => exact .refl s
  | cons i l ih => exact (hf s i).trans (ih _)

theorem drawCell_codeStep (px py : Nat) (c : Cell) (s : State) : CodeStep s (drawCell px py c s) :=
  ((((pixWrite_codeStep _ _ _ s).trans (pixWrite_codeStep _ _ _ _)).trans (pixWrite_codeStep _ _ _ _))).trans
    (pixWrite_codeStep _ _ _ _)

theorem drawCellX2_codeStep (px py : Nat) (c : Cell) (s : State) : CodeStep s (drawCellX2 px py c s) :=
  foldl_codeStep _ (fun _ _ => pixWrite_codeStep _ _ _ _) _ s

theorem motionCopy_codeStep (px py n : Nat) (mx my : Int) (s : State) :
    (motionCopy px py n mx my s).sat (CodeStep s) := by
  unfold motionCopy
  split
  · split
    · trivial
    · exact foldl_codeStep _ (fun _ _ => pixWrite_codeStep _ _ _ _) _ s
  · exact CodeStep.refl s

theorem cellAt_codeStep (i : Byte) (s : State) : (cellAt i s).sat (CodeStep s) := by
  unfold cellAt; split <;> exact CodeStep.refl s

theorem quadAt_codeStep (q : Byte) (s : State) : (quadAt q s).sat (CodeStep s) := by
  unfold quadAt; split <;> exact CodeStep.refl s

theorem payRead_codeStep (s : State) : (payRead s).sat (CodeStep s) :=
  sat_mono (payRead_cursorOnly s) fun _ h => h.codeStep

theorem payRead16_codeStep (s : State) : (payRead16 s).sat (CodeStep s) :=
  sat_mono (payRead16_cursorOnly s) fun _ h => h.codeStep

theorem payRead4_codeStep (s : State) : (payRead4 s).sat (CodeStep s) :=
  sat_mono (payRead4_cursorOnly s) fun _ h => h.codeStep

theorem drawIndexed_codeStep (px py : Nat) (i : Byte) (s : State) : (drawIndexed px py i s).sat (CodeStep s) :=
  sat_codeStep_bind (cellAt_codeStep i s) fun c t => drawCell_codeStep px py c t

theorem drawIndexedX2_codeStep (px py : Nat) (i : Byte) (s : State) : (drawIndexedX2 px py i s).sat (CodeStep s) :=
  sat_codeStep_bind (cellAt_codeStep i s) fun c t => drawCellX2_codeStep px py c t

theorem drawFour_codeStep (x y : Nat) (q : Quad) (s : State) : (drawFour x y q s).sat (CodeStep s) :=
  sat_codeStep_bind (drawIndexed_codeStep _ _ _ s) fun _ t =>
    sat_codeStep_bind (drawIndexed_codeStep _ _ _ t) fun _ u =>
      sat_codeStep_bind (drawIndexed_codeStep _ _ _ u) fun _ v => drawIndexed_codeStep _ _ _ v

theorem drawFourX2_codeStep (x y : Nat) (q : Quad) (s : State) : (drawFourX2 x y q s).sat (CodeStep s) :=
  sat_codeStep_bind (drawIndexedX2_codeStep _ _ _ s) fun _ t =>
    sat_codeStep_bind (drawIndexedX2_codeStep _ _ _ t) fun _ u =>
      sat_codeStep_bind (drawIndexedX2_codeStep _ _ _ u) fun _ v => drawIndexedX2_codeStep _ _ _ v

theorem fccBlock_codeStep (n : Nat) (s : State) : (fccBlock n s).sat (CodeStep s) :=
  sat_codeStep_bind (payRead_codeStep s) fun _ t => motionCopy_codeStep _ _ _ _ _ t

theorem sld8_codeStep (s : State) : (sld8 s).sat (CodeStep s) :=
  sat_codeStep_bind (payRead_codeStep s) fun q t =>
    sat_codeStep_bind (quadAt_codeStep q t) fun _ u => drawFourX2_codeStep _ _ _ u

theorem sld4_codeStep (s : State) : (sld4 s).sat (CodeStep s) :=
  sat_codeStep_bind (payRead_codeStep s) fun q t =>
    sat_codeStep_bind (quadAt_codeStep q t) fun _ u => drawFour_codeStep _ _ _ u

theorem ccc4_codeStep (s : State) : (ccc4 s).sat (CodeStep s) :=
  sat_codeStep_bind (payRead4_codeStep s) fun _ t => drawFour_codeStep _ _ _ t

theorem atBlock_codeStep (x y : Nat) (s : State) : CodeStep s (atBlock x y s) := by
  refine ⟨rfl, rfl, ?_, ?_, ?_, ?_⟩ <;> simp [RoqUnit.buf]

/-- NEXT_CODE that answers: a word was held, or two payload bytes made one (42_roq_vq.md R191). -/
theorem nextCode_codeStep (s : State) : (nextCode s).sat (CodeStep s) := by
  have take : ∀ t : State, t.roq.flgPos ≠ 0 →
      CodeStep t { t with roq := { t.roq with flgPos := t.roq.flgPos - 1 } } := by
    intro t h0
    refine ⟨rfl, rfl, ?_, ?_, ?_, ?_⟩ <;> simp only [RoqUnit.buf, le_refl]
    intro h8
    have : t.roq.flgPos.toNat ≠ 0 := fun h => h0 (BitVec.eq_of_toNat_eq h)
    rw [BitVec.toNat_sub_of_le (by simp [BitVec.le_def]; omega)]
    omega
  unfold nextCode refillFlags
  split
  · rw [bind_assoc]
    refine sat_codeStep_bind (payRead16_codeStep s) fun w t => ?_
    simp only [bind_done, sat_done]
    have refill : CodeStep t { t with roq := { t.roq with flg := w, flgPos := 8 } } := by
      refine ⟨rfl, rfl, ?_, ?_, ?_, ?_⟩ <;> simp [RoqUnit.buf]
    exact refill.trans (take _ (by simp))
  · simp only [bind_done, sat_done]
    exact take s (by assumption)

theorem block4_codeStep (x y : Nat) (s : State) : (block4 x y s).sat (CodeStep s) := by
  refine sat_codeStep_bind ?_ fun c t => ?_
  · exact sat_mono (nextCode_codeStep _) fun _ h => (atBlock_codeStep x y s).trans h
  · split
    · exact CodeStep.refl t
    · exact fccBlock_codeStep 4 t
    · exact sld4_codeStep t
    · exact ccc4_codeStep t
    · trivial

theorem subdivide_codeStep (x y : Nat) (s : State) : (subdivide x y s).sat (CodeStep s) :=
  sat_codeStep_bind (block4_codeStep _ _ s) fun _ t =>
    sat_codeStep_bind (block4_codeStep _ _ t) fun _ u =>
      sat_codeStep_bind (block4_codeStep _ _ u) fun _ v => block4_codeStep _ _ v

theorem block8_codeStep (x y : Nat) (s : State) : (block8 x y s).sat (CodeStep s) := by
  refine sat_codeStep_bind ?_ fun c t => ?_
  · exact sat_mono (nextCode_codeStep _) fun _ h => (atBlock_codeStep x y s).trans h
  · split
    · exact CodeStep.refl t
    · exact fccBlock_codeStep 8 t
    · exact sld8_codeStep t
    · exact subdivide_codeStep _ _ t
    · trivial

theorem macroblock_codeStep (s : State) : (macroblock s).sat (CodeStep s) :=
  sat_codeStep_bind (block8_codeStep _ _ s) fun _ t =>
    sat_codeStep_bind (block8_codeStep _ _ t) fun _ u =>
      sat_codeStep_bind (block8_codeStep _ _ u) fun _ v => block8_codeStep _ _ v

/-! ### The macroblock loop -/

/-- What the macroblock loop may change: what codes may, and XP and YP (42_roq_vq.md R190). -/
structure FrameStep (s t : State) : Prop where
  state : t = { s with roq := t.roq }
  unit : t.roq = { s.roq with
    buf0 := t.roq.buf0, buf1 := t.roq.buf1, flg := t.roq.flg, flgPos := t.roq.flgPos, xp := t.roq.xp, yp := t.roq.yp,
    blockX := t.roq.blockX, blockY := t.roq.blockY, payPos := t.roq.payPos }
  readBuffer : t.roq.buf (!s.roq.wsel) = s.roq.buf (!s.roq.wsel)
  writeLength : (t.roq.buf s.roq.wsel).length = (s.roq.buf s.roq.wsel).length
  cursor : s.roq.payPos.toNat ≤ t.roq.payPos.toNat
  reader : s.roq.flgPos.toNat ≤ 8 → t.roq.flgPos.toNat ≤ 8

theorem FrameStep.refl (s : State) : FrameStep s s := ⟨rfl, rfl, rfl, rfl, Nat.le_refl _, id⟩

theorem FrameStep.wsel {s t : State} (h : FrameStep s t) : t.roq.wsel = s.roq.wsel := by rw [h.unit]

theorem FrameStep.trans {s t u : State} (h : FrameStep s t) (k : FrameStep t u) : FrameStep s u where
  state := by rw [k.state, h.state]
  unit := by rw [k.unit, h.unit]
  readBuffer := by rw [← h.wsel, k.readBuffer, h.wsel, h.readBuffer]
  writeLength := by rw [← h.wsel, k.writeLength, h.wsel, h.writeLength]
  cursor := Nat.le_trans h.cursor k.cursor
  reader := fun hs => k.reader (h.reader hs)

theorem CodeStep.frameStep {s t : State} (h : CodeStep s t) : FrameStep s t :=
  ⟨h.state, by rw [h.unit], h.readBuffer, h.writeLength, h.cursor, h.reader⟩

theorem nextMacroblock_frameStep (s : State) : FrameStep s (nextMacroblock s) := by
  unfold nextMacroblock
  dsimp only
  split <;> (refine ⟨rfl, rfl, ?_, ?_, ?_, ?_⟩ <;> simp [RoqUnit.buf])

theorem vqLoop_frameStep (fuel : Nat) (s : State) : (vqLoop fuel s).sat (FrameStep s) := by
  induction fuel generalizing s with
  | zero => unfold vqLoop; split <;> first | trivial | exact FrameStep.refl s
  | succ n ih =>
    unfold vqLoop
    split
    · refine sat_bind (sat_mono (macroblock_codeStep s) fun _ h => h.frameStep) (fun _ h => h) fun _ t h => ?_
      exact sat_mono (ih _) fun _ h' => (h.trans (nextMacroblock_frameStep t)).trans h'
    · exact FrameStep.refl s

/-! ### Pixels -/

theorem pixelAt_inj {w x y x' y' : Nat} (hx : x < w) (hx' : x' < w) :
    y * w + x = y' * w + x' ↔ x = x' ∧ y = y' := by
  constructor
  · intro h
    have hmod := congrArg (· % w) h
    simp only [Nat.mul_add_mod', Nat.mod_eq_of_lt hx, Nat.mod_eq_of_lt hx'] at hmod
    subst hmod
    have hy : y * w = y' * w := by omega
    exact ⟨rfl, Nat.eq_of_mul_eq_mul_right (by omega) hy⟩
  · rintro ⟨rfl, rfl⟩; rfl

/-- A pixel write inside the frame changes that pixel of the write buffer and no other pixel of the frame. -/
theorem pixelAt_pixWrite {s : State} {x y : Nat} (px : Pixel) (x' y' : Nat) (hx' : inFrame s.roq x' y')
    (hlen : s.roq.area ≤ (s.roq.buf s.roq.wsel).length) :
    pixelAt (pixWrite x y px s) s.roq.wsel x' y' =
      if x' = x ∧ y' = y then some px else pixelAt s s.roq.wsel x' y' := by
  unfold pixWrite
  split
  · rename_i h
    simp only [pixelAt, setBuf_w, buf_setBuf]
    have hin : y' * s.roq.w.toNat + x' < (s.roq.buf s.roq.wsel).length := by
      have h1 : (y' + 1) * s.roq.w.toNat ≤ s.roq.h.toNat * s.roq.w.toNat := Nat.mul_le_mul_right _ hx'.2
      have h2 : s.roq.area = s.roq.h.toNat * s.roq.w.toNat := by rw [RoqUnit.area, Nat.mul_comm]
      have := hx'.1
      rw [Nat.add_mul] at h1
      omega
    by_cases he : x' = x ∧ y' = y
    · rw [if_pos he]; obtain ⟨rfl, rfl⟩ := he
      rw [List.getElem?_set_self hin]
    · rw [if_neg he, List.getElem?_set_ne]
      intro hc
      exact he (by have := (pixelAt_inj h.1 hx'.1).1 hc; exact ⟨this.1.symm, this.2.symm⟩)
  · rename_i h
    rw [if_neg]
    rintro ⟨rfl, rfl⟩
    exact h hx'

end Sys2Proof.Machine
end

