-- ==== Sys2Proof/Laws/Pixels.lean ====
section
/-! SUPPORT. What the drawing and copy primitives leave in the write buffer, pixel by pixel (42_roq_vq.md R199, R201, R202). -/

namespace Sys2Proof.Machine

/-- `t` is `s` with pixels of the write buffer painted: `f x y` is the new pixel where there is one. -/
structure Paints (f : Nat → Nat → Option Pixel) (s t : State) : Prop where
  frame : t = { s with roq := { s.roq with buf0 := t.roq.buf0, buf1 := t.roq.buf1 } }
  read : t.roq.buf (!s.roq.wsel) = s.roq.buf (!s.roq.wsel)
  hold : buffersHold t
  pixel : ∀ x y, inFrame s.roq x y → pixelAt t s.roq.wsel x y = (f x y).or (pixelAt s s.roq.wsel x y)

theorem Paints.none {s : State} (h : buffersHold s) : Paints (fun _ _ => none) s s :=
  ⟨rfl, rfl, h, fun _ _ _ => by simp⟩

theorem Paints.trans {f g : Nat → Nat → Option Pixel} {s t u : State} (h : Paints f s t) (k : Paints g t u) :
    Paints (fun x y => (g x y).or (f x y)) s u := by
  have hw : t.roq.wsel = s.roq.wsel := by rw [h.frame]
  have hf : ∀ x y, inFrame t.roq x y ↔ inFrame s.roq x y := by intro x y; rw [h.frame]
  refine ⟨by rw [k.frame, h.frame], ?_, k.hold, fun x y hxy => ?_⟩
  · rw [← hw, k.read, hw, h.read]
  · rw [← hw, k.pixel x y ((hf x y).2 hxy), hw, h.pixel x y hxy, Option.or_assoc]

theorem Paints.congr {f g : Nat → Nat → Option Pixel} {s t : State} (h : Paints f s t)
    (hfg : ∀ x y, inFrame s.roq x y → f x y = g x y) : Paints g s t :=
  ⟨h.frame, h.read, h.hold, fun x y hxy => by rw [h.pixel x y hxy, hfg x y hxy]⟩

theorem Paints.wsel {f : Nat → Nat → Option Pixel} {s t : State} (h : Paints f s t) : t.roq.wsel = s.roq.wsel := by
  rw [h.frame]

theorem Paints.cells {f : Nat → Nat → Option Pixel} {s t : State} (h : Paints f s t) :
    t.roq.cells = s.roq.cells ∧ t.roq.n1Last = s.roq.n1Last ∧ t.params = s.params := by
  rw [h.frame]; simp

theorem buffersHold_length {s : State} (h : buffersHold s) (b : Bool) : (s.roq.buf b).length = s.roq.area := by
  cases b
  · exact h.1
  · exact h.2

/-- One pixel (20_memory.md R67). -/
theorem pixWrite_paints {s : State} (h : buffersHold s) (x y : Nat) (px : Pixel) :
    Paints (fun x' y' => if x' = x ∧ y' = y then some px else none) s (pixWrite x y px s) := by
  have hc := pixWrite_codeStep x y px s
  have hw : (pixWrite x y px s).roq.wsel = s.roq.wsel := hc.wsel
  have hf : pixWrite x y px s =
      { s with roq := { s.roq with buf0 := (pixWrite x y px s).roq.buf0, buf1 := (pixWrite x y px s).roq.buf1 } } := by
    unfold pixWrite
    split
    · cases hb : s.roq.wsel <;> simp [RoqUnit.setBuf]
    · rfl
  have ha : (pixWrite x y px s).roq.area = s.roq.area := by rw [hf]; rfl
  refine ⟨hf, hc.readBuffer, ?_, fun x' y' hxy => ?_⟩
  · have h1 : ∀ b, ((pixWrite x y px s).roq.buf b).length = s.roq.area := by
      intro b
      by_cases hb : b = s.roq.wsel
      · subst hb; rw [hc.writeLength, buffersHold_length h]
      · obtain rfl : b = !s.roq.wsel := Bool.eq_not_of_ne hb
        rw [hc.readBuffer, buffersHold_length h]
    exact ⟨by rw [ha]; exact h1 false, by rw [ha]; exact h1 true⟩
  · rw [pixelAt_pixWrite px x' y' hxy (by rw [buffersHold_length h])]
    split <;> simp

/-- Pixels at listed offsets of a block, each with the colour of its offset. -/
theorem offsets_paint {s : State} (h : buffersHold s) (px py : Nat) (col : Nat → Nat → Pixel) (l : List (Nat × Nat)) :
    Paints (fun x y => if px ≤ x ∧ py ≤ y ∧ (x - px, y - py) ∈ l then some (col (x - px) (y - py)) else none) s
      (l.foldl (fun s ij => pixWrite (px + ij.1) (py + ij.2) (col ij.1 ij.2) s) s) := by
  induction l generalizing s with
  | nil => simpa using Paints.none h
  | cons ij l ih =>
    have h1 := pixWrite_paints h (px + ij.1) (py + ij.2) (col ij.1 ij.2)
    refine (h1.trans (ih h1.hold)).congr fun x y _ => ?_
    by_cases hl : px ≤ x ∧ py ≤ y ∧ (x - px, y - py) ∈ l
    · have hc : px ≤ x ∧ py ≤ y ∧ (x - px, y - py) ∈ ij :: l := ⟨hl.1, hl.2.1, List.mem_cons_of_mem _ hl.2.2⟩
      simp only [if_pos hl, if_pos hc, Option.some_or]
    · rw [if_neg hl, Option.none_or]
      by_cases he : x = px + ij.1 ∧ y = py + ij.2
      · obtain ⟨rfl, rfl⟩ := he
        simp
      · rw [if_neg he, if_neg]
        rintro ⟨h2, h3, h4⟩
        rcases List.mem_cons.1 h4 with h4 | h4
        · exact he ⟨by rw [← h4]; show x = px + (x - px); omega, by rw [← h4]; show y = py + (y - py); omega⟩
        · exact hl ⟨h2, h3, h4⟩

theorem mem_blockOffsets {n i j : Nat} : (i, j) ∈ blockOffsets n ↔ i < n ∧ j < n := by
  simp [blockOffsets, and_comm]

/-- DRAW_CELL paints the cell's 2×2 block (42_roq_vq.md R201). -/
theorem drawCell_paints {s : State} (h : buffersHold s) (px py : Nat) (c : Cell) :
    Paints (fun x y => if inBlock px py 2 x y then some (cellPixel s.params.yuv c (x - px) (y - py)) else none) s
      (drawCell px py c s) := by
  have h1 := pixWrite_paints h px py (yuvPixel s.params.yuv c.y0 c.u c.v)
  have h2 := pixWrite_paints h1.hold (px + 1) py (yuvPixel s.params.yuv c.y1 c.u c.v)
  have h3 := pixWrite_paints h2.hold px (py + 1) (yuvPixel s.params.yuv c.y2 c.u c.v)
  have h4 := pixWrite_paints h3.hold (px + 1) (py + 1) (yuvPixel s.params.yuv c.y3 c.u c.v)
  refine (((h1.trans h2).trans h3).trans h4).congr fun x y _ => ?_
  by_cases hb : inBlock px py 2 x y
  · rw [if_pos hb]
    obtain ⟨b1, b2, b3, b4⟩ := hb
    rcases Nat.lt_or_ge x (px + 1) with hx | hx <;> rcases Nat.lt_or_ge y (py + 1) with hy | hy
    · obtain rfl : x = px := by omega
      obtain rfl : y = py := by omega
      simp [cellPixel]
    · obtain rfl : x = px := by omega
      obtain rfl : y = py + 1 := by omega
      simp [cellPixel]
    · obtain rfl : x = px + 1 := by omega
      obtain rfl : y = py := by omega
      simp [cellPixel]
    · obtain rfl : x = px + 1 := by omega
      obtain rfl : y = py + 1 := by omega
      simp [cellPixel]
  · rw [if_neg hb, if_neg, if_neg, if_neg, if_neg]
    · rfl
    all_goals (rintro ⟨rfl, rfl⟩; exact hb (by refine ⟨?_, ?_, ?_, ?_⟩ <;> omega))

/-- DRAW_CELL_X2 paints a 4×4 block, each sample a 2×2 square (42_roq_vq.md R202). -/
theorem drawCellX2_paints {s : State} (h : buffersHold s) (px py : Nat) (c : Cell) :
    Paints (fun x y => if inBlock px py 4 x y then
        some (cellPixel s.params.yuv c ((x - px) / 2) ((y - py) / 2)) else none) s (drawCellX2 px py c s) := by
  refine (offsets_paint h px py (sampleAt (yuvCell s.params.yuv c)) (blockOffsets 4)).congr fun x y _ => ?_
  by_cases hb : inBlock px py 4 x y
  · obtain ⟨b1, b2, b3, b4⟩ := hb
    rw [if_pos ⟨b1, b3, mem_blockOffsets.2 ⟨by omega, by omega⟩⟩, if_pos ⟨b1, b2, b3, b4⟩]
    have hi : x - px < 4 := by omega
    have hj : y - py < 4 := by omega
    generalize x - px = i at hi
    generalize y - py = j at hj
    interval_cases i <;> interval_cases j <;> rfl
  · rw [if_neg hb, if_neg]
    rintro ⟨b1, b3, b5⟩
    have := mem_blockOffsets.1 b5
    exact hb (by refine ⟨?_, ?_, ?_, ?_⟩ <;> omega)

/-! ### Cells given by index -/

theorem cellAt_of_loaded {i : Byte} {s : State} (h : cellLoaded i s) : cellAt i s = .done (at8 s.roq.cells i) s := by
  unfold cellAt
  rw [if_neg]
  rintro ⟨h1, h2⟩
  have := h h1
  omega

theorem quadAt_of_loaded {q : Byte} {s : State} (h : s.params.cbStale = .fault → q.toNat < s.roq.n2Last.toNat) :
    quadAt q s = .done (at8 s.roq.quads q) s := by
  unfold quadAt
  rw [if_neg]
  rintro ⟨h1, h2⟩
  have := h h1
  omega

theorem drawIndexed_paints {s : State} (h : buffersHold s) (px py : Nat) {i : Byte} (hi : cellLoaded i s) :
    ∃ t, drawIndexed px py i s = .done () t ∧
      Paints (fun x y => if inBlock px py 2 x y then
        some (cellPixel s.params.yuv (at8 s.roq.cells i) (x - px) (y - py)) else none) s t :=
  ⟨_, by rw [drawIndexed, cellAt_of_loaded hi, bind_done], drawCell_paints h px py _⟩

theorem drawIndexedX2_paints {s : State} (h : buffersHold s) (px py : Nat) {i : Byte} (hi : cellLoaded i s) :
    ∃ t, drawIndexedX2 px py i s = .done () t ∧
      Paints (fun x y => if inBlock px py 4 x y then
        some (cellPixel s.params.yuv (at8 s.roq.cells i) ((x - px) / 2) ((y - py) / 2)) else none) s t :=
  ⟨_, by rw [drawIndexedX2, cellAt_of_loaded hi, bind_done], drawCellX2_paints h px py _⟩

theorem cellLoaded_of_paints {f : Nat → Nat → Option Pixel} {s t : State} (h : Paints f s t) {i : Byte}
    (hi : cellLoaded i s) : cellLoaded i t := by
  obtain ⟨-, h2, h3⟩ := h.cells
  intro hc
  rw [h3] at hc
  rw [h2]
  exact hi hc

/-- A stale index raises (41_roq_chunks.md R169). -/
theorem cellAt_stale {i : Byte} {s : State} (hf : s.params.cbStale = .fault) (hi : s.roq.n1Last.toNat ≤ i.toNat) :
    cellAt i s = .raised .cbStale s := by
  rw [cellAt, if_pos ⟨hf, hi⟩]

/-- A way to draw one indexed cell over an h×h square, each sample z×z: where the index is loaded, and where it is stale. -/
structure DrawsCell (h z : Nat) (draw : Nat → Nat → Byte → State → Run Unit) : Prop where
  paints : ∀ {s : State} (px py : Nat) {i : Byte}, buffersHold s → cellLoaded i s →
    ∃ t, draw px py i s = .done () t ∧
      Paints (fun x y => if inBlock px py h x y then
        some (cellPixel s.params.yuv (at8 s.roq.cells i) ((x - px) / z) ((y - py) / z)) else none) s t
  stale : ∀ {s : State} (px py : Nat) {i : Byte}, s.params.cbStale = .fault → s.roq.n1Last.toNat ≤ i.toNat →
    draw px py i s = .raised .cbStale s

theorem drawIndexed_draws : DrawsCell 2 1 drawIndexed where
  paints px py _ h hi := by
    obtain ⟨t, ht, hp⟩ := drawIndexed_paints h px py hi
    exact ⟨t, ht, by simpa only [Nat.div_one] using hp⟩
  stale px py _ hf hi := by rw [drawIndexed, cellAt_stale hf hi]; rfl

theorem drawIndexedX2_draws : DrawsCell 4 2 drawIndexedX2 where
  paints px py _ h hi := drawIndexedX2_paints h px py hi
  stale px py _ hf hi := by rw [drawIndexedX2, cellAt_stale hf hi]; rfl

/-- Quadrants of a quad-cell drawn one after another, quadrant `j` at offset (j % 2, j / 2) (30_encoding.md R97). -/
def drawQuadrants (draw : Nat → Nat → Byte → State → Run Unit) (h bx bY : Nat) (q : Quad) : List Nat → State → Run Unit
  | [], s => .done () s
  | j :: l, s => (draw (bx + h * (j % 2)) (bY + h * (j / 2)) (quadCell q (j % 2) (j / 2)) s).bind fun _ s =>
    drawQuadrants draw h bx bY q l s

theorem bind_return (m : Run Unit) : (m.bind fun _ s => .done () s) = m := by cases m <;> rfl

theorem drawFour_eq (bx bY : Nat) (q : Quad) (s : State) :
    drawFour bx bY q s = drawQuadrants drawIndexed 2 bx bY q [0, 1, 2, 3] s := by
  simp only [drawQuadrants, bind_return]
  rfl

theorem drawFourX2_eq (bx bY : Nat) (q : Quad) (s : State) :
    drawFourX2 bx bY q s = drawQuadrants drawIndexedX2 4 bx bY q [0, 1, 2, 3] s := by
  simp only [drawQuadrants, bind_return]
  rfl

theorem quadPixels_zero (h z bx bY : Nat) (s : State) (q : Quad) : quadPixels h z bx bY 0 s q = fun _ _ => none := by
  funext x y
  rw [quadPixels, if_neg fun hc => Nat.not_lt_zero _ hc.2]

/-- All four quadrants fill the block. -/
theorem quadPixels_four {h : Nat} (hh : h = 2 ∨ h = 4) (z bx bY : Nat) (s : State) (q : Quad) (x y : Nat) :
    quadPixels h z bx bY 4 s q x y =
      if inBlock bx bY (2 * h) x y then
        some (cellPixel s.params.yuv (at8 s.roq.cells (quadCell q ((x - bx) / h) ((y - bY) / h)))
          ((x - bx) % h / z) ((y - bY) % h / z))
      else none := by
  unfold quadPixels
  by_cases hb : inBlock bx bY (2 * h) x y
  · obtain ⟨b1, b2, b3, b4⟩ := hb
    rw [if_pos ⟨⟨b1, b2, b3, b4⟩, by rcases hh with rfl | rfl <;> omega⟩, if_pos ⟨b1, b2, b3, b4⟩]
  · rw [if_neg fun hc => hb hc.1, if_neg hb]

/-- Where quadrant `k` is, and the offset inside it. -/
theorem quadrant_iff {h : Nat} (hh : h = 2 ∨ h = 4) {k : Nat} (hk : k < 4) (bx bY x y : Nat) :
    (inBlock (bx + h * (k % 2)) (bY + h * (k / 2)) h x y ↔
      inBlock bx bY (2 * h) x y ∧ 2 * ((y - bY) / h) + (x - bx) / h = k) ∧
    (inBlock (bx + h * (k % 2)) (bY + h * (k / 2)) h x y →
      (x - bx) / h = k % 2 ∧ (y - bY) / h = k / 2 ∧
        (x - bx) % h = x - (bx + h * (k % 2)) ∧ (y - bY) % h = y - (bY + h * (k / 2))) := by
  unfold inBlock
  rcases hh with rfl | rfl <;> interval_cases k <;> omega

/-- One more quadrant. -/
theorem Paints.quadrant {h z bx bY k : Nat} (hh : h = 2 ∨ h = 4) (hk : k < 4) {q : Quad} {s t u : State}
    (ht : Paints (quadPixels h z bx bY k s q) s t)
    (hu : Paints (fun x y => if inBlock (bx + h * (k % 2)) (bY + h * (k / 2)) h x y then
        some (cellPixel t.params.yuv (at8 t.roq.cells (quadCell q (k % 2) (k / 2))) ((x - (bx + h * (k % 2))) / z)
          ((y - (bY + h * (k / 2))) / z)) else Option.none) t u) :
    Paints (quadPixels h z bx bY (k + 1) s q) s u := by
  refine (ht.trans hu).congr fun x y _ => ?_
  obtain ⟨h1, h2⟩ := quadrant_iff hh hk bx bY x y
  simp only [ht.cells.1, ht.cells.2.2]
  by_cases hb : inBlock (bx + h * (k % 2)) (bY + h * (k / 2)) h x y
  · obtain ⟨e1, e2, e3, e4⟩ := h2 hb
    obtain ⟨e5, e6⟩ := h1.1 hb
    have e7 : 2 * ((y - bY) / h) + (x - bx) / h < k + 1 := by omega
    rw [if_pos hb, Option.some_or, quadPixels, if_pos ⟨e5, e7⟩, e1, e2, e3, e4]
  · rw [if_neg hb, Option.none_or]
    unfold quadPixels
    by_cases hc : inBlock bx bY (2 * h) x y ∧ 2 * ((y - bY) / h) + (x - bx) / h < k
    · rw [if_pos hc, if_pos ⟨hc.1, by omega⟩]
    · rw [if_neg hc, if_neg]
      rintro ⟨c1, c2⟩
      exact hb (h1.2 ⟨c1, by
        have : ¬ 2 * ((y - bY) / h) + (x - bx) / h < k := fun h' => hc ⟨c1, h'⟩
        omega⟩)

/-- Quadrants from `k` on, all loaded: all are drawn. -/
theorem drawQuadrants_paint {h z : Nat} (hh : h = 2 ∨ h = 4) {draw : Nat → Nat → Byte → State → Run Unit} (hd : DrawsCell h z draw)
    {bx bY : Nat} {q : Quad} (n : Nat) {k : Nat} (hkn : k + n = 4) {s t : State} (ht : Paints (quadPixels h z bx bY k s q) s t)
    (hl : ∀ j, j < 4 → cellLoaded (quadCell q (j % 2) (j / 2)) s) :
    ∃ u, drawQuadrants draw h bx bY q (List.range' k n) t = .done () u ∧ Paints (quadPixels h z bx bY 4 s q) s u := by
  induction n generalizing k t with
  | zero => obtain rfl : k = 4 := by omega
            exact ⟨t, rfl, ht⟩
  | succ n ih =>
    obtain ⟨v, hv, hp⟩ := hd.paints (bx + h * (k % 2)) (bY + h * (k / 2)) ht.hold (cellLoaded_of_paints ht (hl k (by omega)))
    obtain ⟨u, hu, hpu⟩ := ih (by omega) (ht.quadrant hh (by omega) hp)
    refine ⟨u, ?_, hpu⟩
    rw [List.range'_succ, drawQuadrants, hv, bind_done]
    exact hu

/-- Quadrants from `k` on with `m` the first stale one: those before it are drawn, then the fault is raised. -/
theorem drawQuadrants_stale {h z : Nat} (hh : h = 2 ∨ h = 4) {draw : Nat → Nat → Byte → State → Run Unit} (hd : DrawsCell h z draw)
    {bx bY : Nat} {q : Quad} (n : Nat) {k m : Nat} (hkn : k + n = 4) (hkm : k ≤ m) (hm : m < 4) {s t : State}
    (ht : Paints (quadPixels h z bx bY k s q) s t) (hf : s.params.cbStale = .fault)
    (hl : ∀ j, j < m → cellLoaded (quadCell q (j % 2) (j / 2)) s) (hs : s.roq.n1Last.toNat ≤ (quadCell q (m % 2) (m / 2)).toNat) :
    ∃ u, drawQuadrants draw h bx bY q (List.range' k n) t = .raised .cbStale u ∧ Paints (quadPixels h z bx bY m s q) s u := by
  induction n generalizing k t with
  | zero => omega
  | succ n ih =>
    rw [List.range'_succ, drawQuadrants]
    rcases Nat.eq_or_lt_of_le hkm with rfl | hlt
    · refine ⟨t, ?_, ht⟩
      rw [hd.stale _ _ (by rw [ht.cells.2.2]; exact hf) (by rw [ht.cells.2.1]; exact hs), bind_raised]
    · obtain ⟨v, hv, hp⟩ := hd.paints (bx + h * (k % 2)) (bY + h * (k / 2)) ht.hold (cellLoaded_of_paints ht (hl k hlt))
      obtain ⟨u, hu, hpu⟩ := ih (by omega) hlt (ht.quadrant hh (by omega) hp)
      exact ⟨u, by rw [hv, bind_done]; exact hu, hpu⟩

theorem loaded_of_four {q : Quad} {s : State} (h0 : cellLoaded q.c0 s) (h1 : cellLoaded q.c1 s) (h2 : cellLoaded q.c2 s)
    (h3 : cellLoaded q.c3 s) : ∀ j, j < 4 → cellLoaded (quadCell q (j % 2) (j / 2)) s := by
  intro j hj
  interval_cases j
  · exact h0
  · exact h1
  · exact h2
  · exact h3

/-- Four cells at native scale paint a 4×4 block (42_roq_vq.md R197, R200). -/
theorem drawFour_paints {s : State} (h : buffersHold s) (bx bY : Nat) (q : Quad) (h0 : cellLoaded q.c0 s)
    (h1 : cellLoaded q.c1 s) (h2 : cellLoaded q.c2 s) (h3 : cellLoaded q.c3 s) :
    ∃ t, drawFour bx bY q s = .done () t ∧
      Paints (fun x y => if inBlock bx bY 4 x y then
        some (cellPixel s.params.yuv (at8 s.roq.cells (quadCell q ((x - bx) / 2) ((y - bY) / 2)))
          ((x - bx) % 2) ((y - bY) % 2)) else none) s t := by
  have hz : Paints (quadPixels 2 1 bx bY 0 s q) s s := by rw [quadPixels_zero]; exact Paints.none h
  obtain ⟨t, ht, hp⟩ := drawQuadrants_paint (.inl rfl) drawIndexed_draws 4 rfl hz (loaded_of_four h0 h1 h2 h3)
  exact ⟨t, by rw [drawFour_eq]; exact ht, hp.congr fun x y _ => by
    rw [quadPixels_four (.inl rfl), Nat.div_one, Nat.div_one]⟩

/-- Four cells at double scale paint an 8×8 block (42_roq_vq.md R196). -/
theorem drawFourX2_paints {s : State} (h : buffersHold s) (bx bY : Nat) (q : Quad) (h0 : cellLoaded q.c0 s)
    (h1 : cellLoaded q.c1 s) (h2 : cellLoaded q.c2 s) (h3 : cellLoaded q.c3 s) :
    ∃ t, drawFourX2 bx bY q s = .done () t ∧
      Paints (fun x y => if inBlock bx bY 8 x y then
        some (cellPixel s.params.yuv (at8 s.roq.cells (quadCell q ((x - bx) / 4) ((y - bY) / 4)))
          ((x - bx) % 4 / 2) ((y - bY) % 4 / 2)) else none) s t := by
  have hz : Paints (quadPixels 4 2 bx bY 0 s q) s s := by rw [quadPixels_zero]; exact Paints.none h
  obtain ⟨t, ht, hp⟩ := drawQuadrants_paint (.inr rfl) drawIndexedX2_draws 4 rfl hz (loaded_of_four h0 h1 h2 h3)
  exact ⟨t, by rw [drawFourX2_eq]; exact ht, hp.congr fun x y _ => quadPixels_four (.inr rfl) _ _ _ _ _ _ _⟩

/-- Four cells at native scale, cell `m` the first stale one (41_roq_chunks.md R169, 42_roq_vq.md R197, R200). -/
theorem drawFour_stale {s : State} (h : buffersHold s) (bx bY : Nat) (q : Quad) {m : Nat} (hm : m < 4)
    (hf : s.params.cbStale = .fault) (hl : ∀ j, j < m → cellLoaded (quadCell q (j % 2) (j / 2)) s)
    (hs : s.roq.n1Last.toNat ≤ (quadCell q (m % 2) (m / 2)).toNat) :
    ∃ t, drawFour bx bY q s = .raised .cbStale t ∧ Paints (quadPixels 2 1 bx bY m s q) s t := by
  have hz : Paints (quadPixels 2 1 bx bY 0 s q) s s := by rw [quadPixels_zero]; exact Paints.none h
  rw [drawFour_eq]
  exact drawQuadrants_stale (.inl rfl) drawIndexed_draws 4 rfl (Nat.zero_le m) hm hz hf hl hs

/-- Four cells at double scale, cell `m` the first stale one (41_roq_chunks.md R169, 42_roq_vq.md R196). -/
theorem drawFourX2_stale {s : State} (h : buffersHold s) (bx bY : Nat) (q : Quad) {m : Nat} (hm : m < 4)
    (hf : s.params.cbStale = .fault) (hl : ∀ j, j < m → cellLoaded (quadCell q (j % 2) (j / 2)) s)
    (hs : s.roq.n1Last.toNat ≤ (quadCell q (m % 2) (m / 2)).toNat) :
    ∃ t, drawFourX2 bx bY q s = .raised .cbStale t ∧ Paints (quadPixels 4 2 bx bY m s q) s t := by
  have hz : Paints (quadPixels 4 2 bx bY 0 s q) s s := by rw [quadPixels_zero]; exact Paints.none h
  rw [drawFourX2_eq]
  exact drawQuadrants_stale (.inr rfl) drawIndexedX2_draws 4 rfl (Nat.zero_le m) hm hz hf hl hs

/-! ### Motion copy -/

theorem mem_destPixels {u : RoqUnit} {px py n x y : Nat} :
    (x, y) ∈ destPixels u px py n ↔ inBlock px py n x y ∧ inFrame u x y := by
  simp only [destPixels, List.mem_filter, List.mem_map, Prod.exists, mem_blockOffsets, decide_eq_true_eq, Prod.mk.injEq]
  constructor
  · rintro ⟨⟨i, j, ⟨hi, hj⟩, rfl, rfl⟩, h2⟩
    exact ⟨⟨by omega, by omega, by omega, by omega⟩, h2⟩
  · rintro ⟨⟨h1, h2, h3, h4⟩, h5⟩
    exact ⟨⟨x - px, y - py, ⟨by omega, by omega⟩, by omega, by omega⟩, h5⟩

/-- Copies of pixels of the read buffer, which no copy changes. -/
theorem copies_paint {s : State} (h : buffersHold s) (mx my : Int) (l : List (Nat × Nat)) :
    Paints (fun x y => if (x, y) ∈ l then
        some (pixRead s.roq (!s.roq.wsel) ((x : Int) + mx).toNat ((y : Int) + my).toNat) else none) s
      (l.foldl (copyPixel mx my) s) := by
  induction l generalizing s with
  | nil => simpa using Paints.none h
  | cons d l ih =>
    have h1 := pixWrite_paints h d.1 d.2
      (pixRead s.roq (!s.roq.wsel) ((d.1 : Int) + mx).toNat ((d.2 : Int) + my).toNat)
    have hr : ∀ x y, pixRead (copyPixel mx my s d).roq (!(copyPixel mx my s d).roq.wsel) x y =
        pixRead s.roq (!s.roq.wsel) x y := by
      intro x y
      have hw : (copyPixel mx my s d).roq.wsel = s.roq.wsel := h1.wsel
      have hb : (copyPixel mx my s d).roq.buf (!s.roq.wsel) = s.roq.buf (!s.roq.wsel) := h1.read
      have ha : (copyPixel mx my s d).roq.w = s.roq.w := by
        show (pixWrite _ _ _ s).roq.w = _
        rw [h1.frame]
      rw [hw, pixRead, hb, ha]
      rfl
    refine (h1.trans (ih h1.hold)).congr fun x y _ => ?_
    have hr' := hr ((x : Int) + mx).toNat ((y : Int) + my).toNat
    by_cases hl : (x, y) ∈ l
    · rw [if_pos hl, if_pos (List.mem_cons_of_mem _ hl), Option.some_or]
      exact congrArg some hr'
    · rw [if_neg hl, Option.none_or]
      by_cases he : x = d.1 ∧ y = d.2
      · obtain ⟨rfl, rfl⟩ := he
        simp
      · rw [if_neg he, if_neg]
        intro hm
        rcases List.mem_cons.1 hm with hm | hm
        · exact he ⟨by rw [← hm], by rw [← hm]⟩
        · exact hl hm

/-- A motion copy whose sources all lie in the frame (42_roq_vq.md R199). -/
theorem motionCopy_paints {s : State} (h : buffersHold s) {px py n : Nat} {mx my : Int}
    (hin : ∀ x y, inFrame s.roq x y → inBlock px py n x y → sourceInFrame s.roq mx my x y) :
    ∃ t, motionCopy px py n mx my s = .done () t ∧
      Paints (fun x y => if inBlock px py n x y then
        pixelAt s (!s.roq.wsel) ((x : Int) + mx).toNat ((y : Int) + my).toNat else none) s t := by
  refine ⟨(destPixels s.roq px py n).foldl (copyPixel mx my) s, ?_, (copies_paint h mx my _).congr fun x y hxy => ?_⟩
  · unfold motionCopy
    rw [if_pos, if_neg (by rw [buffersHold_length h]; omega)]
    rw [List.all_eq_true]
    rintro ⟨x, y⟩ hd
    obtain ⟨h1, h2⟩ := mem_destPixels.1 hd
    exact decide_eq_true (hin x y h2 h1)
  · by_cases hb : inBlock px py n x y
    · rw [if_pos (mem_destPixels.2 ⟨hb, hxy⟩), if_pos hb]
      obtain ⟨s1, s2, s3, s4⟩ := hin x y hxy hb
      have hlt : ((y : Int) + my).toNat * s.roq.w.toNat + ((x : Int) + mx).toNat < (s.roq.buf (!s.roq.wsel)).length := by
        rw [buffersHold_length h, RoqUnit.area]
        have e1 : ((y : Int) + my).toNat + 1 ≤ s.roq.h.toNat := by omega
        have e2 : ((x : Int) + mx).toNat < s.roq.w.toNat := by omega
        have := Nat.mul_le_mul_right s.roq.w.toNat e1
        rw [Nat.mul_comm s.roq.w.toNat]
        rw [Nat.add_mul] at this
        omega
      simp only [pixRead, pixelAt, List.getD_eq_getElem?_getD, List.getElem?_eq_getElem hlt, Option.getD_some]
    · rw [if_neg hb, if_neg]
      exact fun hd => hb (mem_destPixels.1 hd).1

/-- A motion copy with a source outside the frame raises, before any pixel is written (42_roq_vq.md R199). -/
theorem motionCopy_outside {s : State} {px py n x y : Nat} {mx my : Int} (h1 : inFrame s.roq x y)
    (h2 : inBlock px py n x y) (h3 : ¬ sourceInFrame s.roq mx my x y) :
    motionCopy px py n mx my s = .raised .mvOutOfFrame s := by
  unfold motionCopy
  rw [if_neg]
  intro hall
  rw [List.all_eq_true] at hall
  exact h3 (of_decide_eq_true (hall (x, y) (mem_destPixels.2 ⟨h2, h1⟩)))

/-- What a code painted after it read `used` payload bytes (70_reset_and_hazards.md R318). -/
theorem Paints.drawn {f : Nat → Nat → Option Pixel} {used : Nat} {s t : State} (h : Paints f (payAdvance used s) t) :
    Drawn used (fun x y => (f x y).or (pixelAt s s.roq.wsel x y)) s t where
  frame := by rw [h.frame]; rfl
  read := h.read
  hold := h.hold
  written x y hxy := h.pixel x y hxy

theorem Drawn.congr {used : Nat} {f g : Nat → Nat → Option Pixel} {s t : State} (h : Drawn used f s t)
    (hfg : ∀ x y, inFrame s.roq x y → f x y = g x y) : Drawn used g s t :=
  ⟨h.frame, h.read, h.hold, fun x y hxy => by rw [h.written x y hxy, hfg x y hxy]⟩

theorem or_of_ite {c : Prop} [Decidable c] (a b : Option Pixel) (ha : c → a.isSome) :
    (if c then a else none).or b = if c then a else b := by
  split
  · rename_i h
    obtain ⟨v, hv⟩ := Option.isSome_iff_exists.1 (ha h)
    rw [hv, Option.some_or]
  · rfl

end Sys2Proof.Machine
end

