-- ==== Sys2Proof/Laws/Blocks.lean ====
section
/-! SUPPORT. Payload bytes and pixels of whole blocks: how many bits a code and a macroblock take from the payload, and where a code
completes (30_encoding.md R103, R109; 42_roq_vq.md R190 to R203). -/

namespace Sys2Proof.Machine

/-! ### Only pixels -/

/-- Nothing but the two frame buffers has changed. -/
def PixelsOnly (s t : State) : Prop :=
  t = { s with roq := { s.roq with buf0 := t.roq.buf0, buf1 := t.roq.buf1 } }

theorem PixelsOnly.refl (s : State) : PixelsOnly s s := rfl

theorem PixelsOnly.trans {s t u : State} (h : PixelsOnly s t) (k : PixelsOnly t u) : PixelsOnly s u := by
  unfold PixelsOnly at *
  rw [k, h]

theorem sat_pixelsOnly_bind {α β : Type} {s : State} {m : Run α} {k : α → State → Run β} (hm : m.sat (PixelsOnly s))
    (hk : ∀ a t, (k a t).sat (PixelsOnly t)) : (m.bind k).sat (PixelsOnly s) :=
  sat_bind hm (fun _ h => h) fun a t h => sat_mono (hk a t) fun _ h' => h.trans h'

theorem pixWrite_pixelsOnly (x y : Nat) (px : Pixel) (s : State) : PixelsOnly s (pixWrite x y px s) := by
  unfold pixWrite PixelsOnly
  split
  · cases h : s.roq.wsel <;> simp [RoqUnit.setBuf]
  · rfl

theorem foldl_pixelsOnly {ι : Type} (f : State → ι → State) (hf : ∀ s i, PixelsOnly s (f s i)) (l : List ι) (s : State) :
    PixelsOnly s (l.foldl f s) := by
  induction l generalizing s with
  | nil => exact .refl s
  | cons i l ih => exact (hf s i).trans (ih _)

theorem drawCell_pixelsOnly (px py : Nat) (c : Cell) (s : State) : PixelsOnly s (drawCell px py c s) :=
  (((pixWrite_pixelsOnly _ _ _ _).trans (pixWrite_pixelsOnly _ _ _ _)).trans (pixWrite_pixelsOnly _ _ _ _)).trans
    (pixWrite_pixelsOnly _ _ _ _)

theorem drawCellX2_pixelsOnly (px py : Nat) (c : Cell) (s : State) : PixelsOnly s (drawCellX2 px py c s) :=
  foldl_pixelsOnly _ (fun _ _ => pixWrite_pixelsOnly _ _ _ _) _ _

theorem motionCopy_pixelsOnly (px py n : Nat) (mx my : Int) (s : State) :
    (motionCopy px py n mx my s).sat (PixelsOnly s) := by
  unfold motionCopy
  split
  · split
    · trivial
    · exact foldl_pixelsOnly _ (fun _ _ => pixWrite_pixelsOnly _ _ _ _) _ _
  · exact PixelsOnly.refl s

theorem cellAt_pixelsOnly (i : Byte) (s : State) : (cellAt i s).sat (PixelsOnly s) := by
  unfold cellAt; split <;> exact PixelsOnly.refl s

theorem quadAt_pixelsOnly (q : Byte) (s : State) : (quadAt q s).sat (PixelsOnly s) := by
  unfold quadAt; split <;> exact PixelsOnly.refl s

theorem drawIndexed_pixelsOnly (px py : Nat) (i : Byte) (s : State) : (drawIndexed px py i s).sat (PixelsOnly s) :=
  sat_pixelsOnly_bind (cellAt_pixelsOnly i s) fun c t => drawCell_pixelsOnly px py c t

theorem drawIndexedX2_pixelsOnly (px py : Nat) (i : Byte) (s : State) : (drawIndexedX2 px py i s).sat (PixelsOnly s) :=
  sat_pixelsOnly_bind (cellAt_pixelsOnly i s) fun c t => drawCellX2_pixelsOnly px py c t

theorem drawFour_pixelsOnly (x y : Nat) (q : Quad) (s : State) : (drawFour x y q s).sat (PixelsOnly s) :=
  sat_pixelsOnly_bind (drawIndexed_pixelsOnly _ _ _ s) fun _ t =>
    sat_pixelsOnly_bind (drawIndexed_pixelsOnly _ _ _ t) fun _ u =>
      sat_pixelsOnly_bind (drawIndexed_pixelsOnly _ _ _ u) fun _ v => drawIndexed_pixelsOnly _ _ _ v

theorem drawFourX2_pixelsOnly (x y : Nat) (q : Quad) (s : State) : (drawFourX2 x y q s).sat (PixelsOnly s) :=
  sat_pixelsOnly_bind (drawIndexedX2_pixelsOnly _ _ _ s) fun _ t =>
    sat_pixelsOnly_bind (drawIndexedX2_pixelsOnly _ _ _ t) fun _ u =>
      sat_pixelsOnly_bind (drawIndexedX2_pixelsOnly _ _ _ u) fun _ v => drawIndexedX2_pixelsOnly _ _ _ v

/-! ### Bits taken from the payload -/

/-- The state a piece goes on with has the property. -/
def Run.doneSat {α : Type} (P : State → Prop) : Run α → Prop
  | .done _ s => P s
  | .raised _ _ => True
  | .broken _ => True
  | .refused _ => True

theorem doneSat_of_sat {α : Type} {P Q : State → Prop} {m : Run α} (h : m.sat P) (hPQ : ∀ s, P s → Q s) : m.doneSat Q := by
  cases m <;> first | exact hPQ _ h | trivial

theorem doneSat_and {α : Type} {P Q : State → Prop} {m : Run α} (h : m.doneSat P) (k : m.doneSat Q) :
    m.doneSat fun s => P s ∧ Q s := by
  cases m <;> first | exact ⟨h, k⟩ | trivial

theorem doneSat_bind {α β : Type} {P Q : State → Prop} {m : Run α} {k : α → State → Run β} (hm : m.doneSat P)
    (hk : ∀ a s, P s → (k a s).doneSat Q) : (m.bind k).doneSat Q := by
  cases m <;> first | exact hk _ _ hm | trivial

/-- Between `s` and `t` the payload gave up at most `n` bits, the bits still in the flag word not counted, and the reader holds at
most 8 codes (30_encoding.md R109). -/
def Spends (n : Nat) (s t : State) : Prop :=
  8 * t.roq.payPos.toNat + 2 * s.roq.flgPos.toNat ≤ 8 * s.roq.payPos.toNat + 2 * t.roq.flgPos.toNat + n ∧
    (s.roq.flgPos.toNat ≤ 8 → t.roq.flgPos.toNat ≤ 8) ∧ (s.roq.flgPos.toNat ≤ 7 → t.roq.flgPos.toNat ≤ 7)

theorem Spends.trans {m n : Nat} {s t u : State} (h : Spends m s t) (k : Spends n t u) : Spends (m + n) s u :=
  ⟨by have := h.1; have := k.1; omega, fun hs => k.2.1 (h.2.1 hs), fun hs => k.2.2 (h.2.2 hs)⟩

theorem Spends.mono {m n : Nat} {s t : State} (h : Spends m s t) (hmn : m ≤ n) : Spends n s t :=
  ⟨by have := h.1; omega, h.2⟩

theorem PixelsOnly.spends {s t : State} (h : PixelsOnly s t) : Spends 0 s t := by
  rw [h]; exact ⟨by simp, id, id⟩

theorem doneSat_mono {α : Type} {P Q : State → Prop} {m : Run α} (h : m.doneSat P) (hPQ : ∀ s, P s → Q s) : m.doneSat Q := by
  cases m <;> first | exact hPQ _ h | trivial

theorem spends_bind {α β : Type} {a b : Nat} {s : State} {m : Run α} {k : α → State → Run β}
    (hm : m.doneSat (Spends a s)) (hk : ∀ x t, (k x t).doneSat (Spends b t)) : (m.bind k).doneSat (Spends (a + b) s) :=
  doneSat_bind hm fun x t h => doneSat_mono (hk x t) fun _ h' => h.trans h'

theorem done_spends {α : Type} (a : α) (s : State) : (Run.done a s).doneSat (Spends 0 s) := (PixelsOnly.refl s).spends

theorem payRead_spends (s : State) : (payRead s).doneSat (Spends 8 s) := by
  cases h : payRead s with
  | done b t =>
    obtain ⟨h1, -, -, rfl⟩ := payRead_eq_done h
    refine ⟨?_, id, id⟩
    rw [payAdvance_payPos (by omega)]
    simp only [payAdvance_roq]
    omega
  | raised r t => trivial
  | broken f => trivial
  | refused r => trivial

theorem payRead4_spends (s : State) : (payRead4 s).doneSat (Spends 32 s) :=
  spends_bind (payRead_spends s) fun _ t => spends_bind (payRead_spends t) fun _ u =>
    spends_bind (payRead_spends u) fun _ v => spends_bind (payRead_spends v) fun _ w => done_spends _ w

/-- A reader that holds codes hands out the top one (42_roq_vq.md R191). -/
theorem nextCode_of_codes {s : State} (h : s.roq.flgPos ≠ 0) :
    nextCode s = .done (flagCode s.roq.flg s.roq.flgPos) { s with roq := { s.roq with flgPos := s.roq.flgPos - 1 } } := by
  rw [nextCode, refillFlags, if_neg h, bind_done]

/-- An empty reader takes a flag word first (42_roq_vq.md R191). -/
theorem nextCode_of_empty {s : State} (h : s.roq.flgPos = 0) (hl : payloadLeft 2 s) :
    nextCode s = .done (flagCode (le16 (payloadByte s 0) (payloadByte s 1)) 8)
      { payAdvance 2 s with roq := { (payAdvance 2 s).roq with
          flg := le16 (payloadByte s 0) (payloadByte s 1), flgPos := 7 } } := by
  simp only [nextCode, refillFlags, if_pos h, payRead16_of_left hl, bind_done]; rfl

theorem flgPos_pred {s : State} (h : s.roq.flgPos ≠ 0) : (s.roq.flgPos - 1).toNat + 1 = s.roq.flgPos.toNat := by
  have h1 : s.roq.flgPos.toNat ≠ 0 := fun h0 => h (BitVec.eq_of_toNat_eq h0)
  have := s.roq.flgPos.isLt
  rw [BitVec.toNat_sub, show (1 : BitVec 4).toNat = 1 from rfl]
  omega

/-- Each code takes two bits, refilled or not (42_roq_vq.md R191, 30_encoding.md R100). -/
theorem nextCode_spends (s : State) : (nextCode s).doneSat fun t => Spends 2 s t ∧ (s.roq.flgPos.toNat ≤ 8 → t.roq.flgPos.toNat ≤ 7) := by
  by_cases h : s.roq.flgPos = 0
  · cases h1 : payRead16 s with
    | done w t =>
      have hs : (payRead16 s).doneSat (Spends 16 s) :=
        spends_bind (payRead_spends s) fun _ u => spends_bind (payRead_spends u) fun _ w => done_spends _ w
      rw [h1] at hs
      have hc : (payRead16 s).sat (CursorOnly s) := payRead16_cursorOnly s
      rw [h1] at hc
      have hp : t.roq.flgPos = 0 := by rw [hc.1]; exact h
      rw [nextCode, refillFlags, if_pos h, h1]
      have h2 := hs.1
      rw [h, hp] at h2
      refine ⟨⟨?_, fun _ => show (8 - 1 : BitVec 4).toNat ≤ 8 by decide, fun _ => show (8 - 1 : BitVec 4).toNat ≤ 7 by decide⟩, fun _ => show (8 - 1 : BitVec 4).toNat ≤ 7 by decide⟩
      rw [h]
      show 8 * t.roq.payPos.toNat + _ ≤ 8 * s.roq.payPos.toNat + 2 * (8 - 1 : BitVec 4).toNat + 2
      have h8 : (8 - 1 : BitVec 4).toNat = 7 := by decide
      have h0 : (0 : BitVec 4).toNat = 0 := rfl
      rw [h8, h0]
      rw [h0] at h2
      omega
    | raised r t => rw [nextCode, refillFlags, if_pos h, h1]; trivial
    | broken f => rw [nextCode, refillFlags, if_pos h, h1]; trivial
    | refused r => rw [nextCode, refillFlags, if_pos h, h1]; trivial
  · rw [nextCode_of_codes h]
    have hp := flgPos_pred h
    refine ⟨⟨?_, ?_, ?_⟩, ?_⟩ <;> simp only <;> omega

theorem fccBlock_spends (n : Nat) (s : State) : (fccBlock n s).doneSat (Spends 8 s) :=
  spends_bind (payRead_spends s) fun _ t => doneSat_of_sat (motionCopy_pixelsOnly _ _ _ _ _ t) fun _ h => h.spends

theorem sld8_spends (s : State) : (sld8 s).doneSat (Spends 8 s) :=
  spends_bind (payRead_spends s) fun q t => doneSat_of_sat
    (sat_pixelsOnly_bind (quadAt_pixelsOnly q t) fun _ u => drawFourX2_pixelsOnly _ _ _ u) fun _ h => h.spends

theorem sld4_spends (s : State) : (sld4 s).doneSat (Spends 8 s) :=
  spends_bind (payRead_spends s) fun q t => doneSat_of_sat
    (sat_pixelsOnly_bind (quadAt_pixelsOnly q t) fun _ u => drawFour_pixelsOnly _ _ _ u) fun _ h => h.spends

theorem ccc4_spends (s : State) : (ccc4 s).doneSat (Spends 32 s) :=
  spends_bind (payRead4_spends s) fun _ t => doneSat_of_sat (drawFour_pixelsOnly _ _ _ t) fun _ h => h.spends

theorem block4_spends (x y : Nat) (s : State) : (block4 x y s).doneSat (Spends 34 s) := by
  refine spends_bind (a := 2) (b := 32) (doneSat_mono (nextCode_spends (atBlock x y s)) fun _ h => h.1) fun c t => ?_
  split
  · exact (PixelsOnly.refl t).spends.mono (by omega)
  · exact doneSat_mono (fccBlock_spends 4 t) fun _ h => h.mono (by omega)
  · exact doneSat_mono (sld4_spends t) fun _ h => h.mono (by omega)
  · exact ccc4_spends t
  · trivial

theorem subdivide_spends (x y : Nat) (s : State) : (subdivide x y s).doneSat (Spends 136 s) :=
  spends_bind (block4_spends _ _ s) fun _ t => spends_bind (block4_spends _ _ t) fun _ u =>
    spends_bind (block4_spends _ _ u) fun _ v => block4_spends _ _ v

theorem block8_spends (x y : Nat) (s : State) : (block8 x y s).doneSat (Spends 138 s) := by
  refine spends_bind (a := 2) (b := 136) (doneSat_mono (nextCode_spends (atBlock x y s)) fun _ h => h.1) fun c t => ?_
  split
  · exact (PixelsOnly.refl t).spends.mono (by omega)
  · exact doneSat_mono (fccBlock_spends 8 t) fun _ h => h.mono (by omega)
  · exact doneSat_mono (sld8_spends t) fun _ h => h.mono (by omega)
  · exact subdivide_spends _ _ t
  · trivial

/-- After a block the reader holds at most seven codes. -/
theorem block4_reader (x y : Nat) {s : State} (h : s.roq.flgPos.toNat ≤ 8) :
    (block4 x y s).doneSat fun t => t.roq.flgPos.toNat ≤ 7 := by
  refine doneSat_bind (doneSat_mono (nextCode_spends (atBlock x y s)) fun _ k => k.2 h) fun c t ht => ?_
  split
  · exact ht
  · exact doneSat_mono (fccBlock_spends 4 t) fun _ k => k.2.2 ht
  · exact doneSat_mono (sld4_spends t) fun _ k => k.2.2 ht
  · exact doneSat_mono (ccc4_spends t) fun _ k => k.2.2 ht
  · trivial

theorem block8_reader (x y : Nat) {s : State} (h : s.roq.flgPos.toNat ≤ 8) :
    (block8 x y s).doneSat fun t => t.roq.flgPos.toNat ≤ 7 := by
  refine doneSat_bind (doneSat_mono (nextCode_spends (atBlock x y s)) fun _ k => k.2 h) fun c t ht => ?_
  split
  · exact ht
  · exact doneSat_mono (fccBlock_spends 8 t) fun _ k => k.2.2 ht
  · exact doneSat_mono (sld8_spends t) fun _ k => k.2.2 ht
  · exact doneSat_mono (subdivide_spends _ _ t) fun _ k => k.2.2 ht
  · trivial

theorem subdivide_reader (x y : Nat) {s : State} (h : s.roq.flgPos.toNat ≤ 8) :
    (subdivide x y s).doneSat fun t => t.roq.flgPos.toNat ≤ 7 :=
  doneSat_bind (block4_reader _ _ h) fun _ _ h1 => doneSat_bind (block4_reader _ _ (by omega)) fun _ _ h2 =>
    doneSat_bind (block4_reader _ _ (by omega)) fun _ _ h3 => block4_reader _ _ (by omega)

theorem macroblock_reader {s : State} (h : s.roq.flgPos.toNat ≤ 8) :
    (macroblock s).doneSat fun t => t.roq.flgPos.toNat ≤ 7 :=
  doneSat_bind (block8_reader _ _ h) fun _ _ h1 => doneSat_bind (block8_reader _ _ (by omega)) fun _ _ h2 =>
    doneSat_bind (block8_reader _ _ (by omega)) fun _ _ h3 => block8_reader _ _ (by omega)

theorem macroblock_spends (s : State) : (macroblock s).doneSat (Spends 552 s) :=
  spends_bind (block8_spends _ _ s) fun _ t => spends_bind (block8_spends _ _ t) fun _ u =>
    spends_bind (block8_spends _ _ u) fun _ v => block8_spends _ _ v

/-! ### Where a code completes -/

/-- Between `s` and `t` no pixel of the frame outside the region has changed in the write buffer. -/
def Outside (R : Nat → Nat → Prop) (s t : State) : Prop :=
  ∀ x y, inFrame s.roq x y → ¬ R x y → pixelAt t s.roq.wsel x y = pixelAt s s.roq.wsel x y

/-- Up to payload address `hi` every code completes: the window reaches that far, nothing stored is stale, and neither the flag word
nor a payload byte holds a motion code. -/
structure Quiet (hi : Nat) (s : State) : Prop where
  params : s.params.wf
  stored : s.params.cbStale = .stored
  reader : s.roq.flgPos.toNat ≤ 8
  hold : buffersHold s
  window : hi ≤ s.roq.payEnd.toNat ∧ s.roq.payEnd.toNat ≤ s.ses.streamSize.toNat
  flag : s.roq.flgPos ≠ 0 →
    noMotionCode s.params (s.roq.flg.extractLsb' 0 8) ∧ noMotionCode s.params (s.roq.flg.extractLsb' 8 8)
  bytes : ∀ a, s.roq.payPos.toNat ≤ a → a < hi → noMotionCode s.params (s.stream.read a)

/-- Below `hi` there is room for `k` more bits, those in the flag word counted. -/
abbrev roomFor (hi k : Nat) (s : State) : Prop := 8 * s.roq.payPos.toNat + k + 7 ≤ 8 * hi + 2 * s.roq.flgPos.toNat

theorem roomFor_mono {hi k l : Nat} {s : State} (h : roomFor hi l s) (hkl : k ≤ l) : roomFor hi k s := by
  unfold roomFor at *; omega

/-- What a piece that needs `k` bits goes on to. -/
structure Served (hi k : Nat) (R : Nat → Nat → Prop) (s t : State) : Prop where
  step : CodeStep s t
  quiet : Quiet hi t
  room : ∀ m, roomFor hi (k + m) s → roomFor hi m t
  outside : Outside R s t

theorem Outside.of_same {s t : State} (R : Nat → Nat → Prop) (h : ∀ b, t.roq.buf b = s.roq.buf b) (hw : t.roq.w = s.roq.w) :
    Outside R s t := by
  intro x y _ _
  simp only [pixelAt, h, hw]

theorem Served.trans {hi a b : Nat} {R : Nat → Nat → Prop} {s t u : State} (h : Served hi a R s t) (k : Served hi b R t u) :
    Served hi (a + b) R s u where
  step := h.step.trans k.step
  quiet := k.quiet
  room := fun m hm => k.room m (h.room (b + m) (by omega))
  outside := by
    intro x y hxy hr
    have hf : inFrame t.roq x y := by rw [h.step.unit]; exact hxy
    have := k.outside x y hf hr
    rw [h.step.wsel] at this
    rw [this, h.outside x y hxy hr]

theorem Served.widen {hi k : Nat} {R R' : Nat → Nat → Prop} {s t : State} (h : Served hi k R s t)
    (hR : ∀ x y, R x y → R' x y) : Served hi k R' s t :=
  ⟨h.step, h.quiet, h.room, fun x y hxy hr => h.outside x y hxy fun h' => hr (hR x y h')⟩

theorem Served.mono {hi k l : Nat} {R : Nat → Nat → Prop} {s t : State} (h : Served hi k R s t) (hkl : k ≤ l) :
    Served hi l R s t :=
  ⟨h.step, h.quiet, fun m hm => h.room m (by unfold roomFor at *; omega), h.outside⟩

/-- A flag word with no motion code in its two bytes hands out none. -/
theorem flagCode_quiet {p : Params} {flg : Half} {pos : BitVec 4} (h : noMotionCode p (flg.extractLsb' 0 8))
    (h' : noMotionCode p (flg.extractLsb' 8 8)) (hp : pos.toNat ≤ 8) : flagCode flg pos ≠ p.vqFcc := by
  have sub : ∀ a b c : Nat, c = a + b → b + 2 ≤ 8 → flg.extractLsb' c 2 = (flg.extractLsb' a 8).extractLsb' b 2 := by
    intro a b c hc hb
    subst hc
    ext i hi
    rw [BitVec.getElem_extractLsb', BitVec.getElem_extractLsb', BitVec.getLsbD_extractLsb', Nat.add_assoc]
    have : b + i < 8 := by omega
    simp [this]
  obtain ⟨a0, a1, a2, a3⟩ := h
  obtain ⟨b0, b1, b2, b3⟩ := h'
  rw [← sub 0 0 0 rfl (by omega)] at a0
  rw [← sub 0 2 2 rfl (by omega)] at a1
  rw [← sub 0 4 4 rfl (by omega)] at a2
  rw [← sub 0 6 6 rfl (by omega)] at a3
  rw [← sub 8 0 8 rfl (by omega)] at b0
  rw [← sub 8 2 10 rfl (by omega)] at b1
  rw [← sub 8 4 12 rfl (by omega)] at b2
  rw [← sub 8 6 14 rfl (by omega)] at b3
  unfold flagCode
  generalize pos.toNat = n at hp
  interval_cases n <;> assumption

theorem quiet_atBlock {hi : Nat} {s : State} (h : Quiet hi s) (x y : Nat) : Quiet hi (atBlock x y s) :=
  ⟨h.params, h.stored, h.reader, h.hold, h.window, h.flag, h.bytes⟩

/-- The code reader where two bits are left (42_roq_vq.md R191). -/
theorem nextCode_quiet {hi : Nat} {s : State} (h : Quiet hi s) (hr : roomFor hi 2 s) :
    (nextCode s).completes fun c t =>
      c ≠ s.params.vqFcc ∧ Served hi 2 (fun _ _ => False) s t ∧ t.roq.flgPos.toNat ≤ 7 := by
  have hcode := nextCode_codeStep s
  by_cases h0 : s.roq.flgPos = 0
  · have hz : s.roq.flgPos.toNat = 0 := by rw [h0]; rfl
    have hl : payloadLeft 2 s := by
      unfold roomFor at hr
      exact ⟨by have := h.window.1; omega, h.window.2⟩
    rw [nextCode_of_empty h0 hl] at hcode ⊢
    have hb : ∀ k, k < 2 → noMotionCode s.params (payloadByte s k) := fun k hk =>
      h.bytes _ (by omega) (by unfold roomFor at hr; omega)
    have hfl : noMotionCode s.params ((le16 (payloadByte s 0) (payloadByte s 1)).extractLsb' 0 8) ∧
        noMotionCode s.params ((le16 (payloadByte s 0) (payloadByte s 1)).extractLsb' 8 8) := by
      have := bytes16_le (payloadByte s 0) (payloadByte s 1)
      simp only [bytes16, List.cons.injEq, and_true] at this
      rw [this.1, this.2]
      exact ⟨hb 0 (by omega), hb 1 (by omega)⟩
    have hpos := payAdvance_payPos hl.1
    refine ⟨flagCode_quiet hfl.1 hfl.2 (by decide), ⟨hcode, ⟨h.params, h.stored, ?_, h.hold, h.window, fun _ => hfl, ?_⟩, ?_, ?_⟩, ?_⟩
    · show (7 : BitVec 4).toNat ≤ 8; decide
    · intro a ha
      refine h.bytes a ?_
      have : (payAdvance 2 s).roq.payPos.toNat ≤ a := ha
      omega
    · intro m hm
      show 8 * (payAdvance 2 s).roq.payPos.toNat + m + 7 ≤ 8 * hi + 2 * (7 : BitVec 4).toNat
      have h7 : (7 : BitVec 4).toNat = 7 := rfl
      unfold roomFor at hm
      omega
    · exact Outside.of_same _ (fun b => by cases b <;> rfl) rfl
    · show (7 : BitVec 4).toNat ≤ 7; decide
  · rw [nextCode_of_codes h0] at hcode ⊢
    have hp := flgPos_pred h0
    have hr8 := h.reader
    refine ⟨flagCode_quiet (h.flag h0).1 (h.flag h0).2 h.reader, ⟨hcode, ⟨h.params, h.stored, ?_, h.hold, h.window, fun _ => h.flag h0, h.bytes⟩, ?_, ?_⟩, ?_⟩
    · show (s.roq.flgPos - 1).toNat ≤ 8; omega
    · intro m hm
      show 8 * s.roq.payPos.toNat + m + 7 ≤ 8 * hi + 2 * (s.roq.flgPos - 1).toNat
      unfold roomFor at hm
      omega
    · exact Outside.of_same _ (fun b => by cases b <;> rfl) rfl
    · show (s.roq.flgPos - 1).toNat ≤ 7; omega

/-- Pixels painted inside a region after `used` payload bytes. -/
theorem Paints.served {hi used : Nat} {R : Nat → Nat → Prop} {f : Nat → Nat → Option Pixel} {s t : State} (h : Quiet hi s)
    (hl : s.roq.payPos.toNat + used ≤ hi) (hc : CodeStep s t) (hp : Paints f (payAdvance used s) t)
    (hf : ∀ x y, ¬ R x y → f x y = Option.none) : Served hi (8 * used) R s t := by
  have hpos := payAdvance_payPos (n := used) (s := s) (by have := h.window.1; omega)
  have hpp : t.roq.payPos = (payAdvance used s).roq.payPos := by rw [hp.frame]
  refine ⟨hc, ⟨?_, ?_, hc.reader h.reader, hp.hold, ?_, ?_, ?_⟩, ?_, ?_⟩
  · rw [hc.state]; exact h.params
  · rw [hc.state]; exact h.stored
  · rw [hc.state, hc.unit]; exact h.window
  · rw [hp.frame]; exact h.flag
  · intro a ha
    rw [hc.state]
    refine h.bytes a ?_
    rw [hpp] at ha
    omega
  · intro m hm
    have hfp : t.roq.flgPos = s.roq.flgPos := by rw [hp.frame]; rfl
    unfold roomFor at *
    rw [hfp, hpp, hpos]
    omega
  · intro x y hxy hr
    have := hp.pixel x y hxy
    rw [hf x y hr, Option.none_or] at this
    exact this

theorem cellLoaded_of_stored {i : Byte} {s : State} (h : s.params.cbStale = .stored) : cellLoaded i s :=
  fun hf => absurd (h.symm.trans hf) (by decide)

/-- The room for operand bytes once a code is in hand. -/
theorem room_bytes {hi n : Nat} {s : State} (hr : roomFor hi (8 * n) s) (h7 : s.roq.flgPos.toNat ≤ 7) :
    s.roq.payPos.toNat + n ≤ hi := by
  unfold roomFor at hr; omega

theorem served_of_done {hi k : Nat} {R : Nat → Nat → Prop} {s : State} {m : Run Unit} (hm : m.sat (CodeStep s))
    (h : ∃ t, m = .done () t ∧ (CodeStep s t → Served hi k R s t)) : m.completes fun _ t => Served hi k R s t := by
  obtain ⟨t, ht, hs⟩ := h
  subst ht
  exact hs hm

theorem sld8_quiet {hi : Nat} {s : State} (h : Quiet hi s) (hr : roomFor hi 8 s) (h7 : s.roq.flgPos.toNat ≤ 7) :
    (sld8 s).completes fun _ t => Served hi 8 (inBlock (blkX s) (blkY s) 8) s t := by
  have hb := room_bytes (n := 1) hr h7
  have hl : payloadLeft 1 s := ⟨by have := h.window.1; omega, h.window.2⟩
  have hst : (payAdvance 1 s).params.cbStale = .stored := h.stored
  obtain ⟨t, ht, hp⟩ := drawFourX2_paints (s := payAdvance 1 s) h.hold (blkX s) (blkY s)
    (at8 s.roq.quads (payloadByte s 0)) (cellLoaded_of_stored hst) (cellLoaded_of_stored hst) (cellLoaded_of_stored hst)
    (cellLoaded_of_stored hst)
  refine served_of_done (sld8_codeStep s) ⟨t, ?_, fun hc => Paints.served h hb hc hp fun x y hn => if_neg hn⟩
  rw [sld8, payRead_of_left hl, bind_done,
    quadAt_of_loaded (s := payAdvance 1 s) (fun hf => absurd (hst.symm.trans hf) (by decide)), bind_done]
  exact ht

theorem sld4_quiet {hi : Nat} {s : State} (h : Quiet hi s) (hr : roomFor hi 8 s) (h7 : s.roq.flgPos.toNat ≤ 7) :
    (sld4 s).completes fun _ t => Served hi 8 (inBlock (blkX s) (blkY s) 4) s t := by
  have hb := room_bytes (n := 1) hr h7
  have hl : payloadLeft 1 s := ⟨by have := h.window.1; omega, h.window.2⟩
  have hst : (payAdvance 1 s).params.cbStale = .stored := h.stored
  obtain ⟨t, ht, hp⟩ := drawFour_paints (s := payAdvance 1 s) h.hold (blkX s) (blkY s)
    (at8 s.roq.quads (payloadByte s 0)) (cellLoaded_of_stored hst) (cellLoaded_of_stored hst) (cellLoaded_of_stored hst)
    (cellLoaded_of_stored hst)
  refine served_of_done (sld4_codeStep s) ⟨t, ?_, fun hc => Paints.served h hb hc hp fun x y hn => if_neg hn⟩
  rw [sld4, payRead_of_left hl, bind_done,
    quadAt_of_loaded (s := payAdvance 1 s) (fun hf => absurd (hst.symm.trans hf) (by decide)), bind_done]
  exact ht

theorem ccc4_quiet {hi : Nat} {s : State} (h : Quiet hi s) (hr : roomFor hi 32 s) (h7 : s.roq.flgPos.toNat ≤ 7) :
    (ccc4 s).completes fun _ t => Served hi 32 (inBlock (blkX s) (blkY s) 4) s t := by
  have hb := room_bytes (n := 4) hr h7
  have hl : payloadLeft 4 s := ⟨by have := h.window.1; omega, h.window.2⟩
  have hst : (payAdvance 4 s).params.cbStale = .stored := h.stored
  obtain ⟨t, ht, hp⟩ := drawFour_paints (s := payAdvance 4 s) h.hold (blkX s) (blkY s)
    { c0 := payloadByte s 0, c1 := payloadByte s 1, c2 := payloadByte s 2, c3 := payloadByte s 3 }
    (cellLoaded_of_stored hst) (cellLoaded_of_stored hst) (cellLoaded_of_stored hst) (cellLoaded_of_stored hst)
  refine served_of_done (ccc4_codeStep s) ⟨t, ?_, fun hc => Paints.served h hb hc hp fun x y hn => if_neg hn⟩
  rw [ccc4, payRead4_of_left hl, bind_done]
  exact ht

theorem Served.refl {hi : Nat} {s : State} (h : Quiet hi s) (R : Nat → Nat → Prop) : Served hi 0 R s s :=
  ⟨.refl s, h, fun m hm => by unfold roomFor at *; omega, fun _ _ _ _ => rfl⟩

/-- The block in hand after the code reader is the one asked for. -/
theorem CodeStep_atBlock {x y : Nat} {s t : State} {hi k : Nat} {R : Nat → Nat → Prop}
    (h : Served hi k R (atBlock x y s) t) : Served hi k R s t :=
  ⟨(atBlock_codeStep x y s).trans h.step, h.quiet, h.room, h.outside⟩

/-- A piece that needs no more than the room there is. -/
theorem completes_served_bind {α : Type} {hi a b : Nat} {R : Nat → Nat → Prop} {s : State} {m : Run α}
    {k : α → State → Run Unit} {P : α → State → Prop} (hr : roomFor hi (a + b) s)
    (hm : m.completes fun x t => P x t ∧ Served hi a R s t)
    (hk : ∀ x t, P x t → Quiet hi t → roomFor hi b t → (k x t).completes fun _ u => Served hi b R t u) :
    (m.bind k).completes fun _ u => Served hi (a + b) R s u := by
  refine completes_bind hm fun x t ht => ?_
  have hb := ht.2.room b hr
  exact completes_mono (hk x t ht.1 ht.2.quiet hb) fun _ u hu => ht.2.trans hu

/-- The block in hand is not moved by the code reader. -/
theorem nextCode_block {s t : State} {c : BitVec 2} (h : nextCode s = .done c t) : blkX t = blkX s ∧ blkY t = blkY s := by
  have key : (nextCode s).sat fun t => t.roq.blockX = s.roq.blockX ∧ t.roq.blockY = s.roq.blockY := by
    refine sat_bind (P := fun t => t.roq.blockX = s.roq.blockX ∧ t.roq.blockY = s.roq.blockY) ?_ (fun _ h => h) fun _ t h => h
    unfold refillFlags
    split
    · refine sat_bind (P := CursorOnly s) (payRead16_cursorOnly s) (fun _ h => ?_) fun w t h => ?_ <;>
        (rw [h.1]; exact ⟨rfl, rfl⟩)
    · exact ⟨rfl, rfl⟩
  rw [h] at key
  exact ⟨by simp only [blkX]; rw [key.1], by simp only [blkY]; rw [key.2]⟩

/-- BLOCK4 completes where 34 bits are left, and paints inside its block (42_roq_vq.md R203). -/
theorem block4_quiet {hi x y : Nat} {s : State} (hx : x < 2 ^ 32) (hy : y < 2 ^ 32) (h : Quiet hi s)
    (hr : roomFor hi 34 s) : (block4 x y s).completes fun _ t => Served hi 34 (inBlock x y 4) s t := by
  have hq := quiet_atBlock h x y
  have hn := nextCode_quiet hq (by unfold roomFor at *; simp only [atBlock_roq]; omega)
  obtain ⟨c, t, ht, hc, hs, h7⟩ := completes_iff.1 hn
  have hblk := nextCode_block ht
  have hbx : blkX t = x := by rw [hblk.1]; simp only [blkX, atBlock_roq, BitVec.toNat_ofNat]; exact Nat.mod_eq_of_lt hx
  have hby : blkY t = y := by rw [hblk.2]; simp only [blkY, atBlock_roq, BitVec.toNat_ofNat]; exact Nat.mod_eq_of_lt hy
  have hs' : Served hi 2 (inBlock x y 4) s t := (CodeStep_atBlock hs).widen fun _ _ hf => hf.elim
  have hr32 : roomFor hi 32 t := hs'.room 32 hr
  rw [block4, ht, bind_done]
  have hp : t.params = s.params := by rw [hs'.step.state]
  obtain ⟨k, hk⟩ := vqCode?_isSome hs.quiet.params c
  rw [hk]
  cases k with
  | mot => exact (hs'.trans (.refl hs.quiet _)).mono (by omega)
  | fcc =>
    have := vqCode?_value hk
    rw [hp] at this
    exact (hc this.symm).elim
  | sld =>
    have := sld4_quiet hs.quiet (by unfold roomFor at *; omega) h7
    rw [hbx, hby] at this
    exact completes_mono this fun _ u hu => (hs'.trans hu).mono (by omega)
  | ccc =>
    have := ccc4_quiet hs.quiet hr32 h7
    rw [hbx, hby] at this
    exact completes_mono this fun _ u hu => hs'.trans hu

/-- Four 4×4 blocks complete where 136 bits are left (42_roq_vq.md R198). -/
theorem subdivide_quiet {hi x y : Nat} {s : State} (hx : x + 4 < 2 ^ 32) (hy : y + 4 < 2 ^ 32) (h : Quiet hi s)
    (hr : roomFor hi 136 s) : (subdivide x y s).completes fun _ t => Served hi 136 (inBlock x y 8) s t := by
  have sub : ∀ a b, (a = x ∨ a = x + 4) → (b = y ∨ b = y + 4) → ∀ u, Quiet hi u → roomFor hi 34 u →
      (block4 a b u).completes fun _ t => Served hi 34 (inBlock x y 8) u t := by
    intro a b ha hb u hu hru
    refine completes_mono (block4_quiet (by omega) (by omega) hu hru) fun _ t ht => ht.widen ?_
    rintro p q ⟨_, _, _, _⟩
    refine ⟨?_, ?_, ?_, ?_⟩ <;> omega
  have part : ∀ (m : State → Run Unit) (b : Nat),
      (∀ u, Quiet hi u → roomFor hi b u → (m u).completes fun _ t => Served hi b (inBlock x y 8) u t) →
      ∀ p q, (p = x ∨ p = x + 4) → (q = y ∨ q = y + 4) → ∀ u, Quiet hi u → roomFor hi (34 + b) u →
        ((block4 p q u).bind fun _ v => m v).completes fun _ t => Served hi (34 + b) (inBlock x y 8) u t := by
    intro m b hm p q hp hq u hu hru
    refine completes_served_bind (P := fun _ _ => True) hru
      (completes_mono (sub p q hp hq u hu (by unfold roomFor at *; omega)) fun _ _ ht => ⟨trivial, ht⟩) ?_
    intro _ v _ hv hrv
    exact hm v hv hrv
  exact part _ 102 (part _ 68 (part _ 34 (sub _ _ (.inr rfl) (.inr rfl)) _ _ (.inl rfl) (.inr rfl)) _ _ (.inr rfl) (.inl rfl))
    _ _ (.inl rfl) (.inl rfl) s h hr

/-- BLOCK8 completes where 138 bits are left, and paints inside its block (42_roq_vq.md R203). -/
theorem block8_quiet {hi x y : Nat} {s : State} (hx : x + 4 < 2 ^ 32) (hy : y + 4 < 2 ^ 32) (h : Quiet hi s)
    (hr : roomFor hi 138 s) : (block8 x y s).completes fun _ t => Served hi 138 (inBlock x y 8) s t := by
  have hq := quiet_atBlock h x y
  have hn := nextCode_quiet hq (by unfold roomFor at *; simp only [atBlock_roq]; omega)
  obtain ⟨c, t, ht, hc, hs, h7⟩ := completes_iff.1 hn
  have hblk := nextCode_block ht
  have hbx : blkX t = x := by rw [hblk.1]; simp only [blkX, atBlock_roq, BitVec.toNat_ofNat]; exact Nat.mod_eq_of_lt (by omega)
  have hby : blkY t = y := by rw [hblk.2]; simp only [blkY, atBlock_roq, BitVec.toNat_ofNat]; exact Nat.mod_eq_of_lt (by omega)
  have hs' : Served hi 2 (inBlock x y 8) s t := (CodeStep_atBlock hs).widen fun _ _ hf => hf.elim
  have hr136 : roomFor hi 136 t := hs'.room 136 hr
  rw [block8, ht, bind_done]
  have hp : t.params = s.params := by rw [hs'.step.state]
  obtain ⟨k, hk⟩ := vqCode?_isSome hs.quiet.params c
  rw [hk]
  cases k with
  | mot => exact (hs'.trans (.refl hs.quiet _)).mono (by omega)
  | fcc =>
    have := vqCode?_value hk
    rw [hp] at this
    exact (hc this.symm).elim
  | sld =>
    have := sld8_quiet hs.quiet (by unfold roomFor at *; omega) h7
    rw [hbx, hby] at this
    exact completes_mono this fun _ u hu => (hs'.trans hu).mono (by omega)
  | ccc =>
    have := subdivide_quiet (x := blkX t) (y := blkY t) (by omega) (by omega) hs.quiet hr136
    rw [hbx, hby] at this
    show (subdivide (blkX t) (blkY t) t).completes _
    rw [hbx, hby]
    exact completes_mono this fun _ u hu => hs'.trans hu

/-- A macroblock completes where 552 bits are left (30_encoding.md R109). -/
theorem macroblock_quiet {hi : Nat} {s : State} (hx : s.roq.xp.toNat + 16 < 2 ^ 32) (hy : s.roq.yp.toNat + 16 < 2 ^ 32)
    (h : Quiet hi s) (hr : roomFor hi 552 s) :
    (macroblock s).completes fun _ t => Served hi 552 (fun _ _ => True) s t := by
  have sub : ∀ a b, a + 4 < 2 ^ 32 → b + 4 < 2 ^ 32 → ∀ u, Quiet hi u → roomFor hi 138 u →
      (block8 a b u).completes fun _ t => Served hi 138 (fun _ _ => True) u t := fun a b ha hb u hu hru =>
    completes_mono (block8_quiet ha hb hu hru) fun _ t ht => ht.widen fun _ _ _ => trivial
  have part : ∀ (m : State → Run Unit) (b : Nat),
      (∀ u, Quiet hi u → roomFor hi b u → (m u).completes fun _ t => Served hi b (fun _ _ => True) u t) →
      ∀ p q, p + 4 < 2 ^ 32 → q + 4 < 2 ^ 32 → ∀ u, Quiet hi u → roomFor hi (138 + b) u →
        ((block8 p q u).bind fun _ v => m v).completes fun _ t => Served hi (138 + b) (fun _ _ => True) u t := by
    intro m b hm p q hp hq u hu hru
    refine completes_served_bind (P := fun _ _ => True) hru
      (completes_mono (sub p q hp hq u hu (by unfold roomFor at *; omega)) fun _ _ ht => ⟨trivial, ht⟩) ?_
    intro _ v _ hv hrv
    exact hm v hv hrv
  exact part _ 414 (part _ 276 (part _ 138 (sub _ _ (by omega) (by omega)) _ _ (by omega) (by omega)) _ _ (by omega) (by omega))
    _ _ (by omega) (by omega) s h hr

end Sys2Proof.Machine
end

