-- ==== Sys2Proof/Laws/Chunks.lean ====
section
/-! SUPPORT. The loops of the codebook load and of the sound chunks: what each leaves when its bytes are there, and where it stops
when they are not. -/

namespace Sys2Proof.Machine

/-- The next `n` payload bytes. -/
def payloadBytes (n : Nat) (s : State) : List Byte := (List.range n).map (payloadByte s)

theorem payloadBytes_zero (s : State) : payloadBytes 0 s = [] := rfl

@[simp] theorem payloadBytes_length (n : Nat) (s : State) : (payloadBytes n s).length = n := by simp [payloadBytes]

theorem payloadBytes_succ {n : Nat} {s : State} (h : s.roq.payPos.toNat + 1 ≤ s.roq.payEnd.toNat) :
    payloadBytes (n + 1) s = payloadByte s 0 :: payloadBytes n (payAdvance 1 s) := by
  simp only [payloadBytes, List.range_succ_eq_map, List.map_cons, List.map_map, List.cons.injEq, true_and]
  refine List.map_congr_left fun k _ => ?_
  rw [payloadByte_advance h, Nat.add_comm 1 k]
  rfl

/-- The payload of a chunk that fits is what its window holds. -/
theorem chunkPayload_eq {size : Word} {s : State} (h : chunkFits size s) :
    chunkPayload size s = payloadBytes size.toInt.toNat (openWindow s.ses.offset.toNat size.toInt s) := by
  have h1 := (openWindow_bounds h).1
  refine List.map_congr_left fun k _ => ?_
  rw [payloadByte, h1]
  rfl

/-- The window of a chunk that fits, written without rounding: its registers as sums, `used` bytes read. -/
theorem payAdvance_openWindow {size : Word} {s : State} (used : Nat) :
    (payAdvance used (openWindow s.ses.offset.toNat size.toInt s)) = { s with roq := inWindow size used s } := by
  have h8 : BitVec.ofNat 32 (s.ses.offset.toNat + 8) = s.ses.offset + 8 := by
    apply BitVec.eq_of_toNat_eq; simp
  have he : BitVec.ofInt 32 ((s.ses.offset.toNat : Int) + 8 + size.toInt) = s.ses.offset + 8 + size := by
    rw [BitVec.ofInt_add, BitVec.ofInt_add, BitVec.ofInt_toInt]
    congr 2
    apply BitVec.eq_of_toInt_eq
    simp [BitVec.toInt_eq_toNat_bmod]
  simp only [payAdvance, openWindow, inWindow, h8, he]

/-! ### Reads that find too few bytes -/

/-- Reads of `n` bytes with fewer left: the bytes there are read, then the fault is raised. -/
theorem payRead_short {s : State} (h : s.roq.payEnd.toNat ≤ s.roq.payPos.toNat) : payRead s = .raised .payloadOverrun s :=
  payRead_of_none h

/-- How many bytes of the payload are left. -/
abbrev bytesLeft (l : Nat) (s : State) : Prop :=
  s.roq.payPos.toNat + l = s.roq.payEnd.toNat ∧ s.roq.payEnd.toNat ≤ s.ses.streamSize.toNat

theorem bytesLeft.left {l n : Nat} {s : State} (h : bytesLeft l s) (hn : n ≤ l) : payloadLeft n s :=
  ⟨by have := h.1; omega, h.2⟩

theorem bytesLeft.advance {l n : Nat} {s : State} (h : bytesLeft l s) (hn : n ≤ l) : bytesLeft (l - n) (payAdvance n s) := by
  have h1 := h.1
  refine ⟨?_, h.2⟩
  rw [payAdvance_payPos (by omega)]
  simp only [payAdvance_roq]
  omega

theorem payRead_of_bytesLeft {l : Nat} {s : State} (h : bytesLeft (l + 1) s) :
    payRead s = .done (payloadByte s 0) (payAdvance 1 s) := payRead_of_left (h.left (by omega))

theorem payRead_of_bytesLeft_zero {s : State} (h : bytesLeft 0 s) : payRead s = .raised .payloadOverrun s :=
  payRead_of_none (by have := h.1; omega)

theorem payRead16_short {l : Nat} {s : State} (h : bytesLeft l s) (hl : l < 2) :
    payRead16 s = .raised .payloadOverrun (payAdvance l s) := by
  interval_cases l
  · rw [payRead16, payRead_of_bytesLeft_zero h, bind_raised, payAdvance_zero]
  · rw [payRead16, payRead_of_bytesLeft h, bind_done, payRead_of_bytesLeft_zero (h.advance (by omega)), bind_raised]

theorem payRead4_short {l : Nat} {s : State} (h : bytesLeft l s) (hl : l < 4) :
    payRead4 s = .raised .payloadOverrun (payAdvance l s) := by
  unfold payRead4
  interval_cases l
  · rw [payRead_of_bytesLeft_zero h, bind_raised, payAdvance_zero]
  · rw [payRead_of_bytesLeft h, bind_done, payRead_of_bytesLeft_zero (h.advance (by omega)), bind_raised]
  · rw [payRead_of_bytesLeft h, bind_done, payRead_of_bytesLeft (h.advance (by omega)), bind_done, payAdvance_add,
      payRead_of_bytesLeft_zero (h.advance (by omega)), bind_raised]
  · rw [payRead_of_bytesLeft h, bind_done, payRead_of_bytesLeft (h.advance (by omega)), bind_done, payAdvance_add,
      payRead_of_bytesLeft (h.advance (by omega)), bind_done, payAdvance_add,
      payRead_of_bytesLeft_zero (h.advance (by omega)), bind_raised]

/-! ### The codebook load -/

/-- The cell the six bytes from payload place `k` on make (30_encoding.md R95). -/
def cellFrom (s : State) (k : Nat) : Cell :=
  { y0 := payloadByte s k, y1 := payloadByte s (k + 1), y2 := payloadByte s (k + 2), y3 := payloadByte s (k + 3),
    u := payloadByte s (k + 4), v := payloadByte s (k + 5) }

/-- The quad-cell the four bytes from payload place `k` on make (30_encoding.md R95). -/
def quadFrom (s : State) (k : Nat) : Quad :=
  { c0 := payloadByte s k, c1 := payloadByte s (k + 1), c2 := payloadByte s (k + 2), c3 := payloadByte s (k + 3) }

theorem readCell_of_left {s : State} (h : payloadLeft 6 s) : readCell s = .done (cellFrom s 0) (payAdvance 6 s) := by
  have h1 := h.1
  have h2 := h.2
  rw [readCell, payRead4_of_left ⟨by omega, h2⟩, bind_done]
  dsimp only
  rw [payRead_of_left (payloadLeft_advance (m := 4) (n := 1) ⟨by omega, h2⟩), bind_done, payAdvance_add,
    payRead_of_left (payloadLeft_advance (m := 5) (n := 1) ⟨by omega, h2⟩), bind_done, payAdvance_add,
    payloadByte_advance (by omega), payloadByte_advance (by omega)]
  rfl

theorem readCell_short {l : Nat} {s : State} (h : bytesLeft l s) (hl : l < 6) :
    readCell s = .raised .payloadOverrun (payAdvance l s) := by
  unfold readCell
  by_cases h4 : l < 4
  · rw [payRead4_short h h4, bind_raised]
  · rw [payRead4_of_left (h.left (by omega)), bind_done]
    have ha := h.advance (n := 4) (by omega)
    dsimp only
    by_cases h5 : l = 4
    · subst h5; rw [payRead_of_bytesLeft_zero ha, bind_raised]
    · obtain rfl : l = 5 := by omega
      rw [payRead_of_bytesLeft ha, bind_done, payAdvance_add, payRead_of_bytesLeft_zero (h.advance (by omega)), bind_raised]

/-- Entries `k`, `k+1`, … of a store replaced by what `f` gives, `n` of them. -/
def loadedFrom {α : Type} (v : Vector α 256) (k n : Nat) (f : Nat → α) : Vector α 256 :=
  Vector.ofFn fun j : Fin 256 => if k ≤ j.val ∧ j.val < k + n then f (j.val - k) else v[j]

theorem loadedFrom_zero {α : Type} (v : Vector α 256) (k : Nat) (f : Nat → α) : loadedFrom v k 0 f = v := by
  ext i hi
  simp only [loadedFrom, Vector.getElem_ofFn]
  rw [if_neg (by omega)]
  rfl

theorem loadedFrom_succ {α : Type} (v : Vector α 256) (k n : Nat) (f : Nat → α) :
    loadedFrom (v.setIfInBounds k (f 0)) (k + 1) n (fun j => f (j + 1)) = loadedFrom v k (n + 1) f := by
  ext i hi
  simp only [loadedFrom, Vector.getElem_ofFn, Fin.getElem_fin, Vector.getElem_setIfInBounds]
  by_cases h : k = i
  · subst h; rw [if_neg (by omega), if_pos rfl, if_pos (by omega), Nat.sub_self]
  · by_cases h' : k + 1 ≤ i ∧ i < k + 1 + n
    · rw [if_pos h', if_pos (by omega), show i - (k + 1) + 1 = i - k by omega]
    · rw [if_neg h', if_neg h, if_neg (by omega)]

/-- The cell codebook replaced. -/
def withCells (v : Vector Cell 256) (s : State) : State := { s with roq := { s.roq with cells := v } }

/-- The quad-cell codebook replaced. -/
def withQuads (v : Vector Quad 256) (s : State) : State := { s with roq := { s.roq with quads := v } }

theorem payAdvance_withCells (n : Nat) (v : Vector Cell 256) (s : State) :
    payAdvance n (withCells v s) = withCells v (payAdvance n s) := rfl

theorem payAdvance_withQuads (n : Nat) (v : Vector Quad 256) (s : State) :
    payAdvance n (withQuads v s) = withQuads v (payAdvance n s) := rfl

theorem payloadLeft_withCells {n : Nat} {v : Vector Cell 256} {s : State} (h : payloadLeft n s) :
    payloadLeft n (withCells v s) := h

theorem bytesLeft_withCells {l : Nat} {v : Vector Cell 256} {s : State} (h : bytesLeft l s) :
    bytesLeft l (withCells v s) := h

theorem quadFrom_withCells (v : Vector Cell 256) (s : State) (k : Nat) : quadFrom (withCells v s) k = quadFrom s k := rfl

theorem withCells_quads (v : Vector Cell 256) (s : State) : (withCells v s).roq.quads = s.roq.quads := rfl

theorem cellFrom_advance {s : State} {m : Nat} (h : s.roq.payPos.toNat + m ≤ s.roq.payEnd.toNat) (k : Nat) :
    cellFrom (payAdvance m s) k = cellFrom s (m + k) := by
  simp only [cellFrom, payloadByte_advance h, Nat.add_assoc]

theorem quadFrom_advance {s : State} {m : Nat} (h : s.roq.payPos.toNat + m ≤ s.roq.payEnd.toNat) (k : Nat) :
    quadFrom (payAdvance m s) k = quadFrom s (m + k) := by
  simp only [quadFrom, payloadByte_advance h, Nat.add_assoc]

theorem loadCells_succ {n k : Nat} {s : State} (h : payloadLeft 6 s) :
    loadCells (n + 1) k s =
      loadCells n (k + 1) (withCells (s.roq.cells.setIfInBounds k (cellFrom s 0)) (payAdvance 6 s)) := by
  rw [loadCells, readCell_of_left h, bind_done]
  rfl

theorem loadQuads_succ {n k : Nat} {s : State} (h : payloadLeft 4 s) :
    loadQuads (n + 1) k s =
      loadQuads n (k + 1) (withQuads (s.roq.quads.setIfInBounds k (quadFrom s 0)) (payAdvance 4 s)) := by
  rw [loadQuads, payRead4_of_left h, bind_done]
  rfl

/-- The cells loaded when their bytes are there, and the cells kept (41_roq_chunks.md R168). -/
theorem loadCells_of_left {n : Nat} (k : Nat) {s : State} (h : payloadLeft (6 * n) s) :
    loadCells n k s =
      .done () (withCells (loadedFrom s.roq.cells k n fun j => cellFrom s (6 * j)) (payAdvance (6 * n) s)) := by
  induction n generalizing k s with
  | zero => rw [Nat.mul_zero, payAdvance_zero, loadedFrom_zero]; rfl
  | succ n ih =>
    have h1 := h.1
    have h6 : s.roq.payPos.toNat + 6 ≤ s.roq.payEnd.toNat := by omega
    have hr : payloadLeft (6 * n) (payAdvance 6 s) :=
      payloadLeft_advance (m := 6) (by rw [show 6 + 6 * n = 6 * (n + 1) by ring]; exact h)
    rw [loadCells_succ ⟨h6, h.2⟩, ih (k + 1) (s := withCells (s.roq.cells.setIfInBounds k (cellFrom s 0)) (payAdvance 6 s)) hr, payAdvance_withCells, payAdvance_add,
      show 6 + 6 * n = 6 * (n + 1) by ring, ← loadedFrom_succ s.roq.cells k n fun j => cellFrom s (6 * j)]
    have hc : (fun j => cellFrom (payAdvance 6 s) (6 * j)) = fun j => cellFrom s (6 * (j + 1)) :=
      funext fun j => by rw [cellFrom_advance h6, show 6 + 6 * j = 6 * (j + 1) by ring]
    rw [← hc]
    rfl

/-- A cell load whose bytes run out after `l` of them: the whole cells before that are loaded (41_roq_chunks.md R168). -/
theorem loadCells_short {n l : Nat} (k : Nat) {s : State} (h : bytesLeft l s) (hl : l < 6 * n) :
    loadCells n k s = .raised .payloadOverrun
      (withCells (loadedFrom s.roq.cells k (l / 6) fun j => cellFrom s (6 * j)) (payAdvance l s)) := by
  induction n generalizing k l s with
  | zero => omega
  | succ n ih =>
    by_cases hlt : l < 6
    · rw [loadCells, readCell_short h hlt, bind_raised, show l / 6 = 0 by omega, loadedFrom_zero]; rfl
    · have h1 := h.1
      have h6 : s.roq.payPos.toNat + 6 ≤ s.roq.payEnd.toNat := by omega
      rw [loadCells_succ ⟨h6, h.2⟩,
        ih (k + 1) (s := withCells (s.roq.cells.setIfInBounds k (cellFrom s 0)) (payAdvance 6 s)) (h.advance (n := 6) (by omega)) (by omega), payAdvance_withCells,
        payAdvance_add, show 6 + (l - 6) = l by omega, show l / 6 = (l - 6) / 6 + 1 by omega,
        ← loadedFrom_succ s.roq.cells k ((l - 6) / 6) fun j => cellFrom s (6 * j)]
      have hc : (fun j => cellFrom (payAdvance 6 s) (6 * j)) = fun j => cellFrom s (6 * (j + 1)) :=
        funext fun j => by rw [cellFrom_advance h6, show 6 + 6 * j = 6 * (j + 1) by ring]
      rw [← hc]
      rfl

/-- The quad-cells loaded when their bytes are there (41_roq_chunks.md R168). -/
theorem loadQuads_of_left {n : Nat} (k : Nat) {s : State} (h : payloadLeft (4 * n) s) :
    loadQuads n k s =
      .done () (withQuads (loadedFrom s.roq.quads k n fun j => quadFrom s (4 * j)) (payAdvance (4 * n) s)) := by
  induction n generalizing k s with
  | zero => rw [Nat.mul_zero, payAdvance_zero, loadedFrom_zero]; rfl
  | succ n ih =>
    have h1 := h.1
    have h4 : s.roq.payPos.toNat + 4 ≤ s.roq.payEnd.toNat := by omega
    have hr : payloadLeft (4 * n) (payAdvance 4 s) :=
      payloadLeft_advance (m := 4) (by rw [show 4 + 4 * n = 4 * (n + 1) by ring]; exact h)
    rw [loadQuads_succ ⟨h4, h.2⟩, ih (k + 1) (s := withQuads (s.roq.quads.setIfInBounds k (quadFrom s 0)) (payAdvance 4 s)) hr, payAdvance_withQuads, payAdvance_add,
      show 4 + 4 * n = 4 * (n + 1) by ring, ← loadedFrom_succ s.roq.quads k n fun j => quadFrom s (4 * j)]
    have hc : (fun j => quadFrom (payAdvance 4 s) (4 * j)) = fun j => quadFrom s (4 * (j + 1)) :=
      funext fun j => by rw [quadFrom_advance h4, show 4 + 4 * j = 4 * (j + 1) by ring]
    rw [← hc]
    rfl

/-- A quad-cell load whose bytes run out after `l` of them (41_roq_chunks.md R168). -/
theorem loadQuads_short {n l : Nat} (k : Nat) {s : State} (h : bytesLeft l s) (hl : l < 4 * n) :
    loadQuads n k s = .raised .payloadOverrun
      (withQuads (loadedFrom s.roq.quads k (l / 4) fun j => quadFrom s (4 * j)) (payAdvance l s)) := by
  induction n generalizing k l s with
  | zero => omega
  | succ n ih =>
    by_cases hlt : l < 4
    · rw [loadQuads, payRead4_short h hlt, bind_raised, show l / 4 = 0 by omega, loadedFrom_zero]; rfl
    · have h1 := h.1
      have h4 : s.roq.payPos.toNat + 4 ≤ s.roq.payEnd.toNat := by omega
      rw [loadQuads_succ ⟨h4, h.2⟩,
        ih (k + 1) (s := withQuads (s.roq.quads.setIfInBounds k (quadFrom s 0)) (payAdvance 4 s)) (h.advance (n := 4) (by omega)) (by omega), payAdvance_withQuads,
        payAdvance_add, show 4 + (l - 4) = l by omega, show l / 4 = (l - 4) / 4 + 1 by omega,
        ← loadedFrom_succ s.roq.quads k ((l - 4) / 4) fun j => quadFrom s (4 * j)]
      have hc : (fun j => quadFrom (payAdvance 4 s) (4 * j)) = fun j => quadFrom s (4 * (j + 1)) :=
        funext fun j => by rw [quadFrom_advance h4, show 4 + 4 * j = 4 * (j + 1) by ring]
      rw [← hc]
      rfl

/-! ### The sound loops -/

/-- The accumulator after the bytes. -/
theorem dpcm_getLastD_cons (o : AudioOverflow) (acc : Half) (b : Byte) (bs : List Byte) :
    (dpcm o acc (b :: bs)).getLastD acc = (dpcm o (stepAdd o acc (sqr b)) bs).getLastD (stepAdd o acc (sqr b)) := by
  cases bs <;> simp [dpcm, List.getLastD]

/-- The accumulators replaced. -/
def withAccs (l r : Half) (s : State) : State := { s with roq := { s.roq with accL := l, accR := r } }

theorem payAdvance_withAccs (n : Nat) (l r : Half) (s : State) :
    payAdvance n (withAccs l r s) = withAccs l r (payAdvance n s) := rfl

/-- The mono loop: one sample for each byte, the accumulator left at the last one (44_roq_audio.md R247). -/
theorem monoLoop_of_left {n : Nat} {acc : Half} {s : State} (h : payloadLeft n s) :
    monoLoop n (withAccs acc s.roq.accR s) = .done (dpcm s.params.audioOverflow acc (payloadBytes n s))
      (withAccs ((dpcm s.params.audioOverflow acc (payloadBytes n s)).getLastD acc) s.roq.accR (payAdvance n s)) := by
  induction n generalizing acc s with
  | zero => rw [payAdvance_zero]; rfl
  | succ n ih =>
    have h1 := h.1
    have h2 := h.2
    have hl : payloadLeft 1 (withAccs acc s.roq.accR s) := ⟨by show s.roq.payPos.toNat + 1 ≤ s.roq.payEnd.toNat; omega, h2⟩
    have hr : payloadLeft n (payAdvance 1 s) := payloadLeft_advance (m := 1) (by rw [Nat.add_comm]; exact h)
    have rest := ih (acc := stepAdd s.params.audioOverflow acc (sqr (payloadByte s 0))) hr
    rw [payloadBytes_succ (by omega), dpcm_getLastD_cons, Nat.add_comm n 1, ← payAdvance_add, Nat.add_comm 1 n]
    rw [monoLoop, payRead_of_left hl, bind_done]
    have step : ∀ k : List Half → State → Run (List Half),
        (monoLoop n (withAccs (stepAdd s.params.audioOverflow acc (sqr (payloadByte s 0))) (payAdvance 1 s).roq.accR
          (payAdvance 1 s))).bind k = k _ _ := fun k => by rw [rest, bind_done]
    exact step _

theorem interleave_cons (l r : Half) (ls rs : List Half) : interleave (l :: ls) (r :: rs) = l :: r :: interleave ls rs := rfl

theorem payloadBytes_succ_succ {n : Nat} {s : State} (h : s.roq.payPos.toNat + 2 ≤ s.roq.payEnd.toNat) :
    payloadBytes (n + 2) s = payloadByte s 0 :: payloadByte s 1 :: payloadBytes n (payAdvance 2 s) := by
  have ha : (payAdvance 1 s).roq.payPos.toNat + 1 ≤ (payAdvance 1 s).roq.payEnd.toNat := by
    rw [payAdvance_payPos (by omega)]; simp only [payAdvance_roq]; omega
  rw [payloadBytes_succ (by omega), payloadBytes_succ ha, payAdvance_add, payloadByte_advance (by omega)]

/-- The stereo loop: one pair of samples for each pair of bytes (44_roq_audio.md R248). -/
theorem stereoLoop_of_left {n : Nat} {l r : Half} {s : State} (h : payloadLeft (2 * n) s) :
    stereoLoop n (withAccs l r s) = .done
      (interleave (dpcm s.params.audioOverflow l (leftBytes (payloadBytes (2 * n) s)))
        (dpcm s.params.audioOverflow r (rightBytes (payloadBytes (2 * n) s))))
      (withAccs ((dpcm s.params.audioOverflow l (leftBytes (payloadBytes (2 * n) s))).getLastD l)
        ((dpcm s.params.audioOverflow r (rightBytes (payloadBytes (2 * n) s))).getLastD r) (payAdvance (2 * n) s)) := by
  induction n generalizing l r s with
  | zero => rw [Nat.mul_zero, payAdvance_zero]; rfl
  | succ n ih =>
    have h1 := h.1
    have h2 := h.2
    have hl : payloadLeft 1 (withAccs l r s) := ⟨by show s.roq.payPos.toNat + 1 ≤ s.roq.payEnd.toNat; omega, h2⟩
    have hl' : payloadLeft 1 (payAdvance 1 (withAccs l r s)) :=
      payloadLeft_advance (m := 1) ⟨by show s.roq.payPos.toNat + 2 ≤ s.roq.payEnd.toNat; omega, h2⟩
    have hr : payloadLeft (2 * n) (payAdvance 2 s) :=
      payloadLeft_advance (m := 2) (by rw [show 2 + 2 * n = 2 * (n + 1) by ring]; exact h)
    have rest := ih (l := stepAdd s.params.audioOverflow l (sqr (payloadByte s 0)))
      (r := stepAdd s.params.audioOverflow r (sqr (payloadByte s 1))) hr
    rw [show 2 * (n + 1) = 2 * n + 2 by ring, payloadBytes_succ_succ (by omega), leftBytes, rightBytes, dpcm_getLastD_cons,
      dpcm_getLastD_cons, Nat.add_comm (2 * n) 2, ← payAdvance_add]
    rw [stereoLoop, payRead_of_left hl, bind_done, payRead_of_left hl', bind_done, payAdvance_add,
      payloadByte_advance (by show s.roq.payPos.toNat + 1 ≤ s.roq.payEnd.toNat; omega)]
    have step : ∀ k : List Half → State → Run (List Half),
        (stereoLoop n (withAccs (stepAdd s.params.audioOverflow l (sqr (payloadByte s 0)))
          (stepAdd s.params.audioOverflow r (sqr (payloadByte s 1))) (payAdvance 2 s))).bind k = k _ _ :=
      fun k => by rw [rest, bind_done]
    exact step _

/-! ### The chunk step's outcome -/

/-- A chunk that fits and whose operation goes on: CONTINUE, with OFFSET at the payload's end (41_roq_chunks.md R161, R165). -/
theorem chunkStep_outcome_done {size : Word} {op : State → Run Unit} {s t : State} (h : chunkFits size s)
    (ho : op (openWindow s.ses.offset.toNat size.toInt s) = .done () t) :
    (chunkStep size op s).outcome = .next (retContinue (setOffset t.roq.payEnd t)) := by
  rw [chunkStep_fits h, ho]; rfl

/-- A chunk that fits and whose operation faults: the fault is taken, OFFSET stays (41_roq_chunks.md R165). -/
theorem chunkStep_outcome_raised {size : Word} {op : State → Run Unit} {s t : State} {r : FaultReason}
    (h : chunkFits size s) (ho : op (openWindow s.ses.offset.toNat size.toInt s) = .raised r t) :
    (chunkStep size op s).outcome = .next (takeFault r t) := by
  rw [chunkStep_fits h, ho]; rfl

theorem openWindow_eq_inWindow (size : Word) (s : State) :
    openWindow s.ses.offset.toNat size.toInt s = { s with roq := inWindow size 0 s } := by
  rw [← payAdvance_openWindow 0, payAdvance_zero]

/-- The bytes of a chunk that fits, all of them left in its window. -/
theorem openWindow_bytesLeft {size : Word} {s : State} (h : chunkFits size s) :
    bytesLeft size.toInt.toNat (openWindow s.ses.offset.toNat size.toInt s) := by
  obtain ⟨h1, h2, h3⟩ := openWindow_bounds h
  exact ⟨by have := h.1; omega, h3⟩

end Sys2Proof.Machine
end

