-- ==== Sys2Proof/Laws/Dispatch.lean ====
section
/-! SUPPORT. Which meaning each arm of `exec` calls, one lemma per constructor. -/

namespace Sys2Proof.Machine

@[simp] theorem exec_cinHeader (w : Word) (h : Word) (rate : Word) (width : Word) (channels : Word) (s : State) : exec (.cinHeader w h rate width channels) s = execCinHeader w h rate width channels s := rfl
@[simp] theorem exec_cinFrame (s : State) : exec .cinFrame s = execCinFrame s := rfl
@[simp] theorem exec_cinPalframe (s : State) : exec .cinPalframe s = execCinPalframe s := rfl
@[simp] theorem exec_cinEnd (s : State) : exec .cinEnd s = execCinEnd s := rfl
@[simp] theorem exec_cinRsvd (cmd : Word) (s : State) : exec (.cinRsvd cmd) s = execCinRsvd cmd s := rfl
@[simp] theorem exec_roqHeader (unused : Word) (fps : Half) (s : State) : exec (.roqHeader unused fps) s = execRoqHeader unused fps s := rfl
@[simp] theorem exec_roqInfo (size : Word) (arg : Half) (s : State) : exec (.roqInfo size arg) s = execRoqInfo size arg s := rfl
@[simp] theorem exec_roqCodebook (size : Word) (arg : Half) (s : State) : exec (.roqCodebook size arg) s = execRoqCodebook size arg s := rfl
@[simp] theorem exec_roqVq (size : Word) (arg : Half) (s : State) : exec (.roqVq size arg) s = execRoqVq size arg s := rfl
@[simp] theorem exec_roqSndMono (size : Word) (arg : Half) (s : State) : exec (.roqSndMono size arg) s = execRoqSndMono size arg s := rfl
@[simp] theorem exec_roqSndStereo (size : Word) (arg : Half) (s : State) : exec (.roqSndStereo size arg) s = execRoqSndStereo size arg s := rfl
@[simp] theorem exec_roqIdent (size : Word) (arg : Half) (s : State) : exec (.roqIdent size arg) s = execRoqIdent size arg s := rfl
@[simp] theorem exec_roqOther (id : Half) (size : Word) (arg : Half) (s : State) : exec (.roqOther id size arg) s = execRoqOther id size arg s := rfl
@[simp] theorem exec_mot8 (s : State) : exec .mot8 s = execMot8 s := rfl
@[simp] theorem exec_fcc8 (s : State) : exec .fcc8 s = execFcc8 s := rfl
@[simp] theorem exec_sld8 (s : State) : exec .sld8 s = execSld8 s := rfl
@[simp] theorem exec_mot4 (s : State) : exec .mot4 s = execMot4 s := rfl
@[simp] theorem exec_fcc4 (s : State) : exec .fcc4 s = execFcc4 s := rfl
@[simp] theorem exec_sld4 (s : State) : exec .sld4 s = execSld4 s := rfl
@[simp] theorem exec_ccc8 (s : State) : exec .ccc8 s = execCcc8 s := rfl
@[simp] theorem exec_ccc4 (s : State) : exec .ccc4 s = execCcc4 s := rfl

end Sys2Proof.Machine
end

