-- ==== Sys2Proof/Laws/Huffman.lean ====
section
/-! SUPPORT. The decompression loop as the walk of 40_huffman.md R126 over the payload's bits: what it emits, how many bits it takes,
where it completes. -/

namespace Sys2Proof.Machine

/-! ### The bits the loop still has -/

/-- The bits not yet taken: those left in INBYTE, then those of the payload bytes from IN_POS to `fin`. -/
def pendingBits (fin : Nat) (s : State) : List Bool :=
  (List.range s.huf.bitsLeft.toNat).map s.huf.inbyte.getLsbD ++
    bitsOf (streamSpan s s.huf.inPos.toNat (fin - s.huf.inPos.toNat))

theorem bitsOf_cons (b : Byte) (bs : List Byte) : bitsOf (b :: bs) = (List.range 8).map b.getLsbD ++ bitsOf bs := rfl

theorem bitsOf_length (bs : List Byte) : (bitsOf bs).length = 8 * bs.length := by
  induction bs with
  | nil => rfl
  | cons b bs ih => rw [bitsOf_cons, List.length_append, ih]; simp; omega

theorem pendingBits_length (fin : Nat) (s : State) :
    (pendingBits fin s).length = s.huf.bitsLeft.toNat + 8 * (fin - s.huf.inPos.toNat) := by
  simp [pendingBits, bitsOf_length, streamSpan_length]

/-- One bit taken off a byte. -/
theorem shifted_bits (b : Byte) (n : Nat) :
    (List.range (n + 1)).map b.getLsbD = b.getLsbD 0 :: (List.range n).map (b >>> 1).getLsbD := by
  rw [List.range_succ_eq_map, List.map_cons, List.map_map]
  congr 1
  refine List.map_congr_left fun k _ => ?_
  simp only [Function.comp]
  rw [BitVec.getLsbD_ushiftRight, Nat.add_comm]

/-- `u` is `s` with one bit taken (40_huffman.md R126). -/
structure BitTaken (fin : Nat) (bits : List Bool) (s u : State) : Prop where
  huf : u = { s with huf := { s.huf with inbyte := u.huf.inbyte, inPos := u.huf.inPos, bitsLeft := u.huf.bitsLeft } }
  pending : pendingBits fin u = bits
  inPos : u.huf.inPos.toNat ≤ fin
  left : u.huf.bitsLeft.toNat ≤ 7
  position : 8 * u.huf.inPos.toNat + s.huf.bitsLeft.toNat = 8 * s.huf.inPos.toNat + u.huf.bitsLeft.toNat + 1

/-- No bit is there exactly when none is pending. -/
theorem hufBit_none {fin : Nat} {s : State} (h : pendingBits fin s = []) (hp : s.huf.inPos.toNat ≤ fin) :
    hufBit fin s = none := by
  have hl := pendingBits_length fin s
  rw [h, List.length_nil] at hl
  have hb : s.huf.bitsLeft = 0 := BitVec.eq_of_toNat_eq (by show s.huf.bitsLeft.toNat = 0; omega)
  unfold hufBit
  rw [if_pos hb, if_pos (by omega)]
  rfl

/-- A pending bit is taken, least significant first (30_encoding.md R86). -/
theorem hufBit_some {fin : Nat} {s : State} {b : Bool} {bits : List Bool} (h : pendingBits fin s = b :: bits)
    (hp : s.huf.inPos.toNat ≤ fin) (hfin : fin < 2 ^ 32) (hb : s.huf.bitsLeft.toNat ≤ 8) :
    ∃ u, hufBit fin s = some (b, u) ∧ BitTaken fin bits s u := by
  have h1 : (1 : BitVec 4).toNat = 1 := rfl
  by_cases h0 : s.huf.bitsLeft = 0
  · have hz : s.huf.bitsLeft.toNat = 0 := by rw [h0]; rfl
    have hlt : s.huf.inPos.toNat < fin := by
      have hl := pendingBits_length fin s
      rw [h, List.length_cons] at hl
      omega
    have hin : (s.huf.inPos + 1).toNat = s.huf.inPos.toNat + 1 := by
      rw [BitVec.toNat_add, show (1 : BitVec 32).toNat = 1 from rfl]; omega
    unfold hufBit
    rw [if_pos h0, if_neg (by omega)]
    have hpend : pendingBits fin s = (List.range 8).map (memRead8 s s.huf.inPos.toNat).getLsbD ++
        bitsOf (streamSpan s (s.huf.inPos.toNat + 1) (fin - (s.huf.inPos.toNat + 1))) := by
      rw [pendingBits, hz, show fin - s.huf.inPos.toNat = (fin - (s.huf.inPos.toNat + 1)) + 1 by omega, streamSpan_succ, bitsOf_cons]
      rfl
    rw [h, shifted_bits _ 7, List.cons_append, List.cons.injEq] at hpend
    refine ⟨_, by simp only [Option.map_some]; rw [hpend.1], ⟨rfl, ?_, ?_, show (8 - 1 : BitVec 4).toNat ≤ 7 by decide, ?_⟩⟩
    · simp only [pendingBits, hin]
      exact hpend.2.symm
    · show (s.huf.inPos + 1).toNat ≤ fin; omega
    · show 8 * (s.huf.inPos + 1).toNat + _ = _ + (8 - 1 : BitVec 4).toNat + 1
      rw [hin, hz, show (8 - 1 : BitVec 4).toNat = 7 from rfl]; omega
  · have hn : s.huf.bitsLeft.toNat ≠ 0 := fun hz => h0 (BitVec.eq_of_toNat_eq hz)
    have hsub : (s.huf.bitsLeft - 1).toNat = s.huf.bitsLeft.toNat - 1 := by
      have := s.huf.bitsLeft.isLt
      rw [BitVec.toNat_sub, h1]; omega
    unfold hufBit
    rw [if_neg h0]
    have hpend : pendingBits fin s = (List.range ((s.huf.bitsLeft.toNat - 1) + 1)).map s.huf.inbyte.getLsbD ++
        bitsOf (streamSpan s s.huf.inPos.toNat (fin - s.huf.inPos.toNat)) := by
      rw [show s.huf.bitsLeft.toNat - 1 + 1 = s.huf.bitsLeft.toNat by omega]; rfl
    rw [h, shifted_bits, List.cons_append, List.cons.injEq] at hpend
    refine ⟨{ s with huf := { s.huf with inbyte := s.huf.inbyte >>> 1, bitsLeft := s.huf.bitsLeft - 1 } },
      by simp only [Option.map_some]; rw [hpend.1], ⟨rfl, ?_, hp, ?_, ?_⟩⟩
    · simp only [pendingBits, hsub]
      exact hpend.2.symm
    · show (s.huf.bitsLeft - 1).toNat ≤ 7; omega
    · show 8 * s.huf.inPos.toNat + _ = _ + (s.huf.bitsLeft - 1).toNat + 1
      omega

/-! ### Emitting -/

/-- A symbol stored at PIX_POS and counted (40_huffman.md R126, R127). -/
def emitted (sym : Byte) (s : State) : State :=
  { s with
    cin := { s.cin with idxBuf := s.cin.idxBuf.set s.huf.pixPos.toNat sym }
    huf := { s.huf with pixPos := s.huf.pixPos + 1, pixRemain := s.huf.pixRemain - 1 } }

theorem hufEmit_eq {s : State} (h : indexBufferHolds s) (n : Byte) :
    hufEmit n s = { s with
      cin := { s.cin with idxBuf := s.cin.idxBuf.set s.huf.pixPos.toNat n }
      huf := { s.huf with pixPos := s.huf.pixPos + 1 } } := by
  unfold hufEmit
  dsimp only
  split
  · rfl
  · rename_i hge
    have : s.cin.idxBuf.length ≤ s.huf.pixPos.toNat := by unfold indexBufferHolds at h; omega
    rw [List.set_eq_of_length_le this]

theorem hufLeaf_inner {s : State} (h : 256 ≤ s.huf.node.toNat) : hufLeaf s = s := by
  unfold hufLeaf; rw [if_neg (by omega)]

/-- At a leaf the symbol is emitted; unless it was the last, its own tree is entered (40_huffman.md R126). -/
theorem hufLeaf_leaf {s : State} (hb : indexBufferHolds s) (h : s.huf.node.toNat < 256) :
    hufLeaf s =
      if s.huf.pixRemain - 1 = 0 then emitted (s.huf.node.setWidth 8) s
      else { emitted (s.huf.node.setWidth 8) s with
        huf := { (emitted (s.huf.node.setWidth 8) s).huf with
          ctx := s.huf.node.setWidth 8, node := at8 s.cin.root (s.huf.node.setWidth 8) } } := by
  unfold hufLeaf
  rw [if_pos h]
  simp only [hufEmit_eq hb]
  rfl

/-! ### The walk -/

theorem hufWalk_congr {c d : CinUnit} (hr : c.root = d.root) (hp : c.pair = d.pair) (bits : List Bool) (n : Nat) (ctx : Byte)
    (node : NodeIx) : hufWalk c bits n ctx node = hufWalk d bits n ctx node := by
  have hc : ∀ ctx n b, childOf c ctx n b = childOf d ctx n b := fun _ _ _ => by unfold childOf; rw [hp]
  induction bits generalizing n ctx node with
  | nil => rfl
  | cons b bits ih => simp only [hufWalk, hc, ih, hr]

/-- A bit step from the node can be taken: no fault, and the pair is there (40_huffman.md R124, R128). -/
def stepOk (l : HufLeafStep) (node : NodeIx) : Prop :=
  if node.toNat < 256 then l = .zero else node.toNat - 256 < 255

/-- Every bit step of the walk can be taken. -/
def walkOk (l : HufLeafStep) (c : CinUnit) : List Bool → Nat → Byte → NodeIx → Prop
  | [], _, _, _ => True
  | b :: bits, remain, ctx, node =>
    remain = 0 ∨
      (if node.toNat < 256 then
        remain = 1 ∨
          (stepOk l (at8 c.root (node.setWidth 8)) ∧
            walkOk l c bits (remain - 1) (node.setWidth 8)
              (childOf c (node.setWidth 8) (at8 c.root (node.setWidth 8)) b))
      else stepOk l node ∧ walkOk l c bits remain ctx (childOf c ctx node b))

theorem walkOk_congr {l : HufLeafStep} {c d : CinUnit} (hr : c.root = d.root) (hp : c.pair = d.pair) (bits : List Bool) (n : Nat)
    (ctx : Byte) (node : NodeIx) : walkOk l c bits n ctx node ↔ walkOk l d bits n ctx node := by
  have hc : ∀ ctx n b, childOf c ctx n b = childOf d ctx n b := fun _ _ _ => by unfold childOf; rw [hp]
  induction bits generalizing n ctx node with
  | nil => exact Iff.rfl
  | cons b bits ih => simp only [walkOk, hc, ih, hr]

theorem leafStepAt_congr {c d : CinUnit} (hr : c.root = d.root) (hp : c.pair = d.pair) (bits : List Bool) (n : Nat)
    (ctx : Byte) (node : NodeIx) : leafStepAt c bits n ctx node = leafStepAt d bits n ctx node := by
  have hc : ∀ ctx n b, childOf c ctx n b = childOf d ctx n b := fun _ _ _ => by unfold childOf; rw [hp]
  induction bits generalizing n ctx node with
  | nil => rfl
  | cons b bits ih => simp only [leafStepAt, hc, ih, hr]

/-- CHILD (40_huffman.md R124, R128). -/
theorem hufChild_ok {s : State} (b : Bool) (h : stepOk s.params.hufLeafStep s.huf.node) :
    hufChild b s = .done () { s with huf := { s.huf with node := childOf s.cin s.huf.ctx s.huf.node b } } := by
  unfold stepOk at h
  unfold hufChild childOf
  split at h
  · rename_i hl
    rw [if_pos hl, if_pos hl, h]
  · rename_i hl
    rw [if_neg hl, if_neg hl, Vector.getElem?_eq_getElem h]

/-- Symbols stored from entry `pos` on; those past the end are dropped (40_huffman.md R127). -/
def storeFrom : (pos : Nat) → (old syms : List Byte) → List Byte
  | _, old, [] => old
  | pos, old, sym :: syms => storeFrom (pos + 1) (old.set pos sym) syms

theorem storeFrom_length (pos : Nat) (old syms : List Byte) : (storeFrom pos old syms).length = old.length := by
  induction syms generalizing pos old with
  | nil => rfl
  | cons sym syms ih => rw [storeFrom, ih, List.length_set]

theorem storeFrom_eq (pos : Nat) (old syms : List Byte) :
    storeFrom pos old syms = old.take pos ++ storeSymbols (old.drop pos) syms := by
  induction syms generalizing pos old with
  | nil => simp [storeFrom, storeSymbols]
  | cons sym syms ih =>
    rw [storeFrom, ih]
    simp only [storeSymbols, List.length_drop, List.length_set, List.length_cons, List.drop_drop]
    rcases Nat.lt_or_ge pos old.length with hp | hp
    · obtain ⟨k, hk⟩ : ∃ k, old.length - pos = k + 1 := ⟨old.length - pos - 1, by omega⟩
      have ht : (old.set pos sym).take (pos + 1) = old.take pos ++ [sym] := by
        rw [List.set_eq_take_append_cons_drop, if_pos hp, List.take_append, List.length_take, Nat.min_eq_left (by omega),
          List.take_of_length_le (by rw [List.length_take]; omega)]
        simp
      rw [hk, List.take_succ_cons, show old.length - (pos + 1) = k by omega, ht,
        List.drop_set_of_lt (by omega), show pos + 1 + syms.length = pos + (syms.length + 1) by omega]
      simp
    · have e1 : old.length - pos = 0 := by omega
      have e2 : old.length - (pos + 1) = 0 := by omega
      rw [e1, e2, List.set_eq_of_length_le hp, List.take_of_length_le (by omega), List.take_of_length_le hp]
      simp
      omega

theorem storeFrom_append (pos : Nat) (old syms more : List Byte) :
    storeFrom (pos + syms.length) (storeFrom pos old syms) more = storeFrom pos old (syms ++ more) := by
  induction syms generalizing pos old with
  | nil => rfl
  | cons sym syms ih =>
    rw [List.length_cons, List.cons_append, storeFrom, storeFrom, ← ih, Nat.add_right_comm, Nat.add_assoc]

/-- Everything the loop leaves: the symbols of the walk stored and counted, its bits taken (40_huffman.md R126). -/
structure Walked (fin : Nat) (syms : List Byte) (used : Nat) (s t : State) : Prop where
  frame : t = { s with cin := { s.cin with idxBuf := storeFrom s.huf.pixPos.toNat s.cin.idxBuf syms }, huf := t.huf }
  pixPos : t.huf.pixPos.toNat = s.huf.pixPos.toNat + syms.length
  pixRemain : t.huf.pixRemain.toNat + syms.length = s.huf.pixRemain.toNat
  position : 8 * t.huf.inPos.toNat + s.huf.bitsLeft.toNat = 8 * s.huf.inPos.toNat + t.huf.bitsLeft.toNat + used
  left : s.huf.bitsLeft.toNat ≤ 7 → t.huf.bitsLeft.toNat ≤ 7
  range : s.huf.bitsLeft.toNat ≤ 8 → t.huf.bitsLeft.toNat ≤ 8

theorem Walked.refl (fin : Nat) (s : State) : Walked fin [] 0 s s :=
  ⟨rfl, rfl, rfl, by omega, id, id⟩

theorem pixRemain_pred {s : State} (h : s.huf.pixRemain ≠ 0) : (s.huf.pixRemain - 1).toNat + 1 = s.huf.pixRemain.toNat := by
  have h0 : s.huf.pixRemain.toNat ≠ 0 := fun hz => h (BitVec.eq_of_toNat_eq hz)
  have := s.huf.pixRemain.isLt
  rw [BitVec.toNat_sub, show (1 : BitVec 32).toNat = 1 from rfl]
  omega

theorem pixPos_succ {s : State} (h : s.huf.pixPos.toNat + 1 < 2 ^ 32) : (s.huf.pixPos + 1).toNat = s.huf.pixPos.toNat + 1 := by
  rw [BitVec.toNat_add, show (1 : BitVec 32).toNat = 1 from rfl]
  omega

/-- One symbol stored and counted, no bit taken. -/
theorem Walked.one {fin : Nat} {sym : Byte} {s t : State} (ht : t = { emitted sym s with huf := t.huf })
    (h1 : t.huf.pixPos = s.huf.pixPos + 1) (h2 : t.huf.pixRemain = s.huf.pixRemain - 1) (h3 : t.huf.inPos = s.huf.inPos)
    (h4 : t.huf.bitsLeft = s.huf.bitsLeft) (hr : s.huf.pixRemain ≠ 0) (hp : s.huf.pixPos.toNat + 1 < 2 ^ 32) :
    Walked fin [sym] 0 s t where
  frame := ht
  pixPos := by rw [h1, pixPos_succ hp]; rfl
  pixRemain := by rw [h2]; exact pixRemain_pred hr
  position := by rw [h3, h4]; omega
  left := fun h => by rw [h4]; exact h
  range := fun h => by rw [h4]; exact h

/-! ### One pass of the loop -/

/-- `u` is `s` after a pass up to its bit step: `syms`, a symbol or none, emitted, one bit taken, and `node` of context `ctx` is
where the bit step starts (40_huffman.md R126). -/
structure AtBit (fin : Nat) (bits : List Bool) (syms : List Byte) (ctx : Byte) (node : NodeIx) (s u : State) : Prop where
  frame : u = { s with cin := { s.cin with idxBuf := storeFrom s.huf.pixPos.toNat s.cin.idxBuf syms }, huf := u.huf }
  node : u.huf.node = node
  ctx : u.huf.ctx = ctx
  pixPos : u.huf.pixPos.toNat = s.huf.pixPos.toNat + syms.length
  pixRemain : u.huf.pixRemain.toNat + syms.length = s.huf.pixRemain.toNat
  pending : pendingBits fin u = bits
  inPos : u.huf.inPos.toNat ≤ fin
  left : u.huf.bitsLeft.toNat ≤ 7
  position : 8 * u.huf.inPos.toNat + s.huf.bitsLeft.toNat = 8 * s.huf.inPos.toNat + u.huf.bitsLeft.toNat + 1

/-- A pass from a leaf that is not the last pixel emits it and takes a bit from its own tree's root (40_huffman.md R126). -/
theorem hufLoop_leaf {fin fuel : Nat} {b : Bool} {bits : List Bool} {s : State} (hfin : fin < 2 ^ 32)
    (hbits : pendingBits fin s = b :: bits) (hin : s.huf.inPos.toNat ≤ fin) (hleft : s.huf.bitsLeft.toNat ≤ 8)
    (hbuf : indexBufferHolds s) (hpix : s.huf.pixPos.toNat + s.huf.pixRemain.toNat < 2 ^ 32) (hn : s.huf.node.toNat < 256)
    (h2 : 2 ≤ s.huf.pixRemain.toNat) {sym : Byte} (hsym : s.huf.node.setWidth 8 = sym) :
    ∃ u, hufLoop fin (fuel + 1) s = (hufChild b u).bind (fun _ t => hufLoop fin fuel t) ∧
      AtBit fin bits [sym] sym (at8 s.cin.root sym) s u := by
  have hr : s.huf.pixRemain ≠ 0 := fun h => by rw [h] at h2; exact absurd h2 (by decide)
  have hpred := pixRemain_pred hr
  have h0 : ¬ s.huf.pixRemain - 1 = 0 := fun h => by
    rw [h] at hpred
    have : (0 : Word).toNat = 0 := rfl
    omega
  obtain ⟨u, hu, hb⟩ := hufBit_some (fin := fin) (b := b) (bits := bits)
    (s := { emitted sym s with huf := { (emitted sym s).huf with ctx := sym, node := at8 s.cin.root sym } }) hbits hin hfin hleft
  have hbh := hb.huf
  refine ⟨u, ?_, ⟨by rw [hbh]; rfl, by rw [hbh], by rw [hbh], ?_, ?_, hb.pending, hb.inPos, hb.left, hb.position⟩⟩
  · rw [hufLoop, if_neg hr, hufLeaf_leaf hbuf hn, hsym, if_neg h0]
    dsimp only
    rw [if_neg (show ¬ (emitted sym s).huf.pixRemain = 0 from h0), hu]
  · rw [hbh]; exact pixPos_succ (by omega)
  · rw [hbh]; exact hpred

/-- A pass from an inner node takes a bit from it (40_huffman.md R126). -/
theorem hufLoop_inner {fin fuel : Nat} {b : Bool} {bits : List Bool} {s : State} (hfin : fin < 2 ^ 32)
    (hbits : pendingBits fin s = b :: bits) (hin : s.huf.inPos.toNat ≤ fin) (hleft : s.huf.bitsLeft.toNat ≤ 8)
    (hn : 256 ≤ s.huf.node.toNat) (h1 : s.huf.pixRemain ≠ 0) :
    ∃ u, hufLoop fin (fuel + 1) s = (hufChild b u).bind (fun _ t => hufLoop fin fuel t) ∧
      AtBit fin bits [] s.huf.ctx s.huf.node s u := by
  obtain ⟨u, hu, hb⟩ := hufBit_some hbits hin hfin hleft
  have hbh := hb.huf
  refine ⟨u, ?_, ⟨by rw [hbh]; rfl, by rw [hbh], by rw [hbh], by rw [hbh]; rfl, by rw [hbh]; rfl, hb.pending, hb.inPos, hb.left,
    hb.position⟩⟩
  rw [hufLoop, if_neg h1, hufLeaf_inner hn]
  dsimp only
  rw [if_neg h1, hu]

/-- What a pass leaves alone. -/
theorem AtBit.same {fin : Nat} {bits : List Bool} {syms : List Byte} {ctx : Byte} {node : NodeIx} {s u : State}
    (h : AtBit fin bits syms ctx node s u) :
    u.params = s.params ∧ u.cin.root = s.cin.root ∧ u.cin.pair = s.cin.pair ∧
      ∀ ctx n b, childOf u.cin ctx n b = childOf s.cin ctx n b := by
  have hp : u.cin.pair = s.cin.pair := by rw [h.frame]
  exact ⟨by rw [h.frame], by rw [h.frame], hp, fun _ _ _ => by unfold childOf; rw [hp]⟩

theorem AtBit.holds {fin : Nat} {bits : List Bool} {syms : List Byte} {ctx : Byte} {node : NodeIx} {s u : State}
    (h : AtBit fin bits syms ctx node s u) (hbuf : indexBufferHolds s) : indexBufferHolds u := by
  rw [h.frame]
  show ((storeFrom _ _ _).length : Int) = _
  rw [storeFrom_length]
  exact hbuf

/-- A pass, its bit step, then the walk from where that led. -/
theorem AtBit.walked {fin used : Nat} {bits : List Bool} {syms more : List Byte} {ctx : Byte} {node child : NodeIx} {s u t : State}
    (h : AtBit fin bits syms ctx node s u) (hw : Walked fin more used { u with huf := { u.huf with node := child } } t) :
    Walked fin (syms ++ more) (used + 1) s t where
  frame := by
    rw [hw.frame, ← storeFrom_append, ← h.pixPos]
    conv_lhs => rw [h.frame]
  pixPos := by have := hw.pixPos; have := h.pixPos; rw [List.length_append]; dsimp only at *; omega
  pixRemain := by have := hw.pixRemain; have := h.pixRemain; rw [List.length_append]; dsimp only at *; omega
  position := by have := hw.position; have := h.position; dsimp only at *; omega
  left := fun _ => hw.left h.left
  range := fun _ => by have := hw.left h.left; omega

/-- The decompression loop does the walk (40_huffman.md R126). -/
theorem hufLoop_walk {fin : Nat} (hfin : fin < 2 ^ 32) (bits : List Bool) {fuel : Nat} {s : State}
    (hbits : pendingBits fin s = bits) (hfuel : bits.length < fuel) (hin : s.huf.inPos.toNat ≤ fin)
    (hleft : s.huf.bitsLeft.toNat ≤ 8) (hbuf : indexBufferHolds s)
    (hpix : s.huf.pixPos.toNat + s.huf.pixRemain.toNat < 2 ^ 32)
    (hok : walkOk s.params.hufLeafStep s.cin bits s.huf.pixRemain.toNat s.huf.ctx s.huf.node) :
    ∃ t, hufLoop fin fuel s = .done () t ∧
      Walked fin (hufWalk s.cin bits s.huf.pixRemain.toNat s.huf.ctx s.huf.node).1
        (hufWalk s.cin bits s.huf.pixRemain.toNat s.huf.ctx s.huf.node).2 s t := by
  induction bits generalizing fuel s with
  | nil =>
    obtain ⟨fuel, rfl⟩ : ∃ k, fuel = k + 1 := ⟨fuel - 1, by simp at hfuel; omega⟩
    rw [hufLoop]
    by_cases hr : s.huf.pixRemain = 0
    · have hz : s.huf.pixRemain.toNat = 0 := by rw [hr]; rfl
      rw [if_pos hr, hz]
      exact ⟨s, rfl, by simpa [hufWalk] using Walked.refl fin s⟩
    · have hz : s.huf.pixRemain.toNat ≠ 0 := fun h => hr (BitVec.eq_of_toNat_eq h)
      rw [if_neg hr]
      by_cases hn : s.huf.node.toNat < 256
      · rw [hufLeaf_leaf hbuf hn]
        simp only [hufWalk, if_pos (show s.huf.pixRemain.toNat ≠ 0 ∧ s.huf.node.toNat < 256 from ⟨hz, hn⟩)]
        split
        · rename_i h0
          rw [if_pos (show (emitted (s.huf.node.setWidth 8) s).huf.pixRemain = 0 from h0)]
          exact ⟨_, rfl, Walked.one rfl rfl rfl rfl rfl hr (by omega)⟩
        · rename_i h0
          dsimp only
          rw [if_neg (show ¬ (emitted (s.huf.node.setWidth 8) s).huf.pixRemain = 0 from h0),
            hufBit_none (s := { emitted (s.huf.node.setWidth 8) s with huf := { (emitted (s.huf.node.setWidth 8) s).huf with
              ctx := s.huf.node.setWidth 8, node := at8 s.cin.root (s.huf.node.setWidth 8) } }) hbits hin]
          exact ⟨_, rfl, Walked.one rfl rfl rfl rfl rfl hr (by omega)⟩
      · rw [hufLeaf_inner (by omega)]
        simp only [hufWalk, if_neg (show ¬ (s.huf.pixRemain.toNat ≠ 0 ∧ s.huf.node.toNat < 256) from fun h => hn h.2)]
        rw [if_neg hr, hufBit_none hbits hin]
        exact ⟨s, rfl, Walked.refl fin s⟩
  | cons b bits ih =>
    obtain ⟨fuel, rfl⟩ : ∃ k, fuel = k + 1 := ⟨fuel - 1, by simp at hfuel; omega⟩
    have go : ∀ {syms : List Byte} {ctx : Byte} {node : NodeIx} {u : State} {n : Nat}, AtBit fin bits syms ctx node s u →
        s.huf.pixRemain.toNat = n + syms.length → stepOk s.params.hufLeafStep node →
        walkOk s.params.hufLeafStep s.cin bits n ctx (childOf s.cin ctx node b) →
        ∃ t, (hufChild b u).bind (fun _ t => hufLoop fin fuel t) = .done () t ∧
          Walked fin (syms ++ (hufWalk s.cin bits n ctx (childOf s.cin ctx node b)).1)
            ((hufWalk s.cin bits n ctx (childOf s.cin ctx node b)).2 + 1) s t := by
      intro syms ctx node u n hu hn hs hw
      obtain ⟨e1, e2, e3, e4⟩ := hu.same
      have e5 : u.huf.pixRemain.toNat = n := by have := hu.pixRemain; omega
      have h8 := hu.left
      have hp := hu.pixPos
      rw [hufChild_ok b (by rw [e1, hu.node]; exact hs), bind_done]
      obtain ⟨t, ht, hwk⟩ := ih (fuel := fuel) (s := { u with huf := { u.huf with node := childOf u.cin u.huf.ctx u.huf.node b } })
        hu.pending (by simp at hfuel; omega) hu.inPos (by show u.huf.bitsLeft.toNat ≤ 8; omega) (hu.holds hbuf)
        (by show u.huf.pixPos.toNat + u.huf.pixRemain.toNat < _; omega)
        (by
          show walkOk u.params.hufLeafStep u.cin bits u.huf.pixRemain.toNat u.huf.ctx (childOf u.cin u.huf.ctx u.huf.node b)
          rw [e1, e5, e4, hu.ctx, hu.node, walkOk_congr e2 e3]
          exact hw)
      have hst := hu.walked hwk
      dsimp only at hst
      rw [e5, hufWalk_congr e2 e3, hu.ctx, hu.node, e4] at hst
      exact ⟨t, ht, hst⟩
    by_cases hr : s.huf.pixRemain = 0
    · have hz : s.huf.pixRemain.toNat = 0 := by rw [hr]; rfl
      rw [hufLoop, if_pos hr, hz]
      exact ⟨s, rfl, by simpa [hufWalk] using Walked.refl fin s⟩
    · have hz : s.huf.pixRemain.toNat ≠ 0 := fun h => hr (BitVec.eq_of_toNat_eq h)
      have hpred := pixRemain_pred hr
      have hok' := hok.resolve_left hz
      by_cases hn : s.huf.node.toNat < 256
      · rw [if_pos hn] at hok'
        by_cases h1 : s.huf.pixRemain.toNat = 1
        · have h0 : s.huf.pixRemain - 1 = 0 := BitVec.eq_of_toNat_eq (by show (s.huf.pixRemain - 1).toNat = 0; omega)
          simp only [hufWalk, if_neg hz, if_pos hn, if_pos h1]
          rw [hufLoop, if_neg hr, hufLeaf_leaf hbuf hn, if_pos h0,
            if_pos (show (emitted (s.huf.node.setWidth 8) s).huf.pixRemain = 0 from h0)]
          exact ⟨_, rfl, Walked.one rfl rfl rfl rfl rfl hr (by omega)⟩
        · obtain ⟨hs1, hs2⟩ := hok'.resolve_left h1
          simp only [hufWalk, if_neg hz, if_pos hn, if_neg h1]
          obtain ⟨u, hl, hu⟩ := hufLoop_leaf (fuel := fuel) hfin hbits hin hleft hbuf hpix hn (by omega) rfl
          rw [hl]
          exact go hu (by rw [List.length_singleton]; omega) hs1 hs2
      · rw [if_neg hn] at hok'
        simp only [hufWalk, if_neg hz, if_neg hn]
        obtain ⟨u, hl, hu⟩ := hufLoop_inner (fuel := fuel) hfin hbits hin hleft (by omega) hr
        rw [hl]
        exact go hu rfl hok'.1 hok'.2

/-- Under HUF_LEAF_STEP = fault the loop raises where a bit is taken from a leaf, with the symbols before it stored (40_huffman.md
R128). -/
theorem hufLoop_raises {fin : Nat} (hfin : fin < 2 ^ 32) (bits : List Bool) {fuel : Nat} {s : State}
    (hbits : pendingBits fin s = bits) (hfuel : bits.length < fuel) (hin : s.huf.inPos.toNat ≤ fin)
    (hleft : s.huf.bitsLeft.toNat ≤ 8) (hbuf : indexBufferHolds s)
    (hpix : s.huf.pixPos.toNat + s.huf.pixRemain.toNat < 2 ^ 32) (hf : s.params.hufLeafStep = .fault) {syms : List Byte}
    (hleaf : leafStepAt s.cin bits s.huf.pixRemain.toNat s.huf.ctx s.huf.node = some syms) :
    ∃ t, hufLoop fin fuel s = .raised .hufLeafStep t ∧
      t = { s with cin := { s.cin with idxBuf := storeFrom s.huf.pixPos.toNat s.cin.idxBuf syms }, huf := t.huf } := by
  induction bits generalizing fuel s syms with
  | nil => cases hleaf
  | cons b bits ih =>
    obtain ⟨fuel, rfl⟩ : ∃ k, fuel = k + 1 := ⟨fuel - 1, by simp at hfuel; omega⟩
    have lt511 : ∀ {n : NodeIx}, ¬ n = 511 → n.toNat < 511 := fun {n} h => by
      have h1 := n.isLt
      have h2 : n.toNat ≠ 511 := fun he => h (BitVec.eq_of_toNat_eq he)
      omega
    have go : ∀ {emit more : List Byte} {ctx : Byte} {node : NodeIx} {u : State} {n : Nat}, AtBit fin bits emit ctx node s u →
        s.huf.pixRemain.toNat = n + emit.length → 256 ≤ node.toNat → ¬ node = 511 →
        leafStepAt s.cin bits n ctx (childOf s.cin ctx node b) = some more →
        ∃ t, (hufChild b u).bind (fun _ t => hufLoop fin fuel t) = .raised .hufLeafStep t ∧
          t = { s with cin := { s.cin with idxBuf := storeFrom s.huf.pixPos.toNat s.cin.idxBuf (emit ++ more) }, huf := t.huf } := by
      intro emit more ctx node u n hu hn hge h511 hl
      obtain ⟨e1, e2, e3, e4⟩ := hu.same
      have e5 : u.huf.pixRemain.toNat = n := by have := hu.pixRemain; omega
      have h8 := hu.left
      have hp := hu.pixPos
      have hstep : stepOk u.params.hufLeafStep u.huf.node := by
        unfold stepOk
        rw [hu.node, if_neg (by omega)]
        have := lt511 h511
        omega
      rw [hufChild_ok b hstep, bind_done]
      obtain ⟨t, ht, hte⟩ := ih (fuel := fuel) (syms := more)
        (s := { u with huf := { u.huf with node := childOf u.cin u.huf.ctx u.huf.node b } })
        hu.pending (by simp at hfuel; omega) hu.inPos (by show u.huf.bitsLeft.toNat ≤ 8; omega) (hu.holds hbuf)
        (by show u.huf.pixPos.toNat + u.huf.pixRemain.toNat < _; omega) (by show u.params.hufLeafStep = _; rw [e1]; exact hf)
        (by
          show leafStepAt u.cin bits u.huf.pixRemain.toNat u.huf.ctx (childOf u.cin u.huf.ctx u.huf.node b) = _
          rw [e5, e4, hu.ctx, hu.node, leafStepAt_congr e2 e3]
          exact hl)
      refine ⟨t, ht, ?_⟩
      rw [hte, ← storeFrom_append, ← hu.pixPos]
      conv_lhs => rw [hu.frame]
    rw [leafStepAt] at hleaf
    split at hleaf
    · cases hleaf
    · rename_i h0
      rw [not_or] at h0
      have hr : s.huf.pixRemain ≠ 0 := fun h => h0.1 (by rw [h]; rfl)
      split at hleaf
      · rename_i hn
        dsimp only at hleaf
        split at hleaf
        · cases hleaf
        · rename_i h1
          rw [not_or] at h1
          obtain ⟨u, hl, hu⟩ := hufLoop_leaf (fuel := fuel) hfin hbits hin hleft hbuf hpix hn (by omega) rfl
          rw [hl]
          split at hleaf
          · rename_i hroot
            cases hleaf
            refine ⟨u, ?_, hu.frame⟩
            rw [hufChild, hu.node, if_pos hroot, hu.same.1, hf]
            rfl
          · rename_i hroot
            obtain ⟨more, hm, rfl⟩ := Option.map_eq_some_iff.1 hleaf
            exact go hu (by rw [List.length_singleton]; omega) (by omega) h1.2 hm
      · rename_i hn
        obtain ⟨u, hl, hu⟩ := hufLoop_inner (fuel := fuel) hfin hbits hin hleft (by omega) hr
        rw [hl]
        exact go hu rfl (by omega) h0.2 hleaf

/-! ### Where the walk completes -/

theorem node_lt (n : NodeIx) : n.toNat < 512 := n.isLt

/-- The child of a node of a well-shaped tree is a node below it. -/
theorem childOf_bound {c : CinUnit} (h : forestOk c) (ctx : Byte) (n : NodeIx) (b : Bool) (hn : n.toNat ≤ (at8 c.root ctx).toNat) :
    (childOf c ctx n b).toNat ≤ (at8 c.root ctx).toNat := by
  obtain ⟨h1, h2, h3⟩ := h ctx
  unfold childOf
  split
  · show (0 : NodeIx).toNat ≤ _
    exact Nat.zero_le _
  · rename_i hi
    have hk : n.toNat - 256 < 255 := by omega
    rw [Vector.getElem?_eq_getElem hk]
    have := h3 (n.toNat - 256) hk (by omega)
    cases b <;> simp only [if_true, Bool.false_eq_true, if_false] <;> omega

/-- In a built forest every bit step can be taken under HUF_LEAF_STEP = zero, and where none is from a leaf (40_huffman.md R128,
R140). -/
theorem walkOk_of_forest {l : HufLeafStep} {c : CinUnit} (h : forestOk c) (bits : List Bool) (n : Nat) (ctx : Byte) (node : NodeIx)
    (hl : l = .zero ∨ leafStepAt c bits n ctx node = none) (hn : node.toNat ≤ (at8 c.root ctx).toNat) :
    walkOk l c bits n ctx node := by
  have inner : ∀ (ctx : Byte) (m : NodeIx), m.toNat ≤ (at8 c.root ctx).toNat → ¬ m = 511 := by
    rintro ctx m hm rfl
    have := (h ctx).2.1
    have : (511 : NodeIx).toNat = 511 := rfl
    omega
  have ok : ∀ (ctx : Byte) (m : NodeIx), m.toNat ≤ (at8 c.root ctx).toNat → (m.toNat < 256 → l = .zero) → stepOk l m := by
    intro ctx m hm hz
    have := (h ctx).2.1
    unfold stepOk
    split
    · exact hz (by assumption)
    · omega
  induction bits generalizing n ctx node with
  | nil => trivial
  | cons b bits ih =>
    by_cases h0 : n = 0
    · exact .inl h0
    refine .inr ?_
    rw [leafStepAt, if_neg (not_or.2 ⟨h0, inner ctx node hn⟩)] at hl
    split at hl
    · rename_i hlt
      rw [if_pos hlt]
      by_cases h1 : n = 1
      · exact .inl h1
      have hroot := Nat.le_refl (at8 c.root (node.setWidth 8)).toNat
      dsimp only at hl
      rw [if_neg (not_or.2 ⟨h1, inner _ _ hroot⟩)] at hl
      refine .inr ⟨ok _ _ hroot fun hz => ?_, ih _ _ _ ?_ (childOf_bound h _ _ _ hroot)⟩
      · rw [if_pos hz] at hl
        simpa using hl
      · refine hl.imp_right fun hnone => ?_
        split at hnone
        · cases hnone
        · exact Option.map_eq_none_iff.1 hnone
    · rename_i hge
      rw [if_neg hge]
      exact ⟨ok ctx _ hn fun hlt => absurd hlt hge, ih _ _ _ hl (childOf_bound h _ _ _ hn)⟩

theorem childOf_pair {c : CinUnit} {ctx : Byte} {n : NodeIx} {b : Bool} (hn : 256 ≤ n.toNat) {kids : NodeIx × NodeIx}
    (hk : (at8 c.pair ctx)[n.toNat - 256]? = some kids) : childOf c ctx n b = if b then kids.2 else kids.1 := by
  unfold childOf
  rw [if_neg (Nat.not_lt.2 hn), hk]

/-- A path's bits lead the walk to its leaf. -/
theorem hufWalk_path {c : CinUnit} {ctx : Byte} {n : NodeIx} {bits : List Bool} {sym : Byte} (h : HufPath c ctx n bits sym)
    (l : HufLeafStep) (more : List Bool) (remain : Nat) (hr : remain ≠ 0) :
    ∃ leaf : NodeIx, leaf.toNat < 256 ∧ leaf.setWidth 8 = sym ∧
      hufWalk c (bits ++ more) remain ctx n =
        ((hufWalk c more remain ctx leaf).1, (hufWalk c more remain ctx leaf).2 + bits.length) ∧
      (walkOk l c more remain ctx leaf → walkOk l c (bits ++ more) remain ctx n) := by
  induction h with
  | leaf n hn => exact ⟨n, hn, rfl, rfl, id⟩
  | node n hn hk b bits sym below ih =>
    obtain ⟨leaf, h1, h2, h3, h4⟩ := ih
    have hc := childOf_pair (c := c) (ctx := ctx) (b := b) hn (Vector.getElem?_eq_getElem hk)
    refine ⟨leaf, h1, h2, ?_, fun hw => .inr ?_⟩
    · simp only [List.cons_append, hufWalk, if_neg hr, if_neg (Nat.not_lt.2 hn), hc, h3, List.length_cons,
        Nat.add_assoc]
    · rw [if_neg (Nat.not_lt.2 hn), hc]
      exact ⟨by unfold stepOk; rw [if_neg (Nat.not_lt.2 hn)]; exact hk, h4 hw⟩

/-- A path from an internal node has a first bit. -/
theorem HufPath.nonempty {c : CinUnit} {ctx : Byte} {n : NodeIx} {bits : List Bool} {sym : Byte} (h : HufPath c ctx n bits sym)
    (hn : 256 ≤ n.toNat) : bits ≠ [] := by
  cases h with
  | leaf n h => omega
  | node => simp

/-- What codes some symbols decodes to them (40_huffman.md R139). -/
theorem hufWalk_codes {c : CinUnit} {ctx : Byte} {syms : List Byte} {bits : List Bool} (h : HufCodes c ctx syms bits)
    (l : HufLeafStep) (pad : List Bool) :
    hufWalk c (bits ++ pad) syms.length ctx (at8 c.root ctx) = (syms, bits.length) ∧
      walkOk l c (bits ++ pad) syms.length ctx (at8 c.root ctx) := by
  induction h with
  | nil ctx =>
    simp only [List.nil_append, List.length_nil]
    cases pad with
    | nil => exact ⟨by simp [hufWalk], trivial⟩
    | cons b pad => exact ⟨by simp [hufWalk], .inl rfl⟩
  | cons ctx sym syms bits rest root path codes ih =>
    obtain ⟨leaf, h1, h2, h3, h4⟩ := hufWalk_path path l (rest ++ pad) (syms.length + 1) (by omega)
    rw [List.append_assoc, List.length_cons]
    have after : hufWalk c (rest ++ pad) (syms.length + 1) ctx leaf = (sym :: syms, rest.length) ∧
        walkOk l c (rest ++ pad) (syms.length + 1) ctx leaf := by
      cases codes with
      | nil _ =>
        simp only [List.nil_append, List.length_nil, Nat.zero_add]
        cases pad with
        | nil => exact ⟨by simp [hufWalk, h1, h2], trivial⟩
        | cons b pad => exact ⟨by simp [hufWalk, h1, h2], .inr (by rw [if_pos h1]; exact .inl rfl)⟩
      | cons _ sym2 syms2 bits2 rest2 root2 path2 codes2 =>
        obtain ⟨b, bits2, rfl⟩ := List.exists_cons_of_ne_nil (path2.nonempty root2)
        obtain ⟨ih1, ih2⟩ := ih
        simp only [List.cons_append] at ih1 ih2 ⊢
        rw [hufWalk, if_neg (by simp), if_neg (show ¬ (at8 c.root sym).toNat < 256 by omega)] at ih1
        have hlen : (sym2 :: syms2).length + 1 - 1 = (sym2 :: syms2).length := by omega
        refine ⟨?_, .inr ?_⟩
        · rw [hufWalk, if_neg (by simp), if_pos h1]
          dsimp only
          rw [if_neg (by simp), h2, hlen]
          simp only [Prod.mk.injEq] at ih1
          rw [ih1.1, ih1.2]
        · rw [if_pos h1, h2, hlen]
          rcases ih2 with ih2 | ih2
          · simp at ih2
          · rw [if_neg (show ¬ (at8 c.root sym).toNat < 256 by omega)] at ih2
            exact .inr ih2
    refine ⟨?_, h4 after.2⟩
    rw [h3, after.1]
    simp only [List.length_append]
    rw [Nat.add_comm]

/-! ### The whole payload -/

theorem hufWalk_length (c : CinUnit) (bits : List Bool) (n : Nat) (ctx : Byte) (node : NodeIx) :
    (hufWalk c bits n ctx node).1.length ≤ n ∧ (hufWalk c bits n ctx node).2 ≤ bits.length := by
  induction bits generalizing n ctx node with
  | nil => simp only [hufWalk]; split <;> simp; omega
  | cons b bits ih =>
    simp only [hufWalk]
    split
    · simp
    · split
      · split
        · simp; omega
        · have := ih (n - 1) (node.setWidth 8) (childOf c (node.setWidth 8) (at8 c.root (node.setWidth 8)) b)
          simp only [List.length_cons]
          omega
      · have := ih n ctx (childOf c ctx node b)
        simp only [List.length_cons]
        omega

/-- HUF_DECOMPRESS on a payload inside the stream: the index buffer and DIAG, and nothing else but the working registers
(40_huffman.md R126, R127, R129). -/
theorem hufDecompress_walk {base fsz : Nat} {s : State} (h4 : 4 ≤ fsz) (hend : base + fsz ≤ s.ses.streamSize.toNat)
    (hbuf : indexBufferHolds s)
    (hok : walkOk s.params.hufLeafStep s.cin (bitsOf (streamSpan s (base + 4) (fsz - 4))) (memRead32 s base).toNat 0 (at8 s.cin.root 0))
    {w : List Byte × Nat}
    (hw : w = hufWalk s.cin (bitsOf (streamSpan s (base + 4) (fsz - 4))) (memRead32 s base).toNat 0 (at8 s.cin.root 0)) :
    ∃ t, hufDecompress base fsz s = .done () t ∧
      t = { s with
        cin := { s.cin with idxBuf := storeSymbols s.cin.idxBuf w.1 }
        ses := { s.ses with diag := diagOf fsz s.cin.area (memRead32 s base).toNat w.1.length w.2 }
        huf := t.huf } := by
  have hs := s.ses.streamSize.isLt
  have hpos : (hufStart base s).huf.inPos.toNat = base + 4 := by
    show (BitVec.ofNat 32 (base + 4)).toNat = _
    rw [BitVec.toNat_ofNat]; omega
  have hpend : pendingBits (base + fsz) (hufStart base s) = bitsOf (streamSpan s (base + 4) (fsz - 4)) := by
    rw [pendingBits, hpos, show base + fsz - (base + 4) = fsz - 4 by omega]; rfl
  obtain ⟨t, ht, hwk⟩ := hufLoop_walk (fin := base + fsz) (by omega) _ (fuel := 8 * (fsz - 4) + 1) hpend
    (by rw [bitsOf_length, streamSpan_length]; omega) (by rw [hpos]; omega) (Nat.zero_le _) hbuf
    (by show 0 + (memRead32 s base).toNat < _; have := (memRead32 s base).isLt; omega) hok
  refine ⟨_, by rw [hufDecompress, ht, bind_done], ?_⟩
  have hwk : Walked (base + fsz) w.1 w.2 (hufStart base s) t := by rw [hw]; exact hwk
  have hcin : t.cin = { s.cin with idxBuf := storeSymbols s.cin.idxBuf w.1 } := by
    rw [hwk.frame]
    show ({ s.cin with idxBuf := storeFrom 0 s.cin.idxBuf w.1 } : CinUnit) = _
    rw [storeFrom_eq]; rfl
  have hbl : t.huf.bitsLeft.toNat ≤ 7 := hwk.left (by show (0 : BitVec 4).toNat ≤ 7; decide)
  have hp1 := hwk.position
  have hp2 : t.huf.pixPos.toNat = 0 + w.1.length := hwk.pixPos
  have hp3 : t.huf.pixRemain.toNat + w.1.length = (memRead32 s base).toNat := hwk.pixRemain
  rw [hpos, show (hufStart base s).huf.bitsLeft.toNat = 0 from rfl] at hp1
  have hdiag : (setDiag base fsz t).ses = { s.ses with
      diag := diagOf fsz s.cin.area (memRead32 s base).toNat w.1.length w.2 } := by
    have hslack : (fsz : Int) - ((t.huf.inPos.toNat : Int) - base) = fsz - 4 - ((w.2 + 7) / 8 : Nat) := by omega
    have harea : t.cin.w.toInt * t.cin.h.toInt = s.cin.area := by rw [hcin]; rfl
    have hrem : (t.huf.pixRemain != 0) = decide (w.1.length ≠ (memRead32 s base).toNat) := by
      rw [Bool.eq_iff_iff, bne_iff_ne, decide_eq_true_iff]
      refine ⟨fun h he => h (BitVec.eq_of_toNat_eq ?_), fun h he => h ?_⟩
      · show t.huf.pixRemain.toNat = 0; omega
      · rw [he] at hp3; simpa using hp3
    show ({ t.ses with diag := _ } : Session) = _
    rw [show t.ses = s.ses by rw [hwk.frame]; rfl, hslack, harea, hrem, hp2, Nat.zero_add]
    rfl
  have hfr := hwk.frame
  show ({ t with ses := (setDiag base fsz t).ses } : State) = _
  rw [hdiag, ← hcin]
  show _ = ({ s with cin := t.cin, ses := _, huf := t.huf } : State)
  conv_lhs => rw [hfr]
  rw [hcin, storeFrom_eq]
  rfl

/-- HUF_DECOMPRESS on a payload that takes a bit from a leaf, under HUF_LEAF_STEP = fault (40_huffman.md R128). -/
theorem hufDecompress_raises {base fsz : Nat} {s : State} (h4 : 4 ≤ fsz) (hend : base + fsz ≤ s.ses.streamSize.toNat)
    (hbuf : indexBufferHolds s) (hf : s.params.hufLeafStep = .fault) {syms : List Byte}
    (hleaf : leafStepAt s.cin (bitsOf (streamSpan s (base + 4) (fsz - 4))) (memRead32 s base).toNat 0 (at8 s.cin.root 0) = some syms) :
    ∃ t, hufDecompress base fsz s = .raised .hufLeafStep t ∧
      t = { s with cin := { s.cin with idxBuf := storeSymbols s.cin.idxBuf syms }, huf := t.huf } := by
  have hs := s.ses.streamSize.isLt
  have hpos : (hufStart base s).huf.inPos.toNat = base + 4 := by
    show (BitVec.ofNat 32 (base + 4)).toNat = _
    rw [BitVec.toNat_ofNat]; omega
  have hpend : pendingBits (base + fsz) (hufStart base s) = bitsOf (streamSpan s (base + 4) (fsz - 4)) := by
    rw [pendingBits, hpos, show base + fsz - (base + 4) = fsz - 4 by omega]; rfl
  obtain ⟨t, ht, hte⟩ := hufLoop_raises (fin := base + fsz) (by omega) _ (fuel := 8 * (fsz - 4) + 1) hpend
    (by rw [bitsOf_length, streamSpan_length]; omega) (by rw [hpos]; omega) (Nat.zero_le _) hbuf
    (by show 0 + (memRead32 s base).toNat < _; have := (memRead32 s base).isLt; omega) hf hleaf
  refine ⟨t, by rw [hufDecompress, ht, bind_raised], ?_⟩
  have hst : storeFrom 0 s.cin.idxBuf syms = storeSymbols s.cin.idxBuf syms := by rw [storeFrom_eq]; rfl
  rw [← hst]
  conv_lhs => rw [hte]
  rfl

/-! ### The palette -/

theorem loadPalette_eq (r : Nat) (s : State) : loadPalette r s = withPalette r s := by unfold loadPalette withPalette; rfl

@[simp] theorem withPalette_params (r : Nat) (s : State) : (withPalette r s).params = s.params := by unfold withPalette; rfl
@[simp] theorem withPalette_stream (r : Nat) (s : State) : (withPalette r s).stream = s.stream := by unfold withPalette; rfl
@[simp] theorem withPalette_ses (r : Nat) (s : State) : (withPalette r s).ses = s.ses := by unfold withPalette; rfl
@[simp] theorem withPalette_root (r : Nat) (s : State) : (withPalette r s).cin.root = s.cin.root := by unfold withPalette; rfl
@[simp] theorem withPalette_pair (r : Nat) (s : State) : (withPalette r s).cin.pair = s.cin.pair := by unfold withPalette; rfl
@[simp] theorem withPalette_idxBuf (r : Nat) (s : State) : (withPalette r s).cin.idxBuf = s.cin.idxBuf := by
  unfold withPalette; rfl
@[simp] theorem withPalette_area (r : Nat) (s : State) : (withPalette r s).cin.area = s.cin.area := by
  unfold withPalette CinUnit.area; rfl

/-- The palette is no part of the stream: the fields read after it are the same. -/
@[simp] theorem memRead32_withPalette (q a : Nat) (s : State) : memRead32 (withPalette q s) a = memRead32 s a := by
  simp only [memRead32, memRead8, withPalette_stream]

theorem frameFits_withPalette (q r : Nat) (s : State) : frameFits r (withPalette q s) ↔ frameFits r s := by
  simp only [frameFits, memRead32_withPalette, withPalette_ses]

@[simp] theorem frameWalk_withPalette (q r : Nat) (s : State) : frameWalk r (withPalette q s) = frameWalk r s := by
  simp only [frameWalk, frameBits, frameCount, streamSpan, memRead32_withPalette, withPalette_stream, withPalette_root]
  exact hufWalk_congr (withPalette_root q s) (withPalette_pair q s) _ _ _ _

/-! ### The frame body -/

@[simp] theorem frameLeafStep_withPalette (q r : Nat) (s : State) : frameLeafStep r (withPalette q s) = frameLeafStep r s := by
  simp only [frameLeafStep, frameBits, frameCount, streamSpan, memRead32_withPalette, withPalette_stream, withPalette_root]
  exact leafStepAt_congr (withPalette_root q s) (withPalette_pair q s) _ _ _ _

/-- A frame body that takes a bit from a leaf, under HUF_LEAF_STEP = fault (40_huffman.md R128, R131). -/
theorem frameBody_raises {r : Nat} {s : State} (hf : frameFits r s) (hbuf : indexBufferHolds s) (hp : s.params.hufLeafStep = .fault)
    {syms : List Byte} (hleaf : frameLeafStep r s = some syms) :
    ∃ t, (frameBody r s).outcome = .next t ∧ LeafStepTaken syms s t := by
  obtain ⟨f1, f2, f3, f4⟩ := hf
  obtain ⟨t, ht, hte⟩ := hufDecompress_raises (base := r + 4) (fsz := (memRead32 s r).toInt.toNat) (s := s) (by omega) (by omega)
    hbuf hp hleaf
  have hfb : frameBody r s = .raised .hufLeafStep (freeHufRegs t) := by
    unfold frameBody
    rw [if_neg (by simp only [shortOf]; omega)]
    dsimp only
    rw [if_neg (by omega), if_neg (by simp only [shortOf]; push_cast; omega), ht]
    rfl
  have hses : t.ses = s.ses := by rw [hte]
  have hcin : t.cin = { s.cin with idxBuf := storeSymbols s.cin.idxBuf syms } := congrArg State.cin hte
  refine ⟨takeFault .hufLeafStep (freeHufRegs t), by rw [hfb]; rfl, ?_, hcin, ?_⟩
  · show afterFault .hufLeafStep t = _
    simp only [afterFault, hses]
  · rw [hte]; rfl

/-- A frame body whose walk completes (40_huffman.md R131, R136, R137). -/
theorem frameBody_walk {r : Nat} {s : State} (hf : frameFits r s) (hbuf : indexBufferHolds s)
    (hok : walkOk s.params.hufLeafStep s.cin (frameBits r s) (frameCount r s) 0 (at8 s.cin.root 0)) :
    ∃ t, frameBody r s = .done () t ∧ FrameDecoded r (frameWalk r s).1 (frameWalk r s).2 s t := by
  obtain ⟨f1, f2, f3, f4⟩ := hf
  have hz : ((memRead32 s r).toInt.toNat : Int) = (memRead32 s r).toInt := by omega
  obtain ⟨t, ht, hte⟩ := hufDecompress_walk (base := r + 4) (fsz := (memRead32 s r).toInt.toNat) (s := s) (by omega) (by omega)
    hbuf hok rfl
  have hfb : frameBody r s =
      .done () (cinAudio (r + 4 + (memRead32 s r).toInt.toNat) (paletteExpand (freeHufRegs t))) := by
    unfold frameBody
    rw [if_neg (by simp only [shortOf]; omega)]
    dsimp only
    rw [if_neg (by omega), if_neg (by simp only [shortOf]; push_cast; omega), ht]
    rfl
  refine ⟨_, hfb, ?_⟩
  have hfw : frameWalk r s = hufWalk s.cin (bitsOf (streamSpan s (r + 4 + 4) ((memRead32 s r).toInt.toNat - 4)))
    (memRead32 s (r + 4)).toNat 0 (at8 s.cin.root 0) := rfl
  rw [← hfw] at hte
  generalize frameWalk r s = w at hte
  obtain ⟨g, rfl⟩ : ∃ g, t = { s with
      cin := { s.cin with idxBuf := storeSymbols s.cin.idxBuf w.1 }
      ses := { s.ses with
        diag := diagOf ((memRead32 s r).toInt.toNat : Nat) s.cin.area (memRead32 s (r + 4)).toNat w.1.length w.2 }
      huf := g } := ⟨t.huf, hte⟩
  rw [hz]
  unfold cinAudio
  dsimp only
  by_cases hfit : audioFits r s
  · rw [if_neg (by
      unfold audioFits at hfit
      show ¬ ((s.ses.streamSize.toNat : Int) - ((r + 4 + (memRead32 s r).toInt.toNat : Nat) : Int) < audioBytes s.cin)
      push_cast; omega)]
    have ho : ((r + 4 + (memRead32 s r).toInt.toNat : Nat) : Int) + audioBytes s.cin =
        (r : Int) + 4 + (memRead32 s r).toInt + audioBytes s.cin := by push_cast; omega
    by_cases ha : s.ses.flags.silent = false ∧ 0 < audioBytes s.cin
    · rw [if_pos (by exact ha)]
      refine ⟨rfl, ?_, ?_, rfl⟩
      · rw [if_pos hfit, ← ho]; rfl
      · rw [if_pos ⟨hfit, ha⟩]; rfl
    · rw [if_neg (by exact ha)]
      refine ⟨rfl, ?_, ?_, rfl⟩
      · rw [if_pos hfit, ← ho]; rfl
      · rw [if_neg (fun h => ha h.2), List.append_nil]; rfl
  · rw [if_pos (by
      unfold audioFits at hfit
      show (s.ses.streamSize.toNat : Int) - ((r + 4 + (memRead32 s r).toInt.toNat : Nat) : Int) < audioBytes s.cin
      push_cast; omega)]
    refine ⟨rfl, ?_, ?_, rfl⟩
    · rw [if_neg hfit]; rfl
    · rw [if_neg (fun h => hfit h.1), List.append_nil]; rfl

end Sys2Proof.Machine
end

