-- ==== Sys2Proof/Laws/Forest.lean ====
section
/-! SUPPORT. The forest build: what SMALLEST picks, what one merge does, and the tree a row ends with (40_huffman.md R121 to R125). -/

namespace Sys2Proof.Machine

/-- The count of node `i`; 0 for a node that does not exist. -/
def cnt (s : State) (i : Nat) : Word := s.cin.hcount[i]?.getD 0

/-- The used mark of node `i`; set for a node that does not exist. -/
def usd (s : State) (i : Nat) : Bool := s.cin.hused[i]?.getD true

/-- Node `i` may be picked. -/
def isLive (s : State) (i : Nat) : Prop := usd s i = false ∧ cnt s i ≠ 0

theorem isLive_iff {s : State} {n i : Nat} (hi : i < n) : isLive s i ↔ forestCandidate s.cin.hcount s.cin.hused n i := by
  unfold isLive usd cnt forestCandidate
  by_cases h : i < 511
  · rw [Vector.getElem?_eq_getElem h, Vector.getElem?_eq_getElem h]
    exact ⟨fun ⟨a, b⟩ => ⟨h, hi, a, b⟩, fun ⟨_, _, a, b⟩ => ⟨a, b⟩⟩
  · rw [Vector.getElem?_eq_none (by omega)]
    exact ⟨fun ⟨a, _⟩ => by simp at a, fun ⟨a, _⟩ => absurd a h⟩

theorem smallestPick_eq (s : State) (best : Option Nat) (i : Nat) :
    smallestPick s.cin.hcount s.cin.hused best i =
      if usd s i = true ∨ cnt s i = 0 then best
      else match best with
        | none => some i
        | some b => if cnt s i < cnt s b then some i else some b := rfl

/-- What the scan knows after the first `n` nodes: nothing live, or the first of the live nodes with the least count. -/
theorem smallestOf_spec (s : State) (n : Nat) :
    match smallestOf s.cin.hcount s.cin.hused n with
    | none => ∀ i, i < n → ¬ isLive s i
    | some a => a < n ∧ isLive s a ∧ ∀ i, i < n → isLive s i → cnt s a ≤ cnt s i ∧ (i < a → cnt s a < cnt s i) := by
  induction n with
  | zero => intro i hi; omega
  | succ n ih =>
    have hs : smallestOf s.cin.hcount s.cin.hused (n + 1) =
        smallestPick s.cin.hcount s.cin.hused (smallestOf s.cin.hcount s.cin.hused n) n := by
      rw [smallestOf, List.range_succ, List.foldl_append]; rfl
    rw [hs, smallestPick_eq]
    generalize smallestOf s.cin.hcount s.cin.hused n = best at ih
    by_cases hn : usd s n = true ∨ cnt s n = 0
    · rw [if_pos hn]
      have hdead : ¬ isLive s n := fun h => by
        rcases hn with hn | hn
        · rw [h.1] at hn; exact Bool.noConfusion hn
        · exact h.2 hn
      cases best with
      | none =>
        intro i hi hl
        rcases Nat.lt_succ_iff_lt_or_eq.1 hi with h | rfl
        · exact ih i h hl
        · exact hdead hl
      | some a =>
        obtain ⟨h1, h2, h3⟩ := ih
        refine ⟨by omega, h2, fun i hi hl => ?_⟩
        rcases Nat.lt_succ_iff_lt_or_eq.1 hi with h | rfl
        · exact h3 i h hl
        · exact absurd hl hdead
    · rw [if_neg hn]
      have hlive : isLive s n := by
        rw [not_or] at hn
        exact ⟨by cases h : usd s n <;> simp_all, hn.2⟩
      cases best with
      | none =>
        refine ⟨by omega, hlive, fun i hi hl => ?_⟩
        rcases Nat.lt_succ_iff_lt_or_eq.1 hi with h | rfl
        · exact absurd hl (ih i h)
        · exact ⟨BitVec.le_refl _, fun h => by omega⟩
      | some a =>
        obtain ⟨h1, h2, h3⟩ := ih
        dsimp only
        by_cases hlt : cnt s n < cnt s a
        · rw [if_pos hlt]
          refine ⟨by omega, hlive, fun i hi hl => ?_⟩
          rcases Nat.lt_succ_iff_lt_or_eq.1 hi with h | rfl
          · have := (h3 i h hl).1
            have hlt' : cnt s n < cnt s i := by rw [BitVec.lt_def] at hlt ⊢; rw [BitVec.le_def] at this; omega
            exact ⟨BitVec.le_of_lt hlt', fun _ => hlt'⟩
          · exact ⟨BitVec.le_refl _, fun h => by omega⟩
        · rw [if_neg hlt]
          refine ⟨by omega, h2, fun i hi hl => ?_⟩
          rcases Nat.lt_succ_iff_lt_or_eq.1 hi with h | rfl
          · exact h3 i h hl
          · exact ⟨BitVec.not_lt.1 hlt, fun h => by omega⟩

/-- A node marked used. -/
def markUsed (i : Nat) (s : State) : State := { s with cin := { s.cin with hused := s.cin.hused.setIfInBounds i true } }

/-- SMALLEST(n), both ways it can end (40_huffman.md R122). -/
theorem smallest_cases (n : Nat) (s : State) :
    (smallest n s = (none, s) ∧ ∀ i, i < n → ¬ isLive s i) ∨
    ∃ a, smallest n s = (some a, markUsed a s) ∧ a < n ∧ isLive s a ∧
      ∀ i, i < n → isLive s i → cnt s a ≤ cnt s i ∧ (i < a → cnt s a < cnt s i) := by
  have h := smallestOf_spec s n
  unfold smallest
  cases hb : smallestOf s.cin.hcount s.cin.hused n with
  | none => rw [hb] at h; exact .inl ⟨rfl, h⟩
  | some a => rw [hb] at h; exact .inr ⟨a, rfl, h⟩

theorem isLive_lt {s : State} {i : Nat} (h : isLive s i) : i < 511 := by
  by_contra hi
  have := h.1
  rw [usd, Vector.getElem?_eq_none (by omega)] at this
  exact Bool.noConfusion this

theorem usd_markUsed (s : State) (a i : Nat) : usd (markUsed a s) i = (decide (i = a) || usd s i) := by
  unfold usd markUsed
  simp only [Vector.getElem?_setIfInBounds]
  by_cases h : a = i
  · subst h
    by_cases hi : a < 511
    · simp [hi]
    · simp [hi]
  · simp [h, Ne.symm h]

theorem cnt_markUsed (s : State) (a i : Nat) : cnt (markUsed a s) i = cnt s i := rfl

/-! ### One merge -/

/-- Entry `k` of PAIR's row `r`. -/
def pairAt (s : State) (r : Byte) (k : Nat) : Option (NodeIx × NodeIx) := (at8 s.cin.pair r)[k]?

theorem at8_put8 {α : Type} (v : Vector α 256) (i j : Byte) (x : α) :
    at8 (put8 v i x) j = if j = i then x else at8 v j := by
  unfold at8 put8
  rw [Vector.getElem_set]
  by_cases h : j = i
  · subst h; simp
  · rw [if_neg h, if_neg]
    exact fun he => h (BitVec.eq_of_toNat_eq he.symm)

theorem pairAt_setPair (r : Byte) (k : Nat) (b : Bool) (a : Nat) (s : State) (hk : k < 255) (r' : Byte) (j : Nat) :
    pairAt (setPair r k b a s) r' j =
      if r' = r ∧ j = k then
        some (if b then (((pairAt s r k).getD (0, 0)).1, BitVec.ofNat 9 a) else (BitVec.ofNat 9 a, ((pairAt s r k).getD (0, 0)).2))
      else pairAt s r' j := by
  simp only [pairAt, setPair, at8_put8]
  by_cases hr : r' = r
  · subst hr
    rw [if_pos rfl, Vector.getElem?_setIfInBounds]
    by_cases hj : k = j
    · subst hj; simp [hk]
    · rw [if_neg hj, if_neg fun h => hj h.2.symm]
  · rw [if_neg hr, if_neg fun h => hr h.1]

/-- What the build may change: the counts, the marks, and one row of PAIR. -/
structure BuildStep (r : Byte) (s t : State) : Prop where
  state : t = { s with cin := { s.cin with hcount := t.cin.hcount, hused := t.cin.hused, pair := t.cin.pair } }
  rows : ∀ r', r' ≠ r → at8 t.cin.pair r' = at8 s.cin.pair r'

theorem BuildStep.refl (r : Byte) (s : State) : BuildStep r s s := ⟨rfl, fun _ _ => rfl⟩

theorem BuildStep.trans {r : Byte} {s t u : State} (h : BuildStep r s t) (k : BuildStep r t u) : BuildStep r s u :=
  ⟨by rw [k.state, h.state], fun r' hr => by rw [k.rows r' hr, h.rows r' hr]⟩

theorem markUsed_buildStep (r : Byte) (a : Nat) (s : State) : BuildStep r s (markUsed a s) := ⟨rfl, fun _ _ => rfl⟩

theorem setPair_buildStep (r : Byte) (k : Nat) (b : Bool) (a : Nat) (s : State) : BuildStep r s (setPair r k b a s) :=
  ⟨rfl, fun r' hr => by simp only [setPair, at8_put8, if_neg hr]⟩

/-- A count written. -/
def setCount (n : Nat) (v : Word) (s : State) : State :=
  { s with cin := { s.cin with hcount := s.cin.hcount.setIfInBounds n v } }

theorem setCount_buildStep (r : Byte) (n : Nat) (v : Word) (s : State) : BuildStep r s (setCount n v s) := ⟨rfl, fun _ _ => rfl⟩

theorem cnt_setCount (n : Nat) (v : Word) (s : State) (hn : n < 511) (i : Nat) :
    cnt (setCount n v s) i = if i = n then v else cnt s i := by
  unfold cnt setCount
  simp only [Vector.getElem?_setIfInBounds]
  by_cases h : n = i
  · subst h; simp [hn]
  · simp [h, Ne.symm h]

/-- The state after a merge of `a` and `b` into node `n` (40_huffman.md R122). -/
def merged (r : Byte) (n a b : Nat) (s : State) : State :=
  setCount n (cnt s a + cnt s b) (setPair r (n - 256) true b (markUsed b (setPair r (n - 256) false a (markUsed a s))))

theorem merged_buildStep (r : Byte) (n a b : Nat) (s : State) : BuildStep r s (merged r n a b s) :=
  ((((markUsed_buildStep r a s).trans (setPair_buildStep r _ _ _ _)).trans (markUsed_buildStep r b _)).trans
    (setPair_buildStep r _ _ _ _)).trans (setCount_buildStep r _ _ _)

theorem cnt_merged {r : Byte} {n a b : Nat} {s : State} (hn : n < 511) (i : Nat) :
    cnt (merged r n a b s) i = if i = n then cnt s a + cnt s b else cnt s i := by
  rw [merged, cnt_setCount _ _ _ hn]
  rfl

theorem usd_merged {r : Byte} {n a b : Nat} {s : State} (i : Nat) :
    usd (merged r n a b s) i = (decide (i = a) || decide (i = b) || usd s i) := by
  have h1 : usd (merged r n a b s) i = usd (markUsed b (markUsed a s)) i := rfl
  rw [h1, usd_markUsed, usd_markUsed]
  cases decide (i = a) <;> cases decide (i = b) <;> rfl

theorem pairAt_merged {r : Byte} {n a b : Nat} {s : State} (hn : 256 ≤ n) (hn' : n < 511) (k : Nat) :
    pairAt (merged r n a b s) r k =
      if k = n - 256 then some (BitVec.ofNat 9 a, BitVec.ofNat 9 b) else pairAt s r k := by
  have hk : n - 256 < 255 := by omega
  have inner : ∀ j, pairAt (markUsed b (setPair r (n - 256) false a (markUsed a s))) r j =
      if j = n - 256 then some (BitVec.ofNat 9 a, ((pairAt s r (n - 256)).getD (0, 0)).2) else pairAt s r j := by
    intro j
    have := pairAt_setPair r (n - 256) false a (markUsed a s) hk r j
    simp only [true_and, Bool.false_eq_true, if_false] at this
    exact this
  have outer := pairAt_setPair r (n - 256) true b (markUsed b (setPair r (n - 256) false a (markUsed a s))) hk r k
  simp only [true_and, if_true, inner] at outer
  refine Eq.trans (show pairAt (merged r n a b s) r k = _ from outer) ?_
  by_cases h : k = n - 256
  · rw [if_pos h, if_pos h]; rfl
  · rw [if_neg h, if_neg h, if_neg h]

/-- The first live node below `n` with the least count (40_huffman.md R122). -/
def Picks (s : State) (n a : Nat) : Prop :=
  a < n ∧ isLive s a ∧ ∀ i, i < n → isLive s i → cnt s a ≤ cnt s i ∧ (i < a → cnt s a < cnt s i)

/-- A node marked used is live no more, and no other node changes. -/
theorem isLive_markUsed {s : State} {a i : Nat} : isLive (markUsed a s) i ↔ isLive s i ∧ i ≠ a := by
  unfold isLive
  rw [usd_markUsed, cnt_markUsed]
  by_cases h : i = a <;> simp [h]

/-- One pass of the merge loop, all three ways (40_huffman.md R122). -/
theorem buildMerges_succ (r : Byte) (fuel n : Nat) (s : State) :
    ((∀ i, i < n → ¬ isLive s i) ∧ buildMerges r (fuel + 1) n s = (n, s)) ∨
    (∃ a, a < n ∧ isLive s a ∧ (∀ i, i < n → isLive s i → i = a) ∧
      buildMerges r (fuel + 1) n s = (n, setPair r (n - 256) false a (markUsed a s))) ∨
    ∃ a b, Picks s n a ∧ Picks (markUsed a s) n b ∧
      buildMerges r (fuel + 1) n s = buildMerges r fuel (n + 1) (merged r n a b s) := by
  rcases smallest_cases n s with ⟨h1, hnone⟩ | ⟨a, h1, ha⟩
  · refine .inl ⟨hnone, ?_⟩
    rw [buildMerges, h1]
  · rcases smallest_cases n (setPair r (n - 256) false a (markUsed a s)) with ⟨h2, hnone⟩ | ⟨b, h2, hb⟩
    · refine .inr (.inl ⟨a, ha.1, ha.2.1, fun i hi hl => ?_, ?_⟩)
      · by_contra hne
        exact hnone i hi (isLive_markUsed.2 ⟨hl, hne⟩)
      · rw [buildMerges, h1]
        dsimp only
        rw [h2]
    · refine .inr (.inr ⟨a, b, ha, hb, ?_⟩)
      rw [buildMerges, h1]
      dsimp only
      rw [h2]
      rfl

/-! ### The row's invariant -/

/-- Some bits lead from node `n` of context `r` to `sym`. -/
def Reaches (c : CinUnit) (r : Byte) (n : NodeIx) (sym : Byte) : Prop := ∃ bits, HufPath c r n bits sym

theorem reaches_leaf {c : CinUnit} {r : Byte} {n : NodeIx} (h : n.toNat < 256) (sym : Byte) :
    Reaches c r n sym ↔ sym = n.setWidth 8 := by
  constructor
  · rintro ⟨bits, hp⟩
    cases hp with
    | leaf => rfl
    | node _ h' => exact absurd h (Nat.not_lt.2 h')
  · rintro rfl; exact ⟨[], .leaf n h⟩

theorem reaches_node {c : CinUnit} {r : Byte} {n : NodeIx} (h : 256 ≤ n.toNat) {kids : NodeIx × NodeIx}
    (hk : (at8 c.pair r)[n.toNat - 256]? = some kids) (sym : Byte) :
    Reaches c r n sym ↔ Reaches c r kids.1 sym ∨ Reaches c r kids.2 sym := by
  obtain ⟨hlt, he⟩ := Vector.getElem?_eq_some_iff.1 hk
  subst he
  constructor
  · rintro ⟨bits, hp⟩
    cases hp with
    | leaf _ h' => exact absurd h' (Nat.not_lt.2 h)
    | node _ _ _ b bits _ below =>
      cases b
      · exact .inl ⟨bits, below⟩
      · exact .inr ⟨bits, below⟩
  · rintro (⟨bits, hp⟩ | ⟨bits, hp⟩)
    · exact ⟨_, .node n h hlt false bits sym hp⟩
    · exact ⟨_, .node n h hlt true bits sym hp⟩

/-- The live nodes among the first `n`. -/
noncomputable def liveSet (s : State) (n : Nat) : Finset Nat := by
  classical exact (Finset.range n).filter (isLive s)

theorem mem_liveSet {s : State} {n i : Nat} : i ∈ liveSet s n ↔ i < n ∧ isLive s i := by
  classical simp [liveSet]

/-- The merge loop's invariant on row `r`, with `n` the next free node, `m` symbols used and their counts' total `total`
(40_huffman.md R122, R123, R125). -/
structure RowInv (r : Byte) (m total n : Nat) (used : Nat → Prop) (s : State) : Prop where
  range : 256 ≤ n ∧ n ≤ 511
  fresh : ∀ i, n ≤ i → i < 511 → usd s i = false
  symbols : ∀ i, i < 256 → (cnt s i ≠ 0 ↔ used i)
  inner : ∀ i, 256 ≤ i → i < n → cnt s i ≠ 0
  sum : ∑ i ∈ liveSet s n, (cnt s i).toNat = total
  card : (liveSet s n).card + (n - 256) = m
  last : 256 < n → isLive s (n - 1)
  pairs : ∀ k, 256 + k < n → ∃ a b : NodeIx, pairAt s r k = some (a, b) ∧ a.toNat < 256 + k ∧ b.toNat < 256 + k ∧
    cnt s a.toNat ≠ 0 ∧ cnt s b.toNat ≠ 0
  reach : ∀ sym : Byte, used sym.toNat → ∃ i : NodeIx, i.toNat ∈ liveSet s n ∧ Reaches s.cin r i sym

theorem ofNat_toNat_node (i : NodeIx) : BitVec.ofNat 9 i.toNat = i := BitVec.eq_of_toNat_eq (by
  rw [BitVec.toNat_ofNat]; exact Nat.mod_eq_of_lt i.isLt)

theorem toNat_ofNat_node {a : Nat} (h : a < 512) : (BitVec.ofNat 9 a : NodeIx).toNat = a := by
  rw [BitVec.toNat_ofNat]; exact Nat.mod_eq_of_lt h

/-- What a node reaches is settled by the pairs below it. -/
theorem reaches_congr {c d : CinUnit} {r : Byte} {n : Nat}
    (hp : ∀ k, 256 + k < n → ∃ a b : NodeIx, (at8 c.pair r)[k]? = some (a, b) ∧ (at8 d.pair r)[k]? = some (a, b) ∧
      a.toNat < 256 + k ∧ b.toNat < 256 + k) (sym : Byte) (j : Nat) (i : NodeIx) (hij : i.toNat = j) (hj : j < n) :
    Reaches c r i sym ↔ Reaches d r i sym := by
  induction j using Nat.strong_induction_on generalizing i with
  | _ j ih =>
    by_cases hl : i.toNat < 256
    · rw [reaches_leaf hl, reaches_leaf hl]
    · have hge := Nat.not_lt.1 hl
      obtain ⟨a, b, h1, h2, ha, hb⟩ := hp (i.toNat - 256) (by omega)
      rw [reaches_node hge h1, reaches_node hge h2, ih a.toNat (by omega) a rfl (by omega), ih b.toNat (by omega) b rfl (by omega)]

/-- A node with a count reaches only symbols that are used. -/
theorem RowInv.reaches_used {r : Byte} {m total n : Nat} {used : Nat → Prop} {s : State} (h : RowInv r m total n used s)
    (sym : Byte) (j : Nat) (i : NodeIx) (hij : i.toNat = j) (hj : j < n) (hc : cnt s j ≠ 0) (hr : Reaches s.cin r i sym) :
    used sym.toNat := by
  induction j using Nat.strong_induction_on generalizing i with
  | _ j ih =>
    by_cases hl : i.toNat < 256
    · rw [reaches_leaf hl] at hr
      subst hr
      rw [BitVec.toNat_setWidth, Nat.mod_eq_of_lt hl, hij]
      exact (h.symbols j (by omega)).1 hc
    · have hge := Nat.not_lt.1 hl
      obtain ⟨a, b, h1, ha, hb, hca, hcb⟩ := h.pairs (i.toNat - 256) (by omega)
      rw [reaches_node hge h1] at hr
      rcases hr with hr | hr
      · exact ih a.toNat (by omega) a rfl (by omega) hca hr
      · exact ih b.toNat (by omega) b rfl (by omega) hcb hr

/-- A merge keeps the invariant (40_huffman.md R122). -/
theorem RowInv.merge {r : Byte} {m total n a b : Nat} {used : Nat → Prop} {s : State} (h : RowInv r m total n used s)
    (hn : n < 511) (ht : total < 2 ^ 32) (ha : a < n) (hb : b < n) (hab : a ≠ b) (hla : isLive s a) (hlb : isLive s b) :
    RowInv r m total (n + 1) used (merged r n a b s) := by
  obtain ⟨r1, r2⟩ := h.range
  have hma : a ∈ liveSet s n := mem_liveSet.2 ⟨ha, hla⟩
  have hmb : b ∈ (liveSet s n).erase a := Finset.mem_erase.2 ⟨Ne.symm hab, mem_liveSet.2 ⟨hb, hlb⟩⟩
  have hs1 := Finset.add_sum_erase (liveSet s n) (fun i => (cnt s i).toNat) hma
  have hs2 := Finset.add_sum_erase ((liveSet s n).erase a) (fun i => (cnt s i).toNat) hmb
  rw [h.sum] at hs1
  have hsum : (cnt s a + cnt s b).toNat = (cnt s a).toNat + (cnt s b).toNat := by
    rw [BitVec.toNat_add]; exact Nat.mod_eq_of_lt (by omega)
  have hca : (cnt s a).toNat ≠ 0 := fun he => hla.2 (BitVec.eq_of_toNat_eq he)
  have hne : cnt s a + cnt s b ≠ 0 := fun he => by rw [he] at hsum; simp at hsum; omega
  have hcnt : ∀ i, cnt (merged r n a b s) i = if i = n then cnt s a + cnt s b else cnt s i := cnt_merged hn
  have hcnt' : ∀ i, i ≠ n → cnt (merged r n a b s) i = cnt s i := fun i hi => by rw [hcnt, if_neg hi]
  have hcntn : cnt (merged r n a b s) n = cnt s a + cnt s b := by rw [hcnt, if_pos rfl]
  have hliven : isLive (merged r n a b s) n := by
    refine ⟨?_, by rw [hcntn]; exact hne⟩
    rw [usd_merged, h.fresh n (Nat.le_refl _) hn]
    simp [Nat.ne_of_gt ha, Nat.ne_of_gt hb]
  have hset : liveSet (merged r n a b s) (n + 1) = insert n (((liveSet s n).erase a).erase b) := by
    ext i
    rw [mem_liveSet, Finset.mem_insert, Finset.mem_erase, Finset.mem_erase, mem_liveSet]
    by_cases hi : i = n
    · subst hi
      exact ⟨fun _ => .inl rfl, fun _ => ⟨by omega, hliven⟩⟩
    · unfold isLive
      rw [usd_merged, hcnt' i hi]
      simp only [Bool.or_eq_false_iff, decide_eq_false_iff_not]
      constructor
      · rintro ⟨h1, ⟨⟨h2, h3⟩, h4⟩, h5⟩
        exact .inr ⟨h3, h2, by omega, h4, h5⟩
      · rintro (h1 | ⟨h1, h2, h3, h4, h5⟩)
        · exact absurd h1 hi
        · exact ⟨by omega, ⟨⟨h2, h1⟩, h4⟩, h5⟩
  have hnot : n ∉ ((liveSet s n).erase a).erase b := by
    rw [Finset.mem_erase, Finset.mem_erase, mem_liveSet]
    rintro ⟨_, _, h1, _⟩
    omega
  have hpair : ∀ k, pairAt (merged r n a b s) r k =
      if k = n - 256 then some (BitVec.ofNat 9 a, BitVec.ofNat 9 b) else pairAt s r k := pairAt_merged r1 hn
  have na : (BitVec.ofNat 9 a : NodeIx).toNat = a := toNat_ofNat_node (by omega)
  have nb : (BitVec.ofNat 9 b : NodeIx).toNat = b := toNat_ofNat_node (by omega)
  refine ⟨⟨by omega, by omega⟩, ?_, ?_, ?_, ?_, ?_, ?_, ?_, ?_⟩
  · intro i hi hi'
    rw [usd_merged, h.fresh i (by omega) hi']
    simp; omega
  · intro i hi
    rw [hcnt' i (by omega)]
    exact h.symbols i hi
  · intro i h1 h2
    by_cases hi : i = n
    · rw [hi, hcntn]; exact hne
    · rw [hcnt' i hi]; exact h.inner i h1 (by omega)
  · rw [hset, Finset.sum_insert hnot, hcntn, hsum,
      Finset.sum_congr rfl fun i hi => by rw [hcnt' i fun he => hnot (he ▸ hi)]]
    omega
  · rw [hset, Finset.card_insert_of_notMem hnot, Finset.card_erase_of_mem hmb, Finset.card_erase_of_mem hma]
    have hc := h.card
    have h2 : 2 ≤ (liveSet s n).card := by
      have := Finset.card_pos.2 ⟨b, hmb⟩
      rw [Finset.card_erase_of_mem hma] at this
      omega
    omega
  · intro _
    exact hliven
  · intro k hk
    rw [hpair]
    by_cases he : k = n - 256
    · rw [if_pos he]
      exact ⟨_, _, rfl, by omega, by omega, by rw [na, hcnt' a (by omega)]; exact hla.2, by rw [nb, hcnt' b (by omega)]; exact hlb.2⟩
    · rw [if_neg he]
      obtain ⟨p, q, h1, h2, h3, h4, h5⟩ := h.pairs k (by omega)
      exact ⟨p, q, h1, h2, h3, by rw [hcnt' _ (by omega)]; exact h4, by rw [hcnt' _ (by omega)]; exact h5⟩
  · intro sym hsym
    have hcong : ∀ i : NodeIx, i.toNat < n → (Reaches s.cin r i sym ↔ Reaches (merged r n a b s).cin r i sym) := by
      intro i hi
      refine reaches_congr (n := n) (fun k hk => ?_) sym i.toNat i rfl hi
      obtain ⟨p, q, h1, h2, h3, -, -⟩ := h.pairs k hk
      refine ⟨p, q, h1, ?_, h2, h3⟩
      have := hpair k
      rw [if_neg (by omega)] at this
      exact this.trans h1
    have hnn : (BitVec.ofNat 9 n : NodeIx).toNat = n := toNat_ofNat_node (by omega)
    have hnode := reaches_node (c := (merged r n a b s).cin) (r := r) (n := BitVec.ofNat 9 n) (by omega)
      (kids := (BitVec.ofNat 9 a, BitVec.ofNat 9 b)) (by have := hpair (n - 256); rw [if_pos rfl] at this; rw [hnn]; exact this) sym
    obtain ⟨i, hi, hri⟩ := h.reach sym hsym
    obtain ⟨hi1, hi2⟩ := mem_liveSet.1 hi
    have hri' := (hcong i hi1).1 hri
    by_cases h1 : i.toNat = a
    · refine ⟨BitVec.ofNat 9 n, by rw [hnn, hset]; exact Finset.mem_insert_self _ _, hnode.2 (.inl ?_)⟩
      have he : BitVec.ofNat 9 a = i := by rw [← h1, ofNat_toNat_node]
      show Reaches _ r (BitVec.ofNat 9 a) sym
      rw [he]
      exact hri'
    · by_cases h2 : i.toNat = b
      · refine ⟨BitVec.ofNat 9 n, by rw [hnn, hset]; exact Finset.mem_insert_self _ _, hnode.2 (.inr ?_)⟩
        have he : BitVec.ofNat 9 b = i := by rw [← h2, ofNat_toNat_node]
        show Reaches _ r (BitVec.ofNat 9 b) sym
        rw [he]
        exact hri'
      · refine ⟨i, ?_, hri'⟩
        rw [hset, Finset.mem_insert, Finset.mem_erase, Finset.mem_erase]
        exact .inr ⟨h2, h1, hi⟩

/-- The merges made so far on row `r`, with `n` the next free node: the used nodes are the children, and every inner node is what
its merge made (40_huffman.md R122). -/
structure RowTree (r : Byte) (n : Nat) (s : State) : Prop where
  marks : ∀ i, i < n → (usd s i = true ↔ mergedBelow s.cin r n i)
  merges : ∀ k kids, 256 + k < n → pairAt s r k = some kids → MergedAs s.cin r (fun i => (cnt s i).toNat) k kids

theorem mergedBelow_congr {c d : CinUnit} {r : Byte} {n : Nat}
    (hp : ∀ k, 256 + k < n → (at8 d.pair r)[k]? = (at8 c.pair r)[k]?) (i : Nat) : mergedBelow d r n i ↔ mergedBelow c r n i := by
  constructor <;> rintro ⟨k, kids, hk, h1, h2⟩ <;> refine ⟨k, kids, hk, ?_, h2⟩
  · rw [← hp k hk]; exact h1
  · rw [hp k hk]; exact h1

theorem firstLeast_congr {count count' : Nat → Nat} {p q : Nat → Prop} {a : Nat} (h : firstLeast count p a)
    (hpq : ∀ i, q i ↔ p i) (hc : ∀ i, p i → count' i = count i) : firstLeast count' q a := by
  refine ⟨(hpq a).2 h.1, fun i hi => ?_⟩
  have hi' := (hpq i).1 hi
  rw [hc a h.1, hc i hi']
  exact h.2 i hi'

/-- What a merge made stays so while the pairs below it and the counts up to it stay. -/
theorem mergedAs_congr {c d : CinUnit} {r : Byte} {count count' : Nat → Nat} {k : Nat} {kids : NodeIx × NodeIx}
    (h : MergedAs c r count k kids) (hp : ∀ j, 256 + j < 256 + k → (at8 d.pair r)[j]? = (at8 c.pair r)[j]?)
    (hc : ∀ i, i ≤ 256 + k → count' i = count i) : MergedAs d r count' k kids := by
  have hm : ∀ i, mergeable d r count' (256 + k) i ↔ mergeable c r count (256 + k) i := fun i => by
    unfold mergeable
    refine and_congr_right fun hi => ?_
    rw [hc i (by omega), mergedBelow_congr hp]
  refine ⟨firstLeast_congr h.first hm fun i hi => hc i (by have := hi.1; omega),
    firstLeast_congr h.second (fun i => by rw [hm]) fun i hi => hc i (by have := hi.1.1; omega), ?_⟩
  rw [hc _ (Nat.le_refl _), hc _ (by have := h.first.1.1; omega), hc _ (by have := h.second.1.1.1; omega), h.sum]

/-- No two nodes are both the first of the least counts: a row's counts have one tree. -/
theorem firstLeast_unique {count : Nat → Nat} {p : Nat → Prop} {a b : Nat} (ha : firstLeast count p a) (hb : firstLeast count p b) :
    a = b := by
  obtain ⟨h1, h2⟩ := ha.2 b hb.1
  obtain ⟨h3, h4⟩ := hb.2 a ha.1
  by_contra hne
  rcases Nat.lt_or_gt_of_ne hne with h | h
  · have := h4 h; omega
  · have := h2 h; omega

/-- The next merge keeps it. -/
theorem RowInv.tree {r : Byte} {m total n a b : Nat} {used : Nat → Prop} {s : State} (h : RowInv r m total n used s)
    (t : RowTree r n s) (hn : n < 511) (ht : total < 2 ^ 32) (ha : Picks s n a) (hb : Picks (markUsed a s) n b) :
    RowTree r (n + 1) (merged r n a b s) := by
  obtain ⟨r1, r2⟩ := h.range
  obtain ⟨ha1, hla, ha3⟩ := ha
  obtain ⟨hb1, hlb, hb3⟩ := hb
  obtain ⟨hlb', hba⟩ := isLive_markUsed.1 hlb
  have hpair : ∀ k, (at8 (merged r n a b s).cin.pair r)[k]? =
      if k = n - 256 then some (BitVec.ofNat 9 a, BitVec.ofNat 9 b) else (at8 s.cin.pair r)[k]? := pairAt_merged r1 hn
  have hold : ∀ k, 256 + k < n → (at8 (merged r n a b s).cin.pair r)[k]? = (at8 s.cin.pair r)[k]? := fun k hk => by
    rw [hpair, if_neg (by omega)]
  have hcnt : ∀ i, i ≠ n → cnt (merged r n a b s) i = cnt s i := fun i hi => by rw [cnt_merged hn, if_neg hi]
  have na : (BitVec.ofNat 9 a : NodeIx).toNat = a := toNat_ofNat_node (by omega)
  have nb : (BitVec.ofNat 9 b : NodeIx).toNat = b := toNat_ofNat_node (by omega)
  have hsum : (cnt s a + cnt s b).toNat = (cnt s a).toNat + (cnt s b).toNat := by
    have hma : a ∈ liveSet s n := mem_liveSet.2 ⟨ha1, hla⟩
    have hmb : b ∈ (liveSet s n).erase a := Finset.mem_erase.2 ⟨hba, mem_liveSet.2 ⟨hb1, hlb'⟩⟩
    have hs1 := Finset.add_sum_erase (liveSet s n) (fun i => (cnt s i).toNat) hma
    have hs2 := Finset.add_sum_erase ((liveSet s n).erase a) (fun i => (cnt s i).toNat) hmb
    rw [h.sum] at hs1
    rw [BitVec.toNat_add]
    exact Nat.mod_eq_of_lt (by omega)
  refine ⟨fun i hi => ?_, fun k kids hk hkids => ?_⟩
  · rw [usd_merged]
    have hnew : mergedBelow (merged r n a b s).cin r (n + 1) i ↔ (i = a ∨ i = b) ∨ mergedBelow s.cin r n i := by
      constructor
      · rintro ⟨k, kids, hk, h1, h2⟩
        by_cases he : k = n - 256
        · rw [hpair, if_pos he, Option.some.injEq] at h1
          subst h1
          rw [na, nb] at h2
          exact .inl (h2.imp Eq.symm Eq.symm)
        · exact .inr ⟨k, kids, by omega, by rw [← hold k (by omega)]; exact h1, h2⟩
      · rintro (he | ⟨k, kids, hk, h1, h2⟩)
        · refine ⟨n - 256, _, by omega, by rw [hpair, if_pos rfl], ?_⟩
          rw [na, nb]
          exact he.imp Eq.symm Eq.symm
        · exact ⟨k, kids, by omega, by rw [hold k hk]; exact h1, h2⟩
    rw [hnew]
    simp only [Bool.or_eq_true, decide_eq_true_iff]
    by_cases hin : i = n
    · subst hin
      have h1 : usd s i = false := h.fresh i (Nat.le_refl _) hn
      have h2 : ¬ mergedBelow s.cin r i i := by
        rintro ⟨k, kids, hk, h3, h4⟩
        obtain ⟨p, q, h5, h6, h7, -, -⟩ := h.pairs k hk
        rw [show (at8 s.cin.pair r)[k]? = pairAt s r k from rfl, h5, Option.some.injEq] at h3
        subst h3
        rcases h4 with h4 | h4 <;> (dsimp only at h4; omega)
      simp [h1, h2]
    · rw [t.marks i (by omega)]
  · by_cases he : k = n - 256
    · have hkn : 256 + k = n := by omega
      have hk' := hpair k
      rw [if_pos he] at hk'
      obtain rfl : (BitVec.ofNat 9 a, BitVec.ofNat 9 b) = kids := Option.some.inj (hk'.symm.trans hkids)
      have hfree : ∀ i, mergeable (merged r n a b s).cin r (fun i => (cnt (merged r n a b s) i).toNat) (256 + k) i ↔
          i < n ∧ isLive s i := fun i => by
        unfold mergeable isLive
        rw [hkn]
        refine and_congr_right fun hi => ?_
        dsimp only
        rw [hcnt i (by omega), mergedBelow_congr hold, ← t.marks i hi, Bool.not_eq_true, and_comm]
        exact and_congr_right fun _ => not_congr ⟨fun h0 => BitVec.eq_of_toNat_eq h0, fun h0 => by rw [h0]; rfl⟩
      refine ⟨?_, ?_, ?_⟩ <;> dsimp only
      · rw [na]
        refine ⟨(hfree a).2 ⟨ha1, hla⟩, fun i hi => ?_⟩
        obtain ⟨hi1, hi2⟩ := (hfree i).1 hi
        dsimp only
        rw [hcnt a (by omega), hcnt i (by omega)]
        exact ha3 i hi1 hi2
      · rw [na, nb]
        refine ⟨⟨(hfree b).2 ⟨hb1, hlb'⟩, hba⟩, fun i hi => ?_⟩
        obtain ⟨hi1, hi2⟩ := (hfree i).1 hi.1
        dsimp only
        rw [hcnt b (by omega), hcnt i (by omega)]
        exact hb3 i hi1 (isLive_markUsed.2 ⟨hi2, hi.2⟩)
      · rw [na, nb, hkn, hcnt a (by omega), hcnt b (by omega), cnt_merged hn, if_pos rfl, hsum]
    · refine mergedAs_congr (t.merges k kids (by omega) ?_) (fun j hj => hold j (by omega)) fun i hi => by
        rw [hcnt i (by omega)]
      exact (hold k (by omega)).symm.trans hkids

/-- What the merge loop leaves on row `r`, with `n` the node count at its end. -/
structure RowDone (r : Byte) (m n : Nat) (used : Nat → Prop) (t : State) : Prop where
  several : 2 ≤ m → n = 255 + m
  few : m ≤ 1 → n = 256
  range : 256 ≤ n ∧ n ≤ 511
  pairs : ∀ k, 256 + k < n → ∃ a b : NodeIx, pairAt t r k = some (a, b) ∧ a.toNat < 256 + k ∧ b.toNat < 256 + k
  reach : 2 ≤ m → ∀ sym : Byte, Reaches t.cin r (BitVec.ofNat 9 (n - 1)) sym ↔ used sym.toNat

/-- The merges of a row, kept as long as the pairs below `n` and the counts stay: the counts of the symbols, and what each merge
made of them. -/
def Merged (r : Byte) (n : Nat) (sym : Nat → Nat) (t : State) : Prop :=
  ∃ count : Nat → Nat, (∀ j, j < 256 → count j = sym j) ∧
    ∀ k kids, 256 + k < n → pairAt t r k = some kids → MergedAs t.cin r count k kids

theorem RowTree.merged {r : Byte} {n : Nat} {sym : Nat → Nat} {s t : State} (h : RowTree r n s)
    (hs : ∀ j, j < 256 → (cnt s j).toNat = sym j) (ht : ∀ k, 256 + k < n → pairAt t r k = pairAt s r k) : Merged r n sym t :=
  ⟨_, hs, fun k kids hk hkids => mergedAs_congr (h.merges k kids hk (by rw [← ht k hk]; exact hkids)) (fun j hj => ht j (by omega))
    fun _ _ => rfl⟩

/-- With at most one live node left the row is done. -/
theorem RowInv.done {r : Byte} {m total n : Nat} {used : Nat → Prop} {s t : State} (h : RowInv r m total n used s)
    (hl : (liveSet s n).card ≤ 1) (ht : ∀ k, 256 + k < n → pairAt t r k = pairAt s r k) : RowDone r m n used t := by
  obtain ⟨r1, r2⟩ := h.range
  have hc := h.card
  have hpos : 256 < n → 1 ≤ (liveSet s n).card := fun hn =>
    Finset.card_pos.2 ⟨n - 1, mem_liveSet.2 ⟨by omega, h.last hn⟩⟩
  refine ⟨fun hm => by have := hpos (by omega); omega, fun hm => ?_, h.range, fun k hk => ?_, fun hm sym => ?_⟩
  · by_contra hne
    have := hpos (by omega)
    omega
  · obtain ⟨a, b, h1, h2, h3, -, -⟩ := h.pairs k hk
    exact ⟨a, b, by rw [ht k hk, h1], h2, h3⟩
  · have hn : 256 < n := by omega
    have hnn : (BitVec.ofNat 9 (n - 1) : NodeIx).toNat = n - 1 := toNat_ofNat_node (by omega)
    have hcong : Reaches s.cin r (BitVec.ofNat 9 (n - 1)) sym ↔ Reaches t.cin r (BitVec.ofNat 9 (n - 1)) sym := by
      refine reaches_congr (n := n) (fun k hk => ?_) sym (n - 1) _ hnn (by omega)
      obtain ⟨a, b, h1, h2, h3, -, -⟩ := h.pairs k hk
      exact ⟨a, b, h1, (ht k hk).trans h1, h2, h3⟩
    rw [← hcong]
    constructor
    · exact h.reaches_used sym (n - 1) _ hnn (by omega) (h.last hn).2
    · intro hu
      obtain ⟨i, hi, hri⟩ := h.reach sym hu
      have hin : i.toNat = n - 1 :=
        Finset.card_le_one.1 hl _ hi _ (mem_liveSet.2 ⟨by omega, h.last hn⟩)
      rw [← hin, ofNat_toNat_node]
      exact hri

/-- The whole merge loop (40_huffman.md R122, R123). -/
theorem buildMerges_spec {r : Byte} {m total : Nat} {used : Nat → Prop} {sym : Nat → Nat} (ht : total < 2 ^ 32) (hm : m ≤ 256)
    (fuel : Nat) {n : Nat} {s : State} (hf : n + fuel = 511) (h : RowInv r m total n used s) (hr : RowTree r n s)
    (hs : ∀ j, j < 256 → (cnt s j).toNat = sym j) :
    BuildStep r s (buildMerges r fuel n s).2 ∧
      RowDone r m (buildMerges r fuel n s).1 used (buildMerges r fuel n s).2 ∧
      Merged r (buildMerges r fuel n s).1 sym (buildMerges r fuel n s).2 := by
  induction fuel generalizing n s with
  | zero =>
    refine ⟨.refl r s, h.done ?_ fun _ _ => rfl, hr.merged hs fun _ _ => rfl⟩
    have := h.card
    omega
  | succ fuel ih =>
    rcases buildMerges_succ r fuel n s with ⟨hnone, he⟩ | ⟨a, ha, hla, hone, he⟩ | ⟨a, b, ha, hb, he⟩
    · rw [he]
      refine ⟨.refl r s, h.done ?_ fun _ _ => rfl, hr.merged hs fun _ _ => rfl⟩
      have : liveSet s n = ∅ := Finset.eq_empty_of_forall_notMem fun i hi =>
        hnone i (mem_liveSet.1 hi).1 (mem_liveSet.1 hi).2
      rw [this]; simp
    · rw [he]
      have hp : ∀ k, 256 + k < n → pairAt (setPair r (n - 256) false a (markUsed a s)) r k = pairAt s r k := fun k hk => by
        have r1 := h.range.1
        rw [pairAt_setPair _ _ _ _ _ (by have := h.range.2; omega), if_neg (by omega)]
        rfl
      refine ⟨(markUsed_buildStep r a s).trans (setPair_buildStep r _ _ _ _), h.done ?_ hp, hr.merged hs hp⟩
      rw [Finset.card_le_one]
      intro i hi j hj
      rw [hone i (mem_liveSet.1 hi).1 (mem_liveSet.1 hi).2, hone j (mem_liveSet.1 hj).1 (mem_liveSet.1 hj).2]
    · rw [he]
      obtain ⟨hlb, hba⟩ := isLive_markUsed.1 hb.2.1
      obtain ⟨h1, h2, h3⟩ := ih (by omega) (h.merge (by omega) ht ha.1 hb.1 (Ne.symm hba) ha.2.1 hlb)
        (h.tree hr (by omega) ht ha hb) fun j hj => by
          rw [cnt_merged (by omega), if_neg (by have := h.range.1; omega)]; exact hs j hj
      exact ⟨(merged_buildStep r n a b s).trans h1, h2, h3⟩

/-! ### A row, and the forest -/

/-- A symbol of row `r` is used when its count in the stream is not 0 (30_encoding.md R81). -/
def usedSymbol (s : State) (r : Byte) (sym : Nat) : Prop := s.stream.read (20 + 256 * r.toNat + sym) ≠ 0

theorem cnt_loadRow (r : Byte) (s : State) (i : Nat) :
    cnt (loadRow r s) i = if i < 256 then (s.stream.read (20 + 256 * r.toNat + i)).zeroExtend 32 else 0 := by
  unfold cnt loadRow
  dsimp only
  by_cases h : i < 511
  · rw [Vector.getElem?_eq_getElem h, Vector.getElem_ofFn]; rfl
  · rw [Vector.getElem?_eq_none (by omega), if_neg (by omega)]; rfl

theorem usd_loadRow (r : Byte) (s : State) (i : Nat) (h : i < 511) : usd (loadRow r s) i = false := by
  unfold usd loadRow
  dsimp only
  rw [Vector.getElem?_eq_getElem h, Vector.getElem_replicate]
  rfl

theorem countP_range (p : Nat → Bool) (n : Nat) : (List.range n).countP p = ((Finset.range n).filter fun i => p i = true).card := by
  induction n with
  | zero => rfl
  | succ n ih =>
    rw [List.range_succ, List.countP_append, ih, Finset.range_add_one, Finset.filter_insert]
    by_cases h : p n = true
    · rw [if_pos h, Finset.card_insert_of_notMem (by simp)]; simp [h]
    · rw [if_neg h]; simp [h]

/-- How many symbols row `r` uses, as a count of nodes. -/
theorem card_loadRow (r : Byte) (s : State) : (liveSet (loadRow r s) 256).card = symbolsUsed s r := by
  have h1 : symbolsUsed s r = (List.range 256).countP fun i => decide (s.stream.read (20 + 256 * r.toNat + i) ≠ 0) := by
    rw [symbolsUsed, streamSpan, List.countP_map]; rfl
  rw [h1, countP_range]
  congr 1
  ext i
  rw [mem_liveSet, Finset.mem_filter, Finset.mem_range, decide_eq_true_iff]
  refine and_congr_right fun hi => ?_
  unfold isLive
  rw [usd_loadRow r s i (by omega), cnt_loadRow, if_pos hi]
  constructor
  · rintro ⟨-, h⟩ h0
    exact h (by rw [h0]; rfl)
  · intro h
    refine ⟨rfl, fun h0 => h ?_⟩
    have := congrArg BitVec.toNat h0
    rw [show BitVec.zeroExtend 32 (s.stream.read (20 + 256 * r.toNat + i)) =
      BitVec.setWidth 32 (s.stream.read (20 + 256 * r.toNat + i)) from rfl, BitVec.toNat_setWidth] at this
    refine BitVec.eq_of_toNat_eq ?_
    have hlt := (s.stream.read (20 + 256 * r.toNat + i)).isLt
    rw [Nat.mod_eq_of_lt (by omega)] at this
    exact this

theorem cnt_loadRow_toNat (r : Byte) (s : State) {i : Nat} (hi : i < 256) :
    (cnt (loadRow r s) i).toNat = (s.stream.read (20 + 256 * r.toNat + i)).toNat := by
  rw [cnt_loadRow, if_pos hi]
  show (BitVec.setWidth 32 (s.stream.read (20 + 256 * r.toNat + i))).toNat = _
  rw [BitVec.toNat_setWidth]
  have := (s.stream.read (20 + 256 * r.toNat + i)).isLt
  exact Nat.mod_eq_of_lt (by omega)

/-- The invariant at the start of a row (40_huffman.md R122). -/
theorem rowInv_loadRow (r : Byte) (s : State) :
    ∃ total, total < 2 ^ 32 ∧ RowInv r (symbolsUsed s r) total 256 (usedSymbol s r) (loadRow r s) := by
  refine ⟨∑ i ∈ liveSet (loadRow r s) 256, (cnt (loadRow r s) i).toNat, ?_, ⟨by omega, by omega⟩, ?_, ?_, ?_, rfl, ?_, ?_, ?_, ?_⟩
  · have h1 : ∑ i ∈ liveSet (loadRow r s) 256, (cnt (loadRow r s) i).toNat ≤ (liveSet (loadRow r s) 256).card • 255 := by
      refine Finset.sum_le_card_nsmul _ _ _ fun i hi => ?_
      rw [cnt_loadRow_toNat r s (mem_liveSet.1 hi).1]
      have := (s.stream.read (20 + 256 * r.toNat + i)).isLt
      omega
    have h2 : (liveSet (loadRow r s) 256).card ≤ 256 := by
      refine le_trans (Finset.card_le_card (t := Finset.range 256) fun i hi => Finset.mem_range.2 (mem_liveSet.1 hi).1) ?_
      simp
    rw [smul_eq_mul] at h1
    omega
  · intro i _ hi
    exact usd_loadRow r s i hi
  · intro i hi
    unfold usedSymbol
    rw [not_iff_not]
    constructor
    · intro h
      have := cnt_loadRow_toNat r s hi
      rw [h] at this
      exact BitVec.eq_of_toNat_eq this.symm
    · intro h
      refine BitVec.eq_of_toNat_eq ?_
      rw [cnt_loadRow_toNat r s hi, h]; rfl
  · intro i h1 h2; omega
  · rw [card_loadRow]; omega
  · intro h; omega
  · intro k hk; omega
  · intro sym hsym
    have hlt := sym.isLt
    have hn : (sym.setWidth 9 : NodeIx).toNat = sym.toNat := by
      rw [BitVec.toNat_setWidth]; exact Nat.mod_eq_of_lt (by omega)
    refine ⟨sym.setWidth 9, ?_, ?_⟩
    · rw [hn, mem_liveSet]
      refine ⟨by omega, usd_loadRow r s _ (by omega), fun h => hsym ?_⟩
      have := cnt_loadRow_toNat r s hlt
      rw [h] at this
      exact BitVec.eq_of_toNat_eq this.symm
    · rw [reaches_leaf (by omega)]
      refine BitVec.eq_of_toNat_eq ?_
      rw [BitVec.toNat_setWidth, hn, Nat.mod_eq_of_lt hlt]

/-- No merge is made yet at the start of a row. -/
theorem rowTree_loadRow (r : Byte) (s : State) : RowTree r 256 (loadRow r s) where
  marks i hi := by
    rw [usd_loadRow r s i (by omega)]
    exact ⟨(nomatch ·), fun ⟨k, _, hk, _⟩ => by omega⟩
  merges k _ hk := by omega

theorem symbolsUsed_le (s : State) (r : Byte) : symbolsUsed s r ≤ 256 := by
  have := List.countP_le_length (p := fun b : Byte => decide (b ≠ 0)) (l := streamSpan s (20 + 256 * r.toNat) 256)
  rw [streamSpan_length] at this
  exact this

/-- What a build of row `r` leaves there (40_huffman.md R122, R123, R125). -/
structure RowBuilt (s : State) (c : CinUnit) (r : Byte) : Prop where
  several : 2 ≤ symbolsUsed s r → (at8 c.root r).toNat = 254 + symbolsUsed s r
  few : symbolsUsed s r ≤ 1 → (at8 c.root r).toNat = 255
  shape : rowOk c r
  reach : 2 ≤ symbolsUsed s r → ∀ sym : Byte, Reaches c r (at8 c.root r) sym ↔ usedSymbol s r sym.toNat
  tree : treeOfCounts s c r

/-- What a build of row `r` may change. -/
structure RowStep (r : Byte) (s t : State) : Prop where
  state : t = { s with cin := { s.cin with hcount := t.cin.hcount, hused := t.cin.hused, pair := t.cin.pair, root := t.cin.root } }
  rows : ∀ r', r' ≠ r → at8 t.cin.pair r' = at8 s.cin.pair r' ∧ at8 t.cin.root r' = at8 s.cin.root r'

theorem loadRow_buildStep (r : Byte) (s : State) : BuildStep r s (loadRow r s) := by
  unfold loadRow
  exact ⟨rfl, fun _ _ => rfl⟩

theorem buildRow_eq (r : Byte) (s : State) :
    buildRow r s = { (buildMerges r 255 256 (loadRow r s)).2 with
      cin := { (buildMerges r 255 256 (loadRow r s)).2.cin with
        root := put8 (buildMerges r 255 256 (loadRow r s)).2.cin.root r
          (BitVec.ofNat 9 ((buildMerges r 255 256 (loadRow r s)).1 - 1)) } } := by
  unfold buildRow
  generalize buildMerges r 255 256 (loadRow r s) = res
  obtain ⟨n, t⟩ := res
  rfl

theorem cinOnly_of {s t : State} {c : CinUnit} (h : t = { s with cin := c }) : t = { s with cin := t.cin } := by
  subst h; rfl

theorem cinOnly_trans {s t u : State} (h : t = { s with cin := t.cin }) (k : u = { t with cin := u.cin }) :
    u = { s with cin := u.cin } := by
  rw [k, h]

theorem withRoot_of {c d : CinUnit} (h : c = { d with hcount := c.hcount, hused := c.hused, pair := c.pair })
    (root : Vector NodeIx 256) :
    ({ c with root := root } : CinUnit) = { d with hcount := c.hcount, hused := c.hused, pair := c.pair, root := root } := by
  cases c
  cases d
  simp only [CinUnit.mk.injEq, true_and] at h ⊢
  obtain ⟨h1, h2, h3, h4, h5, -, h6⟩ := h
  exact ⟨h1, h2, h3, h4, h5, h6⟩

/-- The CIN unit replaced in a state that differs there only. -/
theorem withCin_of {s t : State} (h : t = { s with cin := t.cin }) (c : CinUnit) :
    ({ t with cin := c } : State) = { s with cin := c } := by
  cases t
  cases s
  simp only [State.mk.injEq, true_and] at h ⊢
  exact h

/-- BUILD_ROW(r) (40_huffman.md R122, R123, R125). -/
theorem buildRow_spec (r : Byte) (s : State) : RowStep r s (buildRow r s) ∧ RowBuilt s (buildRow r s).cin r := by
  obtain ⟨total, ht, hinv⟩ := rowInv_loadRow r s
  obtain ⟨h1, h2, h4⟩ := buildMerges_spec ht (symbolsUsed_le s r) 255 (by omega) hinv (rowTree_loadRow r s)
    fun _ hj => cnt_loadRow_toNat r s hj
  have h0 := (loadRow_buildStep r s).trans h1
  rw [buildRow_eq]
  generalize buildMerges r 255 256 (loadRow r s) = res at h0 h2 h4
  obtain ⟨n, t⟩ := res
  dsimp only at h0 h2 h4 ⊢
  obtain ⟨n1, n2⟩ := h2.range
  have hroot : at8 (put8 t.cin.root r (BitVec.ofNat 9 (n - 1))) r = BitVec.ofNat 9 (n - 1) := by rw [at8_put8, if_pos rfl]
  have hnn : (BitVec.ofNat 9 (n - 1) : NodeIx).toNat = n - 1 := toNat_ofNat_node (by omega)
  refine ⟨⟨?_, fun r' hr => ⟨h0.rows r' hr, ?_⟩⟩, ?_, ?_, ⟨?_, ?_, ?_⟩, ?_, ?_⟩
  · have hst : t = { s with cin := t.cin } := cinOnly_of h0.state
    have hc : t.cin = { s.cin with hcount := t.cin.hcount, hused := t.cin.hused, pair := t.cin.pair } := congrArg State.cin h0.state
    rw [withCin_of hst]
    exact congrArg (fun c => ({ s with cin := c } : State)) (withRoot_of hc _)
  · show at8 (put8 t.cin.root r _) r' = _
    rw [at8_put8, if_neg hr, h0.state]
  · intro hm
    have := h2.several hm
    show (at8 (put8 t.cin.root r _) r).toNat = _
    rw [hroot, hnn]
    omega
  · intro hm
    have := h2.few hm
    show (at8 (put8 t.cin.root r _) r).toNat = _
    rw [hroot, hnn]
    omega
  · show 255 ≤ (at8 (put8 t.cin.root r _) r).toNat
    rw [hroot, hnn]; omega
  · show (at8 (put8 t.cin.root r _) r).toNat ≤ 510
    rw [hroot, hnn]; omega
  · intro k hk hkr
    have hkr' : 256 + k ≤ (at8 (put8 t.cin.root r (BitVec.ofNat 9 (n - 1))) r).toNat := hkr
    rw [hroot, hnn] at hkr'
    obtain ⟨a, b, hp, ha, hb⟩ := h2.pairs k (by omega)
    obtain ⟨hk', he⟩ := Vector.getElem?_eq_some_iff.1 hp
    show ((at8 t.cin.pair r)[k]).1.toNat < _ ∧ ((at8 t.cin.pair r)[k]).2.toNat < _
    rw [he]
    exact ⟨ha, hb⟩
  · intro hm sym
    have := h2.reach hm sym
    show Reaches _ r (at8 (put8 t.cin.root r _) r) sym ↔ _
    rw [hroot, ← this]
    have hcong := reaches_congr (c := t.cin) (d := { t.cin with root := put8 t.cin.root r (BitVec.ofNat 9 (n - 1)) }) (r := r) (n := n)
      (fun k hk => by
        obtain ⟨a, b, hp, ha, hb⟩ := h2.pairs k hk
        exact ⟨a, b, hp, hp, ha, hb⟩) sym (n - 1) (BitVec.ofNat 9 (n - 1)) hnn (by omega)
    exact hcong.symm
  · obtain ⟨count, hc, hm⟩ := h4
    refine ⟨count, hc, fun k kids hk hkids => ?_⟩
    have hk' : 256 + k ≤ (at8 (put8 t.cin.root r (BitVec.ofNat 9 (n - 1))) r).toNat := hk
    rw [hroot, hnn] at hk'
    exact mergedAs_congr (hm k kids (by omega) hkids) (fun _ _ => rfl) fun _ _ => rfl

theorem rowOk_congr {c d : CinUnit} {r : Byte} (hp : at8 d.pair r = at8 c.pair r) (hr : at8 d.root r = at8 c.root r)
    (h : rowOk c r) : rowOk d r := by
  unfold rowOk at *
  rw [hr]
  refine ⟨h.1, h.2.1, fun k hk hkr => ?_⟩
  have := h.2.2 k hk hkr
  simp only [hp]
  exact this

/-- A row keeps what its build left while its pairs and its root stay. -/
theorem RowBuilt.congr {s : State} {c d : CinUnit} {r : Byte} (h : RowBuilt s c r) (hp : at8 d.pair r = at8 c.pair r)
    (hr : at8 d.root r = at8 c.root r) : RowBuilt s d r := by
  refine ⟨fun hm => by rw [hr]; exact h.several hm, fun hm => by rw [hr]; exact h.few hm, rowOk_congr hp hr h.shape,
    fun hm sym => ?_, ?_⟩
  swap
  · obtain ⟨count, hc, hm⟩ := h.tree
    exact ⟨count, hc, fun k kids hk hkids => mergedAs_congr (hm k kids (by rw [← hr]; exact hk) (by rw [← hp]; exact hkids))
      (fun _ _ => by rw [hp]) fun _ _ => rfl⟩
  rw [hr, ← h.reach hm sym]
  obtain ⟨h1, h2, h3⟩ := h.shape
  refine reaches_congr (n := (at8 c.root r).toNat + 1) (fun k hk => ?_) sym (at8 c.root r).toNat (at8 c.root r) rfl (by omega)
  have hk' : k < 255 := by omega
  obtain ⟨ha, hb⟩ := h3 k hk' (by omega)
  have hc := Vector.getElem?_eq_getElem (xs := at8 c.pair r) hk'
  exact ⟨_, _, by rw [hp]; exact hc, hc, ha, hb⟩

theorem usedSymbol_congr {s t : State} (h : t.stream = s.stream) (r : Byte) :
    symbolsUsed t r = symbolsUsed s r ∧ ∀ k, usedSymbol t r k ↔ usedSymbol s r k := by
  unfold symbolsUsed usedSymbol streamSpan
  rw [h]
  exact ⟨rfl, fun _ => Iff.rfl⟩

theorem RowBuilt.of_stream {s t : State} {c : CinUnit} {r : Byte} (h : RowBuilt t c r) (hs : t.stream = s.stream) : RowBuilt s c r := by
  obtain ⟨h1, h2⟩ := usedSymbol_congr hs r
  exact ⟨fun hm => by rw [← h1] at hm ⊢; exact h.several hm, fun hm => by rw [← h1] at hm; exact h.few hm, h.shape,
    fun hm sym => by rw [← h1] at hm; rw [← h2]; exact h.reach hm sym,
    by obtain ⟨count, hc, hm⟩ := h.tree; exact ⟨count, fun j hj => by rw [hc j hj, hs], hm⟩⟩

/-- The first `m` rows built. -/
def builtRows (m : Nat) (s : State) : State := (List.range m).foldl (fun s r => buildRow (BitVec.ofNat 8 r) s) s

theorem builtRows_succ (m : Nat) (s : State) : builtRows (m + 1) s = buildRow (BitVec.ofNat 8 m) (builtRows m s) := by
  unfold builtRows
  rw [List.range_succ, List.foldl_append]
  rfl

theorem builtRows_spec (s : State) (m : Nat) (hm : m ≤ 256) :
    let t := builtRows m s
    t = { s with cin := { s.cin with hcount := t.cin.hcount, hused := t.cin.hused, pair := t.cin.pair, root := t.cin.root } } ∧
      ∀ r : Byte, r.toNat < m → RowBuilt s t.cin r := by
  induction m with
  | zero => exact ⟨rfl, fun r hr => by omega⟩
  | succ m ih =>
    obtain ⟨h1, h2⟩ := ih (by omega)
    rw [builtRows_succ]
    dsimp only
    generalize builtRows m s = u at h1 h2
    obtain ⟨h3, h4⟩ := buildRow_spec (BitVec.ofNat 8 m) u
    have hu : u.stream = s.stream := by rw [h1]
    refine ⟨?_, fun r hr => ?_⟩
    · have hst := cinOnly_trans (cinOnly_of h1) (cinOnly_of h3.state)
      generalize buildRow (BitVec.ofNat 8 m) u = v at h3 hst
      have hc : v.cin = { u.cin with hcount := v.cin.hcount, hused := v.cin.hused, pair := v.cin.pair, root := v.cin.root } :=
        congrArg State.cin h3.state
      have hcu : u.cin = { s.cin with hcount := u.cin.hcount, hused := u.cin.hused, pair := u.cin.pair, root := u.cin.root } :=
        congrArg State.cin h1
      conv_lhs => rw [hst]
      congr 1
      conv_lhs => rw [hc, hcu]
    · by_cases hrm : r = BitVec.ofNat 8 m
      · rw [hrm]; exact h4.of_stream hu
      · obtain ⟨h5, h6⟩ := h3.rows r hrm
        refine (h2 r ?_).congr h5 h6
        have : r.toNat ≠ m := fun he => hrm (BitVec.eq_of_toNat_eq (by rw [BitVec.toNat_ofNat, he, Nat.mod_eq_of_lt (by omega)]))
        omega

/-- The whole forest (40_huffman.md R121 to R125). -/
theorem buildForest_spec (s : State) :
    buildForest s = { s with cin := { s.cin with
      hcount := (buildForest s).cin.hcount, hused := (buildForest s).cin.hused, pair := (buildForest s).cin.pair,
      root := (buildForest s).cin.root } } ∧
      ∀ r : Byte, RowBuilt s (buildForest s).cin r := by
  obtain ⟨h1, h2⟩ := builtRows_spec s 256 (Nat.le_refl _)
  have he : buildForest s = builtRows 256 s := by unfold buildForest builtRows; rfl
  rw [he]
  exact ⟨h1, fun r => h2 r r.isLt⟩

/-- Every row of a built forest is well shaped (40_huffman.md R123, R125, R140). -/
theorem buildForest_ok (s : State) : forestOk (buildForest s).cin := fun r => ((buildForest_spec s).2 r).shape

/-! ### The session OPEN_CIN leaves -/

/-- What the end of the header parse leaves of the CIN unit (40_huffman.md R120; 10_state.md R31). -/
theorem opened_cin (u : State) :
    (startCin (clearCinBuffers (freeCounts u))).cin = { u.cin with
      hcount := Vector.ofFn fun (i : Fin 511) => Config.freeHcount u.draws i.val
      hused := Vector.ofFn fun (i : Fin 511) => Config.freeHused u.draws i.val
      palette := Vector.replicate 256 { r := 0, g := 0, b := 0 }
      idxBuf := List.replicate u.cin.area.toNat 0
      fb := List.replicate u.cin.area.toNat Pixel.zero } := by
  have key : (freeCounts u).cin.area = u.cin.area := by unfold freeCounts CinUnit.area; rfl
  rw [startCin_cin, clearCinBuffers_cin, key, freeCounts_cin]

theorem opened_row {s u : State} {r : Byte} (h : RowBuilt s u.cin r) :
    RowBuilt s (startCin (clearCinBuffers (freeCounts u))).cin r := by
  have e1 : (startCin (clearCinBuffers (freeCounts u))).cin.pair = u.cin.pair := by rw [opened_cin]
  have e2 : (startCin (clearCinBuffers (freeCounts u))).cin.root = u.cin.root := by rw [opened_cin]
  exact h.congr (congrArg (at8 · r) e1) (congrArg (at8 · r) e2)

/-- A good header opens the session over the built forest (40_huffman.md R120, R121). -/
theorem execCinHeader_good {w h rate width channels : Word} {s : State} (hg : cinHeaderGood w h rate width channels s) :
    execCinHeader w h rate width channels s =
      .next (startCin (clearCinBuffers (freeCounts (buildForest (setCinHeader w h rate width channels s))))) := by
  rw [execCinHeader, if_pos hg]

/-- The rows of the session a good header opens. -/
theorem cinHeader_rows (w h rate width channels : Word) (s : State) (r : Byte) :
    RowBuilt s (startCin (clearCinBuffers (freeCounts (buildForest (setCinHeader w h rate width channels s))))).cin r :=
  opened_row (((buildForest_spec (setCinHeader w h rate width channels s)).2 r).of_stream rfl)

end Sys2Proof.Machine
end

