-- ==== Sys2Proof/Laws/Frame.lean ====
section
/-! SUPPORT. The whole VQ frame: the macroblock loop as a walk over the origins in raster order, what it needs to complete, and why it
never stops the machine (42_roq_vq.md R190, R205; 70_reset_and_hazards.md R323). -/

namespace Sys2Proof.Machine

/-! ### Raster order -/

theorem range_mul_flatMap {α : Type} (rows cols : Nat) (f : Nat → Nat → α) :
    ((List.range rows).flatMap fun j => (List.range cols).map fun i => f i j) =
      (List.range (rows * cols)).map fun k => f (k % cols) (k / cols) := by
  induction rows with
  | zero => simp
  | succ r ih =>
    rw [List.range_succ, List.flatMap_append, ih, Nat.succ_mul, List.range_add, List.map_append, List.map_map]
    congr 1
    simp only [List.flatMap_cons, List.flatMap_nil, List.append_nil]
    refine List.map_congr_left fun i hi => ?_
    have hi := List.mem_range.1 hi
    have hc : 0 < cols := by omega
    simp only [Function.comp]
    rw [Nat.mul_comm r cols, Nat.mul_add_mod, Nat.mod_eq_of_lt hi, Nat.mul_add_div hc, Nat.div_eq_of_lt hi, Nat.add_zero]

/-- The origins as one list: origin `k` is column `k % cols` of row `k / cols`. -/
theorem macroblockOrigins_eq (u : RoqUnit) :
    macroblockOrigins u = (List.range (macroblocks u)).map fun k =>
      (16 * (k % ((u.w.toNat + 15) / 16)), 16 * (k / ((u.w.toNat + 15) / 16))) := by
  rw [macroblockOrigins, range_mul_flatMap ((u.h.toNat + 15) / 16) ((u.w.toNat + 15) / 16) fun i j => (16 * i, 16 * j),
    macroblocks, Nat.mul_comm ((u.h.toNat + 15) / 16)]

/-- XP and YP replaced. -/
def atOrigin (x y : Nat) (s : State) : State :=
  { s with roq := { s.roq with xp := BitVec.ofNat 32 x, yp := BitVec.ofNat 32 y } }

theorem atOrigin_atOrigin (x y x' y' : Nat) (s : State) : atOrigin x y (atOrigin x' y' s) = atOrigin x y s := rfl

theorem atOrigin_self {x y : Nat} {s : State} (hx : s.roq.xp = BitVec.ofNat 32 x) (hy : s.roq.yp = BitVec.ofNat 32 y) :
    atOrigin x y s = s := by
  rw [atOrigin, ← hx, ← hy]

theorem runMacroblocks_cons (o : Nat × Nat) (l : List (Nat × Nat)) (s : State) :
    runMacroblocks (o :: l) s = (macroblock (atOrigin o.1 o.2 s)).bind fun _ t => runMacroblocks l t := rfl

/-- Where the loop stands makes no difference to a walk over given origins that sets it in the end. -/
theorem runMacroblocks_atOrigin (l : List (Nat × Nat)) (x y x' y' : Nat) (s : State) :
    ((runMacroblocks l (atOrigin x y s)).bind fun _ t => .done () (atOrigin x' y' t)) =
      (runMacroblocks l s).bind fun _ t => .done () (atOrigin x' y' t) := by
  cases l with
  | nil => rfl
  | cons o l => rw [runMacroblocks_cons, runMacroblocks_cons, atOrigin_atOrigin]

theorem CodeStep.origin {s t : State} (h : CodeStep s t) :
    t.roq.xp = s.roq.xp ∧ t.roq.yp = s.roq.yp ∧ t.roq.w = s.roq.w ∧ t.roq.h = s.roq.h := by
  rw [h.unit]; exact ⟨rfl, rfl, rfl, rfl⟩

/-- The next origin in raster order (42_roq_vq.md R190). -/
theorem nextMacroblock_origin {k cols : Nat} {s : State} (hc : cols = (s.roq.w.toNat + 15) / 16) (hpos : 0 < cols)
    (hx : s.roq.xp = BitVec.ofNat 32 (16 * (k % cols))) (hy : s.roq.yp = BitVec.ofNat 32 (16 * (k / cols)))
    : nextMacroblock s = atOrigin (16 * ((k + 1) % cols)) (16 * ((k + 1) / cols)) s := by
  have hw := s.roq.w.isLt
  have hk := Nat.mod_lt k hpos
  have hdm := Nat.div_add_mod k cols
  have hxp : (s.roq.xp + 16).toNat = 16 * (k % cols) + 16 := by
    rw [hx, BitVec.toNat_add, BitVec.toNat_ofNat, show (16 : BitVec 32).toNat = 16 from rfl]
    omega
  unfold nextMacroblock
  simp only [hxp]
  by_cases hl : k % cols + 1 = cols
  · rw [if_pos (by omega)]
    have h1 : (k + 1) % cols = 0 := by
      rw [← hdm, Nat.add_assoc, hl, Nat.mul_add_mod, Nat.mod_self]
    have h2 : (k + 1) / cols = k / cols + 1 := by
      conv_lhs => rw [← hdm, Nat.add_assoc, hl]
      rw [Nat.mul_add_div hpos, Nat.div_self hpos]
    rw [h1, h2, atOrigin, hy]
    have e : BitVec.ofNat 32 (16 * (k / cols)) + 16 = BitVec.ofNat 32 (16 * (k / cols + 1)) := by
      rw [show 16 * (k / cols + 1) = 16 * (k / cols) + 16 by ring, BitVec.ofNat_add]; rfl
    rw [e]
    rfl
  · rw [if_neg (by omega)]
    have hlt : k % cols + 1 < cols := by omega
    have h1 : (k + 1) % cols = k % cols + 1 := by
      conv_lhs => rw [← hdm, Nat.add_assoc, Nat.mul_add_mod]
      exact Nat.mod_eq_of_lt hlt
    have h2 : (k + 1) / cols = k / cols := by
      conv_lhs => rw [← hdm, Nat.add_assoc, Nat.mul_add_div hpos]
      rw [Nat.div_eq_of_lt hlt, Nat.add_zero]
    rw [h1, h2, atOrigin, ← hy, hx]
    have e : BitVec.ofNat 32 (16 * (k % cols)) + 16 = BitVec.ofNat 32 (16 * (k % cols + 1)) := by
      rw [show 16 * (k % cols + 1) = 16 * (k % cols) + 16 by ring, BitVec.ofNat_add]; rfl
    rw [e]

/-- The macroblock loop walks the origins in raster order, and leaves XP at 0 and YP at the row past the last
(42_roq_vq.md R190, 30_encoding.md R104). -/
theorem vqLoop_eq (n : Nat) {k cols rows : Nat} {s : State} (hc : cols = (s.roq.w.toNat + 15) / 16)
    (hr : rows = (s.roq.h.toNat + 15) / 16) (hpos : 0 < cols) (hn : k + n = rows * cols)
    (hx : s.roq.xp = BitVec.ofNat 32 (16 * (k % cols))) (hy : s.roq.yp = BitVec.ofNat 32 (16 * (k / cols))) :
    vqLoop n s =
      (runMacroblocks ((List.range' k n).map fun k => (16 * (k % cols), 16 * (k / cols))) s).bind fun _ t =>
        .done () (atOrigin 0 (16 * rows) t) := by
  have hh := s.roq.h.isLt
  induction n generalizing k s with
  | zero =>
    have hk : k = rows * cols := by omega
    have h1 : k % cols = 0 := by rw [hk]; exact Nat.mul_mod_left _ _
    have h2 : k / cols = rows := by rw [hk]; exact Nat.mul_div_cancel _ hpos
    rw [h1] at hx
    rw [h2] at hy
    rw [vqLoop, if_neg]
    · show _ = Run.done () (atOrigin 0 (16 * rows) s)
      rw [atOrigin_self hx hy]
    · rw [hy]; simp only [BitVec.toNat_ofNat]; omega
  | succ n ih =>
    have hklt : k < rows * cols := by omega
    have hrow : k / cols < rows := by rw [Nat.div_lt_iff_lt_mul hpos]; exact hklt
    have hyp : s.roq.yp.toNat < s.roq.h.toNat := by
      rw [hy]; simp only [BitVec.toNat_ofNat]; omega
    rw [vqLoop, if_pos hyp, List.range'_succ, List.map_cons, runMacroblocks_cons, atOrigin_self hx hy, bind_assoc]
    have hcs := macroblock_codeStep s
    cases hm : macroblock s with
    | done a t =>
      rw [hm] at hcs
      obtain ⟨ox, oy, ow, oh⟩ := CodeStep.origin hcs
      have hnext := nextMacroblock_origin (k := k) (cols := cols) (s := t) (by rw [ow]; exact hc) hpos (by rw [ox, hx]) (by rw [oy, hy])
      have ih' := ih (k := k + 1) (s := nextMacroblock t) (by rw [hnext]; show _ = (t.roq.w.toNat + 15) / 16; rw [ow]; exact hc)
        (by rw [hnext]; show _ = (t.roq.h.toNat + 15) / 16; rw [oh]; exact hr) (by omega) (by rw [hnext]; rfl) (by rw [hnext]; rfl)
        (by rw [hnext]; show t.roq.h.toNat < _; rw [oh]; exact hh)
      show vqLoop n (nextMacroblock t) = _
      rw [ih', hnext]
      exact runMacroblocks_atOrigin _ _ _ _ _ _
    | raised r t => rfl
    | broken f => rfl
    | refused r => rfl

/-- The loop of a whole frame (42_roq_vq.md R190). -/
theorem vqLoop_frame {s : State} (hw : s.roq.w ≠ 0) (hx : s.roq.xp = 0) (hy : s.roq.yp = 0) :
    vqLoop (macroblocks s.roq) s =
      (runMacroblocks (macroblockOrigins s.roq) s).bind fun _ t =>
        .done () (atOrigin 0 (16 * ((s.roq.h.toNat + 15) / 16)) t) := by
  have hw' : s.roq.w.toNat ≠ 0 := fun h => hw (BitVec.eq_of_toNat_eq h)
  have := vqLoop_eq (macroblocks s.roq) (k := 0) (cols := (s.roq.w.toNat + 15) / 16) (rows := (s.roq.h.toNat + 15) / 16) (s := s)
    rfl rfl (by omega) (by rw [Nat.zero_add, macroblocks, Nat.mul_comm]) (by rw [hx, Nat.zero_mod]; rfl)
    (by rw [hy, Nat.zero_div]; rfl)
  rw [this, macroblockOrigins_eq, List.range_eq_range']

/-! ### Completion -/

theorem quiet_atOrigin {hi : Nat} {s : State} (h : Quiet hi s) (x y : Nat) : Quiet hi (atOrigin x y s) :=
  ⟨h.params, h.stored, h.reader, h.hold, h.window, h.flag, h.bytes⟩

theorem atOrigin_frameStep (x y : Nat) (s : State) : FrameStep s (atOrigin x y s) :=
  ⟨rfl, rfl, rfl, rfl, Nat.le_refl _, id⟩

theorem runMacroblocks_frameStep (l : List (Nat × Nat)) (s : State) : (runMacroblocks l s).sat (FrameStep s) := by
  induction l generalizing s with
  | nil => exact FrameStep.refl s
  | cons o l ih =>
    rw [runMacroblocks_cons]
    refine sat_bind (P := FrameStep s) (sat_mono (macroblock_codeStep _) fun _ h => (atOrigin_frameStep _ _ s).trans h.frameStep)
      (fun _ h => h) fun _ t h => sat_mono (ih t) fun _ h' => h.trans h'

/-- A walk completes where 552 bits are left for each macroblock (30_encoding.md R109). -/
theorem runMacroblocks_quiet {hi : Nat} (l : List (Nat × Nat)) {s : State} (hl : ∀ o ∈ l, o.1 + 16 < 2 ^ 32 ∧ o.2 + 16 < 2 ^ 32)
    (h : Quiet hi s) (hr : roomFor hi (552 * l.length) s) : (runMacroblocks l s).completes fun _ t => Quiet hi t := by
  induction l generalizing s with
  | nil => exact h
  | cons o l ih =>
    rw [runMacroblocks_cons]
    obtain ⟨h1, h2⟩ := hl o (by simp)
    have hx : (atOrigin o.1 o.2 s).roq.xp.toNat = o.1 := by
      simp only [atOrigin, BitVec.toNat_ofNat]; exact Nat.mod_eq_of_lt (by omega)
    have hy : (atOrigin o.1 o.2 s).roq.yp.toNat = o.2 := by
      simp only [atOrigin, BitVec.toNat_ofNat]; exact Nat.mod_eq_of_lt (by omega)
    have hr' : roomFor hi (552 + 552 * l.length) (atOrigin o.1 o.2 s) := by
      rw [List.length_cons, Nat.mul_succ, Nat.add_comm] at hr
      exact hr
    refine completes_bind (macroblock_quiet (s := atOrigin o.1 o.2 s) (by omega) (by omega) (quiet_atOrigin h _ _)
      (roomFor_mono hr' (Nat.le_add_right _ _))) fun _ t ht => ?_
    exact ih (fun o ho => hl o (by simp [ho])) ht.quiet (ht.room _ hr')

/-! ### The loop never stops the machine -/

/-- What every code needs so as not to stop the machine: distinct codes, the window inside the stream, buffers of the frame's size. -/
structure Sound (s : State) : Prop where
  params : s.params.wf
  window : s.roq.payEnd.toNat ≤ s.ses.streamSize.toNat
  hold : buffersHold s

theorem buffersHold_frameStep {s t : State} (h : FrameStep s t) (hs : buffersHold s) : buffersHold t := by
  have ha : t.roq.area = s.roq.area := by rw [h.unit]; rfl
  have key : ∀ b, (t.roq.buf b).length = t.roq.area := by
    intro b
    rw [ha]
    by_cases hb : b = s.roq.wsel
    · subst hb; rw [h.writeLength, buffersHold_length hs]
    · rw [Bool.eq_not_of_ne hb, h.readBuffer, buffersHold_length hs]
  exact ⟨key false, key true⟩

theorem Sound.frameStep {s t : State} (hs : Sound s) (h : FrameStep s t) : Sound t := by
  refine ⟨?_, ?_, buffersHold_frameStep h hs.hold⟩
  · rw [h.state]; exact hs.params
  · rw [h.state, h.unit]; exact hs.window

theorem Sound.codeStep {s t : State} (hs : Sound s) (h : CodeStep s t) : Sound t := hs.frameStep h.frameStep

theorem sound_bind {α β : Type} {s : State} {m : Run α} {k : α → State → Run β} (hs : Sound s) (hm : m.total)
    (hc : m.sat (CodeStep s)) (hk : ∀ a t, Sound t → (k a t).total) : (m.bind k).total :=
  total_bind hm hc fun a t h => hk a t (hs.codeStep h)

theorem payRead_sound {s : State} (h : Sound s) : (payRead s).total := payRead_total h.window

theorem payRead16_sound {s : State} (h : Sound s) : (payRead16 s).total :=
  sound_bind h (payRead_sound h) (payRead_codeStep s) fun _ t ht =>
    sound_bind ht (payRead_sound ht) (payRead_codeStep t) fun _ _ _ => trivial

theorem payRead4_sound {s : State} (h : Sound s) : (payRead4 s).total :=
  sound_bind h (payRead_sound h) (payRead_codeStep s) fun _ t ht =>
    sound_bind ht (payRead_sound ht) (payRead_codeStep t) fun _ u hu =>
      sound_bind hu (payRead_sound hu) (payRead_codeStep u) fun _ v hv =>
        sound_bind hv (payRead_sound hv) (payRead_codeStep v) fun _ _ _ => trivial

theorem nextCode_sound {s : State} (h : Sound s) : (nextCode s).total := by
  have hr : (refillFlags s).total := by
    unfold refillFlags
    split
    · exact sound_bind h (payRead16_sound h) (payRead16_codeStep s) fun _ _ _ => trivial
    · trivial
  unfold nextCode
  cases h1 : refillFlags s with
  | done a t => trivial
  | raised r t => trivial
  | broken f => rw [h1] at hr; exact hr
  | refused r => rw [h1] at hr; exact hr

theorem cellAt_total (i : Byte) (s : State) : (cellAt i s).total := by unfold cellAt; split <;> trivial
theorem quadAt_total (q : Byte) (s : State) : (quadAt q s).total := by unfold quadAt; split <;> trivial

theorem drawIndexed_total (px py : Nat) (i : Byte) (s : State) : (drawIndexed px py i s).total :=
  total_bind (P := fun _ => True) (cellAt_total i s) (sat_mono (cellAt_codeStep i s) fun _ _ => trivial) fun _ _ _ => trivial

theorem drawIndexedX2_total (px py : Nat) (i : Byte) (s : State) : (drawIndexedX2 px py i s).total :=
  total_bind (P := fun _ => True) (cellAt_total i s) (sat_mono (cellAt_codeStep i s) fun _ _ => trivial) fun _ _ _ => trivial

theorem anyway {α : Type} {s : State} {m : Run α} (h : m.sat (CodeStep s)) : m.sat fun _ => True := sat_mono h fun _ _ => trivial

theorem drawFour_total (x y : Nat) (q : Quad) (s : State) : (drawFour x y q s).total :=
  total_bind (drawIndexed_total _ _ _ s) (anyway (drawIndexed_codeStep _ _ _ s)) fun _ t _ =>
    total_bind (drawIndexed_total _ _ _ t) (anyway (drawIndexed_codeStep _ _ _ t)) fun _ u _ =>
      total_bind (drawIndexed_total _ _ _ u) (anyway (drawIndexed_codeStep _ _ _ u)) fun _ v _ => drawIndexed_total _ _ _ v

theorem drawFourX2_total (x y : Nat) (q : Quad) (s : State) : (drawFourX2 x y q s).total :=
  total_bind (drawIndexedX2_total _ _ _ s) (anyway (drawIndexedX2_codeStep _ _ _ s)) fun _ t _ =>
    total_bind (drawIndexedX2_total _ _ _ t) (anyway (drawIndexedX2_codeStep _ _ _ t)) fun _ u _ =>
      total_bind (drawIndexedX2_total _ _ _ u) (anyway (drawIndexedX2_codeStep _ _ _ u)) fun _ v _ => drawIndexedX2_total _ _ _ v

theorem motionCopy_sound {s : State} (h : Sound s) (px py n : Nat) (mx my : Int) : (motionCopy px py n mx my s).total := by
  unfold motionCopy
  split
  · rw [if_neg (by rw [buffersHold_length h.hold]; omega)]; trivial
  · trivial

theorem fccBlock_sound {s : State} (h : Sound s) (n : Nat) : (fccBlock n s).total :=
  sound_bind h (payRead_sound h) (payRead_codeStep s) fun _ _ ht => motionCopy_sound ht _ _ _ _ _

theorem sld8_sound {s : State} (h : Sound s) : (sld8 s).total :=
  sound_bind h (payRead_sound h) (payRead_codeStep s) fun q t ht =>
    sound_bind ht (quadAt_total q t) (quadAt_codeStep q t) fun _ u _ => drawFourX2_total _ _ _ u

theorem sld4_sound {s : State} (h : Sound s) : (sld4 s).total :=
  sound_bind h (payRead_sound h) (payRead_codeStep s) fun q t ht =>
    sound_bind ht (quadAt_total q t) (quadAt_codeStep q t) fun _ u _ => drawFour_total _ _ _ u

theorem ccc4_sound {s : State} (h : Sound s) : (ccc4 s).total :=
  sound_bind h (payRead4_sound h) (payRead4_codeStep s) fun _ t _ => drawFour_total _ _ _ t

theorem block4_sound {s : State} (h : Sound s) (x y : Nat) : (block4 x y s).total := by
  have ha : Sound (atBlock x y s) := h.codeStep (atBlock_codeStep x y s)
  refine sound_bind ha (nextCode_sound ha) (nextCode_codeStep _) fun c t ht => ?_
  obtain ⟨k, hk⟩ := vqCode?_isSome ht.params c
  rw [hk]
  cases k
  · trivial
  · exact fccBlock_sound ht 4
  · exact sld4_sound ht
  · exact ccc4_sound ht

theorem subdivide_sound {s : State} (h : Sound s) (x y : Nat) : (subdivide x y s).total :=
  sound_bind h (block4_sound h _ _) (block4_codeStep _ _ s) fun _ t ht =>
    sound_bind ht (block4_sound ht _ _) (block4_codeStep _ _ t) fun _ u hu =>
      sound_bind hu (block4_sound hu _ _) (block4_codeStep _ _ u) fun _ _ hv => block4_sound hv _ _

theorem block8_sound {s : State} (h : Sound s) (x y : Nat) : (block8 x y s).total := by
  have ha : Sound (atBlock x y s) := h.codeStep (atBlock_codeStep x y s)
  refine sound_bind ha (nextCode_sound ha) (nextCode_codeStep _) fun c t ht => ?_
  obtain ⟨k, hk⟩ := vqCode?_isSome ht.params c
  rw [hk]
  cases k
  · trivial
  · exact fccBlock_sound ht 8
  · exact sld8_sound ht
  · exact subdivide_sound ht _ _

theorem macroblock_sound {s : State} (h : Sound s) : (macroblock s).total :=
  sound_bind h (block8_sound h _ _) (block8_codeStep _ _ s) fun _ t ht =>
    sound_bind ht (block8_sound ht _ _) (block8_codeStep _ _ t) fun _ u hu =>
      sound_bind hu (block8_sound hu _ _) (block8_codeStep _ _ u) fun _ _ hv => block8_sound hv _ _

theorem runMacroblocks_sound (l : List (Nat × Nat)) {s : State} (h : Sound s) : (runMacroblocks l s).total := by
  induction l generalizing s with
  | nil => trivial
  | cons o l ih =>
    rw [runMacroblocks_cons]
    have ho : Sound (atOrigin o.1 o.2 s) := h.frameStep (atOrigin_frameStep _ _ s)
    exact sound_bind ho (macroblock_sound ho) (macroblock_codeStep _) fun _ _ ht => ih ht

/-- The macroblock loop of a whole frame never stops the machine (70_reset_and_hazards.md R323). -/
theorem vqLoop_sound {s : State} (h : Sound s) (hw : s.roq.w ≠ 0) (hx : s.roq.xp = 0) (hy : s.roq.yp = 0) :
    (vqLoop (macroblocks s.roq) s).total := by
  rw [vqLoop_frame hw hx hy]
  exact total_bind (P := fun _ => True) (runMacroblocks_sound _ h)
    (sat_mono (runMacroblocks_frameStep _ s) fun _ _ => trivial) fun _ _ _ => trivial

/-! ### The end of a frame -/

theorem frameEnd_hold {s : State} (h : buffersHold s) : buffersHold (frameEnd s) := by
  unfold frameEnd
  dsimp only
  split
  · obtain ⟨h0, h1⟩ := h
    cases hs : s.roq.wsel <;> simp only [RoqUnit.setBuf, RoqUnit.buf, Bool.not_false, Bool.not_true, if_true, if_false, Bool.false_eq_true]
    · exact ⟨h0, h0⟩
    · exact ⟨h1, h1⟩
  · exact h

end Sys2Proof.Machine
end

