-- ==== Sys2Proof/Laws/Ops.lean ====
section
/-! SUPPORT. What the operation of a RoQ chunk may change, and how a chunk can end (41_roq_chunks.md R161 to R172; 60_exceptions.md
R283). -/

namespace Sys2Proof.Machine

/-! ### A raised fault has a reason -/

/-- A fault that is raised has a reason of its own (60_exceptions.md R282). -/
def Run.reasonOk {α : Type} : Run α → Prop
  | .done _ _ => True
  | .raised r _ => r ≠ .none
  | .broken _ => True
  | .refused _ => True

theorem reasonOk_bind {α β : Type} {m : Run α} {k : α → State → Run β} (hm : m.reasonOk) (hk : ∀ a s, (k a s).reasonOk) :
    (m.bind k).reasonOk := by
  cases m with
  | done a s => exact hk a s
  | raised r s => exact hm
  | broken f => trivial
  | refused r => trivial

theorem reasonOk_ite {α : Type} {c : Prop} [Decidable c] {m n : Run α} (hm : m.reasonOk) (hn : n.reasonOk) :
    (if c then m else n).reasonOk := by
  split
  · exact hm
  · exact hn

theorem payRead_reason (s : State) : (payRead s).reasonOk :=
  reasonOk_ite (reasonOk_ite trivial trivial) fun h => FaultReason.noConfusion h

theorem payRead16_reason (s : State) : (payRead16 s).reasonOk :=
  reasonOk_bind (payRead_reason s) fun _ t => reasonOk_bind (payRead_reason t) fun _ _ => trivial

theorem payRead4_reason (s : State) : (payRead4 s).reasonOk :=
  reasonOk_bind (payRead_reason s) fun _ t => reasonOk_bind (payRead_reason t) fun _ u =>
    reasonOk_bind (payRead_reason u) fun _ v => reasonOk_bind (payRead_reason v) fun _ _ => trivial

theorem readCell_reason (s : State) : (readCell s).reasonOk :=
  reasonOk_bind (payRead4_reason s) fun _ t => reasonOk_bind (payRead_reason t) fun _ u =>
    reasonOk_bind (payRead_reason u) fun _ _ => trivial

theorem loadCells_reason (n k : Nat) (s : State) : (loadCells n k s).reasonOk := by
  induction n generalizing k s with
  | zero => trivial
  | succ n ih => exact reasonOk_bind (readCell_reason s) fun _ _ => ih _ _

theorem loadQuads_reason (n k : Nat) (s : State) : (loadQuads n k s).reasonOk := by
  induction n generalizing k s with
  | zero => trivial
  | succ n ih => exact reasonOk_bind (payRead4_reason s) fun _ _ => ih _ _

theorem codebookOp_reason (size : Word) (arg : Half) (s : State) : (codebookOp size arg s).reasonOk :=
  reasonOk_bind (loadCells_reason _ _ s) fun _ t => reasonOk_bind (loadQuads_reason _ _ t) fun _ _ => trivial

theorem infoOp_reason (s : State) : (infoOp s).reasonOk :=
  reasonOk_ite trivial (reasonOk_bind (payRead16_reason s) fun _ t => reasonOk_bind (payRead16_reason t) fun _ u =>
    reasonOk_bind (payRead4_reason u) fun _ _ => reasonOk_ite (fun h => FaultReason.noConfusion h) trivial)

theorem monoLoop_reason (n : Nat) (s : State) : (monoLoop n s).reasonOk := by
  induction n generalizing s with
  | zero => trivial
  | succ n ih => exact reasonOk_bind (payRead_reason s) fun _ _ => reasonOk_bind (ih _) fun _ _ => trivial

theorem stereoLoop_reason (n : Nat) (s : State) : (stereoLoop n s).reasonOk := by
  induction n generalizing s with
  | zero => trivial
  | succ n ih =>
    exact reasonOk_bind (payRead_reason s) fun _ t => reasonOk_bind (payRead_reason t) fun _ _ =>
      reasonOk_bind (ih _) fun _ _ => trivial

theorem monoOp_reason (size : Word) (arg : Half) (s : State) : (monoOp size arg s).reasonOk :=
  reasonOk_ite trivial (reasonOk_bind (monoLoop_reason _ _) fun _ _ => trivial)

theorem stereoOp_reason (size : Word) (arg : Half) (s : State) : (stereoOp size arg s).reasonOk :=
  reasonOk_ite trivial (reasonOk_bind (stereoLoop_reason _ _) fun _ _ => trivial)

theorem nextCode_reason (s : State) : (nextCode s).reasonOk :=
  reasonOk_bind (reasonOk_ite (reasonOk_bind (payRead16_reason s) fun _ _ => trivial) trivial) fun _ _ => trivial

theorem cellAt_reason (i : Byte) (s : State) : (cellAt i s).reasonOk :=
  reasonOk_ite (fun h => FaultReason.noConfusion h) trivial

theorem quadAt_reason (q : Byte) (s : State) : (quadAt q s).reasonOk :=
  reasonOk_ite (fun h => FaultReason.noConfusion h) trivial

theorem drawIndexed_reason (px py : Nat) (i : Byte) (s : State) : (drawIndexed px py i s).reasonOk :=
  reasonOk_bind (cellAt_reason i s) fun _ _ => trivial

theorem drawIndexedX2_reason (px py : Nat) (i : Byte) (s : State) : (drawIndexedX2 px py i s).reasonOk :=
  reasonOk_bind (cellAt_reason i s) fun _ _ => trivial

theorem drawFour_reason (x y : Nat) (q : Quad) (s : State) : (drawFour x y q s).reasonOk :=
  reasonOk_bind (drawIndexed_reason _ _ _ s) fun _ t => reasonOk_bind (drawIndexed_reason _ _ _ t) fun _ u =>
    reasonOk_bind (drawIndexed_reason _ _ _ u) fun _ v => drawIndexed_reason _ _ _ v

theorem drawFourX2_reason (x y : Nat) (q : Quad) (s : State) : (drawFourX2 x y q s).reasonOk :=
  reasonOk_bind (drawIndexedX2_reason _ _ _ s) fun _ t => reasonOk_bind (drawIndexedX2_reason _ _ _ t) fun _ u =>
    reasonOk_bind (drawIndexedX2_reason _ _ _ u) fun _ v => drawIndexedX2_reason _ _ _ v

theorem fccBlock_reason (n : Nat) (s : State) : (fccBlock n s).reasonOk :=
  reasonOk_bind (payRead_reason s) fun _ _ => reasonOk_ite (reasonOk_ite trivial trivial) fun h => FaultReason.noConfusion h

theorem sld8_reason (s : State) : (sld8 s).reasonOk :=
  reasonOk_bind (payRead_reason s) fun _ t => reasonOk_bind (quadAt_reason _ t) fun _ u => drawFourX2_reason _ _ _ u

theorem sld4_reason (s : State) : (sld4 s).reasonOk :=
  reasonOk_bind (payRead_reason s) fun _ t => reasonOk_bind (quadAt_reason _ t) fun _ u => drawFour_reason _ _ _ u

theorem ccc4_reason (s : State) : (ccc4 s).reasonOk :=
  reasonOk_bind (payRead4_reason s) fun _ t => drawFour_reason _ _ _ t

theorem block4_reason (x y : Nat) (s : State) : (block4 x y s).reasonOk :=
  reasonOk_bind (nextCode_reason _) fun c t => by
    split
    · trivial
    · exact fccBlock_reason 4 t
    · exact sld4_reason t
    · exact ccc4_reason t
    · trivial

theorem subdivide_reason (x y : Nat) (s : State) : (subdivide x y s).reasonOk :=
  reasonOk_bind (block4_reason _ _ s) fun _ t => reasonOk_bind (block4_reason _ _ t) fun _ u =>
    reasonOk_bind (block4_reason _ _ u) fun _ v => block4_reason _ _ v

theorem block8_reason (x y : Nat) (s : State) : (block8 x y s).reasonOk :=
  reasonOk_bind (nextCode_reason _) fun c t => by
    split
    · trivial
    · exact fccBlock_reason 8 t
    · exact sld8_reason t
    · exact subdivide_reason _ _ t
    · trivial

theorem vqLoop_reason (n : Nat) (s : State) : (vqLoop n s).reasonOk := by
  induction n generalizing s with
  | zero => exact reasonOk_ite trivial trivial
  | succ n ih =>
    refine reasonOk_ite (reasonOk_bind ?_ fun _ t => ih _) trivial
    exact reasonOk_bind (block8_reason _ _ s) fun _ t => reasonOk_bind (block8_reason _ _ t) fun _ u =>
      reasonOk_bind (block8_reason _ _ u) fun _ v => block8_reason _ _ v

theorem vqOp_reason (arg : Half) (s : State) : (vqOp arg s).reasonOk :=
  reasonOk_ite (fun h => FaultReason.noConfusion h) (reasonOk_bind (vqLoop_reason _ _) fun _ _ => trivial)

/-! ### What an operation may change -/

/-- The part of the invariant that is about the RoQ unit alone. -/
structure RoqInv (u : RoqUnit) : Prop where
  frame : u.infoSeen = true → 0 < u.w.toNat ∧ 0 < u.h.toNat ∧ u.buf0.length = u.area ∧ u.buf1.length = u.area
  noFrame : u.infoSeen = false → u.w = 0 ∧ u.h = 0 ∧ u.buf0 = [] ∧ u.buf1 = []
  counts : u.n1Last.toNat ≤ 256 ∧ u.n2Last.toNat ≤ 256
  reader : u.flgPos.toNat ≤ 8

/-- Nothing but the RoQ unit has changed, and in it nothing the invariant speaks of. -/
structure Quietly (s t : State) : Prop where
  rest : t = { s with roq := t.roq }
  fields : t.roq.w = s.roq.w ∧ t.roq.h = s.roq.h ∧ t.roq.infoSeen = s.roq.infoSeen ∧ t.roq.buf0 = s.roq.buf0 ∧
    t.roq.buf1 = s.roq.buf1 ∧ t.roq.n1Last = s.roq.n1Last ∧ t.roq.n2Last = s.roq.n2Last ∧ t.roq.flgPos = s.roq.flgPos ∧
    t.roq.payEnd = s.roq.payEnd

theorem Quietly.refl (s : State) : Quietly s s := ⟨rfl, rfl, rfl, rfl, rfl, rfl, rfl, rfl, rfl, rfl⟩

theorem Quietly.trans {s t u : State} (h : Quietly s t) (k : Quietly t u) : Quietly s u := by
  refine ⟨by rw [k.rest, h.rest], ?_⟩
  obtain ⟨a1, a2, a3, a4, a5, a6, a7, a8, a9⟩ := h.fields
  obtain ⟨b1, b2, b3, b4, b5, b6, b7, b8, b9⟩ := k.fields
  exact ⟨b1.trans a1, b2.trans a2, b3.trans a3, b4.trans a4, b5.trans a5, b6.trans a6, b7.trans a7, b8.trans a8, b9.trans a9⟩

theorem CursorOnly.quietly {s t : State} (h : CursorOnly s t) : Quietly s t := by
  obtain ⟨h, -⟩ := h
  exact ⟨by rw [h], by rw [h]; exact ⟨rfl, rfl, rfl, rfl, rfl, rfl, rfl, rfl, rfl⟩⟩

theorem sat_quietly_bind {α β : Type} {s : State} {m : Run α} {k : α → State → Run β} (hm : m.sat (Quietly s))
    (hk : ∀ a t, (k a t).sat (Quietly t)) : (m.bind k).sat (Quietly s) :=
  sat_bind hm (fun _ h => h) fun a t h => sat_mono (hk a t) fun _ h' => h.trans h'

theorem readCell_quietly (s : State) : (readCell s).sat (Quietly s) :=
  sat_quietly_bind (sat_mono (payRead4_cursorOnly s) fun _ h => h.quietly) fun _ t =>
    sat_quietly_bind (sat_mono (payRead_cursorOnly t) fun _ h => h.quietly) fun _ u =>
      sat_quietly_bind (sat_mono (payRead_cursorOnly u) fun _ h => h.quietly) fun _ v => Quietly.refl v

theorem loadCells_quietly (n k : Nat) (s : State) : (loadCells n k s).sat (Quietly s) := by
  induction n generalizing k s with
  | zero => exact Quietly.refl s
  | succ n ih =>
    exact sat_quietly_bind (readCell_quietly s) fun c t => sat_mono (ih (k + 1) _) fun _ h =>
      Quietly.trans (t := { t with roq := { t.roq with cells := t.roq.cells.setIfInBounds k c } })
        ⟨rfl, rfl, rfl, rfl, rfl, rfl, rfl, rfl, rfl, rfl⟩ h

theorem loadQuads_quietly (n k : Nat) (s : State) : (loadQuads n k s).sat (Quietly s) := by
  induction n generalizing k s with
  | zero => exact Quietly.refl s
  | succ n ih =>
    exact sat_quietly_bind (sat_mono (payRead4_cursorOnly s) fun _ h => h.quietly) fun q t => sat_mono (ih (k + 1) _) fun _ h =>
      Quietly.trans (t := { t with roq := { t.roq with quads := (t.roq.quads.setIfInBounds k (Quad.mk q.1 q.2.1 q.2.2.1 q.2.2.2)) } })
        ⟨rfl, rfl, rfl, rfl, rfl, rfl, rfl, rfl, rfl, rfl⟩ h

theorem withAccL_quietly (l : Half) (s : State) : Quietly s { s with roq := { s.roq with accL := l } } :=
  ⟨rfl, rfl, rfl, rfl, rfl, rfl, rfl, rfl, rfl, rfl⟩

theorem withAccs_quietly (l r : Half) (s : State) : Quietly s { s with roq := { s.roq with accL := l, accR := r } } :=
  ⟨rfl, rfl, rfl, rfl, rfl, rfl, rfl, rfl, rfl, rfl⟩

theorem monoLoop_quietly (n : Nat) (s : State) : (monoLoop n s).sat (Quietly s) := by
  induction n generalizing s with
  | zero => exact Quietly.refl s
  | succ n ih =>
    exact sat_quietly_bind (sat_mono (payRead_cursorOnly s) fun _ h => h.quietly) fun b t =>
      sat_quietly_bind (sat_mono (ih _) fun _ h => (withAccL_quietly _ t).trans h) fun _ v => Quietly.refl v

theorem stereoLoop_quietly (n : Nat) (s : State) : (stereoLoop n s).sat (Quietly s) := by
  induction n generalizing s with
  | zero => exact Quietly.refl s
  | succ n ih =>
    exact sat_quietly_bind (sat_mono (payRead_cursorOnly s) fun _ h => h.quietly) fun b t =>
      sat_quietly_bind (sat_mono (payRead_cursorOnly t) fun _ h => h.quietly) fun b u =>
        sat_quietly_bind (sat_mono (ih _) fun _ h => (withAccs_quietly _ _ u).trans h) fun _ v => Quietly.refl v

/-- What the operation of a chunk may change, however it ends. -/
structure OpStep (s t : State) : Prop where
  rest : t = { s with roq := t.roq, ports := t.ports, draws := t.draws }
  payEnd : t.roq.payEnd = s.roq.payEnd
  inv : RoqInv s.roq → RoqInv t.roq
  seen : s.roq.infoSeen = true → t.roq.infoSeen = true
  shown : t.ports.dispValid = true → s.ports.dispValid = true ∨ t.roq.infoSeen = true
  audio : ∃ l, t.ports.audioOut = s.ports.audioOut ++ l ∧ l.length ≤ 1 ∧ (s.ses.flags.silent = true → l = [])

theorem Quietly.opStep {s t : State} (h : Quietly s t) : OpStep s t := by
  have h0 := h.rest
  obtain ⟨a1, a2, a3, a4, a5, a6, a7, a8, a9⟩ := h.fields
  have hp : t.ports = s.ports := by rw [h0]
  refine ⟨by rw [h0], a9, fun hi => ⟨?_, ?_, ?_, ?_⟩, fun hs => a3.trans hs, fun hd => .inl (by rw [← hp]; exact hd),
    ⟨[], by rw [hp, List.append_nil], Nat.zero_le _, fun _ => rfl⟩⟩
  · intro hs
    have := hi.frame (a3.symm.trans hs)
    simp only [RoqUnit.area, a1, a2, a4, a5]
    exact this
  · intro hs
    have := hi.noFrame (a3.symm.trans hs)
    simp only [a1, a2, a4, a5]
    exact this
  · rw [a6, a7]; exact hi.counts
  · rw [a8]; exact hi.reader

/-- What is true of `rest` after a change stays true after a further change of the same fields. -/
theorem rest_of {s v t : State} (h : v = { s with roq := v.roq, ports := v.ports, draws := v.draws })
    (e : t = { v with roq := t.roq, ports := t.ports, draws := t.draws }) :
    t = { s with roq := t.roq, ports := t.ports, draws := t.draws } := by
  cases s; cases v; cases t
  simp only [State.mk.injEq, true_and, and_true] at h e ⊢
  obtain ⟨h1, h2, h3, h4, h5, h6, h7, h8⟩ := h
  obtain ⟨e1, e2, e3, e4, e5, e6, e7, e8⟩ := e
  exact ⟨e1.trans h1, e2.trans h2, e3.trans h3, e4.trans h4, e5.trans h5, e6.trans h6, e7.trans h7, e8.trans h8⟩

theorem Quietly.rest' {s v : State} (h : Quietly s v) : v = { s with roq := v.roq, ports := v.ports, draws := v.draws } := h.opStep.rest

/-- How the operation of a chunk ends: its changes are inside bounds; where it raises, the ports are as before. -/
structure OpEnds (s : State) (m : Run Unit) : Prop where
  sat : m.sat (OpStep s)
  reason : m.reasonOk
  ports : ∀ r t, m = .raised r t → t.ports = s.ports

theorem infoOp_ends (s : State) : OpEnds s (infoOp s) := by
  have key : (infoOp s).sat fun t => OpStep s t ∧ t.ports = s.ports := by
    unfold infoOp
    split
    · exact ⟨(Quietly.refl s).opStep, rfl⟩
    · rename_i hseen
      have hseen' : s.roq.infoSeen = false := by simpa using hseen
      have q : ∀ {t}, Quietly s t → OpStep s t ∧ t.ports = s.ports := fun h => ⟨h.opStep, by rw [h.rest]⟩
      refine sat_bind (P := Quietly s) (sat_mono (payRead16_cursorOnly s) fun _ h => h.quietly) (fun _ h => q h) fun w t ht => ?_
      refine sat_bind (P := Quietly s) (sat_mono (payRead16_cursorOnly t) fun _ h => ht.trans h.quietly) (fun _ h => q h) fun ht' u hu => ?_
      refine sat_bind (P := Quietly s) (sat_mono (payRead4_cursorOnly u) fun _ h => hu.trans h.quietly) (fun _ h => q h) fun _ v hv => ?_
      split
      · exact q hv
      · rename_i hz
        rw [not_or] at hz
        have hlen : ∀ p d b n, (initialBuffer p d b n).length = n := by
          intro p d b n; unfold initialBuffer; split <;> simp
        have hw : w.toNat ≠ 0 := fun h => hz.1 (BitVec.eq_of_toNat_eq h)
        have hh : ht'.toNat ≠ 0 := fun h => hz.2 (BitVec.eq_of_toNat_eq h)
        obtain ⟨a1, a2, a3, a4, a5, a6, a7, a8, a9⟩ := hv.fields
        have hp : v.ports = s.ports := by rw [hv.rest]
        refine ⟨⟨?_, a9, fun hi => ⟨fun _ => ⟨by show 0 < w.toNat; omega, by show 0 < ht'.toNat; omega, hlen _ _ _ _, hlen _ _ _ _⟩,
          fun h => by simp [setInfo] at h, ?_, ?_⟩, fun _ => rfl, fun _ => .inr rfl, ⟨[], ?_, Nat.zero_le _, fun _ => rfl⟩⟩, hp⟩
        · exact rest_of hv.rest' rfl
        · show v.roq.n1Last.toNat ≤ _ ∧ v.roq.n2Last.toNat ≤ _
          rw [a6, a7]; exact hi.counts
        · show v.roq.flgPos.toNat ≤ _
          rw [a8]; exact hi.reader
        · show v.ports.audioOut = _
          rw [hp, List.append_nil]
  exact ⟨sat_mono key fun _ h => h.1, infoOp_reason s, fun r t h => (sat_of_raised key h).2⟩

theorem quietly_ends {s : State} {m : Run Unit} (h : m.sat (Quietly s)) (hr : m.reasonOk) : OpEnds s m :=
  ⟨sat_mono h fun _ k => k.opStep, hr, fun r t he => by rw [(sat_of_raised h he).rest]⟩

theorem codebookN1_le (arg : Half) : codebookN1 arg ≤ 256 := by
  unfold codebookN1
  dsimp only
  split
  · omega
  · have := (arg.extractLsb' 8 8).isLt; omega

theorem codebookN2_le (arg : Half) (size : Word) : codebookN2 arg size ≤ 256 := by
  unfold codebookN2
  dsimp only
  split
  · omega
  · have := (arg.extractLsb' 0 8).isLt; omega

theorem codebookOp_ends (size : Word) (arg : Half) (s : State) : OpEnds s (codebookOp size arg s) := by
  have key : (codebookOp size arg s).sat fun t => OpStep s t ∧ t.ports = s.ports := by
    have q : ∀ {t}, Quietly s t → OpStep s t ∧ t.ports = s.ports := fun h => ⟨h.opStep, by rw [h.rest]⟩
    refine sat_bind (P := Quietly s) (loadCells_quietly _ _ s) (fun _ h => q h) fun _ t ht => ?_
    refine sat_bind (P := Quietly s) (sat_mono (loadQuads_quietly _ _ t) fun _ h => ht.trans h) (fun _ h => q h) fun _ u hu => ?_
    have ho := hu.opStep
    have hp : u.ports = s.ports := by rw [hu.rest]
    refine ⟨⟨?_, ho.payEnd, fun hi => ?_, ho.seen, ho.shown, ho.audio⟩, hp⟩
    · exact rest_of hu.rest' rfl
    · have h1 := ho.inv hi
      refine ⟨h1.frame, h1.noFrame, ?_, h1.reader⟩
      have n1 := codebookN1_le arg
      have n2 := codebookN2_le arg size
      show (BitVec.ofNat 9 (codebookN1 arg)).toNat ≤ 256 ∧ (BitVec.ofNat 9 (codebookN2 arg size)).toNat ≤ 256
      rw [BitVec.toNat_ofNat, BitVec.toNat_ofNat, Nat.mod_eq_of_lt (by omega), Nat.mod_eq_of_lt (by omega)]
      exact ⟨n1, n2⟩
  exact ⟨sat_mono key fun _ h => h.1, codebookOp_reason size arg s, fun r t h => (sat_of_raised key h).2⟩

theorem audioAppend_opStep {s t : State} (h : Quietly s t) (hs : s.ses.flags.silent = false) (channels : Int) (samples : List Half) :
    OpStep s (audioAppend channels samples t) := by
  have ho := h.opStep
  unfold audioAppend
  split
  · exact ho
  · have hp : t.ports = s.ports := by rw [h.rest]
    refine ⟨?_, ho.payEnd, ho.inv, ho.seen, ho.shown, ?_⟩
    · exact rest_of h.rest' rfl
    · refine ⟨[{ rate := t.params.roqAudioRate, width := 2, channels := channels, data := .roqPcm16 samples }], ?_, by simp,
        fun he => by rw [hs] at he; exact Bool.noConfusion he⟩
      show t.ports.audioOut ++ _ = _
      rw [hp]

theorem monoOp_ends (size : Word) (arg : Half) (s : State) : OpEnds s (monoOp size arg s) := by
  unfold monoOp
  split
  · exact quietly_ends (Quietly.refl s) trivial
  · rename_i hs
    have hs' : s.ses.flags.silent = false := by simpa using hs
    have hl := sat_mono (monoLoop_quietly size.toInt.toNat { s with roq := { s.roq with accL := seedMono arg } }) fun _ h =>
      (withAccL_quietly (seedMono arg) s).trans h
    have hr := monoLoop_reason size.toInt.toNat { s with roq := { s.roq with accL := seedMono arg } }
    generalize monoLoop size.toInt.toNat { s with roq := { s.roq with accL := seedMono arg } } = m at hl hr
    cases m with
    | done a t => exact ⟨audioAppend_opStep hl hs' _ _, trivial, fun r t h => by cases h⟩
    | raised r t => exact quietly_ends hl hr
    | broken f => exact quietly_ends trivial trivial
    | refused r => exact quietly_ends trivial trivial

theorem stereoOp_ends (size : Word) (arg : Half) (s : State) : OpEnds s (stereoOp size arg s) := by
  unfold stereoOp
  split
  · exact quietly_ends (Quietly.refl s) trivial
  · rename_i hs
    have hs' : s.ses.flags.silent = false := by simpa using hs
    have hl := sat_mono (stereoLoop_quietly (size.toInt.toNat / 2)
      { s with roq := { s.roq with accL := seedLeft arg, accR := seedRight arg } }) fun _ h =>
      (withAccs_quietly (seedLeft arg) (seedRight arg) s).trans h
    have hr := stereoLoop_reason (size.toInt.toNat / 2) { s with roq := { s.roq with accL := seedLeft arg, accR := seedRight arg } }
    generalize stereoLoop (size.toInt.toNat / 2) { s with roq := { s.roq with accL := seedLeft arg, accR := seedRight arg } } = m
      at hl hr
    cases m with
    | done a t => exact ⟨audioAppend_opStep hl hs' _ _, trivial, fun r t h => by cases h⟩
    | raised r t => exact quietly_ends hl hr
    | broken f => exact quietly_ends trivial trivial
    | refused r => exact quietly_ends trivial trivial

/-- What the macroblock loop may change, as the operation's own. -/
theorem FrameStep.opStep {s t : State} (h : FrameStep s t) (hs : s.roq.infoSeen = true) : OpStep s t := by
  have hu := h.unit
  have h0 := h.state
  have f1 : t.roq.infoSeen = s.roq.infoSeen := by rw [hu]
  have f2 : t.roq.w = s.roq.w := by rw [hu]
  have f3 : t.roq.h = s.roq.h := by rw [hu]
  have hp : t.ports = s.ports := by rw [h0]
  refine ⟨by rw [h0], by rw [hu], fun hi => ⟨fun _ => ?_, fun he => ?_, ?_, h.reader hi.reader⟩, fun _ => f1.trans hs,
    fun hd => .inl (by rw [← hp]; exact hd), ⟨[], by rw [hp, List.append_nil], Nat.zero_le _, fun _ => rfl⟩⟩
  · obtain ⟨w1, w2, w3, w4⟩ := hi.frame hs
    have hh := buffersHold_frameStep h ⟨w3, w4⟩
    rw [f2, f3]
    exact ⟨w1, w2, hh.1, hh.2⟩
  · rw [f1, hs] at he; exact Bool.noConfusion he
  · rw [hu]; exact hi.counts

theorem frameEnd_opStep {s t : State} (h : OpStep s t) (hs : t.roq.infoSeen = true) : OpStep s (frameEnd t) := by
  have hb : ∀ u : RoqUnit, ∀ b px, (u.setBuf b px).infoSeen = u.infoSeen ∧ (u.setBuf b px).payEnd = u.payEnd ∧
      (u.setBuf b px).w = u.w ∧ (u.setBuf b px).h = u.h ∧ (u.setBuf b px).n1Last = u.n1Last ∧
      (u.setBuf b px).n2Last = u.n2Last ∧ (u.setBuf b px).flgPos = u.flgPos := by
    intro u b px; cases b <;> exact ⟨rfl, rfl, rfl, rfl, rfl, rfl, rfl⟩
  have hf : (frameEnd t).roq.infoSeen = t.roq.infoSeen ∧ (frameEnd t).roq.payEnd = t.roq.payEnd ∧
      (frameEnd t).roq.w = t.roq.w ∧ (frameEnd t).roq.h = t.roq.h ∧ (frameEnd t).roq.n1Last = t.roq.n1Last ∧
      (frameEnd t).roq.n2Last = t.roq.n2Last ∧ (frameEnd t).roq.flgPos = t.roq.flgPos := by
    unfold frameEnd
    dsimp only
    split
    · exact hb _ _ _
    · exact ⟨rfl, rfl, rfl, rfl, rfl, rfl, rfl⟩
  obtain ⟨f1, f2, f3, f4, f5, f6, f7⟩ := hf
  have hseen : (frameEnd t).roq.infoSeen = true := f1.trans hs
  refine ⟨?_, f2.trans h.payEnd, fun hi => ?_, fun _ => hseen, fun _ => .inr hseen, h.audio⟩
  · exact rest_of h.rest rfl
  · have h1 := h.inv hi
    obtain ⟨w1, w2, w3, w4⟩ := h1.frame hs
    have hh := frameEnd_hold (s := t) ⟨w3, w4⟩
    refine ⟨fun _ => by rw [f3, f4]; exact ⟨w1, w2, hh.1, hh.2⟩, fun he => ?_, by rw [f5, f6]; exact h1.counts,
      by rw [f7]; exact h1.reader⟩
    rw [hseen] at he
    exact Bool.noConfusion he

theorem vqStart_frame (arg : Half) {s : State} (h : RoqInv s.roq) : RoqInv (vqStart arg s).roq :=
  ⟨h.frame, h.noFrame, h.counts, by show (0 : BitVec 4).toNat ≤ 8; decide⟩

theorem vqOp_ends (arg : Half) (s : State) : OpEnds s (vqOp arg s) := by
  have hreason := vqOp_reason arg s
  unfold vqOp at hreason ⊢
  split
  · exact quietly_ends (Quietly.refl s) (fun h => FaultReason.noConfusion h)
  · rename_i hs
    have hs' : s.roq.infoSeen = true := by simpa using hs
    rw [if_neg hs] at hreason
    have hl := vqLoop_frameStep (macroblocks s.roq) (vqStart arg s)
    generalize vqLoop (macroblocks s.roq) (vqStart arg s) = m at hl hreason
    have conv : ∀ {t}, FrameStep (vqStart arg s) t → OpStep s t := by
      intro t ht
      have h1 := ht.opStep hs'
      exact ⟨rest_of rfl h1.rest, h1.payEnd, fun hi => h1.inv (vqStart_frame arg hi), h1.seen, h1.shown, h1.audio⟩
    cases m with
    | done a t =>
      have ht := conv hl
      exact ⟨frameEnd_opStep ht (ht.seen hs'), trivial, fun r t h => by cases h⟩
    | raised r t =>
      have hp : t.ports = s.ports := by rw [hl.state]; rfl
      exact ⟨conv hl, hreason, fun r' t' h => by cases h; exact hp⟩
    | broken f => exact quietly_ends trivial trivial
    | refused r => exact quietly_ends trivial trivial

end Sys2Proof.Machine
end

