-- ==== Sys2Proof/Laws/PerInstr.lean ====
section
/-! SUPPORT. The families of per-instruction lemmas (LAWS.json). -/

namespace Sys2Proof.Laws.EncodeLength

/-- The header of a unit has the length its place gives it (30_encoding.md R80, R82, R90, R91, R101). -/
def Statement (i : Instr) : Prop := ∀ p : Params, (encode p i).length = Machine.unitBytes i.place

theorem cinHeader (w : Word) (h : Word) (rate : Word) (width : Word) (channels : Word) : Statement (.cinHeader w h rate width channels) := fun _ => rfl
theorem cinFrame : Statement .cinFrame := fun _ => rfl
theorem cinPalframe : Statement .cinPalframe := fun _ => rfl
theorem cinEnd : Statement .cinEnd := fun _ => rfl
theorem cinRsvd (cmd : Word) : Statement (.cinRsvd cmd) := fun _ => rfl
theorem roqHeader (unused : Word) (fps : Half) : Statement (.roqHeader unused fps) := fun _ => rfl
theorem roqInfo (size : Word) (arg : Half) : Statement (.roqInfo size arg) := fun _ => rfl
theorem roqCodebook (size : Word) (arg : Half) : Statement (.roqCodebook size arg) := fun _ => rfl
theorem roqVq (size : Word) (arg : Half) : Statement (.roqVq size arg) := fun _ => rfl
theorem roqSndMono (size : Word) (arg : Half) : Statement (.roqSndMono size arg) := fun _ => rfl
theorem roqSndStereo (size : Word) (arg : Half) : Statement (.roqSndStereo size arg) := fun _ => rfl
theorem roqIdent (size : Word) (arg : Half) : Statement (.roqIdent size arg) := fun _ => rfl
theorem roqOther (id : Half) (size : Word) (arg : Half) : Statement (.roqOther id size arg) := fun _ => rfl
theorem mot8 : Statement .mot8 := fun _ => rfl
theorem fcc8 : Statement .fcc8 := fun _ => rfl
theorem sld8 : Statement .sld8 := fun _ => rfl
theorem mot4 : Statement .mot4 := fun _ => rfl
theorem fcc4 : Statement .fcc4 := fun _ => rfl
theorem sld4 : Statement .sld4 := fun _ => rfl
theorem ccc8 : Statement .ccc8 := fun _ => rfl
theorem ccc4 : Statement .ccc4 := fun _ => rfl

end Sys2Proof.Laws.EncodeLength
end

