-- ==== Sys2Proof/Laws/Reader.lean ====
section
/-! SUPPORT. The codes of a block, a macroblock and a frame complete where reading them does, and leave the code reader where reading
them leaves it (42_roq_vq.md R190 to R203). -/

namespace Sys2Proof.Machine

/-! ### The payload bytes left -/

/-- `s` has this code reader, its window in the stream and its buffers whole. -/
structure Reads (r : CodeReader) (s : State) : Prop where
  reader : codeReader s = r
  hold : buffersHold s
  window : s.roq.payEnd.toNat ≤ s.ses.streamSize.toNat

/-- Bytes that head what is left are in the window, and after them the rest is left. -/
theorem Reads.bytes {r : CodeReader} {s : State} (h : Reads r s) {l rest : List Byte} (hl : l ≠ []) (hr : r.rest = l ++ rest) :
    payloadLeft l.length s ∧ (∀ k (hk : k < l.length), payloadByte s k = l[k]) ∧
      (codeReader (payAdvance l.length s)).rest = rest := by
  have hspan : streamSpan s s.roq.payPos.toNat (s.roq.payEnd.toNat - s.roq.payPos.toNat) = l ++ rest := by
    rw [← hr, ← h.reader]; rfl
  have hlen := congrArg List.length hspan
  rw [streamSpan_length, List.length_append] at hlen
  have hpos := List.length_pos_iff.2 hl
  have hleft : payloadLeft l.length s := ⟨by omega, h.window⟩
  rw [hlen, streamSpan_add] at hspan
  obtain ⟨h1, h2⟩ := List.append_inj hspan (by rw [streamSpan_length])
  refine ⟨hleft, fun k hk => ?_, ?_⟩
  · have he := List.getElem_of_eq h1 (i := k) (by rw [streamSpan_length]; exact hk)
    rw [← he]
    simp [streamSpan, payloadByte]
  · show streamSpan s (payAdvance l.length s).roq.payPos.toNat (s.roq.payEnd.toNat - (payAdvance l.length s).roq.payPos.toNat) = rest
    rw [payAdvance_payPos hleft.1, show s.roq.payEnd.toNat - (s.roq.payPos.toNat + l.length) = rest.length by omega]
    exact h2

/-! ### What reading depends on -/

/-- The parameters, the frame's size, the quad-cells, the counts of the codebook and the means are the ones reading was asked about. -/
structure Under (s0 : State) (meanX meanY : Byte) (s : State) : Prop where
  params : s.params = s0.params
  frame : s.roq.w = s0.roq.w ∧ s.roq.h = s0.roq.h
  book : s.roq.quads = s0.roq.quads ∧ s.roq.n1Last = s0.roq.n1Last ∧ s.roq.n2Last = s0.roq.n2Last
  means : s.roq.meanX = meanX ∧ s.roq.meanY = meanY

theorem Under.codeStep {s0 s t : State} {mx my : Byte} (h : Under s0 mx my s) (hc : CodeStep s t) : Under s0 mx my t := by
  obtain ⟨h1, ⟨h2, h3⟩, ⟨h4, h5, h6⟩, h7, h8⟩ := h
  refine ⟨?_, ⟨?_, ?_⟩, ⟨?_, ?_, ?_⟩, ?_, ?_⟩
  · rw [hc.state]; exact h1
  all_goals rw [hc.unit]; assumption

theorem Under.cellLoaded {s0 s : State} {mx my : Byte} (h : Under s0 mx my s) {i : Byte} (hi : cellLoaded i s0) : cellLoaded i s := by
  intro hc
  rw [h.book.2.1]
  exact hi (by rw [← h.params]; exact hc)

theorem Under.quadLoaded {s0 s : State} {mx my : Byte} (h : Under s0 mx my s) {q : Byte} (hq : quadLoaded q s0) : quadLoaded q s := by
  obtain ⟨h0, h1, h2, h3, h4⟩ := hq
  rw [← h.book.1] at h1 h2 h3 h4
  refine ⟨fun hc => ?_, h.cellLoaded h1, h.cellLoaded h2, h.cellLoaded h3, h.cellLoaded h4⟩
  rw [h.book.2.2]
  exact h0 (by rw [← h.params]; exact hc)

/-! ### One code -/

/-- A piece went on to where reading it ends, and painted inside the region. -/
structure ReadTo (r : CodeReader) (R : Nat → Nat → Prop) (s t : State) : Prop where
  step : CodeStep s t
  reads : Reads r t
  outside : Outside R s t

theorem ReadTo.refl {r : CodeReader} {s : State} (h : Reads r s) (R : Nat → Nat → Prop) : ReadTo r R s s :=
  ⟨.refl s, h, fun _ _ _ _ => rfl⟩

theorem ReadTo.trans {r r' : CodeReader} {R : Nat → Nat → Prop} {s t u : State} (h : ReadTo r R s t) (k : ReadTo r' R t u) :
    ReadTo r' R s u where
  step := h.step.trans k.step
  reads := k.reads
  outside := by
    intro x y hxy hr
    have hf : inFrame t.roq x y := by rw [h.step.unit]; exact hxy
    have := k.outside x y hf hr
    rw [h.step.wsel] at this
    rw [this, h.outside x y hxy hr]

theorem ReadTo.widen {r : CodeReader} {R R' : Nat → Nat → Prop} {s t : State} (h : ReadTo r R s t) (hR : ∀ x y, R x y → R' x y) :
    ReadTo r R' s t :=
  ⟨h.step, h.reads, fun x y hxy hr => h.outside x y hxy fun h' => hr (hR x y h')⟩

/-- Pieces read one after another. -/
theorem readTo_bind {r r' : CodeReader} {R : Nat → Nat → Prop} {s : State} {m : Run Unit} {k : State → Run Unit}
    (hm : m.completes fun _ t => ReadTo r R s t) (hk : ∀ t, CodeStep s t → Reads r t → (k t).completes fun _ u => ReadTo r' R t u) :
    (m.bind fun _ t => k t).completes fun _ u => ReadTo r' R s u :=
  completes_bind hm fun _ t ht => completes_mono (hk t ht.step ht.reads) fun _ _ hu => ht.trans hu

/-- The code reader answers the code that reading takes (42_roq_vq.md R191). -/
theorem nextCode_reads {r r' : CodeReader} {c : BitVec 2} {s : State} (h : r.take = some (c, r')) (hr : Reads r s) :
    (nextCode s).completes fun c' t => c' = c ∧ ReadTo r' (fun _ _ => False) s t := by
  have hstep := nextCode_codeStep s
  obtain ⟨word, left, rest⟩ := r
  have hword : s.roq.flg = word := congrArg CodeReader.word hr.reader
  have hleft : s.roq.flgPos.toNat = left := congrArg CodeReader.left hr.reader
  cases left with
  | succ n =>
    have hne : s.roq.flgPos ≠ 0 := fun h0 => by rw [h0] at hleft; exact absurd hleft (by simp)
    have hpred := flgPos_pred hne
    rw [nextCode_of_codes hne] at hstep ⊢
    simp only [CodeReader.take, Option.some.injEq, Prod.mk.injEq] at h
    obtain ⟨rfl, rfl⟩ := h
    refine ⟨?_, hstep, ⟨?_, hr.hold, hr.window⟩, Outside.of_same _ (fun b => by cases b <;> rfl) rfl⟩
    · rw [flagCode, hword, hleft, show 2 * (n + 1) - 2 = 2 * n by omega]
    · show CodeReader.mk s.roq.flg (s.roq.flgPos - 1).toNat _ = _
      rw [hword, show (s.roq.flgPos - 1).toNat = n by omega]
      exact congrArg (CodeReader.mk word n) (congrArg CodeReader.rest hr.reader)
  | zero =>
    have h0 : s.roq.flgPos = 0 := BitVec.eq_of_toNat_eq hleft
    match rest, h with
    | lo :: hi :: rest, h =>
      obtain ⟨b1, b2, b3⟩ := hr.bytes (l := [lo, hi]) (rest := rest) (by simp) rfl
      have e0 : payloadByte s 0 = lo := b2 0 (by simp)
      have e1 : payloadByte s 1 = hi := b2 1 (by simp)
      rw [nextCode_of_empty h0 b1] at hstep ⊢
      simp only [CodeReader.take, Option.some.injEq, Prod.mk.injEq] at h
      obtain ⟨rfl, rfl⟩ := h
      have hcode : flagCode (le16 lo hi) 8 = hi.extractLsb' 6 2 := by
        unfold flagCode le16
        rw [show 2 * (8 : BitVec 4).toNat - 2 = 14 from rfl]
        ext i hi2
        rw [BitVec.getElem_extractLsb', BitVec.getElem_extractLsb', BitVec.getLsbD_append]
        rw [if_neg (by omega), show 14 + i - 8 = 6 + i by omega]
      refine ⟨by rw [e0, e1]; exact hcode, hstep, ⟨?_, hr.hold, hr.window⟩, Outside.of_same _ (fun b => by cases b <;> rfl) rfl⟩
      show CodeReader.mk (le16 (payloadByte s 0) (payloadByte s 1)) 7 _ = _
      rw [e0, e1]
      exact congrArg (CodeReader.mk (hi ++ lo) 7) b3

/-- Pixels painted inside a region after operand bytes. -/
theorem Paints.readTo {r : CodeReader} {R : Nat → Nat → Prop} {f : Nat → Nat → Option Pixel} {s t : State} (h : Reads r s)
    {l rest : List Byte} (hl : l ≠ []) (hr : r.rest = l ++ rest) (hc : CodeStep s t) (hp : Paints f (payAdvance l.length s) t)
    (hf : ∀ x y, ¬ R x y → f x y = Option.none) : ReadTo { r with rest := rest } R s t where
  step := hc
  reads := by
    obtain ⟨-, -, h3⟩ := h.bytes hl hr
    refine ⟨?_, hp.hold, by rw [hc.state, hc.unit]; exact h.window⟩
    have key : codeReader t = codeReader (payAdvance l.length s) := by rw [hp.frame]; rfl
    rw [key]
    have hw : s.roq.flg = r.word := congrArg CodeReader.word h.reader
    have hn : s.roq.flgPos.toNat = r.left := congrArg CodeReader.left h.reader
    show CodeReader.mk s.roq.flg s.roq.flgPos.toNat (codeReader (payAdvance l.length s)).rest = _
    rw [h3, hw, hn]
  outside := by
    intro x y hxy hn
    have := hp.pixel x y hxy
    rw [hf x y hn, Option.none_or] at this
    exact this

/-- What a piece needs to go on, its bytes read and its pixels painted. -/
theorem readTo_of_done {r : CodeReader} {R : Nat → Nat → Prop} {s : State} {m : Run Unit} (hm : m.sat (CodeStep s))
    (h : ∃ t, m = .done () t ∧ (CodeStep s t → ReadTo r R s t)) : m.completes fun _ t => ReadTo r R s t := by
  obtain ⟨t, ht, hs⟩ := h
  subst ht
  exact hs hm

theorem fccBlock_reads {s0 s : State} {mx my : Byte} {r : CodeReader} {n : Nat} {b : Byte} {rest : List Byte}
    (hu : Under s0 mx my s) (hr : Reads r s) (hb : r.rest = b :: rest) (hc : copyStays s0.roq mx my n (blkX s) (blkY s) b) :
    (fccBlock n s).completes fun _ t => ReadTo { r with rest := rest } (inBlock (blkX s) (blkY s) n) s t := by
  obtain ⟨h1, h2, -⟩ := hr.bytes (l := [b]) (rest := rest) (by simp) hb
  have e0 : payloadByte s 0 = b := h2 0 (by simp)
  have hin : ∀ x y, inFrame s.roq x y → inBlock (blkX s) (blkY s) n x y →
      sourceInFrame s.roq (motionX s.roq.meanX b) (motionY s.roq.meanY b) x y := by
    rintro x y ⟨hx, hy⟩ ⟨x1, x2, y1, y2⟩
    have := hc (x - blkX s) (by omega) (y - blkY s) (by omega)
    rw [Nat.add_sub_cancel' x1, Nat.add_sub_cancel' y1] at this
    unfold sourceInFrame at *
    rw [hu.frame.1, hu.frame.2, hu.means.1, hu.means.2]
    exact this ⟨by rw [← hu.frame.1]; exact hx, by rw [← hu.frame.2]; exact hy⟩
  obtain ⟨t, ht, hp⟩ := motionCopy_paints (s := payAdvance 1 s) (px := blkX s) (py := blkY s) (n := n)
    (mx := motionX s.roq.meanX b) (my := motionY s.roq.meanY b) hr.hold hin
  refine readTo_of_done (fccBlock_codeStep n s) ⟨t, ?_, fun hcs => Paints.readTo hr (l := [b]) (by simp) hb hcs hp
    fun x y hn => if_neg hn⟩
  rw [fccBlock, payRead_of_left h1, bind_done, e0]
  exact ht

theorem sld8_reads {s0 s : State} {mx my : Byte} {r : CodeReader} {q : Byte} {rest : List Byte} (hu : Under s0 mx my s)
    (hr : Reads r s) (hb : r.rest = q :: rest) (hq : quadLoaded q s0) :
    (sld8 s).completes fun _ t => ReadTo { r with rest := rest } (inBlock (blkX s) (blkY s) 8) s t := by
  obtain ⟨h1, h2, -⟩ := hr.bytes (l := [q]) (rest := rest) (by simp) hb
  have e0 : payloadByte s 0 = q := h2 0 (by simp)
  obtain ⟨l0, l1, l2, l3, l4⟩ := hu.quadLoaded hq
  obtain ⟨t, ht, hp⟩ := drawFourX2_paints (s := payAdvance 1 s) hr.hold (blkX s) (blkY s) (at8 s.roq.quads q) l1 l2 l3 l4
  refine readTo_of_done (sld8_codeStep s) ⟨t, ?_, fun hcs => Paints.readTo hr (l := [q]) (by simp) hb hcs hp
    fun x y hn => if_neg hn⟩
  rw [sld8, payRead_of_left h1, bind_done, e0, quadAt_of_loaded (s := payAdvance 1 s) l0, bind_done]
  exact ht

theorem sld4_reads {s0 s : State} {mx my : Byte} {r : CodeReader} {q : Byte} {rest : List Byte} (hu : Under s0 mx my s)
    (hr : Reads r s) (hb : r.rest = q :: rest) (hq : quadLoaded q s0) :
    (sld4 s).completes fun _ t => ReadTo { r with rest := rest } (inBlock (blkX s) (blkY s) 4) s t := by
  obtain ⟨h1, h2, -⟩ := hr.bytes (l := [q]) (rest := rest) (by simp) hb
  have e0 : payloadByte s 0 = q := h2 0 (by simp)
  obtain ⟨l0, l1, l2, l3, l4⟩ := hu.quadLoaded hq
  obtain ⟨t, ht, hp⟩ := drawFour_paints (s := payAdvance 1 s) hr.hold (blkX s) (blkY s) (at8 s.roq.quads q) l1 l2 l3 l4
  refine readTo_of_done (sld4_codeStep s) ⟨t, ?_, fun hcs => Paints.readTo hr (l := [q]) (by simp) hb hcs hp
    fun x y hn => if_neg hn⟩
  rw [sld4, payRead_of_left h1, bind_done, e0, quadAt_of_loaded (s := payAdvance 1 s) l0, bind_done]
  exact ht

theorem ccc4_reads {s0 s : State} {mx my : Byte} {r : CodeReader} {c0 c1 c2 c3 : Byte} {rest : List Byte} (hu : Under s0 mx my s)
    (hr : Reads r s) (hb : r.rest = c0 :: c1 :: c2 :: c3 :: rest) (h0 : cellLoaded c0 s0) (h1 : cellLoaded c1 s0)
    (h2 : cellLoaded c2 s0) (h3 : cellLoaded c3 s0) :
    (ccc4 s).completes fun _ t => ReadTo { r with rest := rest } (inBlock (blkX s) (blkY s) 4) s t := by
  obtain ⟨b1, b2, -⟩ := hr.bytes (l := [c0, c1, c2, c3]) (rest := rest) (by simp) hb
  have e0 : payloadByte s 0 = c0 := b2 0 (by simp)
  have e1 : payloadByte s 1 = c1 := b2 1 (by simp)
  have e2 : payloadByte s 2 = c2 := b2 2 (by simp)
  have e3 : payloadByte s 3 = c3 := b2 3 (by simp)
  obtain ⟨t, ht, hp⟩ := drawFour_paints (s := payAdvance 4 s) hr.hold (blkX s) (blkY s) { c0 := c0, c1 := c1, c2 := c2, c3 := c3 }
    (hu.cellLoaded h0) (hu.cellLoaded h1) (hu.cellLoaded h2) (hu.cellLoaded h3)
  refine readTo_of_done (ccc4_codeStep s) ⟨t, ?_, fun hcs => Paints.readTo hr (l := [c0, c1, c2, c3]) (by simp) hb hcs hp
    fun x y hn => if_neg hn⟩
  rw [ccc4, payRead4_of_left b1, bind_done, e0, e1, e2, e3]
  exact ht

/-! ### Blocks -/

/-- The code of the block at (x, y), taken where reading takes it. -/
theorem blockCode_reads {s0 s : State} {mx my : Byte} {x y : Nat} {r r' : CodeReader} {c : BitVec 2} (hx : x < 2 ^ 32) (hy : y < 2 ^ 32)
    (h : r.take = some (c, r')) (hu : Under s0 mx my s) (hr : Reads r s) :
    ∃ t, nextCode (atBlock x y s) = .done c t ∧ ReadTo r' (fun _ _ => False) s t ∧ Under s0 mx my t ∧ blkX t = x ∧ blkY t = y := by
  have hr' : Reads r (atBlock x y s) := ⟨hr.reader, hr.hold, hr.window⟩
  obtain ⟨c', t, ht, rfl, hs⟩ := completes_iff.1 (nextCode_reads h hr')
  have hblk := nextCode_block ht
  have hst : CodeStep s t := (atBlock_codeStep x y s).trans hs.step
  refine ⟨t, ht, ⟨hst, hs.reads, hs.outside⟩, hu.codeStep hst, ?_, ?_⟩
  · rw [hblk.1]; simp only [blkX, atBlock_roq, BitVec.toNat_ofNat]; exact Nat.mod_eq_of_lt hx
  · rw [hblk.2]; simp only [blkY, atBlock_roq, BitVec.toNat_ofNat]; exact Nat.mod_eq_of_lt hy

/-- BLOCK4 completes where reading it does (42_roq_vq.md R203). -/
theorem block4_reads {s0 s : State} {mx my : Byte} {x y : Nat} {r r' : CodeReader} (hx : x < 2 ^ 32) (hy : y < 2 ^ 32)
    (h : readBlock4 s0 mx my x y r = some r') (hu : Under s0 mx my s) (hr : Reads r s) :
    (block4 x y s).completes fun _ t => ReadTo r' (inBlock x y 4) s t := by
  obtain ⟨⟨c, r1⟩, htake, h⟩ := Option.bind_eq_some_iff.1 h
  obtain ⟨t, ht, hs, hut, hbx, hby⟩ := blockCode_reads hx hy htake hu hr
  have hs' : ReadTo r1 (inBlock x y 4) s t := hs.widen fun _ _ hf => hf.elim
  rw [block4, ht, bind_done, hut.params]
  dsimp only at h
  split at h
  · rename_i hk
    cases h
    rw [hk]
    exact hs'.trans (.refl hs.reads _)
  · rename_i hk hrest
    rw [hk]
    split at h
    · rename_i hc
      cases h
      have := fccBlock_reads hut hs.reads hrest (n := 4) (by rw [hbx, hby]; exact hc)
      rw [hbx, hby] at this
      exact completes_mono this fun _ _ hu => hs'.trans hu
    · cases h
  · rename_i hk hrest
    rw [hk]
    split at h
    · rename_i hq
      cases h
      have := sld4_reads hut hs.reads hrest hq
      rw [hbx, hby] at this
      exact completes_mono this fun _ _ hu => hs'.trans hu
    · cases h
  · rename_i hk hrest
    rw [hk]
    split at h
    · rename_i hq
      cases h
      have := ccc4_reads hut hs.reads hrest hq.1 hq.2.1 hq.2.2.1 hq.2.2.2
      rw [hbx, hby] at this
      exact completes_mono this fun _ _ hu => hs'.trans hu
    · cases h
  · cases h

/-- Four 4×4 blocks complete where reading them does (42_roq_vq.md R198). -/
theorem subdivide_reads {s0 s : State} {mx my : Byte} {x y : Nat} {r r' : CodeReader} (hx : x + 4 < 2 ^ 32) (hy : y + 4 < 2 ^ 32)
    (h : readQuarters s0 mx my x y r = some r') (hu : Under s0 mx my s) (hr : Reads r s) :
    (subdivide x y s).completes fun _ t => ReadTo r' (inBlock x y 8) s t := by
  obtain ⟨r1, h1, h⟩ := Option.bind_eq_some_iff.1 h
  obtain ⟨r2, h2, h⟩ := Option.bind_eq_some_iff.1 h
  obtain ⟨r3, h3, h4⟩ := Option.bind_eq_some_iff.1 h
  have sub : ∀ {a b : Nat} {q q' : CodeReader} {u : State}, (a = x ∨ a = x + 4) → (b = y ∨ b = y + 4) →
      readBlock4 s0 mx my a b q = some q' → Under s0 mx my u → Reads q u →
      (block4 a b u).completes fun _ t => ReadTo q' (inBlock x y 8) u t := by
    intro a b q q' u ha hb hq huu hru
    refine completes_mono (block4_reads (by omega) (by omega) hq huu hru) fun _ t ht => ht.widen ?_
    rintro p q ⟨_, _, _, _⟩
    refine ⟨?_, ?_, ?_, ?_⟩ <;> omega
  exact readTo_bind (sub (.inl rfl) (.inl rfl) h1 hu hr) fun t c1 q1 =>
    readTo_bind (sub (.inr rfl) (.inl rfl) h2 (hu.codeStep c1) q1) fun v c2 q2 =>
      readTo_bind (sub (.inl rfl) (.inr rfl) h3 ((hu.codeStep c1).codeStep c2) q2) fun w c3 q3 =>
        sub (.inr rfl) (.inr rfl) h4 (((hu.codeStep c1).codeStep c2).codeStep c3) q3

/-- BLOCK8 completes where reading it does (42_roq_vq.md R203). -/
theorem block8_reads {s0 s : State} {mx my : Byte} {x y : Nat} {r r' : CodeReader} (hx : x + 4 < 2 ^ 32) (hy : y + 4 < 2 ^ 32)
    (h : readBlock8 s0 mx my x y r = some r') (hu : Under s0 mx my s) (hr : Reads r s) :
    (block8 x y s).completes fun _ t => ReadTo r' (inBlock x y 8) s t := by
  obtain ⟨⟨c, r1⟩, htake, h⟩ := Option.bind_eq_some_iff.1 h
  obtain ⟨t, ht, hs, hut, hbx, hby⟩ := blockCode_reads (x := x) (y := y) (by omega) (by omega) htake hu hr
  have hs' : ReadTo r1 (inBlock x y 8) s t := hs.widen fun _ _ hf => hf.elim
  rw [block8, ht, bind_done, hut.params]
  dsimp only at h
  split at h
  · rename_i hk
    cases h
    rw [hk]
    exact hs'.trans (.refl hs.reads _)
  · rename_i hk hrest
    rw [hk]
    split at h
    · rename_i hc
      cases h
      have := fccBlock_reads hut hs.reads hrest (n := 8) (by rw [hbx, hby]; exact hc)
      rw [hbx, hby] at this
      exact completes_mono this fun _ _ hu => hs'.trans hu
    · cases h
  · rename_i hk hrest
    rw [hk]
    split at h
    · rename_i hq
      cases h
      have := sld8_reads hut hs.reads hrest hq
      rw [hbx, hby] at this
      exact completes_mono this fun _ _ hu => hs'.trans hu
    · cases h
  · rename_i hk
    rw [hk]
    have := subdivide_reads hx hy h hut hs.reads
    show (ccc8 t).completes _
    rw [ccc8, hbx, hby]
    exact completes_mono this fun _ _ hu => hs'.trans hu
  · cases h

/-! ### Frames -/

/-- The macroblocks at listed origins complete where reading them does (42_roq_vq.md R190). -/
theorem runMacroblocks_reads {s0 : State} {mx my : Byte} (l : List (Nat × Nat)) {s : State} {r r' : CodeReader}
    (hl : ∀ o ∈ l, o.1 + 16 < 2 ^ 32 ∧ o.2 + 16 < 2 ^ 32) (h : readMacroblocks s0 mx my l r = some r') (hu : Under s0 mx my s)
    (hr : Reads r s) : (runMacroblocks l s).completes fun _ t => Reads r' t := by
  induction l generalizing s r with
  | nil => cases h; exact hr
  | cons o l ih =>
    obtain ⟨r1, h1, h⟩ := Option.bind_eq_some_iff.1 h
    obtain ⟨r2, h2, h⟩ := Option.bind_eq_some_iff.1 h
    obtain ⟨r3, h3, h⟩ := Option.bind_eq_some_iff.1 h
    obtain ⟨r4, h4, h⟩ := Option.bind_eq_some_iff.1 h
    obtain ⟨ho1, ho2⟩ := hl o List.mem_cons_self
    have hx : (atOrigin o.1 o.2 s).roq.xp.toNat = o.1 := by
      simp only [atOrigin, BitVec.toNat_ofNat]; exact Nat.mod_eq_of_lt (by omega)
    have hy : (atOrigin o.1 o.2 s).roq.yp.toNat = o.2 := by
      simp only [atOrigin, BitVec.toNat_ofNat]; exact Nat.mod_eq_of_lt (by omega)
    have hu' : Under s0 mx my (atOrigin o.1 o.2 s) := ⟨hu.params, hu.frame, hu.book, hu.means⟩
    have hr' : Reads r (atOrigin o.1 o.2 s) := ⟨hr.reader, hr.hold, hr.window⟩
    have sub : ∀ {a b : Nat} {q q' : CodeReader} {u : State}, a + 4 < 2 ^ 32 → b + 4 < 2 ^ 32 →
        readBlock8 s0 mx my a b q = some q' → Under s0 mx my u → Reads q u →
        (block8 a b u).completes fun _ t => ReadTo q' (fun _ _ => True) u t := fun ha hb hq huu hru =>
      completes_mono (block8_reads ha hb hq huu hru) fun _ t ht => ht.widen fun _ _ _ => trivial
    have hmb : (macroblock (atOrigin o.1 o.2 s)).completes fun _ t => ReadTo r4 (fun _ _ => True) (atOrigin o.1 o.2 s) t := by
      unfold macroblock
      dsimp only
      rw [hx, hy]
      exact readTo_bind (sub (by omega) (by omega) h1 hu' hr') fun t c1 q1 =>
        readTo_bind (sub (by omega) (by omega) h2 (hu'.codeStep c1) q1) fun v c2 q2 =>
          readTo_bind (sub (by omega) (by omega) h3 ((hu'.codeStep c1).codeStep c2) q2) fun w c3 q3 =>
            sub (by omega) (by omega) h4 (((hu'.codeStep c1).codeStep c2).codeStep c3) q3
    rw [runMacroblocks_cons]
    exact completes_bind hmb fun _ t ht =>
      ih (fun o' ho' => hl o' (List.mem_cons_of_mem _ ho')) h (hu'.codeStep ht.step) ht.reads

end Sys2Proof.Machine
end

