-- ==== Sys2Proof/Laws/Records.lean ====
section
/-! SUPPORT. What a CIN record may change, and how one can end (40_huffman.md R126 to R138; 60_exceptions.md R283, R284). -/

namespace Sys2Proof.Machine

/-! ### The decompression loop -/

/-- Nothing but the index buffer's entries and the working registers has changed (40_huffman.md R126, R127). -/
structure HufStep (s t : State) : Prop where
  rest : t = { s with cin := { s.cin with idxBuf := t.cin.idxBuf }, huf := t.huf }
  length : t.cin.idxBuf.length = s.cin.idxBuf.length

theorem HufStep.refl (s : State) : HufStep s s := ⟨rfl, rfl⟩

theorem HufStep.trans {s t u : State} (h : HufStep s t) (k : HufStep t u) : HufStep s u :=
  ⟨by rw [k.rest, h.rest], k.length.trans h.length⟩

/-- A change of the working registers alone. -/
theorem HufStep.regs (s : State) (g : HufRegs) : HufStep s { s with huf := g } := ⟨rfl, rfl⟩

theorem hufEmit_step (n : Byte) (s : State) : HufStep s (hufEmit n s) := by
  unfold hufEmit
  dsimp only
  split
  · exact ⟨rfl, by show (s.cin.idxBuf.set _ _).length = _; rw [List.length_set]⟩
  · exact ⟨rfl, rfl⟩

theorem hufLeaf_step (s : State) : HufStep s (hufLeaf s) := by
  unfold hufLeaf
  split
  · dsimp only
    split
    · exact (hufEmit_step _ s).trans (HufStep.regs _ _)
    · exact ((hufEmit_step _ s).trans (HufStep.regs _ _)).trans (HufStep.regs _ _)
  · exact HufStep.refl s

theorem hufBit_step {fin : Nat} {s u : State} {b : Bool} (h : hufBit fin s = some (b, u)) : HufStep s u := by
  unfold hufBit at h
  simp only [Option.map_eq_some_iff, Prod.mk.injEq] at h
  obtain ⟨v, hv, -, rfl⟩ := h
  refine HufStep.trans (t := v) ?_ (HufStep.regs _ _)
  split at hv
  · split at hv
    · cases hv
    · cases hv; exact HufStep.regs _ _
  · cases hv; exact HufStep.refl s

theorem hufChild_step (b : Bool) (s : State) : (hufChild b s).sat (HufStep s) := by
  unfold hufChild
  split
  · split
    · exact HufStep.refl s
    · exact HufStep.regs _ _
  · split
    · exact HufStep.regs _ _
    · trivial

theorem hufLoop_step (fin fuel : Nat) (s : State) : (hufLoop fin fuel s).sat (HufStep s) := by
  induction fuel generalizing s with
  | zero => trivial
  | succ fuel ih =>
    rw [hufLoop]
    split
    · exact HufStep.refl s
    · dsimp only
      split
      · exact hufLeaf_step s
      · split
        · exact hufLeaf_step s
        · rename_i hb
          have h1 := (hufLeaf_step s).trans (hufBit_step hb)
          exact sat_bind (P := HufStep s) (sat_mono (hufChild_step _ _) fun _ h => h1.trans h) (fun _ h => h)
            fun _ t ht => sat_mono (ih t) fun _ h => ht.trans h

theorem hufLoop_reason (fin fuel : Nat) (s : State) : (hufLoop fin fuel s).reasonOk := by
  induction fuel generalizing s with
  | zero => trivial
  | succ fuel ih =>
    rw [hufLoop]
    refine reasonOk_ite trivial (reasonOk_ite trivial ?_)
    split
    · trivial
    · refine reasonOk_bind ?_ fun _ t => ih t
      unfold hufChild
      split
      · split
        · exact fun h => FaultReason.noConfusion h
        · trivial
      · split <;> trivial

/-- In a built forest the node never leaves the tree of its context (40_huffman.md R140). -/
def nodeIn (s : State) : Prop := s.huf.node.toNat ≤ (at8 s.cin.root s.huf.ctx).toNat

theorem hufLeaf_nodeIn {s : State} (h : nodeIn s) : nodeIn (hufLeaf s) ∨ (hufLeaf s).huf.pixRemain = 0 := by
  unfold hufLeaf
  split
  · dsimp only
    split
    · exact .inr (by assumption)
    · exact .inl (Nat.le_refl _)
  · exact .inl h

theorem hufLeaf_bits (s : State) : (hufLeaf s).huf.inPos = s.huf.inPos ∧ (hufLeaf s).huf.bitsLeft = s.huf.bitsLeft := by
  unfold hufLeaf hufEmit
  split
  · dsimp only
    split <;> split <;> exact ⟨rfl, rfl⟩
  · exact ⟨rfl, rfl⟩

/-- The loop of a payload inside the address space ends within its bound, in a built forest (70_reset_and_hazards.md R323). -/
theorem hufLoop_total {fin fuel : Nat} {s : State} (hfin : fin < 2 ^ 32) (hfuel : (pendingBits fin s).length < fuel)
    (hin : s.huf.inPos.toNat ≤ fin) (hleft : s.huf.bitsLeft.toNat ≤ 8) (hf : forestOk s.cin) (hn : nodeIn s) :
    (hufLoop fin fuel s).total := by
  induction fuel generalizing s with
  | zero => omega
  | succ fuel ih =>
    rw [hufLoop]
    split
    · trivial
    · dsimp only
      split
      · trivial
      · rename_i hr
        have hn1 := (hufLeaf_nodeIn hn).resolve_right hr
        obtain ⟨e1, e2⟩ := hufLeaf_bits s
        have hs := hufLeaf_step s
        have hlen : (pendingBits fin (hufLeaf s)).length = (pendingBits fin s).length := by
          rw [pendingBits_length, pendingBits_length, e1, e2]
        have hf1 : forestOk (hufLeaf s).cin := by rw [hs.rest]; exact hf
        generalize hufLeaf s = v at hn1 e1 e2 hlen hf1
        split
        · trivial
        · rename_i bit u hb
          cases hp : pendingBits fin v with
          | nil => rw [hufBit_none hp (by rw [e1]; exact hin)] at hb; cases hb
          | cons b bits =>
            obtain ⟨u', hu', ht⟩ := hufBit_some hp (by rw [e1]; exact hin) hfin (by rw [e2]; exact hleft)
            rw [hb, Option.some.injEq, Prod.mk.injEq] at hu'
            obtain ⟨rfl, rfl⟩ := hu'
            have hbh := ht.huf
            have c1 : u.cin = v.cin := by rw [hbh]
            have c2 : u.huf.node = v.huf.node := by rw [hbh]
            have c3 : u.huf.ctx = v.huf.ctx := by rw [hbh]
            have hlu : (pendingBits fin u).length < fuel := by
              rw [ht.pending]; rw [hp, List.length_cons] at hlen; omega
            have hnu : u.huf.node.toNat ≤ (at8 u.cin.root u.huf.ctx).toNat := by rw [c1, c2, c3]; exact hn1
            have hfu : forestOk u.cin := by rw [c1]; exact hf1
            have h8 : u.huf.bitsLeft.toNat ≤ 8 := by have := ht.left; omega
            unfold hufChild
            split
            · split
              · trivial
              · refine ih (s := { u with huf := { u.huf with node := 0 } }) hlu ht.inPos h8 hfu ?_
                show (0 : NodeIx).toNat ≤ _
                rw [show (0 : NodeIx).toNat = 0 from rfl]; exact Nat.zero_le _
            · rename_i hge
              have g2 := (hfu u.huf.ctx).2.1
              have g3 := (hfu u.huf.ctx).2.2
              have hk : u.huf.node.toNat - 256 < 255 := by omega
              rw [Vector.getElem?_eq_getElem hk]
              have hg := g3 (u.huf.node.toNat - 256) hk (by omega)
              refine ih hlu ht.inPos h8 hfu ?_
              have hb1 : 256 + (u.huf.node.toNat - 256) ≤ (at8 u.cin.root u.huf.ctx).toNat := by omega
              show (if bit = true then _ else _ : NodeIx).toNat ≤ (at8 u.cin.root u.huf.ctx).toNat
              split
              · exact le_trans hg.2.le hb1
              · exact le_trans hg.1.le hb1

/-! ### A record -/

/-- What a CIN record may change, however it ends. -/
structure CinStep (s t : State) : Prop where
  rest : t = { s with cin := t.cin, huf := t.huf, ses := t.ses, ports := t.ports, draws := t.draws }
  unit : t.cin = { s.cin with palette := t.cin.palette, idxBuf := t.cin.idxBuf, fb := t.cin.fb }
  session : t.ses = { s.ses with
    offset := t.ses.offset, stepCount := t.ses.stepCount, result := t.ses.result, diag := t.ses.diag }
  index : t.cin.idxBuf.length = s.cin.idxBuf.length
  frame : t.cin.fb = s.cin.fb ∨ t.cin.fb.length = s.cin.idxBuf.length
  bits : s.huf.bitsLeft.toNat ≤ 8 → t.huf.bitsLeft.toNat ≤ 8
  audio : ∃ l, t.ports.audioOut = s.ports.audioOut ++ l ∧ l.length ≤ 1 ∧ (s.ses.flags.silent = true → l = [])

/-- The stream has been played to its end, or the record has been decoded and OFFSET is past its command. -/
def CinStop (r : Nat) (s t : State) : Prop :=
  t.ses = afterEnd s ∨
    (t.ses = { s.ses with
        offset := t.ses.offset, stepCount := s.ses.stepCount + 1, result := .continue_, diag := t.ses.diag } ∧
      (t.ses.offset = s.ses.streamSize ∨
        (0 ≤ audioBytes s.cin → r < t.ses.offset.toNat ∧ t.ses.offset.toNat ≤ s.ses.streamSize.toNat)))

/-- How the operation of a CIN record with its fields from `r` on ends. -/
structure CinEnds (r : Nat) (s : State) (m : Run Unit) : Prop where
  sat : m.sat (CinStep s)
  reason : m.reasonOk
  done : ∀ t, m = .done () t → CinStop r s t
  raised : ∀ q t, m = .raised q t → t.ses = s.ses ∧ t.ports = s.ports

theorem CinStep.refl (s : State) : CinStep s s :=
  ⟨rfl, rfl, rfl, rfl, .inl rfl, id, ⟨[], by rw [List.append_nil], Nat.zero_le _, fun _ => rfl⟩⟩

theorem cin_rest_of {s v t : State} (h : v = { s with cin := v.cin, huf := v.huf, ses := v.ses, ports := v.ports, draws := v.draws })
    (e : t = { v with cin := t.cin, huf := t.huf, ses := t.ses, ports := t.ports, draws := t.draws }) :
    t = { s with cin := t.cin, huf := t.huf, ses := t.ses, ports := t.ports, draws := t.draws } := by
  cases s; cases v; cases t
  simp only [State.mk.injEq, true_and, and_true] at h e ⊢
  obtain ⟨h1, h2, h3, h4, h5, h6⟩ := h
  obtain ⟨e1, e2, e3, e4, e5, e6⟩ := e
  exact ⟨e1.trans h1, e2.trans h2, e3.trans h3, e4.trans h4, e5.trans h5, e6.trans h6⟩

/-- The session's own fields of a record move, nothing else. -/
theorem CinStep.setSession {s t : State} (h : CinStep s t) (g : Session)
    (hg : g = { t.ses with offset := g.offset, stepCount := g.stepCount, result := g.result, diag := g.diag }) :
    CinStep s { t with ses := g } := by
  refine ⟨cin_rest_of h.rest rfl, h.unit, ?_, h.index, h.frame, h.bits, h.audio⟩
  show g = { s.ses with offset := g.offset, stepCount := g.stepCount, result := g.result, diag := g.diag }
  rw [hg, h.session]

/-- An audio record is appended, where the sound is not silent. -/
theorem CinStep.sound {s t : State} (h : CinStep s t) (hp : t.ports.audioOut = s.ports.audioOut) (a : AudioRecord)
    (hs : s.ses.flags.silent = false) : CinStep s (audioOut a t) :=
  ⟨cin_rest_of h.rest rfl, h.unit, h.session, h.index, h.frame, h.bits,
    ⟨[a], by show t.ports.audioOut ++ [a] = _; rw [hp], Nat.le_refl _, fun he => by rw [hs] at he; exact Bool.noConfusion he⟩⟩

theorem anomaly_cinEnds (r : Nat) {s t : State} (h : CinStep s t) (hs : t.ses = s.ses) :
    CinEnds r s (.done () (anomaly t)) := by
  refine ⟨h.setSession _ rfl, trivial, fun u hu => ?_, fun _ _ hu => by cases hu⟩
  cases hu
  refine .inl ?_
  show ({ t.ses with offset := t.ses.streamSize, result := .endOfStream } : Session) = _
  rw [hs]; rfl

theorem frameSizeAnomaly_cinEnds (r : Nat) {s t : State} (h : CinStep s t) (hs : t.ses = s.ses) :
    CinEnds r s (.done () (frameSizeAnomaly t)) := by
  refine ⟨h.setSession _ rfl, trivial, fun u hu => ?_, fun _ _ hu => by cases hu⟩
  cases hu
  have he : (frameSizeAnomaly t).ses = { t.ses with
      offset := t.ses.streamSize, stepCount := t.ses.stepCount + 1, result := .continue_ } := rfl
  refine .inr ⟨?_, .inl ?_⟩
  · rw [he, hs]
  · rw [he, hs]

/-- The end of a frame record, after its payload: `r` is the address after the payload. -/
theorem cinAudio_ends {q r : Nat} {s t : State} (hq : q < r) (h : CinStep s t)
    (hs : t.ses = { s.ses with diag := t.ses.diag }) (hp : t.ports.audioOut = s.ports.audioOut) :
    CinEnds q s (.done () (cinAudio r t)) := by
  have hss : t.ses.streamSize = s.ses.streamSize := by rw [hs]
  have ha : audioBytes t.cin = audioBytes s.cin := by rw [h.unit]; rfl
  have hfl : t.ses.flags = s.ses.flags := by rw [hs]
  unfold cinAudio
  dsimp only
  split
  · refine ⟨h.setSession _ rfl, trivial, fun u hu => ?_, fun _ _ hu => by cases hu⟩
    cases hu
    refine .inr ⟨?_, .inl hss⟩
    show ({ t.ses with offset := t.ses.streamSize, stepCount := t.ses.stepCount + 1, result := .continue_ } : Session) =
      { s.ses with offset := t.ses.streamSize, stepCount := s.ses.stepCount + 1, result := .continue_, diag := t.ses.diag }
    rw [hs]
  · rename_i hfit
    generalize hv : (if t.ses.flags.silent = false ∧ 0 < audioBytes t.cin then _ else t) = v
    have key : CinStep s v ∧ v.ses = t.ses := by
      rw [← hv]
      split
      · rename_i hsil
        exact ⟨h.sound hp _ (by rw [← hfl]; exact hsil.1), rfl⟩
      · exact ⟨h, rfl⟩
    obtain ⟨k1, k2⟩ := key
    refine ⟨k1.setSession _ rfl, trivial, fun u hu => ?_, fun _ _ hu => by cases hu⟩
    cases hu
    refine .inr ⟨?_, .inr fun h0 => ?_⟩
    · show ({ v.ses with offset := BitVec.ofInt 32 (r + audioBytes t.cin), stepCount := v.ses.stepCount + 1, result := .continue_ } : Session) =
        { s.ses with
          offset := BitVec.ofInt 32 (r + audioBytes t.cin), stepCount := s.ses.stepCount + 1, result := .continue_
          diag := v.ses.diag }
      rw [k2, hs]
    · show q < (BitVec.ofInt 32 (r + audioBytes t.cin)).toNat ∧ (BitVec.ofInt 32 (r + audioBytes t.cin)).toNat ≤ _
      have hlt := s.ses.streamSize.isLt
      rw [ha] at hfit ⊢
      simp only [shortOf, hss] at hfit
      rw [BitVec.toNat_ofInt]
      constructor <;> omega

/-- A decompression, with the working registers unspecified after it. -/
theorem hufDecompress_ends (base fsz : Nat) (s : State) :
    ((hufDecompress base fsz s).finally_ freeHufRegs).sat (fun t => CinStep s t ∧ t.cin.fb = s.cin.fb ∧
      t.ses = { s.ses with diag := t.ses.diag } ∧ t.ports = s.ports) ∧
    ((hufDecompress base fsz s).finally_ freeHufRegs).reasonOk ∧
    ∀ q t, (hufDecompress base fsz s).finally_ freeHufRegs = .raised q t → t.ses = s.ses := by
  have h1 := hufLoop_step (base + fsz) (8 * (fsz - 4) + 1) (hufStart base s)
  have h2 := hufLoop_reason (base + fsz) (8 * (fsz - 4) + 1) (hufStart base s)
  have key : ∀ t, HufStep (hufStart base s) t → ∀ d : Diag,
      let u := freeHufRegs { t with ses := { t.ses with diag := d } }
      CinStep s u ∧ u.cin.fb = s.cin.fb ∧ u.ses = { s.ses with diag := u.ses.diag } ∧ u.ports = s.ports := by
    intro t ht d
    have h0 := ht.rest
    have c1 : t.cin = { s.cin with idxBuf := t.cin.idxBuf } := by rw [h0]; rfl
    have c2 : t.ses = s.ses := by rw [h0]; rfl
    have c3 : t.ports = s.ports := by rw [h0]; rfl
    have c4 : t = { s with cin := t.cin, huf := t.huf, ses := t.ses, ports := t.ports, draws := t.draws } := by
      rw [h0]; rfl
    have c5 : t.cin.fb = s.cin.fb := by rw [c1]
    have c6 : t.cin.idxBuf.length = s.cin.idxBuf.length := ht.length
    refine ⟨⟨cin_rest_of c4 rfl, ?_, ?_, c6, .inl c5, fun _ => ?_, ⟨[], ?_, Nat.zero_le _, fun _ => rfl⟩⟩, c5, ?_, c3⟩
    · show t.cin = { s.cin with palette := t.cin.palette, idxBuf := t.cin.idxBuf, fb := t.cin.fb }
      rw [c1]
    · show ({ t.ses with diag := d } : Session) = { s.ses with
        offset := t.ses.offset, stepCount := t.ses.stepCount, result := t.ses.result, diag := d }
      rw [c2]
    · show (BitVec.ofNat 4 ((Config.freeHufReg t.draws 3).toNat % 9)).toNat ≤ 8
      rw [BitVec.toNat_ofNat]; omega
    · show t.ports.audioOut = _
      rw [c3, List.append_nil]
    · show ({ t.ses with diag := d } : Session) = { s.ses with diag := d }
      rw [c2]
  unfold hufDecompress
  generalize hufLoop (base + fsz) (8 * (fsz - 4) + 1) (hufStart base s) = m at h1 h2
  cases m with
  | done a t => exact ⟨key t h1 _, trivial, fun _ _ h => by cases h⟩
  | raised q t =>
    refine ⟨key t h1 t.ses.diag, h2, fun q' t' h => ?_⟩
    cases h
    show t.ses = s.ses
    rw [h1.rest]; rfl
  | broken f => exact ⟨trivial, trivial, fun _ _ h => by cases h⟩
  | refused f => exact ⟨trivial, trivial, fun _ _ h => by cases h⟩

/-- The frame body at `r` (40_huffman.md R131). -/
theorem frameBody_ends {q r : Nat} (hq : q ≤ r) (s : State) : CinEnds q s (frameBody r s) := by
  unfold frameBody
  split
  · exact anomaly_cinEnds q (CinStep.refl s) rfl
  · dsimp only
    split
    · exact frameSizeAnomaly_cinEnds q (CinStep.refl s) rfl
    · split
      · exact anomaly_cinEnds q (CinStep.refl s) rfl
      · obtain ⟨h1, h2, h3⟩ := hufDecompress_ends (r + 4) (memRead32 s r).toInt.toNat s
        generalize (hufDecompress (r + 4) (memRead32 s r).toInt.toNat s).finally_ freeHufRegs = m at h1 h2 h3
        cases m with
        | done a t =>
          obtain ⟨g1, g2, g3, g4⟩ := h1
          refine cinAudio_ends (by omega) ⟨cin_rest_of g1.rest rfl, ?_, g1.session, g1.index, .inr ?_, g1.bits, g1.audio⟩ g3
            (by show t.ports.audioOut = _; rw [g4])
          · have hg : ∀ l, ({ t.cin with fb := l } : CinUnit) =
                { s.cin with palette := t.cin.palette, idxBuf := t.cin.idxBuf, fb := l } := by
              intro l; rw [g1.unit]
            exact hg _
          · show (t.cin.idxBuf.map _).length = _
            rw [List.length_map, g1.index]
        | raised p t =>
          refine ⟨h1.1, h2, fun _ h => (by cases h), fun p' t' h => ?_⟩
          cases h
          exact ⟨h3 p t rfl, h1.2.2.2⟩
        | broken f => exact ⟨trivial, trivial, fun _ h => (by cases h), fun _ _ h => (by cases h)⟩
        | refused f => exact ⟨trivial, trivial, fun _ h => (by cases h), fun _ _ h => (by cases h)⟩

/-- The palette is loaded, then the frame body follows (40_huffman.md R132). -/
theorem withPalette_step (q : Nat) (s : State) :
    CinStep s (withPalette q s) ∧ (withPalette q s).ses = s.ses ∧ (withPalette q s).ports = s.ports := by
  unfold withPalette
  generalize (Vector.ofFn _ : Vector Rgb 256) = v
  exact ⟨⟨rfl, rfl, rfl, rfl, .inl rfl, id, ⟨[], by rw [List.append_nil], Nat.zero_le _, fun _ => rfl⟩⟩, rfl, rfl⟩

theorem CinStep.trans_quiet {s v t : State} (h : CinStep s v) (hs : v.ses = s.ses) (hp : v.ports = s.ports)
    (hf : v.cin.fb = s.cin.fb) (k : CinStep v t) : CinStep s t := by
  refine ⟨cin_rest_of h.rest k.rest, ?_, ?_, k.index.trans h.index, ?_, fun hb => k.bits (h.bits hb), ?_⟩
  · have hg := k.unit
    rw [h.unit] at hg
    exact hg
  · have hg := k.session
    rw [hs] at hg
    exact hg
  · rcases k.frame with k | k
    · exact .inl (k.trans hf)
    · exact .inr (k.trans h.index)
  · rw [← hs, ← hp]; exact k.audio

theorem palframeBody_ends {q r : Nat} (hq : q ≤ r) (s : State) : CinEnds q s (palframeBody r s) := by
  unfold palframeBody
  split
  · exact anomaly_cinEnds q (CinStep.refl s) rfl
  · rw [loadPalette_eq]
    obtain ⟨h1, h2, h3⟩ := withPalette_step r s
    have h4 : (withPalette r s).cin.fb = s.cin.fb := by unfold withPalette; rfl
    have h5 : audioBytes (withPalette r s).cin = audioBytes s.cin := by unfold withPalette audioBytes; rfl
    have k := frameBody_ends (q := q) (r := r + 768) (by omega) (withPalette r s)
    refine ⟨sat_mono k.sat fun t ht => h1.trans_quiet h2 h3 h4 ht, k.reason, fun t ht => ?_, fun p t ht => ?_⟩
    · have kd := k.done t ht
      unfold CinStop at kd
      rw [h2, h5] at kd
      rcases kd with kd | kd
      · exact .inl (by rw [kd]; unfold afterEnd; rw [h2])
      · exact .inr kd
    · have := k.raised p t ht
      exact ⟨this.1.trans h2, this.2.trans h3⟩

/-! ### Where the machine goes on -/

/-- A decompression in a built forest ends (40_huffman.md R140, 70_reset_and_hazards.md R323). -/
theorem frameBody_total {r : Nat} {s : State} (hf : forestOk s.cin) : (frameBody r s).total := by
  unfold frameBody
  split
  · trivial
  · rename_i h1
    dsimp only
    split
    · trivial
    · rename_i h2
      split
      · trivial
      · rename_i h3
        simp only [shortOf] at h1 h3
        have hlt := s.ses.streamSize.isLt
        have hstart : (hufStart (r + 4) s).huf.inPos.toNat = r + 8 := by
          show (BitVec.ofNat 32 (r + 4 + 4)).toNat = _
          rw [BitVec.toNat_ofNat]; omega
        have hl : (hufStart (r + 4) s).huf.bitsLeft.toNat = 0 := rfl
        have hnode : nodeIn (hufStart (r + 4) s) := Nat.le_refl _
        have ht := hufLoop_total (fin := r + 4 + (memRead32 s r).toInt.toNat)
          (fuel := 8 * ((memRead32 s r).toInt.toNat - 4) + 1) (s := hufStart (r + 4) s) (by omega)
          (by rw [pendingBits_length, hstart, hl]; omega) (by rw [hstart]; omega) (by rw [hl]; omega) hf hnode
        unfold hufDecompress
        generalize hufLoop _ _ _ = m at ht
        cases m with
        | done a t => trivial
        | raised q t => trivial
        | broken f => exact ht
        | refused f => exact ht

theorem palframeBody_total {r : Nat} {s : State} (hf : forestOk s.cin) : (palframeBody r s).total := by
  unfold palframeBody
  split
  · trivial
  · rw [loadPalette_eq]
    refine frameBody_total ?_
    intro ctx
    have := hf ctx
    unfold rowOk at this ⊢
    rw [withPalette_root, withPalette_pair]
    exact this

end Sys2Proof.Machine
end

