-- ==== Sys2Proof/Laws/Runs.lean ====
section
/-! SUPPORT. The run in hand: what one more answer makes of it, and what a RESET does (70_reset_and_hazards.md R326). -/

namespace Sys2Proof.Machine

theorem observation_eq_some {s : State} (h : wellDefined s) : observation s = some (runReplies s) := if_pos h

theorem observation_eq_none {s : State} (h : ¬wellDefined s) : observation s = none := if_neg h

/-- One more answer goes to the end of the run in hand. -/
theorem runReplies_append {s t : State} {r : Reply} (hb : s.runStart ≤ s.replies.length) (hs : t.runStart = s.runStart)
    (hr : t.replies = s.replies ++ [r]) : runReplies t = runReplies s ++ [r] := by
  rw [runReplies, runReplies, hs, hr, List.drop_append_of_le_length hb]

/-- The run stays well defined unless the answer is FAULT. -/
theorem wellDefined_append {s t : State} {r : Reply} (hb : s.runStart ≤ s.replies.length) (hs : t.runStart = s.runStart)
    (hr : t.replies = s.replies ++ [r]) : wellDefined t ↔ wellDefined s ∧ r ≠ .fault := by
  rw [wellDefined, runReplies_append hb hs hr, List.mem_append, List.mem_singleton, not_or]
  exact and_congr_right fun _ => ne_comm

/-- What one more answer makes of the observation. -/
theorem observation_append {s t : State} {r : Reply} (hb : s.runStart ≤ s.replies.length) (hs : t.runStart = s.runStart)
    (hr : t.replies = s.replies ++ [r]) :
    observation t = if r = .fault then none else (observation s).map (· ++ [r]) := by
  have hw := wellDefined_append hb hs hr
  by_cases hf : r = .fault
  · rw [if_pos hf, observation_eq_none fun h => (hw.1 h).2 hf]
  · rw [if_neg hf]
    by_cases h : wellDefined s
    · rw [observation_eq_some h, observation_eq_some (hw.2 ⟨h, hf⟩), runReplies_append hb hs hr, Option.map_some]
    · rw [observation_eq_none h, observation_eq_none fun h' => h (hw.1 h').1, Option.map_none]

/-- A run that begins with this answer holds nothing else. -/
theorem runReplies_begun {t : State} {before : List Reply} {r : Reply} (hs : t.runStart = before.length)
    (hr : t.replies = before ++ [r]) : runReplies t = [r] := by
  rw [runReplies, hs, hr, List.drop_left]

/-- A run that begins with an answer other than FAULT is well defined. -/
theorem wellDefined_begun {t : State} {before : List Reply} {r : Reply} (hs : t.runStart = before.length)
    (hr : t.replies = before ++ [r]) (hf : r ≠ .fault) : wellDefined t := by
  rw [wellDefined, runReplies_begun hs hr, List.mem_singleton]
  exact hf.symm

/-- Its observation is that answer. -/
theorem observation_begun {t : State} {before : List Reply} {r : Reply} (hs : t.runStart = before.length)
    (hr : t.replies = before ++ [r]) (hf : r ≠ .fault) : observation t = some [r] := by
  rw [observation_eq_some (wellDefined_begun hs hr hf), runReplies_begun hs hr]

end Sys2Proof.Machine
end

