-- ==== Sys2Proof/Laws/Units.lean ====
section
/-! SUPPORT. What one STEP of an open session can do, once: the three ways it can end, and what stays (45_host_ops.md R264, R271;
60_exceptions.md R283, R284). -/

namespace Sys2Proof.Machine

/-- The three ways a STEP of an open session ends. -/
inductive EndOf (s t : State) : Prop where
  | fault (r : FaultReason) (hr : r ≠ .none) (ses : t.ses = afterFault r s) (ports : t.ports = s.ports)
  | stop (ses : t.ses = afterEnd s)
  | go (ses : t.ses = { s.ses with
          offset := t.ses.offset, stepCount := s.ses.stepCount + 1, result := .continue_, diag := t.ses.diag })
      (forward : (s.ses.fmt = .cin → 0 ≤ audioBytes s.cin) →
        s.ses.offset.toNat < t.ses.offset.toNat ∧ t.ses.offset.toNat ≤ s.ses.streamSize.toNat)

/-- Everything a STEP of an open session can do. -/
structure UnitEnd (s t : State) : Prop where
  rest : t = { s with
    cin := t.cin, huf := t.huf, roq := t.roq, ses := t.ses, ports := t.ports, draws := t.draws }
  ends : EndOf s t
  audio : ∃ l, t.ports.audioOut = s.ports.audioOut ++ l ∧ l.length ≤ 1 ∧ (s.ses.flags.silent = true → l = [])
  roq : s.ses.fmt = .roq → t.cin = s.cin ∧ t.huf = s.huf ∧ t.ses.diag = s.ses.diag ∧
    (RoqInv s.roq → RoqInv t.roq) ∧ (s.roq.infoSeen = true → t.roq.infoSeen = true) ∧
    (t.ports.dispValid = true → s.ports.dispValid = true ∨ t.roq.infoSeen = true)
  cin : s.ses.fmt = .cin → t.roq = s.roq ∧
    t.cin = { s.cin with palette := t.cin.palette, idxBuf := t.cin.idxBuf, fb := t.cin.fb } ∧
    t.cin.idxBuf.length = s.cin.idxBuf.length ∧ (t.cin.fb = s.cin.fb ∨ t.cin.fb.length = s.cin.idxBuf.length) ∧
    (s.huf.bitsLeft.toNat ≤ 8 → t.huf.bitsLeft.toNat ≤ 8)

theorem noAudio (s t : State) (h : t.ports = s.ports) :
    ∃ l, t.ports.audioOut = s.ports.audioOut ++ l ∧ l.length ≤ 1 ∧ (s.ses.flags.silent = true → l = []) :=
  ⟨[], by rw [h, List.append_nil], Nat.zero_le _, fun _ => rfl⟩

/-- An anomaly ends the stream and does nothing else (60_exceptions.md R284). -/
theorem anomaly_unitEnd (s : State) : UnitEnd s (anomaly s) :=
  ⟨rfl, .stop rfl, noAudio s _ rfl, fun _ => ⟨rfl, rfl, rfl, id, id, .inl⟩, fun _ => ⟨rfl, rfl, rfl, .inl rfl, id⟩⟩

/-! ### CIN -/

/-- The outcome of a record's operation. -/
theorem cinEnds_unitEnd {s t : State} {m : Run Unit} (hc : s.ses.fmt = .cin) (hfit : s.ses.offset.toNat + 4 ≤ s.ses.streamSize.toNat)
    (h : CinEnds s.ses.offset.toNat s m) (ht : m.outcome = .next t) : UnitEnd s t := by
  have side : ∀ {u}, CinStep s u → u.roq = s.roq := fun k => by rw [k.rest]
  have whole : ∀ {u : State}, CinStep s u → u = { s with
      cin := u.cin, huf := u.huf, roq := u.roq, ses := u.ses, ports := u.ports, draws := u.draws } := by
    intro u k
    have h0 := k.rest
    cases s; cases u
    simp only [State.mk.injEq, true_and, and_true] at h0 ⊢
    exact ⟨h0.1, h0.2.1, h0.2.2.2⟩
  have hne : s.ses.fmt ≠ .roq := by rw [hc]; exact fun h => Fmt.noConfusion h
  rcases outcome_eq_next.1 ht with hm | ⟨r, u, hm, rfl⟩
  · have k := sat_of_done h.sat hm
    refine ⟨whole k, ?_, k.audio, fun hr => absurd hr hne, fun _ => ⟨side k, k.unit, k.index, k.frame, k.bits⟩⟩
    rcases h.done t hm with hs | ⟨hs, ho⟩
    · exact .stop hs
    · refine .go hs fun h0 => ?_
      rcases ho with ho | ho
      · rw [ho]; omega
      · exact ho (h0 hc)
  · have k := sat_of_raised h.sat hm
    obtain ⟨k1, k2⟩ := h.raised r u hm
    have hr : r ≠ .none := by have := h.reason; rw [hm] at this; exact this
    refine ⟨?_, .fault r hr ?_ k2, k.audio, fun hr => absurd hr hne,
      fun _ => ⟨show u.roq = _ from side k, k.unit, k.index, k.frame, k.bits⟩⟩
    · have h0 := whole k
      unfold takeFault
      generalize ({ u.ses with faulted := _, faultReason := _, result := _ } : Session) = g
      cases s; cases u
      simp only [State.mk.injEq, true_and, and_true] at h0 ⊢
      exact h0
    · unfold takeFault afterFault
      rw [k1]

/-- The record a command selects. -/
theorem cinInstr_unitEnd {s t : State} (cmd : Word) (hc : s.ses.fmt = .cin)
    (hfit : s.ses.offset.toNat + 4 ≤ s.ses.streamSize.toNat) (ht : exec (cinInstr cmd) s = .next t) : UnitEnd s t := by
  have hq : s.ses.offset.toNat ≤ afterCommand s := by unfold afterCommand; omega
  unfold cinInstr at ht
  split at ht
  · cases ht
    exact anomaly_unitEnd s
  · split at ht
    · exact cinEnds_unitEnd hc hfit (palframeBody_ends hq s) ht
    · split at ht
      · exact cinEnds_unitEnd hc hfit (frameBody_ends hq s) ht
      · rw [exec_cinRsvd] at ht
        unfold execCinRsvd at ht
        split at ht
        · cases ht
          exact anomaly_unitEnd s
        · exact cinEnds_unitEnd hc hfit (frameBody_ends hq s) ht

theorem cinInstr_total {s : State} (cmd : Word) (hf : forestOk s.cin) : ∃ t, exec (cinInstr cmd) s = .next t := by
  unfold cinInstr
  split
  · exact ⟨_, rfl⟩
  · split
    · exact outcome_total (palframeBody_total hf)
    · split
      · exact outcome_total (frameBody_total hf)
      · rw [exec_cinRsvd]
        unfold execCinRsvd
        split
        · exact ⟨_, rfl⟩
        · exact outcome_total (frameBody_total hf)

/-! ### RoQ -/

/-- The chunk step around an operation. -/
theorem chunkStep_unitEnd {size : Word} {op : State → Run Unit} {s t : State} (hr : s.ses.fmt = .roq)
    (hfit : s.ses.offset.toNat + 8 ≤ s.ses.streamSize.toNat) (hop : ∀ v, OpEnds v (op v))
    (ht : (chunkStep size op s).outcome = .next t) : UnitEnd s t := by
  have hne : s.ses.fmt ≠ .cin := by rw [hr]; exact fun h => Fmt.noConfusion h
  have hlt := s.ses.streamSize.isLt
  rcases chunkStep_cases size op s with hc | ⟨h0, hc⟩ | ⟨hf, hc⟩
  · rw [hc] at ht
    cases ht
    exact anomaly_unitEnd s
  · rw [hc] at ht
    cases ht
    refine ⟨rfl, .go rfl fun _ => ?_, noAudio s _ rfl, fun _ => ⟨rfl, rfl, rfl, id, id, .inl⟩, fun h => absurd h hne⟩
    show _ < (BitVec.ofNat 32 (s.ses.offset.toNat + 8)).toNat ∧ (BitVec.ofNat 32 (s.ses.offset.toNat + 8)).toNat ≤ _
    rw [BitVec.toNat_ofNat]
    constructor <;> omega
  · obtain ⟨w1, w2, w3⟩ := openWindow_bounds hf
    have ho := hop (openWindow s.ses.offset.toNat size.toInt s)
    have hw : ∀ u, OpStep (openWindow s.ses.offset.toNat size.toInt s) u →
        u = { s with roq := u.roq, ports := u.ports, draws := u.draws } := fun u k => rest_of rfl k.rest
    have hinv : RoqInv s.roq → RoqInv (openWindow s.ses.offset.toNat size.toInt s).roq :=
      fun h => ⟨h.frame, h.noFrame, h.counts, h.reader⟩
    have hses : (openWindow s.ses.offset.toNat size.toInt s).ses = s.ses := rfl
    have hports : (openWindow s.ses.offset.toNat size.toInt s).ports = s.ports := rfl
    have hseen : (openWindow s.ses.offset.toNat size.toInt s).roq.infoSeen = s.roq.infoSeen := rfl
    generalize openWindow s.ses.offset.toNat size.toInt s = v at *
    have sat : ∀ u, OpStep v u → ∀ g : Session, g.diag = s.ses.diag → EndOf s { u with ses := g } →
        UnitEnd s { u with ses := g } := by
      intro u k g hg he
      have h0 := hw u k
      refine ⟨?_, he, ?_, fun _ => ⟨?_, ?_, hg, fun hi => k.inv (hinv hi), fun hs => k.seen (hseen.trans hs), fun hd => ?_⟩,
        fun h => absurd h hne⟩
      · cases s; cases u
        simp only [State.mk.injEq, true_and, and_true] at h0 ⊢
        exact ⟨h0.1, h0.2.1, h0.2.2.2.2.2⟩
      · have := k.audio
        rw [hses, hports] at this
        exact this
      · show u.cin = _; rw [h0]
      · show u.huf = _; rw [h0]
      · have := k.shown hd
        rw [hports] at this
        exact this
    have ses : ∀ u, OpStep v u → u.ses = s.ses := fun u k => by rw [hw u k]
    rw [hc] at ht
    rcases outcome_eq_next.1 ht with hm | ⟨r, u, hm, rfl⟩
    · rw [bind_eq_done] at hm
      obtain ⟨_, u, hu, hk⟩ := hm
      have k := sat_of_done ho.sat hu
      cases hk
      refine sat u k _ (by show u.ses.diag = _; rw [ses u k]) (.go ?_ fun _ => ?_)
      · have hg : ∀ x : Word, ({ u.ses with offset := x, stepCount := u.ses.stepCount + 1, result := .continue_ } : Session) =
            { s.ses with offset := x, stepCount := s.ses.stepCount + 1, result := .continue_, diag := u.ses.diag } := by
          intro x; rw [ses u k]
        exact hg _
      · show s.ses.offset.toNat < u.roq.payEnd.toNat ∧ u.roq.payEnd.toNat ≤ _
        rw [k.payEnd, ← hses]
        have hf1 := hf.1
        rw [hses]
        rw [hses] at w3
        constructor <;> omega
    · rw [bind_eq_raised] at hm
      rcases hm with hm | ⟨_, u', -, hk⟩
      · have k := sat_of_raised ho.sat hm
        have hr : r ≠ .none := by have := ho.reason; rw [hm] at this; exact this
        refine sat u k _ (by show u.ses.diag = _; rw [ses u k]) (.fault r hr ?_ ?_)
        · unfold afterFault
          dsimp only
          rw [ses u k]
        · exact (ho.ports r u hm).trans hports
      · cases hk

/-- The unit a chunk header selects. -/
theorem chunkInstr_unitEnd {s t : State} (id : Half) (size : Word) (arg : Half) (hr : s.ses.fmt = .roq)
    (hfit : s.ses.offset.toNat + 8 ≤ s.ses.streamSize.toNat) (ht : exec (chunkInstr s.params id size arg) s = .next t) :
    UnitEnd s t := by
  unfold chunkInstr at ht
  split at ht
  · cases ht
    exact anomaly_unitEnd s
  · split at ht
    · exact chunkStep_unitEnd hr hfit infoOp_ends ht
    · split at ht
      · exact chunkStep_unitEnd hr hfit (codebookOp_ends size arg) ht
      · split at ht
        · exact chunkStep_unitEnd hr hfit (vqOp_ends arg) ht
        · split at ht
          · exact chunkStep_unitEnd hr hfit (monoOp_ends size arg) ht
          · split at ht
            · exact chunkStep_unitEnd hr hfit (stereoOp_ends size arg) ht
            · exact chunkStep_unitEnd hr hfit (fun v => quietly_ends (m := .done () v) (Quietly.refl v) trivial) ht

theorem chunkStep_total {size : Word} {op : State → Run Unit} {s : State}
    (h : chunkFits size s → (op (openWindow s.ses.offset.toNat size.toInt s)).total) :
    ∃ t, (chunkStep size op s).outcome = .next t := by
  rcases chunkStep_cases size op s with hc | ⟨-, hc⟩ | ⟨hf, hc⟩
  · exact ⟨_, by rw [hc]; rfl⟩
  · exact ⟨_, by rw [hc]; rfl⟩
  · rw [hc]
    refine outcome_total ?_
    have := h hf
    generalize op _ = m at this ⊢
    cases m with
    | done a t => trivial
    | raised r t => trivial
    | broken f => exact this
    | refused f => exact this

/-- Payload reads inside a window that lies in the stream. -/
def inStream (s : State) : Prop := s.roq.payEnd.toNat ≤ s.ses.streamSize.toNat

theorem CursorOnly.inStream {s t : State} (h : CursorOnly s t) (hs : inStream s) : inStream t := by
  obtain ⟨h1, h2, -⟩ := h.window
  unfold Machine.inStream
  rw [h1, h2]; exact hs

theorem Quietly.inStream {s t : State} (h : Quietly s t) (hs : inStream s) : inStream t := by
  have h1 : t.ses = s.ses := by rw [h.rest]
  unfold Machine.inStream
  rw [h.fields.2.2.2.2.2.2.2.2, h1]; exact hs

theorem inStream_bind {α β : Type} {s : State} {m : Run α} {k : α → State → Run β} (hs : inStream s) (hm : m.total)
    (hq : m.sat (Quietly s)) (hk : ∀ a t, inStream t → (k a t).total) : (m.bind k).total :=
  total_bind hm (sat_mono hq fun _ h => h.inStream hs) fun a t ht => hk a t ht

theorem total_then {α β : Type} {m : Run α} {k : α → State → Run β} (hm : m.total) (hk : ∀ a t, (k a t).total) :
    (m.bind k).total := by
  cases m with
  | done a t => exact hk a t
  | raised r t => trivial
  | broken f => exact hm
  | refused f => exact hm

theorem cursorQuiet {α : Type} {s : State} {m : Run α} (h : m.sat (CursorOnly s)) : m.sat (Quietly s) :=
  sat_mono h fun _ k => k.quietly

theorem payRead16_inStream {s : State} (hs : inStream s) : (payRead16 s).total :=
  inStream_bind hs (payRead_total hs) (cursorQuiet (payRead_cursorOnly s)) fun _ t ht =>
    inStream_bind ht (payRead_total ht) (cursorQuiet (payRead_cursorOnly t)) fun _ _ _ => trivial

theorem payRead4_inStream {s : State} (hs : inStream s) : (payRead4 s).total :=
  inStream_bind hs (payRead_total hs) (cursorQuiet (payRead_cursorOnly s)) fun _ t ht =>
    inStream_bind ht (payRead_total ht) (cursorQuiet (payRead_cursorOnly t)) fun _ u hu =>
      inStream_bind hu (payRead_total hu) (cursorQuiet (payRead_cursorOnly u)) fun _ v hv =>
        inStream_bind hv (payRead_total hv) (cursorQuiet (payRead_cursorOnly v)) fun _ _ _ => trivial

theorem readCell_inStream {s : State} (hs : inStream s) : (readCell s).total :=
  inStream_bind hs (payRead4_inStream hs) (cursorQuiet (payRead4_cursorOnly s)) fun _ t ht =>
    inStream_bind ht (payRead_total ht) (cursorQuiet (payRead_cursorOnly t)) fun _ u hu =>
      inStream_bind hu (payRead_total hu) (cursorQuiet (payRead_cursorOnly u)) fun _ _ _ => trivial

theorem loadCells_inStream (n k : Nat) {s : State} (hs : inStream s) : (loadCells n k s).total := by
  induction n generalizing k s with
  | zero => trivial
  | succ n ih => exact inStream_bind hs (readCell_inStream hs) (readCell_quietly s) fun _ _ ht => ih _ ht

theorem loadQuads_inStream (n k : Nat) {s : State} (hs : inStream s) : (loadQuads n k s).total := by
  induction n generalizing k s with
  | zero => trivial
  | succ n ih =>
    exact inStream_bind hs (payRead4_inStream hs) (cursorQuiet (payRead4_cursorOnly s)) fun _ _ ht => ih _ ht

theorem monoLoop_inStream (n : Nat) {s : State} (hs : inStream s) : (monoLoop n s).total := by
  induction n generalizing s with
  | zero => trivial
  | succ n ih =>
    exact inStream_bind hs (payRead_total hs) (cursorQuiet (payRead_cursorOnly s)) fun _ t ht =>
      total_then (ih (by exact ht)) fun _ _ => trivial

theorem stereoLoop_inStream (n : Nat) {s : State} (hs : inStream s) : (stereoLoop n s).total := by
  induction n generalizing s with
  | zero => trivial
  | succ n ih =>
    exact inStream_bind hs (payRead_total hs) (cursorQuiet (payRead_cursorOnly s)) fun _ t ht =>
      inStream_bind ht (payRead_total ht) (cursorQuiet (payRead_cursorOnly t)) fun _ u hu =>
        total_then (ih (by exact hu)) fun _ _ => trivial

theorem infoOp_total {s : State} (hs : inStream s) : (infoOp s).total := by
  unfold infoOp
  split
  · trivial
  · exact inStream_bind hs (payRead16_inStream hs) (cursorQuiet (payRead16_cursorOnly s)) fun _ t ht =>
      inStream_bind ht (payRead16_inStream ht) (cursorQuiet (payRead16_cursorOnly t)) fun _ u hu =>
        inStream_bind hu (payRead4_inStream hu) (cursorQuiet (payRead4_cursorOnly u)) fun _ v _ => by
          split <;> trivial

theorem codebookOp_total (size : Word) (arg : Half) {s : State} (hs : inStream s) : (codebookOp size arg s).total :=
  inStream_bind hs (loadCells_inStream _ _ hs) (loadCells_quietly _ _ s) fun _ t ht =>
    inStream_bind ht (loadQuads_inStream _ _ ht) (loadQuads_quietly _ _ t) fun _ _ _ => trivial

theorem monoOp_total (size : Word) (arg : Half) {s : State} (hs : inStream s) : (monoOp size arg s).total := by
  unfold monoOp
  split
  · trivial
  · exact total_then (monoLoop_inStream _ (by exact hs)) fun _ _ => trivial

theorem stereoOp_total (size : Word) (arg : Half) {s : State} (hs : inStream s) : (stereoOp size arg s).total := by
  unfold stereoOp
  split
  · trivial
  · exact total_then (stereoLoop_inStream _ (by exact hs)) fun _ _ => trivial

/-- A VQ chunk's frame decodes to its end or faults, where the parameters are legal and the buffers have the frame's size
(70_reset_and_hazards.md R323). -/
theorem vqOp_total (arg : Half) {s : State} (hs : inStream s) (hp : s.params.wf) (hi : RoqInv s.roq) : (vqOp arg s).total := by
  unfold vqOp
  split
  · trivial
  · rename_i hn
    have hseen : s.roq.infoSeen = true := by simpa using hn
    obtain ⟨w1, w2, w3, w4⟩ := hi.frame hseen
    have hsound : Sound (vqStart arg s) := ⟨hp, hs, ⟨w3, w4⟩⟩
    have hw : (vqStart arg s).roq.w ≠ 0 := fun h => by
      have : s.roq.w = 0 := h
      rw [this] at w1; exact absurd w1 (by decide)
    have ht := vqLoop_sound hsound hw rfl rfl
    have he : macroblocks (vqStart arg s).roq = macroblocks s.roq := rfl
    rw [he] at ht
    generalize vqLoop (macroblocks s.roq) (vqStart arg s) = m at ht ⊢
    cases m with
    | done a t => trivial
    | raised r t => trivial
    | broken f => exact ht
    | refused f => exact ht

theorem chunkInstr_total {s : State} (id : Half) (size : Word) (arg : Half) (hp : s.params.wf) (hi : RoqInv s.roq) :
    ∃ t, exec (chunkInstr s.params id size arg) s = .next t := by
  have win : chunkFits size s → inStream (openWindow s.ses.offset.toNat size.toInt s) := fun h => (openWindow_bounds h).2.2
  have hinv : RoqInv (openWindow s.ses.offset.toNat size.toInt s).roq := ⟨hi.frame, hi.noFrame, hi.counts, hi.reader⟩
  unfold chunkInstr
  split
  · exact ⟨_, rfl⟩
  · split
    · exact chunkStep_total fun h => infoOp_total (win h)
    · split
      · exact chunkStep_total fun h => codebookOp_total size arg (win h)
      · split
        · exact chunkStep_total fun h => vqOp_total arg (win h) hp hinv
        · split
          · exact chunkStep_total fun h => monoOp_total size arg (win h)
          · split
            · exact chunkStep_total fun h => stereoOp_total size arg (win h)
            · exact chunkStep_total fun _ => trivial

/-! ### STEP -/

theorem memReadBytes_four (s : State) (a : Nat) :
    memReadBytes s a 4 = [memRead8 s a, memRead8 s (a + 1), memRead8 s (a + 2), memRead8 s (a + 3)] := rfl

theorem memReadBytes_eight (s : State) (a : Nat) :
    memReadBytes s a 8 = [memRead8 s a, memRead8 s (a + 1), memRead8 s (a + 2), memRead8 s (a + 3), memRead8 s (a + 4),
      memRead8 s (a + 5), memRead8 s (a + 6), memRead8 s (a + 7)] := rfl

/-- A STEP of an open session that has not faulted ends in one of three ways. -/
theorem stepUnit_cases {s : State} (place : Place) (hplace : s.ses.fmt = .cin ∧ place = .cinRecord ∨ s.ses.fmt = .roq ∧ place = .roqChunk) :
    (stepUnit place s = .next (anomaly s)) ∨
    (s.ses.fmt = .cin ∧ s.ses.offset.toNat + 4 ≤ s.ses.streamSize.toNat ∧ ∃ cmd, stepUnit place s = exec (cinInstr cmd) s) ∨
    (s.ses.fmt = .roq ∧ s.ses.offset.toNat + 8 ≤ s.ses.streamSize.toNat ∧
      ∃ id size arg, stepUnit place s = exec (chunkInstr s.params id size arg) s) := by
  unfold stepUnit
  split
  · exact .inl rfl
  · rename_i hfit
    simp only [shortOf] at hfit
    rcases hplace with ⟨hf, rfl⟩ | ⟨hf, rfl⟩
    · refine .inr (.inl ⟨hf, by simp only [unitBytes] at hfit; omega, memRead32 s s.ses.offset.toNat, ?_⟩)
      show runDecoded (decodeCinRecord (memReadBytes s _ 4)) s = _
      rw [memReadBytes_four]
      rfl
    · refine .inr (.inr ⟨hf, by simp only [unitBytes] at hfit; omega, memRead16 s s.ses.offset.toNat,
        memRead32 s (s.ses.offset.toNat + 2), memRead16 s (s.ses.offset.toNat + 6), ?_⟩)
      show runDecoded (decodeRoqChunk s.params (memReadBytes s _ 8)) s = _
      rw [memReadBytes_eight]
      rfl

/-- What STEP can do: report the fault again, report the end with no session, or play one unit (45_host_ops.md R264). -/
theorem stepTransaction_cases {s t : State} (h : stepTransaction s = .next t) :
    (s.ses.faulted = true ∧ t = { s with ses := { s.ses with result := .fault } }) ∨
    (s.ses.faulted = false ∧ s.ses.fmt = .none ∧ t = retEnd s) ∨
    (s.ses.faulted = false ∧ s.ses.fmt ≠ .none ∧ UnitEnd s t) := by
  unfold stepTransaction at h
  split at h
  · rename_i hf
    cases h
    exact .inl ⟨hf, rfl⟩
  · rename_i hf
    have hf' : s.ses.faulted = false := by simpa using hf
    split at h
    · rename_i hm
      cases h
      exact .inr (.inl ⟨hf', hm, rfl⟩)
    · rename_i hm
      refine .inr (.inr ⟨hf', by rw [hm]; exact fun h => Fmt.noConfusion h, ?_⟩)
      rcases stepUnit_cases .cinRecord (.inl ⟨hm, rfl⟩) with hc | ⟨h1, h2, cmd, hc⟩ | ⟨h1, -⟩
      · rw [hc] at h; cases h; exact anomaly_unitEnd s
      · rw [hc] at h; exact cinInstr_unitEnd cmd h1 h2 h
      · rw [hm] at h1; cases h1
    · rename_i hm
      refine .inr (.inr ⟨hf', by rw [hm]; exact fun h => Fmt.noConfusion h, ?_⟩)
      rcases stepUnit_cases .roqChunk (.inr ⟨hm, rfl⟩) with hc | ⟨h1, -⟩ | ⟨h1, h2, id, size, arg, hc⟩
      · rw [hc] at h; cases h; exact anomaly_unitEnd s
      · rw [hm] at h1; cases h1
      · rw [hc] at h; exact chunkInstr_unitEnd id size arg h1 h2 h

/-- STEP always answers a next state, where the parameters are legal and the session is as it is opened. -/
theorem stepTransaction_total {s : State} (hp : s.params.wf) (hf : s.ses.fmt = .cin → forestOk s.cin) (hi : RoqInv s.roq) :
    ∃ t, stepTransaction s = .next t := by
  unfold stepTransaction
  split
  · exact ⟨_, rfl⟩
  · split
    · exact ⟨_, rfl⟩
    · rename_i hm
      rcases stepUnit_cases .cinRecord (.inl ⟨hm, rfl⟩) with hc | ⟨h1, h2, cmd, hc⟩ | ⟨h1, -⟩
      · exact ⟨_, hc⟩
      · rw [hc]; exact cinInstr_total cmd (hf hm)
      · rw [hm] at h1; cases h1
    · rename_i hm
      rcases stepUnit_cases .roqChunk (.inr ⟨hm, rfl⟩) with hc | ⟨h1, -⟩ | ⟨h1, h2, id, size, arg, hc⟩
      · exact ⟨_, hc⟩
      · rw [hm] at h1; cases h1
      · rw [hc]; exact chunkInstr_total id size arg hp hi

end Sys2Proof.Machine
end

