-- ==== Sys2Proof/Tests/Slice0.lean ====
section
/-! SUPPORT. The model's own tests: words written out from the spec's encodings, ill-formed terms refused, one step of each
operation on a small state against 95_test_vectors.md or the rule's own example, and for every statement with hypotheses a
state that meets them. -/

namespace Sys2Proof.Tests

open Sys2Proof.Machine

set_option Elab.async false

/-! ### Reading an outcome -/

/-- What a next state shows. -/
def got {α : Type} (o : Host.Outcome State Fault Refusal) (f : State → α) : Option α :=
  match o with
  | .next t => some (f t)
  | .fault _ => none
  | .refused _ => none

theorem got_some {α : Type} {o : Host.Outcome State Fault Refusal} {f : State → α} {a : α} (h : got o f = some a) :
    ∃ t, o = .next t ∧ f t = a := by
  cases o with
  | next t => exact ⟨t, rfl, Option.some.inj h⟩
  | fault r => cases h
  | refused r => cases h

/-- What the state after a piece that went on shows. -/
def went {α β : Type} (m : Run α) (f : α → State → β) : Option β :=
  match m with
  | .done a s => some (f a s)
  | .raised _ _ => none
  | .broken _ => none
  | .refused _ => none

theorem went_some {α β : Type} {m : Run α} {f : α → State → β} {b : β} (h : went m f = some b) :
    ∃ a t, m = .done a t ∧ f a t = b := by
  cases m with
  | done a t => exact ⟨a, t, rfl, Option.some.inj h⟩
  | raised r t => cases h
  | broken r => cases h
  | refused r => cases h

/-! ### Small states -/

/-- A RoQ session whose chunk bytes stand at address 8, its cursor there. -/
def roqAt (bytes : List Byte) : State :=
  { State.reset with
    stream := Memory.cellsFrom 8 bytes
    ses := { State.reset.ses with
      fmt := .roq, offset := 8, headerOffset := 8, streamSize := BitVec.ofNat 32 (8 + bytes.length) } }

/-- The same state with a w×h frame, every pixel of both buffers 0. -/
def framed (w h : Nat) (s : State) : State :=
  { s with roq := { s.roq with
      w := BitVec.ofNat 16 w, h := BitVec.ofNat 16 h, infoSeen := true
      buf0 := List.replicate (w * h) Pixel.zero, buf1 := List.replicate (w * h) Pixel.zero } }

/-- The codebook CBT of 95_test_vectors.md: a black, a white, an orange and a gradient cell; quad-cell 0 is all black as at reset,
1 all white, 2 the four cells. -/
def withBook (s : State) : State :=
  { s with roq := { s.roq with
      cells := (((s.roq.cells.set 0 (Cell.mk 0 0 0 0 128 128)).set 1 (Cell.mk 255 255 255 255 128 128)).set 2
        (Cell.mk 76 76 76 76 84 255)).set 3 (Cell.mk 0 85 170 255 128 128)
      quads := (s.roq.quads.set 1 (Quad.mk 1 1 1 1)).set 2 (Quad.mk 0 1 2 3)
      n1Last := 4, n2Last := 3 } }

/-- A VQ code about to run at (x, y) of a 16×16 frame: its operands are the payload, at stream address 0. -/
def codeAt (x y : Nat) (payload : List Byte) : State :=
  let s := withBook (framed 16 16 State.reset)
  { s with
    stream := Memory.load payload
    ses := { s.ses with fmt := .roq, streamSize := BitVec.ofNat 32 payload.length }
    roq := { s.roq with
      blockX := BitVec.ofNat 32 x, blockY := BitVec.ofNat 32 y, payEnd := BitVec.ofNat 32 payload.length } }

/-- A CIN session of a 2×2 frame whose every tree codes 0x41 as bit 0 and 0x42 as bit 1 (95_test_vectors.md, TABLE_AB), with a
record at the cursor, address 0. -/
def cinAt (record : List Byte) : State :=
  { State.reset with
    stream := Memory.load record
    ses := { State.reset.ses with fmt := .cin, streamSize := BitVec.ofNat 32 record.length }
    cin := { State.reset.cin with
      w := 2, h := 2, root := Vector.replicate 256 256, pair := Vector.replicate 256 (Vector.replicate 255 (0x41, 0x42))
      idxBuf := [0, 0, 0, 0], fb := List.replicate 4 Pixel.zero } }

/-- The same session with every row degenerate (95_test_vectors.md, table ZERO). -/
def cinZero (record : List Byte) : State :=
  { cinAt record with cin := { (cinAt record).cin with root := Vector.replicate 256 255 } }

/-- The record of 95_test_vectors.md vector H1. -/
def recordH1 : List Byte := [0, 0, 0, 0, 5, 0, 0, 0, 4, 0, 0, 0, 6]

/-- One request of the host. -/
def asked (op : HostOp) (s : State) : State := { s with requests := [op] }

/-- The default parameters with one of them changed. -/
def withParams (p : Params) (s : State) : State := { s with params := p }

def noFlags : Flags := { system := false, silent := false, loop := false, hold := false }

def black : Pixel := ⟨0, 0, 0, 255⟩
def white : Pixel := ⟨255, 255, 255, 255⟩
def orange : Pixel := ⟨254, 1, 0, 255⟩
def grey (y : Byte) : Pixel := ⟨y, y, y, 255⟩

/-- Pixels of the write buffer. -/
def shown (at_ : List (Nat × Nat)) (s : State) : List (Option Pixel) := at_.map fun xy => pixelAt s s.roq.wsel xy.1 xy.2

/-- The read buffer white at (0, 0) and zero elsewhere. -/
def withHistory (s : State) : State := { s with roq.buf1 := s.roq.buf1.set 0 white }

/-- The fault recorded and the cursor after a unit. -/
def reasonAfter (o : Host.Outcome State Fault Refusal) : Option (FaultReason × Word) :=
  got o fun t => (t.ses.faultReason, t.ses.offset)

/-! ### Ill-formed terms are refused -/

theorem test_wf_rsvd_refuses_0 : (Instr.cinRsvd 0).wf defaultParams = false := by decide
theorem test_wf_rsvd_refuses_1 : (Instr.cinRsvd 1).wf defaultParams = false := by decide
theorem test_wf_rsvd_refuses_2 : (Instr.cinRsvd 2).wf defaultParams = false := by decide
theorem test_wf_other_refuses_ident : (Instr.roqOther 0x1084 0 0).wf defaultParams = false := by decide
theorem test_wf_other_refuses_info : (Instr.roqOther 0x1001 0 0).wf defaultParams = false := by decide
theorem test_wf_other_refuses_codebook : (Instr.roqOther 0x1002 0 0).wf defaultParams = false := by decide
theorem test_wf_other_refuses_vq : (Instr.roqOther 0x1011 0 0).wf defaultParams = false := by decide
theorem test_wf_other_refuses_mono : (Instr.roqOther 0x1020 0 0).wf defaultParams = false := by decide
theorem test_wf_other_refuses_stereo : (Instr.roqOther 0x1021 0 0).wf defaultParams = false := by decide

/-! ### Words written out from the encoding tables -/

/-- 40_huffman.md R120, its example. -/
theorem test_decode_cinHeader : decode defaultParams .cinStart
    [0x40, 0, 0, 0, 0x30, 0, 0, 0, 0x22, 0x56, 0, 0, 1, 0, 0, 0, 1, 0, 0, 0] =
    .ok (.cinHeader 64 48 22050 1 1, []) := by decide +kernel
/-- 30_encoding.md R82, command 0. -/
theorem test_decode_cinFrame : decode defaultParams .cinRecord [0, 0, 0, 0] = .ok (.cinFrame, []) := by decide +kernel
/-- 30_encoding.md R82, command 1. -/
theorem test_decode_cinPalframe : decode defaultParams .cinRecord [1, 0, 0, 0] = .ok (.cinPalframe, []) := by decide +kernel
/-- 40_huffman.md R134, its example. -/
theorem test_decode_cinEnd : decode defaultParams .cinRecord [2, 0, 0, 0] = .ok (.cinEnd, []) := by decide +kernel
/-- 40_huffman.md R135: values of 2^31 and above are reserved. -/
theorem test_decode_cinRsvd : decode defaultParams .cinRecord [0, 0, 0, 0x80] = .ok (.cinRsvd 0x80000000, []) := by
  decide +kernel
/-- 41_roq_chunks.md R160, its example. -/
theorem test_decode_roqHeader : decode defaultParams .roqStart [0x84, 0x10, 0xFF, 0xFF, 0xFF, 0xFF, 0x1E, 0] =
    .ok (.roqHeader 0xFFFFFFFF 30, []) := by decide +kernel
/-- 95_test_vectors.md R3. -/
theorem test_decode_roqHeader_ident : decode defaultParams .roqStart [0x85, 0x10, 0, 0, 0, 0, 0, 0] =
    .error (.badIdent 0x1085) := by decide +kernel
/-- 95_test_vectors.md INFO16. -/
theorem test_decode_roqInfo : decode defaultParams .roqChunk [0x01, 0x10, 8, 0, 0, 0, 0, 0] = .ok (.roqInfo 8 0, []) := by
  decide +kernel
/-- 95_test_vectors.md CBT. -/
theorem test_decode_roqCodebook : decode defaultParams .roqChunk [0x02, 0x10, 0x24, 0, 0, 0, 0x03, 0x04] =
    .ok (.roqCodebook 36 0x0403, []) := by decide +kernel
/-- 95_test_vectors.md V4. -/
theorem test_decode_roqVq : decode defaultParams .roqChunk [0x11, 0x10, 3, 0, 0, 0, 0, 1] = .ok (.roqVq 3 0x0100, []) := by
  decide +kernel
/-- 95_test_vectors.md A1. -/
theorem test_decode_roqSndMono : decode defaultParams .roqChunk [0x20, 0x10, 4, 0, 0, 0, 0x10, 0] =
    .ok (.roqSndMono 4 0x0010, []) := by decide +kernel
/-- 95_test_vectors.md A2. -/
theorem test_decode_roqSndStereo : decode defaultParams .roqChunk [0x21, 0x10, 4, 0, 0, 0, 2, 1] =
    .ok (.roqSndStereo 4 0x0102, []) := by decide +kernel
/-- 41_roq_chunks.md R172, its example. -/
theorem test_decode_roqIdent : decode defaultParams .roqChunk [0x84, 0x10, 0, 0, 0, 0, 0, 0] = .ok (.roqIdent 0 0, []) := by
  decide +kernel
/-- 41_roq_chunks.md R171, its example. -/
theorem test_decode_roqOther : decode defaultParams .roqChunk [0x00, 0x20, 3, 0, 0, 0, 0, 0, 0xAA, 0xBB, 0xCC] =
    .ok (.roqOther 0x2000 3 0, [0xAA, 0xBB, 0xCC]) := by decide +kernel
/-- 95_test_vectors.md R5: the size field is signed, -5 is FB FF FF FF. -/
theorem test_decode_negative_size : decode defaultParams .roqChunk [0x11, 0x10, 0xFB, 0xFF, 0xFF, 0xFF, 0, 0] =
    .ok (.roqVq (-5) 0, []) := by decide +kernel
/-- 30_encoding.md R101, the default values at the 8×8 level. -/
theorem test_decode_mot8 : decode defaultParams .code8 [0b00] = .ok (.mot8, []) := by decide +kernel
theorem test_decode_fcc8 : decode defaultParams .code8 [0b01] = .ok (.fcc8, []) := by decide +kernel
theorem test_decode_sld8 : decode defaultParams .code8 [0b10] = .ok (.sld8, []) := by decide +kernel
theorem test_decode_ccc8 : decode defaultParams .code8 [0b11] = .ok (.ccc8, []) := by decide +kernel
/-- 30_encoding.md R101, the same values at the 4×4 level. -/
theorem test_decode_mot4 : decode defaultParams .code4 [0b00] = .ok (.mot4, []) := by decide +kernel
theorem test_decode_fcc4 : decode defaultParams .code4 [0b01] = .ok (.fcc4, []) := by decide +kernel
theorem test_decode_sld4 : decode defaultParams .code4 [0b10] = .ok (.sld4, []) := by decide +kernel
theorem test_decode_ccc4 : decode defaultParams .code4 [0b11] = .ok (.ccc4, []) := by decide +kernel

/-- Words of opcode_table.json, numbered as it numbers them. -/
theorem test_table_words :
    decodeTableWord 32 0 = some .cinFrame ∧ decodeTableWord 32 1 = some .cinPalframe ∧
    decodeTableWord 32 2 = some .cinEnd ∧ decodeTableWord 16 0x1001 = some (.roqInfo 0 0) ∧
    decodeTableWord 16 0x1002 = some (.roqCodebook 0 0) ∧ decodeTableWord 16 0x1011 = some (.roqVq 0 0) ∧
    decodeTableWord 16 0x1020 = some (.roqSndMono 0 0) ∧ decodeTableWord 16 0x1021 = some (.roqSndStereo 0 0) ∧
    decodeTableWord 16 0x1084 = some (.roqIdent 0 0) ∧ decodeTableWord 16 0 = some (.roqOther 0 0 0) ∧
    decodeTableWord 8 0 = some .mot8 ∧ decodeTableWord 8 1 = some .fcc8 ∧ decodeTableWord 8 2 = some .sld8 ∧
    decodeTableWord 8 3 = some .ccc8 := by decide +kernel

/-- A placed word is what the next step runs: the terminator ends the stream, an empty INFO chunk goes on. -/
theorem test_fetch_word :
    got (step (State.reset.withFetchWord 16 0x1084)) (fun t => t.replies) = some [.endOfStream] ∧
    got (step (State.reset.withFetchWord 16 0x1001)) (fun t => t.replies) = some [.continue_] ∧
    got (step (State.reset.withFetchWord 32 2)) (fun t => t.replies) = some [.endOfStream] := by decide +kernel

/-! ### One step of each operation, against the spec's vectors -/

/-- 95_test_vectors.md K13: a width of 0 fails to open. -/
theorem test_cinHeader_zero_width :
    got (exec (.cinHeader 0 2 0 0 0) { State.reset with ses.streamSize := 65556 }) (fun t => (t.ses.result, t.ses.fmt)) =
      some (.openFail, .none) := by decide +kernel
/-- 40_huffman.md R122, as in 95_test_vectors.md table T3: of two equal counts the lower node is picked, and a smaller count before a
larger one. -/
theorem test_smallest :
    smallestOf (((Vector.replicate 511 (0 : Word)).set 2 1).set 3 1) (Vector.replicate 511 false) 5 = some 2 ∧
      smallestOf (((Vector.replicate 511 (0 : Word)).set 1 3).set 4 2) (Vector.replicate 511 false) 5 = some 4 := by
  decide +kernel
/-- 95_test_vectors.md H1 (the record at address 0). -/
theorem test_cinFrame_h1 : got (exec .cinFrame (cinAt recordH1)) (fun t => (t.cin.idxBuf, t.ses.diag, t.ses.offset, t.cin.fb)) =
    some ([0x41, 0x42, 0x42, 0x41], Diag.mk 0 false, 13, List.replicate 4 black) := by decide +kernel
/-- 95_test_vectors.md H8: a bit step from a leaf faults, OFFSET stays. -/
theorem test_cinFrame_h8 : reasonAfter (exec .cinFrame (cinZero [0, 0, 0, 0, 5, 0, 0, 0, 2, 0, 0, 0, 0])) =
    some (.hufLeafStep, 0) := by decide +kernel
/-- 95_test_vectors.md K1 with palette entry 0 red (the pixel of no symbol is entry 0). -/
theorem test_cinPalframe_k1 :
    got (exec .cinPalframe (cinAt ([1, 0, 0, 0, 0xFF] ++ List.replicate 767 0 ++ [4, 0, 0, 0, 4, 0, 0, 0])))
      (fun t => (t.cin.fb, t.ses.offset)) = some (List.replicate 4 ⟨255, 0, 0, 255⟩, 780) := by decide +kernel
/-- 95_test_vectors.md K6: a truncated palette ends the stream and loads nothing. -/
theorem test_cinPalframe_k6 :
    got (exec .cinPalframe (cinAt ([1, 0, 0, 0] ++ List.replicate 100 7))) (fun t => (t.ses.result, t.ses.offset, t.cin.palette[0])) =
      some (.endOfStream, 104, ⟨0, 0, 0⟩) := by decide +kernel
/-- 95_test_vectors.md K3. -/
theorem test_cinEnd_k3 : got (exec .cinEnd (cinAt [2, 0, 0, 0])) (fun t => (t.ses.result, t.ses.offset, t.ses.stepCount)) =
    some (.endOfStream, 4, 0) := by decide +kernel
/-- 95_test_vectors.md K4 and K4b. -/
theorem test_cinRsvd_k4 :
    got (exec (.cinRsvd 3) (cinAt (3 :: recordH1.tail))) (fun t => (t.ses.result, t.ports.dispValid)) =
        some (.endOfStream, false) ∧
      got (exec (.cinRsvd 3) (withParams { defaultParams with cinUnknownCmd := .asFrame } (cinAt (3 :: recordH1.tail))))
        (fun t => (t.ses.result, t.cin.idxBuf)) = some (.continue_, [0x41, 0x42, 0x42, 0x41]) := by decide +kernel
/-- 95_test_vectors.md R2: a frame rate of 0 is 30. -/
theorem test_roqHeader_r2 : got (exec (.roqHeader 0 0) (roqAt [])) (fun t => (t.ses.frameRate, t.ses.offset, t.ses.fmt)) =
    some (30, 8, .roq) := by decide +kernel
/-- 41_roq_chunks.md R166, with a 3×2 frame (3 and 2 swapped would show). -/
theorem test_roqInfo_sizes :
    got (exec (.roqInfo 8 0) (roqAt [1, 0x10, 8, 0, 0, 0, 0, 0, 3, 0, 2, 0, 0, 0, 0, 0]))
      (fun t => (t.roq.w, t.roq.h, t.roq.buf0.length, t.ses.offset)) = some (3, 2, 6, 24) := by decide +kernel
/-- 95_test_vectors.md R10. -/
theorem test_roqInfo_r10 :
    reasonAfter (exec (.roqInfo 8 0) (roqAt [1, 0x10, 8, 0, 0, 0, 0, 0, 0, 0, 0x10, 0, 0, 0, 0, 0])) =
      some (.infoZeroDim, 8) := by decide +kernel
/-- 41_roq_chunks.md R168, its example with each byte its own value. -/
theorem test_roqCodebook_entries :
    got (exec (.roqCodebook 10 0x0101) (roqAt [2, 0x10, 10, 0, 0, 0, 1, 1, 1, 2, 3, 4, 5, 6, 7, 8, 9, 10]))
      (fun t => (t.roq.cells[0], t.roq.quads[0], t.roq.n1Last, t.roq.n2Last)) =
      some (Cell.mk 1 2 3 4 5 6, Quad.mk 7 8 9 10, 1, 1) := by decide +kernel
/-- 95_test_vectors.md V7 under CB_STALE = stored: the quad-cell never loaded is the reset one, all black; the codes after it are
MOT.8. -/
theorem test_roqVq_v7 :
    got (exec (.roqVq 3 0) (withBook (framed 16 16 (roqAt [0x11, 0x10, 3, 0, 0, 0, 0, 0, 0, 0x80, 5]))))
      (fun t => (t.roq.wsel, t.roq.dispSel, t.roq.buf0[0]?, t.roq.buf1[119]?, t.roq.buf0[8]?)) =
      some (true, false, some black, some black, some Pixel.zero) := by decide +kernel
/-- 42_roq_vq.md R206. -/
theorem test_roqVq_before_info : reasonAfter (exec (.roqVq 2 0) (roqAt [0x11, 0x10, 2, 0, 0, 0, 0, 0, 0, 0])) =
    some (.vqNoInfo, 8) := by decide +kernel
/-- 95_test_vectors.md A1. -/
theorem test_roqSndMono_a1 :
    got (exec (.roqSndMono 4 0x0010) (roqAt [0x20, 0x10, 4, 0, 0, 0, 0x10, 0, 1, 2, 0x81, 0]))
      (fun t => (t.ports.audioOut.map fun r => r.data, t.roq.accL)) =
      some ([AudioData.roqPcm16 [17, 21, 20, 20]], 20) := by decide +kernel
/-- 95_test_vectors.md A9. -/
theorem test_roqSndMono_a9 :
    got (exec (.roqSndMono 4 0x0010)
        { roqAt [0x20, 0x10, 4, 0, 0, 0, 0x10, 0, 1, 2, 0x81, 0] with ses.flags.silent := true })
      (fun t => (t.ports.audioOut, t.roq.accL, t.ses.offset)) = some ([], 0, 20) := by decide +kernel
/-- 95_test_vectors.md A2. -/
theorem test_roqSndStereo_a2 :
    got (exec (.roqSndStereo 4 0x0102) (roqAt [0x21, 0x10, 4, 0, 0, 0, 2, 1, 2, 0x82, 0, 1]))
      (fun t => (t.ports.audioOut.map fun r => r.data, t.roq.accL, t.roq.accR)) =
      some ([AudioData.roqPcm16 [260, 508, 260, 509]], 260, 509) := by decide +kernel
/-- 95_test_vectors.md A6: no pair, no record, the seeds stay. -/
theorem test_roqSndStereo_a6 :
    got (exec (.roqSndStereo 1 0x1234) (roqAt [0x21, 0x10, 1, 0, 0, 0, 0x34, 0x12, 5]))
      (fun t => (t.ports.audioOut, t.roq.accL, t.roq.accR, t.ses.offset)) = some ([], 4608, 13312, 17) := by decide +kernel
/-- 95_test_vectors.md R9. -/
theorem test_roqIdent_r9 : got (exec (.roqIdent 0 0) (roqAt [0x84, 0x10, 0, 0, 0, 0, 0, 0])) (fun t => (t.ses.result, t.ses.offset)) =
    some (.endOfStream, 16) := by decide +kernel
/-- 95_test_vectors.md R5: an unknown chunk is skipped, and a negative size moves by the header alone. -/
theorem test_roqOther_r5 :
    got (exec (.roqOther 0x2000 3 0) (roqAt [0, 0x20, 3, 0, 0, 0, 0, 0, 0xAA, 0xBB, 0xCC])) (fun t => t.ses.offset) = some 19 ∧
      got (exec (.roqVq (-5) 0) (roqAt [0x11, 0x10, 0xFB, 0xFF, 0xFF, 0xFF, 0, 0])) (fun t => t.ses.offset) = some 16 := by
  decide +kernel
/-- 42_roq_vq.md R194: b = 0x80 copies from 8 pixels below, b = 0x88 from the same place. -/
theorem test_fcc8_copies :
    got (exec .fcc8 (withHistory (codeAt 0 0 [0x88]))) (shown [(0, 0), (1, 0)]) = some [some white, some Pixel.zero] ∧
      got (exec .fcc8 (withHistory (codeAt 8 8 [0xFF]))) (shown [(7, 7), (8, 8)]) = some [some Pixel.zero, some Pixel.zero] := by
  decide +kernel
/-- 95_test_vectors.md V5: a source outside the frame faults. -/
theorem test_fcc8_v5 : (reasonAfter (exec .fcc8 (codeAt 0 0 [0x99]))).map (·.1) = some .mvOutOfFrame := by decide +kernel
/-- 42_roq_vq.md R195: b = 0xC8 at (4, 0) copies from 4 to the left, b = 0x8C at (0, 4) from 4 above. -/
theorem test_fcc4_copies :
    got (exec .fcc4 (withHistory (codeAt 4 0 [0xC8]))) (shown [(4, 0), (0, 0)]) = some [some white, some Pixel.zero] ∧
      got (exec .fcc4 (withHistory (codeAt 0 4 [0x8C]))) (shown [(0, 4), (0, 0)]) = some [some white, some Pixel.zero] := by
  decide +kernel
/-- 95_test_vectors.md V2, its first code. -/
theorem test_sld8_v2 :
    got (exec .sld8 (codeAt 0 0 [2])) (shown [(0, 0), (4, 0), (0, 4), (4, 4), (6, 4), (5, 6), (7, 7), (8, 0)]) =
      some [some black, some white, some orange, some black, some (grey 85), some (grey 170), some white, some Pixel.zero] := by
  decide +kernel
/-- The quad-cell of 95_test_vectors.md V2 at native scale: 42_roq_vq.md R197. -/
theorem test_sld4_scale :
    got (exec .sld4 (codeAt 4 8 [2])) (shown [(4, 8), (6, 8), (4, 10), (6, 10), (7, 10), (6, 11), (7, 11), (8, 8)]) =
      some [some black, some white, some orange, some black, some (grey 85), some (grey 170), some white, some Pixel.zero] := by
  decide +kernel
/-- 95_test_vectors.md V2, its code 3. -/
theorem test_ccc4_v2 :
    got (exec .ccc4 (codeAt 0 8 [0, 1, 2, 3])) (shown [(0, 8), (2, 8), (0, 10), (2, 10), (3, 10), (2, 11), (3, 11)]) =
      some [some black, some white, some orange, some black, some (grey 85), some (grey 170), some white] := by decide +kernel
/-- 42_roq_vq.md R197, its corner: codes MOT, MOT, MOT, SLD fill only the bottom-right 4×4. -/
theorem test_ccc8_last_quarter :
    got (exec .ccc8 (codeAt 8 8 [0, 0x02, 1])) (shown [(8, 8), (12, 8), (8, 12), (12, 12), (15, 15)]) =
      some [some Pixel.zero, some Pixel.zero, some Pixel.zero, some white, some white] := by decide +kernel
/-- 42_roq_vq.md R192, R193. -/
theorem test_mot_keeps : exec .mot8 (codeAt 0 0 []) = .next (codeAt 0 0 []) ∧ exec .mot4 (codeAt 4 4 []) = .next (codeAt 4 4 []) :=
  ⟨rfl, rfl⟩
/-- 95_test_vectors.md, the YUV corner of CELLS[2] and the reset cell. -/
theorem test_yuv_corners : yuvPixel defaultParams.yuv 76 84 255 = orange ∧
    yuvPixel defaultParams.yuv 0 0 0 = ⟨0, 135, 0, 255⟩ := by decide +kernel

/-! ### A state for every statement with hypotheses: encoding and operand forms -/

theorem defaultParams_wf : defaultParams.wf := ⟨by decide, by decide, by decide, Nat.succ_pos _⟩

theorem witness_DecodeAfterEncode :
    defaultParams.wf ∧ (Instr.cinRsvd 3).wf defaultParams = true ∧ (Instr.roqOther 0x2000 3 0).wf defaultParams = true :=
  ⟨defaultParams_wf, by decide, by decide⟩

theorem witness_DecodedUnitsAreWellFormed :
    decode defaultParams .code4 [0xFE] = .ok (.sld4, []) ∧ unitBytes .cinStart ≤ (List.replicate 20 (0 : Byte)).length ∧
      unitBytes .cinRecord ≤ (List.replicate 4 (0 : Byte)).length ∧
      unitBytes .roqChunk ≤ (List.replicate 8 (0 : Byte)).length := by decide +kernel

/-- Both formats, the unit ending at the stream's end. -/
theorem witness_StepRunsTheDecodedUnit_step :
    ∀ s ∈ [asked .step (cinAt [2, 0, 0, 0]), asked .step (roqAt [0, 0x20, 0, 0, 0, 0, 0, 0])],
      s.requests = [.step] ∧ s.ses.faulted = false ∧
      ∃ place ∈ [Place.cinRecord, Place.roqChunk], ∃ i ∈ [Instr.cinEnd, Instr.roqOther 0x2000 0 0],
        (s.ses.fmt = .cin ∧ place = .cinRecord ∨ s.ses.fmt = .roq ∧ place = .roqChunk) ∧
        s.ses.offset.toNat + unitBytes place = s.ses.streamSize.toNat ∧
        decode s.params place (streamSpan s s.ses.offset.toNat (unitBytes place)) = .ok (i, []) ∧ i.wf s.params = true := by
  decide +kernel

theorem witness_StepRunsTheDecodedUnit_open :
    (asked (.openCin (List.replicate 20 0) noFlags) State.reset).requests = [.openCin (List.replicate 20 0) noFlags] ∧
    decode State.reset.params .cinStart (List.replicate 20 0) = .ok (.cinHeader 0 0 0 0 0, []) ∧
    (asked (.openRoq [0x84, 0x10, 0, 0, 0, 0, 0, 0] noFlags) State.reset).requests =
      [.openRoq [0x84, 0x10, 0, 0, 0, 0, 0, 0] noFlags] ∧
    decode State.reset.params .roqStart [0x84, 0x10, 0, 0, 0, 0, 0, 0] = .ok (.roqHeader 0 0, []) ∧
    (Instr.cinHeader 0 0 0 0 0).wf State.reset.params = true ∧ (Instr.roqHeader 0 0).wf State.reset.params = true ∧
    (List.replicate 20 (0 : Byte)).length < 2 ^ 32 := by decide +kernel

theorem witness_BlockRunsTheDecodedCode :
    ∃ c t, nextCode (atBlock 8 0 (codeAt 0 0 [0, 0x80])) = .done c t ∧
      decode t.params .code8 [c.zeroExtend 8] = .ok (.sld8, []) ∧ decode t.params .code4 [c.zeroExtend 8] = .ok (.sld4, []) := by
  obtain ⟨c, t, h, e⟩ := went_some (m := nextCode (atBlock 8 0 (codeAt 0 0 [0, 0x80])))
    (f := fun c t => decide (decode t.params .code8 [c.zeroExtend 8] = .ok (.sld8, []) ∧
      decode t.params .code4 [c.zeroExtend 8] = .ok (.sld4, []))) (b := true) (by decide +kernel)
  exact ⟨c, t, h, of_decide_eq_true e⟩

/-- The first code, the last one, a word in the payload's last two bytes, and the payload's end. -/
theorem witness_NextCodeTakesMsbPairFirst :
    ({ codeAt 0 0 [] with roq.flgPos := 8 }).roq.flgPos.toNat = 8 - 0 ∧
    ({ codeAt 0 0 [] with roq.flgPos := 1 }).roq.flgPos.toNat = 8 - 7 ∧
    (codeAt 0 0 [1, 2]).roq.flgPos = 0 ∧ payloadLeft 2 (codeAt 0 0 [1, 2]) ∧
    (codeAt 0 0 []).roq.flgPos = 0 ∧ (codeAt 0 0 []).roq.payEnd.toNat ≤ (codeAt 0 0 []).roq.payPos.toNat ∧
    (codeAt 0 0 [1]).roq.flgPos = 0 ∧ (codeAt 0 0 [1]).roq.payPos.toNat + 1 = (codeAt 0 0 [1]).roq.payEnd.toNat ∧
    (codeAt 0 0 [1]).roq.payEnd.toNat ≤ (codeAt 0 0 [1]).ses.streamSize.toNat := by decide +kernel

/-- The two ends of the range of a mean of -128 and of 127. -/
theorem witness_MotionByteRange :
    (∀ m ∈ [(121 : Int), 136], -7 - (128 : Byte).toInt ≤ m ∧ m ≤ 8 - (128 : Byte).toInt) ∧
    (∀ m ∈ [(-134 : Int), -119], -7 - (127 : Byte).toInt ≤ m ∧ m ≤ 8 - (127 : Byte).toInt) := by decide +kernel

theorem witness_SquareTableAndStepAdd : (127 : Byte).toNat ≤ 127 ∧ 128 ≤ (128 : Byte).toNat := by decide

/-- The last byte of the payload, and its end. -/
theorem witness_PayReadReadsOrOverruns :
    (codeAt 0 0 [5]).roq.payPos.toNat < (codeAt 0 0 [5]).roq.payEnd.toNat ∧
    (codeAt 0 0 [5]).roq.payEnd.toNat ≤ (codeAt 0 0 [5]).ses.streamSize.toNat ∧
    (codeAt 0 0 []).roq.payEnd.toNat ≤ (codeAt 0 0 []).roq.payPos.toNat := by decide +kernel

/-! ### CIN -/

/-- A stream of exactly the header and the table, rows 0 with two counts, row 1 with one. -/
def cinOpening : State :=
  { State.reset with
    stream := [(20 + 0x41, 1), (20 + 0x42, 1), (20 + 256 + 0x41, 1)], ses := { State.reset.ses with streamSize := 65556 } }

theorem witness_CinHeaderOpens : cinHeaderGood 1 1 0 0 0 cinOpening := by decide +kernel

theorem witness_CinHeaderRefuses :
    ({ cinOpening with ses.streamSize := 65555 }).ses.streamSize.toNat < 65556 ∧ (0 : Word).toInt ≤ 0 ∧
      (0xFFFFFFFF : Word).toInt < 0 := by decide +kernel

/-- No candidate at all, and the last node the only one. -/
theorem witness_SmallestPicksFirstMinimum :
    (smallest 3 State.reset).1 = none ∧
    (smallest 3 { State.reset with cin.hcount := State.reset.cin.hcount.setIfInBounds 2 1 }).1 = some 2 := by decide +kernel

/-- Rows on both sides of two symbols, in one state that opens. -/
theorem witness_BuiltForestShape : cinHeaderGood 1 1 0 0 0 cinOpening ∧ symbolsUsed cinOpening 0 = 2 ∧
    symbolsUsed cinOpening 1 = 1 := by decide +kernel

/-- A stream of the header and the row 0 of 95_test_vectors.md table T3: counts 0x10 → 3, 0x20 → 1, 0x30 → 1. -/
def openingT3 : State := { cinOpening with stream := [(20 + 0x10, 3), (20 + 0x20, 1), (20 + 0x30, 1)] }

theorem count_t3 (j : Nat) : (openingT3.stream.read (20 + 256 * (0 : Byte).toNat + j)).toNat =
    if j = 0x10 then 3 else if j = 0x20 then 1 else if j = 0x30 then 1 else 0 := by
  have h : openingT3.stream.read (20 + 256 * (0 : Byte).toNat + j) =
      if 20 + 0x10 = 20 + 0 + j then 3 else if 20 + 0x20 = 20 + 0 + j then 1 else if 20 + 0x30 = 20 + 0 + j then 1 else 0 := rfl
  rw [h]
  split_ifs <;> first | rfl | omega

/-- 95_test_vectors.md table T3: ROOT = 257, PAIR[0] = (0x20, 0x30), PAIR[1] = (256, 0x10). -/
theorem test_tree_t3 : ∃ t, exec (.cinHeader 1 1 0 0 0) openingT3 = .next t ∧ (at8 t.cin.root 0).toNat = 257 ∧
    (at8 t.cin.pair 0)[0] = (0x20, 0x30) ∧ (at8 t.cin.pair 0)[1] = (256, 0x10) := by
  have hrow := cinHeader_rows 1 1 0 0 0 openingT3 0
  refine ⟨_, execCinHeader_good (by decide +kernel), ?_⟩
  generalize (startCin (clearCinBuffers (freeCounts (buildForest (setCinHeader 1 1 0 0 0 openingT3))))).cin = c at hrow
  have hm : symbolsUsed openingT3 0 = 3 := by decide +kernel
  have hroot : (at8 c.root 0).toNat = 257 := by rw [hrow.several (by omega), hm]
  obtain ⟨count, hc, hk⟩ := hrow.tree
  have hcount : ∀ j, j < 256 → count j = if j = 0x10 then 3 else if j = 0x20 then 1 else if j = 0x30 then 1 else 0 :=
    fun j hj => by rw [hc j hj, count_t3]
  have node : ∀ {n : NodeIx} {a : Nat}, n.toNat = a → n = BitVec.ofNat 9 a := fun h => by
    rw [← h]; exact BitVec.eq_of_toNat_eq (by simp)
  have m0 := hk 0 _ (by omega) (Vector.getElem?_eq_getElem (by decide))
  have free0 : ∀ i, mergeable c 0 count 256 i ↔ i = 0x10 ∨ i = 0x20 ∨ i = 0x30 := fun i => by
    refine ⟨fun ⟨h1, h2, _⟩ => ?_, fun h => ⟨by omega, ?_, fun ⟨k, _, hk, _⟩ => by omega⟩⟩
    · rw [hcount i h1] at h2; split_ifs at h2 <;> omega
    · rw [hcount i (by omega)]; split_ifs <;> omega
  have c10 := hcount 0x10 (by decide)
  have c20 := hcount 0x20 (by decide)
  have c30 := hcount 0x30 (by decide)
  norm_num at c10 c20 c30
  have a0 : ((at8 c.pair 0)[0]).1.toNat = 0x20 := firstLeast_unique m0.first
    ⟨(free0 _).2 (by omega), fun i hi => by rcases (free0 i).1 hi with rfl | rfl | rfl <;> omega⟩
  have b0 : ((at8 c.pair 0)[0]).2.toNat = 0x30 := firstLeast_unique m0.second
    ⟨⟨(free0 _).2 (by omega), by omega⟩, fun i hi => by
      have := hi.2
      rcases (free0 i).1 hi.1 with rfl | rfl | rfl <;> omega⟩
  have c256 : count 256 = 2 := by
    have : count 256 = _ := m0.sum
    rw [a0, b0] at this
    omega
  have m1 := hk 1 _ (by omega) (Vector.getElem?_eq_getElem (by decide))
  have below : ∀ i, mergedBelow c 0 257 i ↔ i = 0x20 ∨ i = 0x30 := fun i => by
    refine ⟨fun ⟨k, kids, hk, h1, h2⟩ => ?_, fun h => ⟨0, _, by decide, Vector.getElem?_eq_getElem (by decide), ?_⟩⟩
    · obtain rfl : k = 0 := by omega
      rw [Vector.getElem?_eq_getElem (by decide), Option.some.injEq] at h1
      subst h1
      omega
    · omega
  have free1 : ∀ i, mergeable c 0 count 257 i ↔ i = 0x10 ∨ i = 256 := fun i => by
    unfold mergeable
    rw [below]
    refine ⟨fun ⟨h1, h2, h3⟩ => ?_, fun h => ⟨by omega, ?_, by omega⟩⟩
    · by_cases hi : i < 256
      · rw [hcount i hi] at h2; split_ifs at h2 <;> omega
      · omega
    · rcases h with rfl | rfl <;> omega
  have a1 : ((at8 c.pair 0)[1]).1.toNat = 256 := firstLeast_unique m1.first
    ⟨(free1 _).2 (by omega), fun i hi => by rcases (free1 i).1 hi with rfl | rfl <;> omega⟩
  have b1 : ((at8 c.pair 0)[1]).2.toNat = 0x10 := firstLeast_unique m1.second
    ⟨⟨(free1 _).2 (by omega), by omega⟩, fun i hi => by
      have := hi.2
      rcases (free1 i).1 hi.1 with rfl | rfl <;> omega⟩
  exact ⟨hroot, Prod.ext (node a0) (node b0), Prod.ext (node a1) (node b1)⟩

theorem witness_BuiltForestReachesItsSymbols : cinHeaderGood 1 1 0 0 0 cinOpening ∧ 2 ≤ symbolsUsed cinOpening 0 :=
  ⟨witness_CinHeaderOpens, by rw [witness_BuiltForestShape.2.1]⟩

theorem forestOk_ab (record : List Byte) : forestOk (cinAt record).cin := by
  intro ctx
  refine ⟨by simp [cinAt, at8], by simp [cinAt, at8], ?_⟩
  intro k hk h
  simp only [cinAt, at8, Vector.getElem_replicate] at h ⊢
  have e : (256 : NodeIx).toNat = 256 := rfl
  have e1 : (0x41 : NodeIx).toNat = 65 := rfl
  have e2 : (0x42 : NodeIx).toNat = 66 := rfl
  rw [e1, e2]
  omega

/-- Both settings of HUF_LEAF_STEP: the H1 frame, with a row its symbols never enter made degenerate, and every row degenerate. -/
def cinUnused : State :=
  { cinAt recordH1 with cin := { (cinAt recordH1).cin with root := (cinAt recordH1).cin.root.set 5 255 } }

theorem forestOk_roots {c d : CinUnit} (h : forestOk c) (hp : d.pair = c.pair)
    (hr : ∀ ctx : Byte, 255 ≤ (at8 d.root ctx).toNat ∧ (at8 d.root ctx).toNat ≤ (at8 c.root ctx).toNat) : forestOk d := by
  intro ctx
  obtain ⟨h1, h2, h3⟩ := h ctx
  obtain ⟨r1, r2⟩ := hr ctx
  refine ⟨r1, by omega, fun k hk hkr => ?_⟩
  simp only [hp]
  exact h3 k hk (by omega)

theorem witness_CinFrameDecodes :
    (forestOk cinUnused.cin ∧ leafStepsRun 4 cinUnused ∧ indexBufferHolds cinUnused ∧ frameFits 4 cinUnused) ∧
    (withParams { defaultParams with hufLeafStep := .zero } (cinZero recordH1)).params.hufLeafStep = .zero ∧
    forestOk (withParams { defaultParams with hufLeafStep := .zero } (cinZero recordH1)).cin := by
  have e255 : (255 : NodeIx).toNat = 255 := rfl
  have e256 : (256 : NodeIx).toNat = 256 := rfl
  refine ⟨⟨forestOk_roots (forestOk_ab recordH1) rfl fun ctx => ?_, by decide +kernel, by decide +kernel, by decide +kernel⟩,
    rfl, forestOk_roots (forestOk_ab recordH1) rfl fun ctx => ?_⟩
  · simp only [cinUnused, cinAt, at8, Vector.getElem_set, Vector.getElem_replicate]
    split <;> omega
  · simp only [withParams, cinZero, cinAt, at8, Vector.getElem_replicate]
    omega

/-- A palette record that ends at the stream's end. -/
def recordK1 : List Byte := [1, 0, 0, 0] ++ List.replicate 768 7 ++ [4, 0, 0, 0, 4, 0, 0, 0]

theorem witness_CinPalframeDecodes :
    forestOk (cinAt recordK1).cin ∧ leafStepsRun 772 (cinAt recordK1) ∧ indexBufferHolds (cinAt recordK1) ∧
      frameFits 772 (cinAt recordK1) :=
  ⟨forestOk_ab _, by decide +kernel, by decide +kernel, by decide +kernel⟩

/-- One byte short of the size field, one byte short of the payload, and the two sizes beside the legal ones. -/
theorem witness_CinRecordAnomalies_frame :
    (cinAt (List.replicate 7 0)).ses.streamSize.toNat < (cinAt (List.replicate 7 0)).ses.offset.toNat + 8 ∧
    (memRead32 (cinAt [0, 0, 0, 0, 4, 0, 0, 0, 0, 0, 0]) 4).toInt = 4 ∧
    (cinAt [0, 0, 0, 0, 4, 0, 0, 0, 0, 0, 0]).ses.streamSize.toNat = 11 ∧
    (memRead32 (cinAt [0, 0, 0, 0, 3, 0, 0, 0]) 4).toInt = 3 ∧
    (memRead32 (cinAt [0, 0, 0, 0, 1, 0, 2, 0]) 4).toInt = 131073 ∧
    (cinAt [0, 0, 0, 0, 3, 0, 0, 0]).ses.streamSize.toNat = 8 := by decide +kernel

theorem witness_CinRecordAnomalies_palframe :
    (cinAt (List.replicate 771 0)).ses.streamSize.toNat < 772 ∧
    (cinAt (List.replicate 772 0)).ses.streamSize.toNat = 772 ∧ (cinAt (List.replicate 772 0)).ses.streamSize.toNat < 776 ∧
    (memRead32 (cinAt (List.replicate 772 0 ++ [4, 0, 0, 0])) 772).toInt = 4 ∧
    (cinAt (List.replicate 772 0 ++ [4, 0, 0, 0])).ses.streamSize.toNat = 776 ∧
    (memRead32 (cinAt (List.replicate 772 0 ++ [3, 0, 0, 0])) 772).toInt = 3 ∧
    (memRead32 (cinAt (List.replicate 772 0 ++ [1, 0, 2, 0])) 772).toInt = 131073 := by decide +kernel

theorem witness_CinEndAndReserved :
    (cinAt [3, 0, 0, 0]).params.cinUnknownCmd = .endOfStream ∧
    (withParams { defaultParams with cinUnknownCmd := .asFrame } (cinAt [3, 0, 0, 0])).params.cinUnknownCmd = .asFrame := by
  decide +kernel

/-- Row 0x41 degenerate, every other row codes 0x41 and 0x42 (95_test_vectors.md, TABLE_AB). -/
def cinMixed (record : List Byte) : State :=
  { cinAt record with cin := { (cinAt record).cin with root := (cinAt record).cin.root.set 0x41 255 } }

/-- 95_test_vectors.md H8, the least size and pixel count that fault; a symbol reached by its bits whose own row is degenerate, in both
kinds of frame. -/
theorem witness_LeafStepFaults :
    (∀ s ∈ [cinZero [0, 0, 0, 0, 5, 0, 0, 0, 2, 0, 0, 0, 0], cinMixed [0, 0, 0, 0, 5, 0, 0, 0, 3, 0, 0, 0, 1],
        cinMixed (List.replicate 772 0 ++ [5, 0, 0, 0, 2, 0, 0, 0, 0])],
      s.params.hufLeafStep = .fault ∧ indexBufferHolds s) ∧
    frameFits 4 (cinZero [0, 0, 0, 0, 5, 0, 0, 0, 2, 0, 0, 0, 0]) ∧
    frameLeafStep 4 (cinZero [0, 0, 0, 0, 5, 0, 0, 0, 2, 0, 0, 0, 0]) = some [255] ∧
    frameFits 4 (cinMixed [0, 0, 0, 0, 5, 0, 0, 0, 3, 0, 0, 0, 1]) ∧
    frameLeafStep 4 (cinMixed [0, 0, 0, 0, 5, 0, 0, 0, 3, 0, 0, 0, 1]) = some [0x42, 0x41] ∧
    frameFits 772 (cinMixed (List.replicate 772 0 ++ [5, 0, 0, 0, 2, 0, 0, 0, 0])) ∧
    frameLeafStep 772 (cinMixed (List.replicate 772 0 ++ [5, 0, 0, 0, 2, 0, 0, 0, 0])) = some [0x41] := by decide +kernel

theorem path_ab (record : List Byte) (ctx : Byte) (b : Bool) :
    HufPath (cinAt record).cin ctx (at8 (cinAt record).cin.root ctx) [b] (if b then 0x42 else 0x41) := by
  have root : at8 (cinAt record).cin.root ctx = 256 := by simp [cinAt, at8]
  rw [root]
  refine HufPath.node 256 (by decide) (by decide) b [] _ ?_
  have kids : (at8 (cinAt record).cin.pair ctx)[(256 : NodeIx).toNat - 256] = (0x41, 0x42) := by simp [cinAt, at8]
  rw [kids]
  cases b
  · exact HufPath.leaf 0x41 (by decide)
  · exact HufPath.leaf 0x42 (by decide)

/-- The payload of 95_test_vectors.md H1 codes 41 42 42 41 as 0 1 1 0. -/
theorem witness_HuffmanRoundTrip :
    indexBufferHolds (cinAt recordH1) ∧ frameFits 4 (cinAt recordH1) ∧
    HufCodes (cinAt recordH1).cin 0 [0x41, 0x42, 0x42, 0x41] [false, true, true, false] ∧
    frameBits 4 (cinAt recordH1) = [false, true, true, false] ++ [false, false, false, false] ∧
    frameCount 4 (cinAt recordH1) = 4 := by
  refine ⟨by decide +kernel, by decide +kernel, ?_, by decide +kernel, by decide +kernel⟩
  have root (ctx : Byte) : 256 ≤ (at8 (cinAt recordH1).cin.root ctx).toNat := by simp [cinAt, at8]
  exact .cons 0 0x41 _ [false] _ (root _) (path_ab _ _ false) (.cons 0x41 0x42 _ [true] _ (root _) (path_ab _ _ true)
    (.cons 0x42 0x42 _ [true] _ (root _) (path_ab _ _ true) (.cons 0x42 0x41 _ [false] _ (root _) (path_ab _ _ false)
      (.nil _))))

/-! ### RoQ chunks -/

theorem witness_RoqHeaderOpens : (roqAt []).ses.streamSize.toNat = 8 ∧
    ({ roqAt [] with ses.streamSize := 7 }).ses.streamSize.toNat < 8 := by decide +kernel

/-- An INFO chunk of the least size whose payload ends the stream. -/
def infoChunk (w h : Byte) : State := roqAt [1, 0x10, 8, 0, 0, 0, 0, 0, w, 0, h, 0, 0, 0, 0, 0]

theorem witness_InfoFirstWins :
    chunkFits 8 (infoChunk 1 1) ∧ (infoChunk 1 1).roq.infoSeen = false ∧
    chunkPayload 8 (infoChunk 1 1) = [1, 0, 1, 0, 0, 0, 0, 0] ∧
    chunkFits 1 (framed 16 16 (infoChunk 1 1)) ∧ (framed 16 16 (infoChunk 1 1)).roq.infoSeen = true := by decide +kernel

theorem witness_InfoAndEarlyVqFaults :
    chunkFits 7 (infoChunk 1 1) ∧ chunkFits 8 (infoChunk 0 1) ∧ chunkFits 8 (infoChunk 1 0) ∧
    (infoChunk 0 1).roq.infoSeen = false ∧ chunkPayload 8 (infoChunk 0 1) = [0, 0, 1, 0, 0, 0, 0, 0] ∧
    chunkPayload 8 (infoChunk 1 0) = [1, 0, 0, 0, 0, 0, 0, 0] := by decide +kernel

/-- A codebook whose payload is exactly long enough, and one a byte too short. -/
theorem witness_CodebookLoads_and_ShortCodebookFaults :
    chunkFits 10 (roqAt (List.replicate 18 1)) ∧ 6 * codebookN1 0x0101 + 4 * codebookN2 0x0101 10 = 10 ∧
    chunkFits 9 (roqAt (List.replicate 18 1)) ∧ 6 * codebookN1 0x0101 + 4 * codebookN2 0x0101 9 = 10 := by decide +kernel

theorem witness_MonoSound_and_StereoSound :
    chunkFits 1 (roqAt (List.replicate 10 1)) ∧ chunkFits 2 (roqAt (List.replicate 10 1)) ∧
      (roqAt (List.replicate 10 1)).ses.flags.silent = false := by decide +kernel

theorem witness_SilentSoundIsSkipped :
    chunkFits 1 { roqAt (List.replicate 9 1) with ses.flags.silent := true } ∧
      ({ roqAt (List.replicate 9 1) with ses.flags.silent := true }).ses.flags.silent = true := by decide +kernel

theorem witness_IdentEndsAndOtherSkips : chunkFits 1 (roqAt (List.replicate 9 1)) := by decide +kernel

/-- Size 0, one above ROQ_MAX_SIZE, and one past the stream's end. -/
theorem witness_ChunkChecks :
    (0 : Word).toInt ≤ 0 ∧ ((roqAt []).params.roqMaxSize.toNat : Int) < (65537 : Word).toInt ∧
    0 < (2 : Word).toInt ∧ ((roqAt (List.replicate 9 1)).ses.streamSize.toNat : Int) < 8 + 8 + (2 : Word).toInt := by
  decide +kernel

/-! ### The VQ frame and its codes -/

theorem witness_MacroblocksInRasterOrder :
    (framed 1 1 State.reset).roq.infoSeen = true ∧ (framed 1 1 State.reset).roq.w ≠ 0 ∧ (framed 1 1 State.reset).roq.h ≠ 0 := by
  decide +kernel

/-- A 16×16 frame with a VQ chunk of these payload bytes at the cursor. -/
def vqChunk (payload : List Byte) : State := framed 16 16 (roqAt ([0, 0, 0, 0, 0, 0, 0, 0] ++ payload))

/-- A frame of four MOT.8, and one whose first code faults (95_test_vectors.md V5). -/
theorem witness_VqExchangesBuffers :
    (∃ t, exec (.roqVq 2 0) (vqChunk [0, 0]) = .next t ∧ t.ses.faulted = false) ∧
    (∃ t, exec (.roqVq 3 0) (vqChunk [0, 0x40, 0x99]) = .next t ∧ t.ses.faulted = true) ∧
    (∀ s ∈ [vqChunk [0, 0], vqChunk [0, 0x40, 0x99]],
      chunkFits 2 s ∧ s.roq.infoSeen = true ∧ s.ses.faulted = false ∧ buffersHold s) ∧ chunkFits 3 (vqChunk [0, 0x40, 0x99]) :=
  ⟨got_some (by decide +kernel), got_some (by decide +kernel), by decide +kernel, by decide +kernel⟩

/-- 95_test_vectors.md V7's SLD.8 with index 1, a byte that holds a VQ_FCC pair and codes no motion copy; a motion copy that stays in
the frame; and CB_STALE = fault with the last quad-cell loaded. Each uses its last payload byte. -/
theorem witness_VqCompletes_read :
    (∀ p ∈ [[0, 0x80, 1], [0, 0x40, 0x88], [0, 0x80, 2]],
      readMacroblocks (withParams { defaultParams with cbStale := .fault } (withBook (vqChunk p))) 0 0
        (macroblockOrigins (vqChunk p).roq) ⟨0, 0, chunkPayload 3 (vqChunk p)⟩ = some ⟨BitVec.ofNat 16 ((p.getD 1 0).toNat * 256), 4, []⟩ ∧
      chunkFits 3 (vqChunk p) ∧ (vqChunk p).roq.infoSeen = true ∧ (vqChunk p).roq.w ≠ 0 ∧ buffersHold (vqChunk p)) := by
  decide +kernel

/-- Exactly 70 payload bytes for the one macroblock. -/
theorem witness_VqCompletes :
    (vqChunk (List.replicate 70 0)).params.wf ∧ (vqChunk (List.replicate 70 0)).params.cbStale = .stored ∧
    chunkFits 70 (vqChunk (List.replicate 70 0)) ∧ (vqChunk (List.replicate 70 0)).roq.infoSeen = true ∧
    (vqChunk (List.replicate 70 0)).roq.w ≠ 0 ∧ buffersHold (vqChunk (List.replicate 70 0)) ∧
    (∀ b ∈ chunkPayload 70 (vqChunk (List.replicate 70 0)), noMotionCode defaultParams b) ∧
    70 * macroblocks (vqChunk (List.replicate 70 0)).roq = 70 :=
  ⟨defaultParams_wf, by decide +kernel, by decide +kernel, by decide +kernel, by decide +kernel, by decide +kernel,
    by decide +kernel, by decide +kernel⟩

/-- A reader with eight codes left, and one with exactly four. -/
theorem witness_MacroblockUsesAtMostSeventyBytes :
    ∀ p ∈ [(8 : BitVec 4), 4],
      ({ codeAt 0 0 [] with roq.flgPos := p }).roq.flgPos.toNat ≤ 8 ∧
      (∃ t, macroblock { codeAt 0 0 [] with roq.flgPos := p } = .done () t) ∧
      (∀ k, k < 4 → (0 : Half).extractLsb' (2 * (p.toNat - k) - 2) 2 = defaultParams.vqMot) := by
  intro p hp
  rcases List.mem_cons.1 hp with rfl | hp
  · refine ⟨by decide +kernel, ?_, by decide +kernel⟩
    obtain ⟨_, t, h, -⟩ := went_some (m := macroblock { codeAt 0 0 [] with roq.flgPos := 8 }) (f := fun _ _ => ()) (b := ())
      (by decide +kernel)
    exact ⟨t, h⟩
  · rcases List.mem_singleton.1 hp with rfl
    refine ⟨by decide +kernel, ?_, by decide +kernel⟩
    obtain ⟨_, t, h, -⟩ := went_some (m := macroblock { codeAt 0 0 [] with roq.flgPos := 4 }) (f := fun _ _ => ()) (b := ())
      (by decide +kernel)
    exact ⟨t, h⟩

/-- No displacement: every source is its own destination. -/
theorem witness_FccCopies :
    payloadLeft 1 (codeAt 8 8 [0x88]) ∧ buffersHold (codeAt 8 8 [0x88]) ∧
    ∀ x y, inFrame (codeAt 8 8 [0x88]).roq x y →
      sourceInFrame (codeAt 8 8 [0x88]).roq
        (8 - (((payloadByte (codeAt 8 8 [0x88]) 0).toNat / 16 : Nat) : Int) - (codeAt 8 8 [0x88]).roq.meanX.toInt)
        (8 - (((payloadByte (codeAt 8 8 [0x88]) 0).toNat % 16 : Nat) : Int) - (codeAt 8 8 [0x88]).roq.meanY.toInt) x y := by
  refine ⟨by decide +kernel, by decide +kernel, fun x y h => ?_⟩
  have mx : 8 - (((payloadByte (codeAt 8 8 [0x88]) 0).toNat / 16 : Nat) : Int) - (codeAt 8 8 [0x88]).roq.meanX.toInt = 0 := by
    decide +kernel
  have my : 8 - (((payloadByte (codeAt 8 8 [0x88]) 0).toNat % 16 : Nat) : Int) - (codeAt 8 8 [0x88]).roq.meanY.toInt = 0 := by
    decide +kernel
  rw [mx, my]
  obtain ⟨hx, hy⟩ := h
  exact ⟨by omega, by omega, by omega, by omega⟩

theorem witness_FccFaults :
    payloadLeft 1 (codeAt 0 0 [0x99]) ∧ inFrame (codeAt 0 0 [0x99]).roq 0 0 ∧
    inBlock (blkX (codeAt 0 0 [0x99])) (blkY (codeAt 0 0 [0x99])) 4 0 0 ∧
    inBlock (blkX (codeAt 0 0 [0x99])) (blkY (codeAt 0 0 [0x99])) 8 0 0 ∧
    ¬ sourceInFrame (codeAt 0 0 [0x99]).roq (8 - (((payloadByte (codeAt 0 0 [0x99]) 0).toNat / 16 : Nat) : Int) - 0)
      (8 - (((payloadByte (codeAt 0 0 [0x99]) 0).toNat % 16 : Nat) : Int) - 0) 0 0 := by decide +kernel

/-- CB_STALE = fault, the last quad-cell and cells the codebook loaded. -/
def strict (payload : List Byte) : State := withParams { defaultParams with cbStale := .fault } (codeAt 0 0 payload)

theorem witness_Sld8Draws_and_Sld4Draws :
    ∀ s ∈ [strict [2], codeAt 0 0 [255]], payloadLeft 1 s ∧ buffersHold s ∧ quadLoaded (payloadByte s 0) s := by decide +kernel

theorem witness_Ccc4Draws :
    payloadLeft 4 (strict [0, 1, 2, 3]) ∧ buffersHold (strict [0, 1, 2, 3]) ∧
      ∀ k, k < 4 → cellLoaded (payloadByte (strict [0, 1, 2, 3]) k) (strict [0, 1, 2, 3]) := by decide +kernel

/-- The first index past the latest codebook. -/
theorem witness_StaleIndexFaults :
    (strict [3]).params.cbStale = .fault ∧ payloadLeft 1 (strict [3]) ∧
    (strict [3]).roq.n2Last.toNat ≤ (payloadByte (strict [3]) 0).toNat ∧ (strict [4, 0, 0, 0]).params.cbStale = .fault ∧
    payloadLeft 4 (strict [4, 0, 0, 0]) ∧
    (strict [4, 0, 0, 0]).roq.n1Last.toNat ≤ (payloadByte (strict [4, 0, 0, 0]) 0).toNat := by decide +kernel

/-- The quad-cell (0, 1, 2, 3) of a codebook of `n` cells, its cell `n` the first stale one; and CCC.4 with its last index stale. -/
theorem witness_StaleIndexFaults_cells :
    (∀ n ∈ [0, 1, 2, 3],
      let s := { strict [2] with roq.n1Last := BitVec.ofNat 9 n }
      buffersHold s ∧ payloadLeft 1 s ∧ s.params.cbStale = .fault ∧ (payloadByte s 0).toNat < s.roq.n2Last.toNat ∧ n < 4 ∧
      (∀ j, j < n → cellLoaded (quadCell (at8 s.roq.quads (payloadByte s 0)) (j % 2) (j / 2)) s) ∧
      s.roq.n1Last.toNat ≤ (quadCell (at8 s.roq.quads (payloadByte s 0)) (n % 2) (n / 2)).toNat) ∧
    payloadLeft 4 (strict [0, 1, 2, 4]) ∧
    (∀ j, j < 3 → cellLoaded (quadCell (Quad.mk 0 1 2 4) (j % 2) (j / 2)) (strict [0, 1, 2, 4])) ∧
    (strict [0, 1, 2, 4]).roq.n1Last.toNat ≤ (quadCell (Quad.mk 0 1 2 4) (3 % 2) (3 / 2)).toNat := by decide +kernel

/-- 41_roq_chunks.md R169, 00_scope.md R12: CCC.4 whose third index is stale has drawn two cells, and faults. -/
theorem test_ccc4_stale :
    got (exec .ccc4 (strict [1, 2, 4, 0])) (fun t => (t.ses.faultReason, shown [(0, 0), (2, 0), (0, 2), (2, 2)] t)) =
      some (.cbStale, [some white, some orange, some Pixel.zero, some Pixel.zero]) := by decide +kernel

/-- No byte left, then the least and the most bytes that are still too few. -/
theorem witness_CodesOverrunThePayload :
    (codeAt 0 0 []).roq.payEnd.toNat ≤ (codeAt 0 0 []).roq.payPos.toNat ∧ (codeAt 0 0 []).roq.flgPos = 0 ∧
    (∀ left ∈ [1, 3], let s := codeAt 0 0 (List.replicate left 1)
      s.roq.payPos.toNat + left = s.roq.payEnd.toNat ∧ s.roq.payEnd.toNat ≤ s.ses.streamSize.toNat ∧ s.roq.flgPos = 0) := by
  decide +kernel

/-- Exactly 18 payload bytes; and four SLD.4 with index 1, whose bytes hold a VQ_FCC pair, at the last block below 2^32. -/
theorem witness_Ccc8Subdivides :
    ((codeAt 0 0 (List.replicate 18 0)).params.wf ∧ (codeAt 0 0 (List.replicate 18 0)).params.cbStale = .stored ∧
    buffersHold (codeAt 0 0 (List.replicate 18 0)) ∧ payloadLeft 18 (codeAt 0 0 (List.replicate 18 0)) ∧
    (codeAt 0 0 (List.replicate 18 0)).roq.flgPos.toNat ≤ 8 ∧ noMotionCode defaultParams ((0 : Half).extractLsb' 0 8) ∧
    noMotionCode defaultParams ((0 : Half).extractLsb' 8 8) ∧
    (∀ k, k < 18 → noMotionCode defaultParams (payloadByte (codeAt 0 0 (List.replicate 18 0)) k))) ∧
    (let s := codeAt (2 ^ 32 - 8) (2 ^ 32 - 8) [0, 0xAA, 1, 1, 1, 1]
    buffersHold s ∧ s.roq.payEnd.toNat ≤ s.ses.streamSize.toNat ∧ blkX s + 8 = 2 ^ 32 ∧ blkY s + 8 = 2 ^ 32 ∧
    readQuarters s s.roq.meanX s.roq.meanY (blkX s) (blkY s) (codeReader s) = some ⟨0xAA00, 4, []⟩) :=
  ⟨⟨defaultParams_wf, by decide +kernel, by decide +kernel, by decide +kernel, by decide +kernel, by decide +kernel,
    by decide +kernel, by decide +kernel⟩, by decide +kernel⟩

/-! ### The host's transactions -/

theorem witness_ResetClearsTheBlock : (asked .reset (vqChunk [0, 0])).requests = .reset :: [] := rfl

/-- Every way to fail, at its boundary, and the shortest RoQ stream. -/
theorem witness_OpenSucceedsOrRefuses :
    (asked (.openCin (List.replicate 7 0) noFlags) State.reset).requests = [.openCin (List.replicate 7 0) noFlags] ∧
    (fieldAt [0, 0, 0, 0] 0).toInt ≤ 0 ∧ (fieldAt [0, 0, 0, 0, 0, 0, 0, 0x80] 4).toInt ≤ 0 ∧
    (fieldAt [0xFF, 0xFF, 0xFF, 0xFF] 0).toInt < 0 ∧
    (asked (.openRoq [0x84, 0x10, 0, 0, 0, 0, 0] noFlags) State.reset).requests =
      [.openRoq [0x84, 0x10, 0, 0, 0, 0, 0] noFlags] ∧
    ([0x84, 0x10, 0, 0, 0, 0, 0] : List Byte).length < 8 ∧ le16 0x85 0x10 ≠ State.reset.params.roqIdent ∧
    8 ≤ ([0x84, 0x10, 0, 0, 0, 0, 0, 0] : List Byte).length ∧ le16 0x84 0x10 = State.reset.params.roqIdent := by decide +kernel

/-- A faulted session: its OPEN answered OK, its first STEP FAULT (95_test_vectors.md P4). -/
def faultedAt (op : HostOp) : State :=
  asked op { roqAt [] with ses := afterFault .vqNoInfo (roqAt []), replies := [.ok, .fault] }

theorem witness_FaultIsSticky :
    (∀ op ∈ [HostOp.step, .rewind, .readStatus], (faultedAt op).ses.faulted = true ∧ (faultedAt op).requests = [op] ∧
      op.closes = false ∧ (faultedAt op).runStart ≤ (faultedAt op).replies.length) ∧
    (∃ t, step (faultedAt .step) = .next t ∧ t.replies = [.ok, .fault, .fault]) ∧
    (∃ t, step (faultedAt .reset) = .next t ∧ t.replies = [.ok, .fault, .ok]) ∧ HostOp.reset.closes = true ∧
    (∃ t, step (faultedAt (.openRoq [] noFlags)) = .next t ∧ t.replies = [.ok, .fault, .openFail]) ∧
    (HostOp.openRoq [] noFlags).closes = true :=
  ⟨by decide +kernel, got_some (by decide +kernel), got_some (by decide +kernel), rfl, got_some (by decide +kernel), rfl⟩

/-- 95_test_vectors.md P4: the run that holds the FAULT is refused, and the run from the RESET onward is well defined. -/
theorem test_runs_p4 :
    got (step (faultedAt .step)) observation = some none ∧ got (step (faultedAt .reset)) observation = some (some [.ok]) ∧
    got (step { faultedAt .step with ses := State.reset.ses, runStart := 2, replies := [.ok, .fault, .ok] }) observation =
      some (some [.ok, .endOfStream]) := by decide +kernel

theorem witness_RewindKeepsTheRest :
    (asked .rewind State.reset).ses.fmt = .none ∧ (asked .rewind (roqAt [])).ses.fmt ≠ .none ∧
    ∀ s ∈ [asked .rewind State.reset, asked .rewind (roqAt [])], s.requests = [.rewind] ∧ s.ses.faulted = false := by
  decide +kernel

theorem witness_PortReads :
    (asked .readFrame State.reset).ports.dispValid = false ∧
    (∀ s ∈ [{ asked .readFrame (cinAt []) with ports.dispValid := true }, { asked .readFrame (vqChunk []) with ports.dispValid := true }],
      s.requests = [.readFrame] ∧ s.ports.dispValid = true ∧ s.ses.faulted = false ∧ (s.ses.fmt = .cin ∨ s.ses.fmt = .roq)) ∧
    (asked .drainAudio State.reset).ports.audioOut = [] ∧
    (audioOut (AudioRecord.mk 0 2 1 (.roqPcm16 [1])) (asked .drainAudio (roqAt []))).ports.audioOut =
      AudioRecord.mk 0 2 1 (.roqPcm16 [1]) :: [] ∧
    (asked .readStatus State.reset).requests = [.readStatus] := by decide +kernel

/-- No session, the stream's end, and one byte short of a command and of a chunk header. -/
theorem witness_IdleAndEndedSteps :
    (asked .step State.reset).ses.fmt = .none ∧ (asked .step (roqAt [])).ses.offset = (asked .step (roqAt [])).ses.streamSize ∧
    (asked .step (roqAt [])).requests = [.step] ∧ (asked .step (roqAt [])).ses.faulted = false ∧ State.reset.requests = [] ∧
    (asked .step (cinAt [0, 0, 0])).ses.fmt = .cin ∧
    (asked .step (cinAt [0, 0, 0])).ses.streamSize.toNat + 1 =
      (asked .step (cinAt [0, 0, 0])).ses.offset.toNat + unitBytes .cinRecord ∧
    (asked .step (roqAt (List.replicate 7 0))).ses.fmt = .roq ∧
    (asked .step (roqAt (List.replicate 7 0))).ses.streamSize.toNat + 1 =
      (asked .step (roqAt (List.replicate 7 0))).ses.offset.toNat + unitBytes .roqChunk := by
  decide +kernel

/-- 40_huffman.md R138 and 41_roq_chunks.md R162: a cut-off command and a cut-off chunk header end the stream. -/
theorem test_cut_off_headers :
    got (step (asked .step (cinAt [0, 0, 0]))) (fun t => (t.replies, t.ses.offset)) = some ([.endOfStream], 3) ∧
    got (step (asked .step (roqAt (List.replicate 7 0)))) (fun t => (t.replies, t.ses.offset)) = some ([.endOfStream], 15) := by
  decide +kernel

/-! ### The whole machine -/

/-- A RoQ session at a chunk that faults: VQ before INFO. -/
theorem witness_FaultKeepsTheCursor :
    (asked .step (roqAt [0x11, 0x10, 2, 0, 0, 0, 0, 0, 0, 0])).ses.faultReason = .none ∧
    ∃ t, step (asked .step (roqAt [0x11, 0x10, 2, 0, 0, 0, 0, 0, 0, 0])) = .next t ∧ t.ses.faulted = true :=
  ⟨rfl, got_some (by decide +kernel)⟩

/-- A RoQ session at an empty chunk of an unknown id, with these requests. -/
def skipping (ops : List HostOp) : State := { roqAt [0, 0x20, 0, 0, 0, 0, 0, 0] with requests := ops }

theorem witness_StreamAndParametersStay :
    (∃ t, step (skipping [.step]) = .next t ∧ t.replies = [.continue_]) ∧
      ∀ op rest, (skipping [.step]).requests = op :: rest → op.closes = false :=
  ⟨got_some (by decide +kernel), by rintro op rest h; cases h; rfl⟩

theorem witness_UnitsStayApart :
    (∃ t, step (skipping [.step]) = .next t ∧ t.ses.fmt = .roq) ∧
      (∃ t, step (asked .step (cinAt recordH1)) = .next t ∧ t.ses.fmt = .cin) :=
  ⟨got_some (by decide +kernel), got_some (by decide +kernel)⟩

theorem inv_skipping (ops : List HostOp) : Inv (skipping ops) where
  params := defaultParams_wf
  stream := (by decide +kernel : Memory.wf [(9, 0x20)] ∧ ∀ c ∈ [((9 : Nat), (0x20 : Byte))], c.1 < 16)
  cursor := (by decide : (8 : Word).toNat ≤ (16 : Word).toNat ∧ (8 : Word).toNat ≤ (16 : Word).toNat)
  faulted := ⟨⟨(nomatch ·), fun h => absurd rfl h⟩, (nomatch ·)⟩
  idle := nofun
  cin := nofun
  frame := nofun
  noFrame := fun _ => ⟨rfl, rfl, rfl, rfl⟩
  shown := nofun
  counts := ⟨Nat.zero_le _, Nat.zero_le _⟩
  ranges := ⟨Nat.zero_le _, Nat.zero_le _⟩
  run := ⟨Nat.le_refl 0, ⟨fun _ => rfl, fun _ => List.not_mem_nil⟩⟩

theorem inv_cinAt : Inv (asked .step (cinAt recordH1)) where
  params := defaultParams_wf
  stream := by decide +kernel
  cursor := by decide +kernel
  faulted := ⟨⟨(nomatch ·), fun h => absurd rfl h⟩, (nomatch ·)⟩
  idle := nofun
  cin := fun _ => ⟨forestOk_ab recordH1, by decide, by decide, by decide, by decide, by decide, by decide, by decide⟩
  frame := nofun
  noFrame := fun _ => ⟨rfl, rfl, rfl, rfl⟩
  shown := nofun
  counts := ⟨Nat.zero_le _, Nat.zero_le _⟩
  ranges := ⟨Nat.zero_le _, Nat.zero_le _⟩
  run := ⟨Nat.le_refl 0, ⟨fun _ => rfl, fun _ => List.not_mem_nil⟩⟩

theorem witness_ContinueAdvances :
    Inv (skipping [.step]) ∧ Inv (asked .step (cinAt recordH1)) ∧
    (∃ t, step (skipping [.step]) = .next t ∧ t.replies = [.continue_]) ∧
      ∃ t, step (asked .step (cinAt recordH1)) = .next t ∧ t.replies = [.continue_] :=
  ⟨inv_skipping _, inv_cinAt, got_some (by decide +kernel), got_some (by decide +kernel)⟩

theorem witness_StepsEndWithinTheStream :
    Inv (skipping (List.replicate 17 .step)) ∧
      (skipping (List.replicate 17 .step)).requests =
        List.replicate ((skipping (List.replicate 17 .step)).ses.streamSize.toNat + 1) .step :=
  ⟨inv_skipping _, rfl⟩

theorem witness_EveryStepKeepsTheInvariant :
    Inv (skipping [.step]) ∧ (∃ t, step (skipping [.step]) = .next t ∧ t.ses.offset = 16) ∧
    Inv (asked .step (cinAt recordH1)) ∧ ∃ t, step (asked .step (cinAt recordH1)) = .next t ∧ t.ses.offset = 13 :=
  ⟨inv_skipping _, got_some (by decide +kernel), inv_cinAt, got_some (by decide +kernel)⟩

theorem witness_TheMachineNeverStops : Inv (skipping [.step]) ∧ Inv (asked .step (cinAt recordH1)) :=
  ⟨inv_skipping _, inv_cinAt⟩

end Sys2Proof.Tests
end

section
/-! The statements of 30_encoding.md: operand forms, the code reader, the reserved CIN commands, the macroblock order and SLD.4. -/

namespace Sys2Proof.Machine

/-! ### Motion bytes -/

theorem motionX_eq (mean b : Byte) : motionX mean b = 8 - ((b.toNat / 16 : Nat) : Int) - mean.toInt := by
  have hb := b.isLt
  have nibble : (b.extractLsb' 4 4).toNat = b.toNat / 16 := by
    rw [BitVec.extractLsb'_toNat, Nat.shiftRight_eq_div_pow]
    omega
  rw [motionX, nibble]

theorem motionY_eq (mean b : Byte) : motionY mean b = 8 - ((b.toNat % 16 : Nat) : Int) - mean.toInt := by
  rw [motionY, BitVec.extractLsb'_toNat, Nat.shiftRight_zero]

theorem motionX_bounds (mean b : Byte) : -7 - mean.toInt ≤ motionX mean b ∧ motionX mean b ≤ 8 - mean.toInt := by
  have hb := b.isLt
  rw [motionX_eq]
  omega

theorem motionY_bounds (mean b : Byte) : -7 - mean.toInt ≤ motionY mean b ∧ motionY mean b ≤ 8 - mean.toInt := by
  rw [motionY_eq]
  omega

/-- The byte of two nibbles displaces by each of them (30_encoding.md R102). -/
theorem motion_of_nibbles (mean : Byte) {hi lo : Nat} (hhi : hi < 16) (hlo : lo < 16) :
    motionX mean (BitVec.ofNat 8 (16 * hi + lo)) = 8 - (hi : Int) - mean.toInt ∧
      motionY mean (BitVec.ofNat 8 (16 * hi + lo)) = 8 - (lo : Int) - mean.toInt := by
  have hb : (BitVec.ofNat 8 (16 * hi + lo)).toNat = 16 * hi + lo := by
    rw [BitVec.toNat_ofNat]
    omega
  rw [motionX_eq, motionY_eq, hb]
  omega

/-- Settles O7: each nibble is in 0..15, and a displacement in range names its nibble, 8 less the displacement and the mean. -/
theorem motionByteRange : Obligations.MotionByteRange := by
  intro mean
  refine ⟨fun b => ?_, fun mx my hx hx' hy hy' => ?_⟩
  · obtain ⟨lx, ux⟩ := motionX_bounds mean b
    obtain ⟨ly, uy⟩ := motionY_bounds mean b
    exact ⟨motionX_eq mean b, motionY_eq mean b, lx, ux, ly, uy⟩
  · obtain ⟨ex, ey⟩ := motion_of_nibbles mean (hi := (8 - mean.toInt - mx).toNat) (lo := (8 - mean.toInt - my).toNat)
      (by omega) (by omega)
    exact ⟨_, by rw [ex]; omega, by rw [ey]; omega⟩

/-! ### The code reader -/

/-- The code at position `8 - i` of a flag word is its pair `i`, counted from the top (30_encoding.md R100). -/
theorem flagCode_eq (flg : Half) {pos : BitVec 4} {i : Nat} (hi : i ≤ 7) (hpos : pos.toNat = 8 - i) :
    flagCode flg pos = flg.extractLsb' (14 - 2 * i) 2 := by
  rw [flagCode, hpos, show 2 * (8 - i) - 2 = 14 - 2 * i by omega]

/-- The first code of a new flag word is the top pair of the second byte read (30_encoding.md R100, 20_memory.md R65). -/
theorem flagCode_le16 (lo hi : Byte) : flagCode (le16 lo hi) 8 = hi.extractLsb' 6 2 := by
  apply BitVec.eq_of_toNat_eq
  have h8 : (8 : BitVec 4).toNat = 8 := rfl
  rw [flagCode, h8, BitVec.extractLsb'_toNat, BitVec.extractLsb'_toNat, le16_toNat, Nat.shiftRight_eq_div_pow,
    Nat.shiftRight_eq_div_pow]
  have := lo.isLt
  omega

/-- An empty reader raises what the read of its flag word raises, in the state that read leaves (42_roq_vq.md R191). -/
theorem nextCode_of_raised {s t : State} {r : FaultReason} (h : s.roq.flgPos = 0) (hr : payRead16 s = .raised r t) :
    nextCode s = .raised r t := by
  rw [nextCode, refillFlags, if_pos h, hr, bind_raised, bind_raised]

/-- Settles O6, by the reader's four cases: codes left, two payload bytes left, none, one. -/
theorem nextCodeTakesMsbPairFirst : Obligations.NextCodeTakesMsbPairFirst := by
  refine ⟨fun s i hi hpos => ?_, fun s h0 hleft => ?_, fun s h0 hend => ?_, fun s h0 hone hin => ?_⟩
  · have hne : s.roq.flgPos ≠ 0 := by
      intro h
      rw [h] at hpos
      change 0 = 8 - i at hpos
      omega
    have hpred : s.roq.flgPos - 1 = BitVec.ofNat 4 (7 - i) := by
      have := flgPos_pred hne
      apply BitVec.eq_of_toNat_eq
      rw [BitVec.toNat_ofNat]
      omega
    rw [nextCode_of_codes hne, flagCode_eq _ hi hpos, hpred]
  · rw [nextCode_of_empty h0 hleft, flagCode_le16]
    rfl
  · refine nextCode_of_raised h0 ?_
    rw [payRead16, payRead_of_none hend, bind_raised]
  · exact nextCode_of_raised h0 (payRead16_short (l := 1) ⟨hone, hin⟩ (by omega))

/-! ### CIN.END and CIN.RSVD -/

theorem anomaly_eq (s : State) : anomaly s = { s with ses := afterEnd s } := rfl

theorem execCinEnd_eq (s : State) : execCinEnd s = .next { s with ses := afterEnd s } := rfl

theorem execCinRsvd_of_endOfStream (cmd : Word) {s : State} (h : s.params.cinUnknownCmd = .endOfStream) :
    execCinRsvd cmd s = .next { s with ses := afterEnd s } := by
  rw [execCinRsvd, h, ← anomaly_eq]

theorem execCinRsvd_of_asFrame (cmd : Word) {s : State} (h : s.params.cinUnknownCmd = .asFrame) :
    execCinRsvd cmd s = execCinFrame s := by
  rw [execCinRsvd, h, execCinFrame]

/-- Settles O21: one meaning per setting of CIN_UNKNOWN_CMD. -/
theorem cinEndAndReserved : Obligations.CinEndAndReserved := fun cmd s =>
  ⟨execCinEnd_eq s, execCinRsvd_of_endOfStream cmd, execCinRsvd_of_asFrame cmd⟩

/-! ### The macroblock order -/

/-- A VQ chunk after the first INFO: the loop over the macroblocks, then the end of the frame (42_roq_vq.md R190, R206). -/
theorem vqOp_of_info (arg : Half) {s : State} (h : s.roq.infoSeen = true) :
    vqOp arg s = (vqLoop (macroblocks s.roq) (vqStart arg s)).bind fun _ t => .done () (frameEnd t) := by
  rw [vqOp, if_neg (by rw [h]; decide)]

/-- Settles O34, by the walk the macroblock loop is (`vqLoop_frame`, an induction on the loop). -/
theorem macroblocksInRasterOrder : Obligations.MacroblocksInRasterOrder := by
  refine ⟨fun arg s hinfo hw _ => ?_, fun s => rfl⟩
  have walk := vqLoop_frame (s := vqStart arg s) hw rfl rfl
  rw [vqOp_of_info arg hinfo, show macroblocks s.roq = macroblocks (vqStart arg s).roq from rfl, walk, bind_assoc]
  rfl

/-! ### SLD.4 -/

/-- SLD.4 with its index and its quad-cell loaded reads one byte and paints the 4×4 block (42_roq_vq.md R197, R201). -/
theorem sld4_paints {s : State} (hleft : payloadLeft 1 s) (hold : buffersHold s) (hq : quadLoaded (payloadByte s 0) s) :
    ∃ t, sld4 s = .done () t ∧
      Paints (fun x y => if inBlock (blkX s) (blkY s) 4 x y then
        some (cellPixel s.params.yuv
          (at8 s.roq.cells (quadCell (at8 s.roq.quads (payloadByte s 0)) ((x - blkX s) / 2) ((y - blkY s) / 2)))
          ((x - blkX s) % 2) ((y - blkY s) % 2)) else none) (payAdvance 1 s) t := by
  obtain ⟨hquad, h0, h1, h2, h3⟩ := hq
  obtain ⟨t, ht, hp⟩ := drawFour_paints (s := payAdvance 1 s) hold (blkX s) (blkY s)
    (at8 s.roq.quads (payloadByte s 0)) h0 h1 h2 h3
  refine ⟨t, ?_, hp⟩
  rw [sld4, payRead_of_left hleft, bind_done, quadAt_of_loaded (s := payAdvance 1 s) hquad, bind_done]
  exact ht

/-- Settles O42: what SLD.4 paints, over the pixels that were there. -/
theorem sld4Draws : Obligations.Sld4Draws := by
  intro s hleft hold hq
  obtain ⟨t, ht, hp⟩ := sld4_paints hleft hold hq
  refine ⟨t, ?_, hp.drawn.congr fun x y _ => or_of_ite _ _ fun _ => rfl⟩
  rw [exec_sld4, execSld4, ht, outcome_done]

end Sys2Proof.Machine
end

section
/-! The statement of 41_roq_chunks.md on sizes: the empty chunk, the oversized one and the one cut off by the stream's end. -/

namespace Sys2Proof.Machine

/-! ### The size checks of a chunk -/

/-- Every chunk operation but ROQ.IDENT is the one chunk step around an operation of its own (41_roq_chunks.md R161). -/
theorem exec_eq_chunkStep {id : Half} {size : Word} {arg : Half} {i : Instr}
    (hi : i ∈ [Instr.roqInfo size arg, .roqCodebook size arg, .roqVq size arg, .roqSndMono size arg,
      .roqSndStereo size arg, .roqOther id size arg]) :
    ∃ op : State → Run Unit, ∀ s, exec i s = (chunkStep size op s).outcome := by
  simp only [List.mem_cons, List.not_mem_nil, or_false] at hi
  rcases hi with rfl | rfl | rfl | rfl | rfl | rfl
  · exact ⟨infoOp, fun _ => rfl⟩
  · exact ⟨codebookOp size arg, fun _ => rfl⟩
  · exact ⟨vqOp arg, fun _ => rfl⟩
  · exact ⟨monoOp size arg, fun _ => rfl⟩
  · exact ⟨stereoOp size arg, fun _ => rfl⟩
  · exact ⟨fun s => .done () s, fun _ => rfl⟩

/-- An empty chunk goes on past its header, whatever its operation (41_roq_chunks.md R164). -/
theorem chunkStep_outcome_empty {size : Word} (op : State → Run Unit) (s : State) (h : size.toInt ≤ 0) :
    (chunkStep size op s).outcome = .next { s with ses := { s.ses with
      offset := s.ses.offset + 8, stepCount := s.ses.stepCount + 1, result := .continue_ } } := by
  have past_header : BitVec.ofNat 32 (s.ses.offset.toNat + 8) = s.ses.offset + 8 := by bv_omega
  rw [chunkStep_empty h, outcome_done, past_header]
  rfl

/-- A chunk above ROQ_MAX_SIZE, or with a payload that the stream does not hold, is an anomaly (41_roq_chunks.md R163). -/
theorem chunkStep_outcome_unfit {size : Word} (op : State → Run Unit) {s : State}
    (h : (s.params.roqMaxSize.toNat : Int) < size.toInt ∨
      0 < size.toInt ∧ (s.ses.streamSize.toNat : Int) < s.ses.offset.toNat + 8 + size.toInt) :
    (chunkStep size op s).outcome = .next { s with ses := afterEnd s } := by
  have ends : chunkStep size op s = .done () (anomaly s) := by
    obtain large | ⟨hpos, cut⟩ := h
    · exact chunkStep_too_large large
    · exact chunkStep_truncated hpos (by push_cast; omega)
  rw [ends, outcome_done, anomaly_eq]

/-- Settles O33, for the one chunk step that all six operations share. -/
theorem chunkChecks : Obligations.ChunkChecks := by
  intro id size arg s i hi
  obtain ⟨op, hop⟩ := exec_eq_chunkStep hi
  rw [hop]
  exact ⟨chunkStep_outcome_empty op s, chunkStep_outcome_unfit op⟩

end Sys2Proof.Machine
end

section
/-! The statements of 42_roq_vq.md on MOT.8, MOT.4 and SLD.8. -/

namespace Sys2Proof.Machine

/-! ### MOT.8 and MOT.4 -/

theorem execMot8_eq (s : State) : execMot8 s = .next s := rfl

theorem execMot4_eq (s : State) : execMot4 s = .next s := rfl

/-- Settles O38: neither code does anything at all. -/
theorem motKeepsTheBlock : Obligations.MotKeepsTheBlock := fun s =>
  ⟨(exec_mot8 s).trans (execMot8_eq s), (exec_mot4 s).trans (execMot4_eq s)⟩

/-! ### SLD.8 -/

/-- SLD.8 with its quad-cell loaded takes one byte and draws that quad-cell at the block in hand (42_roq_vq.md R196). -/
theorem sld8_of_loaded {s : State} (hleft : payloadLeft 1 s)
    (hquad : s.params.cbStale = .fault → (payloadByte s 0).toNat < s.roq.n2Last.toNat) :
    sld8 s = drawFourX2 (blkX s) (blkY s) (at8 s.roq.quads (payloadByte s 0)) (payAdvance 1 s) := by
  rw [sld8, payRead_of_left hleft, bind_done, quadAt_of_loaded (s := payAdvance 1 s) hquad, bind_done]
  rfl

/-- Settles O41: what four cells at double scale paint after the byte is read, over the pixels that were there. -/
theorem sld8Draws : Obligations.Sld8Draws := by
  intro s hleft hold ⟨hquad, h0, h1, h2, h3⟩
  obtain ⟨t, ht, hp⟩ := drawFourX2_paints (s := payAdvance 1 s) hold (blkX s) (blkY s)
    (at8 s.roq.quads (payloadByte s 0)) h0 h1 h2 h3
  refine ⟨t, ?_, hp.drawn.congr fun x y _ => or_of_ite _ _ fun _ => rfl⟩
  rw [exec_sld8, execSld8, sld8_of_loaded hleft hquad, ht, outcome_done]

end Sys2Proof.Machine
end

section
/-! The statement of 43_yuv_rgb.md on the converter. -/

namespace Sys2Proof.Machine

/-- A clamped value fits a byte, so that the byte holds it unchanged (00_scope.md R10). -/
theorem clampByte_toNat (z : Int) : ((clampByte z).toNat : Int) = max 0 (min 255 z) := by
  rw [clampByte, BitVec.toNat_ofInt]
  omega

/-- A cell's four pixels are its samples at the four offsets of its block, row by row (30_encoding.md R96). -/
theorem yuvCell_eq_cellPixels (t : YuvTables) (c : Cell) :
    yuvCell t c = (cellPixel t c 0 0, cellPixel t c 1 0, cellPixel t c 0 1, cellPixel t c 1 1) := rfl

/-- Settles O9: each channel is one clamp of the whole sum. -/
theorem yuvPixelClampsOnce : Obligations.YuvPixelClampsOnce :=
  ⟨fun _ _ _ _ => ⟨clampByte_toNat _, clampByte_toNat _, clampByte_toNat _, rfl⟩, yuvCell_eq_cellPixels⟩

end Sys2Proof.Machine
end

section
/-! The statement of 44_roq_audio.md on the square table and the accumulator's addition. -/

namespace Sys2Proof.Machine

/-! ### SQR -/

theorem sqr_of_le {b : Byte} (hb : b.toNat ≤ 127) : sqr b = (b.toNat : Int) * b.toNat :=
  if_pos (by omega)

theorem sqr_of_ge {b : Byte} (hb : 128 ≤ b.toNat) :
    sqr b = -(((b.toNat : Int) - 128) * ((b.toNat : Int) - 128)) :=
  if_neg (by omega)

/-- The square of a seven-bit index lies between 0 and 127 * 127. -/
theorem sevenBit_mul_self_bounds {k : Int} (h0 : 0 ≤ k) (h127 : k ≤ 127) : 0 ≤ k * k ∧ k * k ≤ 16129 :=
  ⟨mul_self_nonneg k, mul_self_le_mul_self h0 h127⟩

/-- In each half of the table the entry is a seven-bit square, up to its sign. -/
theorem sqr_bounds (b : Byte) : -16129 ≤ sqr b ∧ sqr b ≤ 16129 := by
  obtain hlow | hhigh : b.toNat ≤ 127 ∨ 128 ≤ b.toNat := by omega
  · have := sevenBit_mul_self_bounds (k := b.toNat) (by omega) (by omega)
    rw [sqr_of_le hlow]
    omega
  · have := sevenBit_mul_self_bounds (k := b.toNat - 128) (by omega) (by omega)
    rw [sqr_of_ge hhigh]
    omega

/-! ### STEP_ADD -/

theorem stepAdd_wrap16_toInt (a : Half) (d : Int) : (stepAdd .wrap16 a d).toInt = (a.toInt + d).bmod (2 ^ 16) :=
  BitVec.toInt_ofInt _

/-- A clamped sum fits 16 bits, so that the accumulator holds it unchanged. -/
theorem stepAdd_clamp16_toInt (a : Half) (d : Int) :
    (stepAdd .clamp16 a d).toInt = max (-32768) (min 32767 (a.toInt + d)) := by
  rw [stepAdd, BitVec.toInt_ofInt, Int.bmod_eq_of_le (by omega) (by omega)]
  omega

/-- Settles O11: the table half by half, the addition setting by setting. -/
theorem squareTableAndStepAdd : Obligations.SquareTableAndStepAdd :=
  ⟨fun b => ⟨sqr_of_le, sqr_of_ge, sqr_bounds b⟩,
    fun a d => ⟨stepAdd_wrap16_toInt a d, stepAdd_clamp16_toInt a d⟩⟩

end Sys2Proof.Machine
end

section
/-! The statement of 60_exceptions.md on the opens that fail, with what each OPEN does before and after the header parse. -/

namespace Sys2Proof.Machine

/-! ### Headers long enough to decode, and headers cut off -/

theorem drop_eq_getD_cons {bytes : List Byte} {k : Nat} (h : k < bytes.length) :
    bytes.drop k = bytes.getD k 0 :: bytes.drop (k + 1) := by
  rw [List.drop_eq_getElem_cons h, List.getD_eq_getElem _ _ h]

/-- Two bytes of a stream are the bytes of the 16-bit field there (20_memory.md R63). -/
theorem drop_eq_bytes16_append {bytes : List Byte} {k : Nat} (h : k + 2 ≤ bytes.length) :
    bytes.drop k = bytes16 (le16 (bytes.getD k 0) (bytes.getD (k + 1) 0)) ++ bytes.drop (k + 2) := by
  rw [bytes16_le, drop_eq_getD_cons (by omega), drop_eq_getD_cons (by omega)]
  rfl

/-- Four bytes of a stream are the bytes of the 32-bit field there (20_memory.md R63). -/
theorem drop_eq_bytes32_append {bytes : List Byte} {k : Nat} (h : k + 4 ≤ bytes.length) :
    bytes.drop k = bytes32 (fieldAt bytes k) ++ bytes.drop (k + 4) := by
  rw [fieldAt, bytes32_le, drop_eq_getD_cons (by omega), drop_eq_getD_cons (by omega), drop_eq_getD_cons (by omega),
    drop_eq_getD_cons (by omega)]
  rfl

/-- The five fields of the CIN file header stand one after the other (30_encoding.md R80). -/
theorem decode_cinStart_of_le (p : Params) {bytes : List Byte} (h : 20 ≤ bytes.length) :
    decode p .cinStart bytes = .ok (.cinHeader (fieldAt bytes 0) (fieldAt bytes 4) (fieldAt bytes 8) (fieldAt bytes 12)
      (fieldAt bytes 16), bytes.drop 20) := by
  have fields : bytes = bytes32 (fieldAt bytes 0) ++ bytes32 (fieldAt bytes 4) ++ bytes32 (fieldAt bytes 8) ++
      bytes32 (fieldAt bytes 12) ++ bytes32 (fieldAt bytes 16) ++ bytes.drop 20 := by
    simp only [List.append_assoc]
    rw [← drop_eq_bytes32_append (by omega), ← drop_eq_bytes32_append (by omega), ← drop_eq_bytes32_append (by omega),
      ← drop_eq_bytes32_append (by omega), ← drop_eq_bytes32_append (by omega), List.drop_zero]
  conv_lhs => rw [fields]
  exact decodeCinStart_bytes _ _ _ _ _ _

theorem decode_cinStart_of_lt (p : Params) {bytes : List Byte} (h : bytes.length < 20) :
    decode p .cinStart bytes = .error (.truncated .cinStart) := by
  rw [decode, decodeCinStart.eq_def]
  split
  · simp only [List.length_cons] at h
    omega
  · rfl

/-- A RoQ file header with the ident decodes, whatever its other fields (30_encoding.md R90). -/
theorem decode_roqStart_of_ident {p : Params} {bytes : List Byte} (h : 8 ≤ bytes.length)
    (hident : le16 (bytes.getD 0 0) (bytes.getD 1 0) = p.roqIdent) :
    decode p .roqStart bytes =
      .ok (.roqHeader (fieldAt bytes 2) (le16 (bytes.getD 6 0) (bytes.getD 7 0)), bytes.drop 8) := by
  have fields : bytes = bytes16 p.roqIdent ++ bytes32 (fieldAt bytes 2) ++
      bytes16 (le16 (bytes.getD 6 0) (bytes.getD 7 0)) ++ bytes.drop 8 := by
    rw [← hident]
    simp only [List.append_assoc]
    rw [← drop_eq_bytes16_append (by omega), ← drop_eq_bytes32_append (by omega), ← drop_eq_bytes16_append (by omega),
      List.drop_zero]
  conv_lhs => rw [fields]
  exact decodeRoqStart_bytes _ _ _ _

/-- A RoQ file header that is cut off or has another ident is no header (41_roq_chunks.md R160). -/
theorem decode_roqStart_of_bad {p : Params} {bytes : List Byte}
    (h : bytes.length < 8 ∨ le16 (bytes.getD 0 0) (bytes.getD 1 0) ≠ p.roqIdent) :
    ∃ e, decode p .roqStart bytes = .error e := by
  rw [decode, decodeRoqStart.eq_def]
  split
  · obtain hshort | hident := h
    · simp only [List.length_cons] at hshort
      omega
    · exact ⟨_, if_neg hident⟩
  · exact ⟨_, rfl⟩

/-! ### OPEN up to the header parse, and after it -/

theorem openFailed_eq (s : State) : openFailed s = refusedOpen s := rfl

/-- The stream an OPEN took over is gone when the open fails (60_exceptions.md R287). -/
theorem refusedOpen_openedWith (bytes : List Byte) (flags : Flags) (s : State) :
    refusedOpen (openedWith bytes flags s) = refusedOpen s := rfl

theorem openedWith_streamSize {bytes : List Byte} (h : bytes.length < 2 ^ 32) (flags : Flags) (s : State) :
    (openedWith bytes flags s).ses.streamSize.toNat = bytes.length := by
  rw [openedWith, BitVec.toNat_ofNat, Nat.mod_eq_of_lt h]

/-- A stream longer than STREAM_SIZE can say fails to open (45_host_ops.md R262, R263). -/
theorem openTransaction_of_long {bytes : List Byte} (h : 2 ^ 32 ≤ bytes.length) (place : Place) (flags : Flags) (s : State) :
    openTransaction place bytes flags s = .next (refusedOpen s) := by
  rw [openTransaction, if_pos (by omega)]
  rfl

/-- A stream that begins with no header fails to open, whatever its length. -/
theorem openTransaction_of_undecodable {place : Place} {bytes : List Byte} {s : State} {e : DecodeError}
    (h : decode s.params place bytes = .error e) (flags : Flags) :
    openTransaction place bytes flags s = .next (refusedOpen s) := by
  unfold openTransaction
  split
  · rfl
  · simp only [loadStream_params, resetBlock_params, h]
    rfl

/-- A header that decodes has its meaning in the reset state with the stream taken over (45_host_ops.md R262, R263). -/
theorem openTransaction_of_decoded {place : Place} {bytes : List Byte} {s : State} {i : Instr} {tail : List Byte}
    (hlen : bytes.length < 2 ^ 32) (h : decode s.params place bytes = .ok (i, tail)) (flags : Flags) :
    openTransaction place bytes flags s = exec i (openedWith bytes flags s) := by
  rw [openTransaction, if_neg (by omega)]
  simp only [loadStream_params, resetBlock_params, h]
  rfl

/-- The host's next request opens these bytes, whose header is of this place. -/
def opensNext (place : Place) (bytes : List Byte) (flags : Flags) (rest : List HostOp) (s : State) : Prop :=
  place = .cinStart ∧ s.requests = .openCin bytes flags :: rest ∨
    place = .roqStart ∧ s.requests = .openRoq bytes flags :: rest

/-- The step an OPEN is: its transaction, and the reply RESULT stands for (45_host_ops.md R262, R263). -/
theorem step_of_opensNext {place : Place} {bytes : List Byte} {flags : Flags} {rest : List HostOp} {s : State}
    (h : opensNext place bytes flags rest s) :
    step s = onNext (openTransaction place bytes flags { s with requests := rest })
      fun t => respond t.ses.result.openReply t := by
  obtain ⟨rfl, hreq⟩ | ⟨rfl, hreq⟩ := h <;>
    · rw [step, serve, hreq]
      rfl

/-- An OPEN whose transaction fails answers OPEN_FAIL in the reset state (60_exceptions.md R287). -/
theorem step_of_refused {place : Place} {bytes : List Byte} {flags : Flags} {rest : List HostOp} {s : State}
    (h : opensNext place bytes flags rest s)
    (hfail : ∀ u : State, u.params = s.params → openTransaction place bytes flags u = .next (refusedOpen u)) :
    step s = .next (answered rest .openFail (refusedOpen s)) := by
  rw [step_of_opensNext h, hfail { s with requests := rest } rfl, onNext_next]
  rfl

/-! ### The two header parses -/

/-- A header that fails a check of 40_huffman.md R120 leaves the reset state with RESULT = OPEN_FAIL. -/
theorem execCinHeader_bad {w h rate width channels : Word} {s : State} (hbad : ¬ cinHeaderGood w h rate width channels s) :
    execCinHeader w h rate width channels s = .next (refusedOpen s) := by
  rw [execCinHeader, if_neg hbad, openFailed_eq]

/-- OPEN_CIN fails on a stream that is too long or too short, and on a header with a bad field (45_host_ops.md R262). -/
theorem openTransaction_cin_fails {bytes : List Byte} (hbad : 2 ^ 32 ≤ bytes.length ∨ bytes.length < 65556 ∨
      (fieldAt bytes 0).toInt ≤ 0 ∨ (fieldAt bytes 4).toInt ≤ 0 ∨
      (fieldAt bytes 8).toInt < 0 ∨ (fieldAt bytes 12).toInt < 0 ∨ (fieldAt bytes 16).toInt < 0)
    (flags : Flags) (s : State) :
    openTransaction .cinStart bytes flags s = .next (refusedOpen s) := by
  obtain hlong | hlen := le_or_gt (2 ^ 32) bytes.length
  · exact openTransaction_of_long hlong _ flags s
  obtain hcut | hheader := lt_or_ge bytes.length 20
  · exact openTransaction_of_undecodable (decode_cinStart_of_lt _ hcut) flags
  rw [openTransaction_of_decoded hlen (decode_cinStart_of_le _ hheader), exec_cinHeader, execCinHeader_bad,
    refusedOpen_openedWith]
  rintro ⟨hsize, hw, hh, hrate, hwidth, hchannels⟩
  rw [openedWith_streamSize hlen] at hsize
  omega

/-- OPEN_ROQ fails on a stream that is too long, too short or of another ident (45_host_ops.md R263). -/
theorem openTransaction_roq_fails {bytes : List Byte} {s : State} (hbad : 2 ^ 32 ≤ bytes.length ∨ bytes.length < 8 ∨
      le16 (bytes.getD 0 0) (bytes.getD 1 0) ≠ s.params.roqIdent) (flags : Flags) :
    openTransaction .roqStart bytes flags s = .next (refusedOpen s) := by
  obtain hlong | hheader := hbad
  · exact openTransaction_of_long hlong _ flags s
  · obtain ⟨e, he⟩ := decode_roqStart_of_bad hheader
    exact openTransaction_of_undecodable he flags

/-- The header parse of RoQ, its 8 bytes there (41_roq_chunks.md R160). -/
theorem execRoqHeader_good (unused : Word) (fps : Half) {s : State} (h : 8 ≤ s.ses.streamSize.toNat) :
    execRoqHeader unused fps s = .next { s with
      ses := { s.ses with
        frameRate := if fps = 0 then 30 else fps
        headerOffset := 8, offset := 8, fmt := .roq, stepCount := 0, result := .continue_ }
      roq := { s.roq with vqFrame := 0, infoSeen := false } } := by
  rw [execRoqHeader, if_neg (by omega)]

/-- Every RoQ stream that does not fail opens, and is answered OK (45_host_ops.md R263). -/
theorem step_openRoq_of_ident {bytes : List Byte} {flags : Flags} {rest : List HostOp} {s : State}
    (hreq : s.requests = .openRoq bytes flags :: rest) (hlen : bytes.length < 2 ^ 32) (hheader : 8 ≤ bytes.length)
    (hident : le16 (bytes.getD 0 0) (bytes.getD 1 0) = s.params.roqIdent) :
    step s = .next (answered rest .ok { openedWith bytes flags s with
      ses := { (openedWith bytes flags s).ses with
        frameRate :=
          if le16 (bytes.getD 6 0) (bytes.getD 7 0) = 0 then 30 else le16 (bytes.getD 6 0) (bytes.getD 7 0)
        headerOffset := 8, offset := 8, fmt := .roq } }) := by
  have decoded := decode_roqStart_of_ident hheader hident
  rw [step_of_opensNext (.inr ⟨rfl, hreq⟩), openTransaction_of_decoded (s := { s with requests := rest }) hlen decoded,
    exec_roqHeader, execRoqHeader_good _ _ (by rwa [openedWith_streamSize hlen]), onNext_next]
  rfl

/-- Settles O48: a failing transaction of either format, and the RoQ header that decodes. -/
theorem openSucceedsOrRefuses : Obligations.OpenSucceedsOrRefuses := by
  intro s rest bytes flags
  refine ⟨fun hreq hbad => ?_, fun hreq hbad => ?_, step_openRoq_of_ident⟩
  · exact step_of_refused (.inl ⟨rfl, hreq⟩) fun u _ => openTransaction_cin_fails hbad flags u
  · exact step_of_refused (.inr ⟨rfl, hreq⟩) fun u hu => openTransaction_roq_fails (by rwa [hu]) flags

end Sys2Proof.Machine
end

section
/-! The statements of 30_encoding.md on the decoder and the encoder: each undoes the other. -/

namespace Sys2Proof

/-! ### Reading back what was written -/

/-- Each id parameter selects its own chunk operation, since the six are distinct (30_encoding.md R92). -/
theorem chunkInstr_of_parameter {p : Params} (hp : p.wf) (size : Word) (arg : Half) :
    chunkInstr p p.roqIdent size arg = .roqIdent size arg ∧ chunkInstr p p.idInfo size arg = .roqInfo size arg ∧
      chunkInstr p p.idCodebook size arg = .roqCodebook size arg ∧ chunkInstr p p.idVq size arg = .roqVq size arg ∧
      chunkInstr p p.idMono size arg = .roqSndMono size arg ∧
      chunkInstr p p.idStereo size arg = .roqSndStereo size arg := by
  obtain ⟨distinct, -⟩ := hp
  simp only [List.nodup_cons, List.mem_cons, List.not_mem_nil, or_false, not_or] at distinct
  obtain ⟨⟨h1, h2, h3, h4, h5⟩, ⟨h6, h7, h8, h9⟩, ⟨h10, h11, h12⟩, ⟨h13, h14⟩, h15, -⟩ := distinct
  refine ⟨?_, ?_, ?_, ?_, ?_, ?_⟩
  · simp [chunkInstr]
  · simp [chunkInstr, Ne.symm h1]
  · simp [chunkInstr, Ne.symm h2, Ne.symm h6]
  · simp [chunkInstr, Ne.symm h3, Ne.symm h7, Ne.symm h10]
  · simp [chunkInstr, Ne.symm h4, Ne.symm h8, Ne.symm h11, Ne.symm h13]
  · simp [chunkInstr, Ne.symm h5, Ne.symm h9, Ne.symm h12, Ne.symm h14, Ne.symm h15]

theorem chunkInstr_of_other {p : Params} {id : Half} {size : Word} {arg : Half} (h : (Instr.roqOther id size arg).wf p = true) :
    chunkInstr p id size arg = .roqOther id size arg := by
  simp only [Instr.wf, Bool.and_eq_true, bne_iff_ne] at h
  obtain ⟨⟨⟨⟨⟨h1, h2⟩, h3⟩, h4⟩, h5⟩, h6⟩ := h
  simp only [chunkInstr, if_neg h1, if_neg h2, if_neg h3, if_neg h4, if_neg h5, if_neg h6]

theorem cinInstr_of_reserved {p : Params} {cmd : Word} (h : (Instr.cinRsvd cmd).wf p = true) : cinInstr cmd = .cinRsvd cmd := by
  simp only [Instr.wf, Bool.and_eq_true, bne_iff_ne] at h
  obtain ⟨⟨h0, h1⟩, h2⟩ := h
  simp only [cinInstr, if_neg h2, if_neg h1, if_neg h0]

/-- A code kind's own value is read back as that kind, since the four are distinct (42_roq_vq.md R203). -/
theorem decodeCode_value {p : Params} (hp : p.wf) (place : Place) (f : VqCode → Instr) (k : VqCode) (rest : List Byte) :
    decodeCode p place f (encodeCode (k.value p) ++ rest) = .ok (f k, rest) := by
  rw [decodeCode_byte, vqCode?_of_value hp]

/-- Settles O1: the reader of the unit's place on the fields the encoder wrote, then the command, the id or the code that
selects the unit. -/
theorem decodeAfterEncode : Obligations.DecodeAfterEncode := by
  intro p i rest hp hwf
  obtain ⟨hident, hinfo, hbook, hvq, hmono, hstereo⟩ :
      (∀ size arg, chunkInstr p p.roqIdent size arg = .roqIdent size arg) ∧
      (∀ size arg, chunkInstr p p.idInfo size arg = .roqInfo size arg) ∧
      (∀ size arg, chunkInstr p p.idCodebook size arg = .roqCodebook size arg) ∧
      (∀ size arg, chunkInstr p p.idVq size arg = .roqVq size arg) ∧
      (∀ size arg, chunkInstr p p.idMono size arg = .roqSndMono size arg) ∧
      (∀ size arg, chunkInstr p p.idStereo size arg = .roqSndStereo size arg) := by
    simpa only [forall_and] using chunkInstr_of_parameter hp
  cases i with
  | cinHeader w h rate width channels => exact decodeCinStart_bytes w h rate width channels rest
  | cinFrame => exact decodeCinRecord_bytes 0 rest
  | cinPalframe => exact decodeCinRecord_bytes 1 rest
  | cinEnd => exact decodeCinRecord_bytes 2 rest
  | cinRsvd cmd => exact (decodeCinRecord_bytes cmd rest).trans (by rw [cinInstr_of_reserved hwf])
  | roqHeader unused fps => exact decodeRoqStart_bytes p unused fps rest
  | roqInfo size arg => exact (decodeRoqChunk_bytes p _ size arg rest).trans (by rw [hinfo])
  | roqCodebook size arg => exact (decodeRoqChunk_bytes p _ size arg rest).trans (by rw [hbook])
  | roqVq size arg => exact (decodeRoqChunk_bytes p _ size arg rest).trans (by rw [hvq])
  | roqSndMono size arg => exact (decodeRoqChunk_bytes p _ size arg rest).trans (by rw [hmono])
  | roqSndStereo size arg => exact (decodeRoqChunk_bytes p _ size arg rest).trans (by rw [hstereo])
  | roqIdent size arg => exact (decodeRoqChunk_bytes p _ size arg rest).trans (by rw [hident])
  | roqOther id size arg => exact (decodeRoqChunk_bytes p id size arg rest).trans (by rw [chunkInstr_of_other hwf])
  | mot8 => exact decodeCode_value hp .code8 code8Instr .mot rest
  | fcc8 => exact decodeCode_value hp .code8 code8Instr .fcc rest
  | sld8 => exact decodeCode_value hp .code8 code8Instr .sld rest
  | ccc8 => exact decodeCode_value hp .code8 code8Instr .ccc rest
  | mot4 => exact decodeCode_value hp .code4 code4Instr .mot rest
  | fcc4 => exact decodeCode_value hp .code4 code4Instr .fcc rest
  | sld4 => exact decodeCode_value hp .code4 code4Instr .sld rest
  | ccc4 => exact decodeCode_value hp .code4 code4Instr .ccc rest

/-! ### Writing back what was read -/

/-- What a chunk id selects is a well-formed chunk, and its header is the one it was selected by (30_encoding.md R91, R92). -/
theorem chunkInstr_spec (p : Params) (id : Half) (size : Word) (arg : Half) :
    (chunkInstr p id size arg).place = .roqChunk ∧ (chunkInstr p id size arg).wf p = true ∧
      encode p (chunkInstr p id size arg) = encodeChunk id size arg := by
  unfold chunkInstr
  repeat' split
  case isFalse => refine ⟨rfl, ?_, rfl⟩; simp only [Instr.wf, Bool.and_eq_true, bne_iff_ne]; tauto
  all_goals subst id; exact ⟨rfl, rfl, rfl⟩

/-- What a command selects is a well-formed record, and its bytes are the command's (30_encoding.md R82). -/
theorem cinInstr_spec (p : Params) (cmd : Word) :
    (cinInstr cmd).place = .cinRecord ∧ (cinInstr cmd).wf p = true ∧ encode p (cinInstr cmd) = bytes32 cmd := by
  unfold cinInstr
  repeat' split
  case isFalse => refine ⟨rfl, ?_, rfl⟩; simp only [Instr.wf, Bool.and_eq_true, bne_iff_ne]; tauto
  all_goals subst cmd; exact ⟨rfl, rfl, rfl⟩

theorem decodeCinStart_eq_ok {bs rest : List Byte} {i : Instr} (h : decodeCinStart bs = .ok (i, rest)) :
    ∃ w ht rate width channels, i = .cinHeader w ht rate width channels ∧
      bs = bytes32 w ++ bytes32 ht ++ bytes32 rate ++ bytes32 width ++ bytes32 channels ++ rest := by
  rw [decodeCinStart.eq_def] at h
  split at h
  · cases h
    exact ⟨_, _, _, _, _, rfl, by simp only [bytes32_le]; rfl⟩
  · cases h

theorem decodeCinRecord_eq_ok {bs rest : List Byte} {i : Instr} (h : decodeCinRecord bs = .ok (i, rest)) :
    ∃ cmd, i = cinInstr cmd ∧ bs = bytes32 cmd ++ rest := by
  rw [decodeCinRecord.eq_def] at h
  split at h
  · cases h
    exact ⟨_, rfl, by rw [bytes32_le]; rfl⟩
  · cases h

theorem decodeRoqStart_eq_ok {p : Params} {bs rest : List Byte} {i : Instr} (h : decodeRoqStart p bs = .ok (i, rest)) :
    ∃ unused fps, i = .roqHeader unused fps ∧ bs = bytes16 p.roqIdent ++ bytes32 unused ++ bytes16 fps ++ rest := by
  rw [decodeRoqStart.eq_def] at h
  split at h
  · split at h
    · rename_i hident
      cases h
      exact ⟨_, _, rfl, by rw [← hident]; simp only [bytes16_le, bytes32_le]; rfl⟩
    · cases h
  · cases h

theorem decodeRoqChunk_eq_ok {p : Params} {bs rest : List Byte} {i : Instr} (h : decodeRoqChunk p bs = .ok (i, rest)) :
    ∃ id size arg, i = chunkInstr p id size arg ∧ bs = encodeChunk id size arg ++ rest := by
  rw [decodeRoqChunk.eq_def] at h
  split at h
  · cases h
    exact ⟨_, _, _, rfl, by simp only [encodeChunk, bytes16_le, bytes32_le]; rfl⟩
  · cases h

theorem decodeCode_eq_ok {p : Params} {place : Place} {f : VqCode → Instr} {bs rest : List Byte} {i : Instr}
    (h : decodeCode p place f bs = .ok (i, rest)) :
    ∃ b k, bs = b :: rest ∧ i = f k ∧ k.value p = b.extractLsb' 0 2 := by
  rw [decodeCode.eq_def] at h
  split at h
  · split at h
    · rename_i k hk
      cases h
      exact ⟨_, k, rfl, rfl, vqCode?_value hk⟩
    · cases h
  · cases h

/-- A code kind's operation, at either level, is well formed and its byte is its value (30_encoding.md R101). -/
theorem codeInstr_spec (p : Params) (k : VqCode) :
    ((code8Instr k).place = .code8 ∧ (code8Instr k).wf p = true ∧ encode p (code8Instr k) = encodeCode (k.value p)) ∧
      (code4Instr k).place = .code4 ∧ (code4Instr k).wf p = true ∧ encode p (code4Instr k) = encodeCode (k.value p) := by
  cases k <;> exact ⟨⟨rfl, rfl, rfl⟩, rfl, rfl, rfl⟩

/-- A whole command or chunk header decodes, whatever its bytes (30_encoding.md R82, R91). -/
theorem decode_of_whole (p : Params) {place : Place} {bs : List Byte}
    (hplace : place = .cinStart ∨ place = .cinRecord ∨ place = .roqChunk) (hlen : Machine.unitBytes place ≤ bs.length) :
    ∃ i rest, decode p place bs = .ok (i, rest) := by
  obtain rfl | rfl | rfl := hplace
  · exact ⟨_, _, Machine.decode_cinStart_of_le p hlen⟩
  · match bs, hlen with
    | _ :: _ :: _ :: _ :: rest, _ => exact ⟨_, rest, rfl⟩
  · match bs, hlen with
    | _ :: _ :: _ :: _ :: _ :: _ :: _ :: _ :: rest, _ => exact ⟨_, rest, rfl⟩

/-- Settles O2, place by place: the unit each reader answers, by the fields it read. -/
theorem decodedUnitsAreWellFormed : Obligations.DecodedUnitsAreWellFormed := by
  refine ⟨fun p place bs i rest h => ?_, fun p place bs => decode_of_whole p⟩
  cases place with
  | cinStart =>
    obtain ⟨w, ht, rate, width, channels, rfl, hbs⟩ := decodeCinStart_eq_ok h
    exact ⟨rfl, rfl, fun _ _ => hbs, by simp⟩
  | cinRecord =>
    obtain ⟨cmd, rfl, hbs⟩ := decodeCinRecord_eq_ok h
    obtain ⟨hplace, hwf, hencode⟩ := cinInstr_spec p cmd
    exact ⟨hplace, hwf, fun _ _ => by rw [hencode, hbs], by simp⟩
  | roqStart =>
    obtain ⟨unused, fps, rfl, hbs⟩ := decodeRoqStart_eq_ok h
    exact ⟨rfl, rfl, fun _ _ => hbs, by simp⟩
  | roqChunk =>
    obtain ⟨id, size, arg, rfl, hbs⟩ := decodeRoqChunk_eq_ok h
    obtain ⟨hplace, hwf, hencode⟩ := chunkInstr_spec p id size arg
    exact ⟨hplace, hwf, fun _ _ => by rw [hencode, hbs], by simp⟩
  | code8 =>
    obtain ⟨b, k, hbs, rfl, hk⟩ := decodeCode_eq_ok h
    obtain ⟨⟨hplace, hwf, hencode⟩, -⟩ := codeInstr_spec p k
    exact ⟨hplace, hwf, by simp, fun _ => ⟨b, hbs, by rw [hencode, hk]; rfl⟩⟩
  | code4 =>
    obtain ⟨b, k, hbs, rfl, hk⟩ := decodeCode_eq_ok h
    obtain ⟨-, hplace, hwf, hencode⟩ := codeInstr_spec p k
    exact ⟨hplace, hwf, by simp, fun _ => ⟨b, hbs, by rw [hencode, hk]; rfl⟩⟩

/-- Settles O3: each word evaluated. -/
theorem decodeReadsSpecWords : Obligations.DecodeReadsSpecWords :=
  ⟨rfl, rfl, rfl, rfl, rfl, rfl, rfl, rfl⟩

end Sys2Proof
end

section
/-! The statements of 45_host_ops.md on one request of the host at a time: RESET, REWIND, the ports, and which unit STEP and OPEN run. -/

namespace Sys2Proof.Machine

/-! ### The request in hand -/

/-- The host's next request is performed, and is gone from the list (70_reset_and_hazards.md R312). -/
theorem step_of_request {s : State} {op : HostOp} {rest : List HostOp} (h : s.requests = op :: rest) :
    step s = perform op { s with requests := rest } := by
  rw [step, serve, h]

theorem step_of_no_request {s : State} (h : s.requests = []) : step s = .next s := by
  rw [step, serve, h]

/-! ### RESET -/

theorem step_reset {s : State} {rest : List HostOp} (h : s.requests = .reset :: rest) :
    step s = .next (answered rest .ok (afterReset s)) :=
  step_of_request h

/-- Settles O47: the reset state, field by field. -/
theorem resetClearsTheBlock : Obligations.ResetClearsTheBlock :=
  ⟨fun _ _ => step_reset, fun _ => rfl, fun _ => ⟨rfl, rfl, rfl, rfl, rfl, rfl, rfl⟩⟩

/-! ### STEP -/

/-- After a fault STEP reports it again (60_exceptions.md R283). -/
theorem stepTransaction_of_faulted {s : State} (h : s.ses.faulted = true) :
    stepTransaction s = .next { s with ses := { s.ses with result := .fault } } := by
  rw [stepTransaction, if_pos h]

theorem stepTransaction_of_idle {s : State} (h : s.ses.faulted = false) (hf : s.ses.fmt = .none) :
    stepTransaction s = .next (retEnd s) := by
  rw [stepTransaction, if_neg (by simp [h]), hf]

/-- The place of the unit at OFFSET of an open session (45_host_ops.md R264). -/
abbrev stepPlace (place : Place) (s : State) : Prop :=
  s.ses.fmt = .cin ∧ place = .cinRecord ∨ s.ses.fmt = .roq ∧ place = .roqChunk

theorem stepTransaction_of_open {s : State} {place : Place} (h : s.ses.faulted = false) (hp : stepPlace place s) :
    stepTransaction s = stepUnit place s := by
  rw [stepTransaction, if_neg (by simp [h])]
  obtain ⟨hf, rfl⟩ | ⟨hf, rfl⟩ := hp <;> rw [hf]

/-- A unit whose header the stream's end cuts off is an anomaly (40_huffman.md R138, 41_roq_chunks.md R162). -/
theorem stepUnit_of_cut {s : State} {place : Place} (h : s.ses.streamSize.toNat < s.ses.offset.toNat + unitBytes place) :
    stepUnit place s = .next (anomaly s) := by
  rw [stepUnit, if_pos (by simp only [shortOf]; omega)]

/-- A unit whose header lies in the stream runs as decoded. -/
theorem stepUnit_of_decoded {s : State} {place : Place} {i : Instr} {tail : List Byte}
    (hfit : s.ses.offset.toNat + unitBytes place ≤ s.ses.streamSize.toNat)
    (h : decode s.params place (streamSpan s s.ses.offset.toNat (unitBytes place)) = .ok (i, tail)) :
    stepUnit place s = exec i s := by
  have bytes : memReadBytes s s.ses.offset.toNat (unitBytes place) = streamSpan s s.ses.offset.toNat (unitBytes place) := rfl
  rw [stepUnit, if_neg (by simp only [shortOf]; omega), bytes, h, runDecoded]

/-- Settles O4: the transaction of the request, then the unit its bytes decode to. -/
theorem stepRunsTheDecodedUnit : Obligations.StepRunsTheDecodedUnit := by
  refine ⟨fun s rest place i tail hreq hfault hplace hfit hdecode _ => ?_,
    fun s rest place bytes flags i tail hreq hlen hdecode _ => ?_⟩
  · rw [step_of_request hreq, perform, stepTransaction_of_open (s := { s with requests := rest }) hfault hplace,
      stepUnit_of_decoded (s := { s with requests := rest }) hfit hdecode]
    rfl
  · rw [step_of_opensNext hreq, openTransaction_of_decoded (s := { s with requests := rest }) hlen hdecode]
    rfl

/-- At the stream's end the header of any unit is cut off. -/
theorem anomaly_at_end {s : State} (h : s.ses.offset = s.ses.streamSize) : anomaly s = retEnd s := by
  have hses : { s.ses with offset := s.ses.streamSize } = s.ses := by rw [← h]
  rw [anomaly, setOffset, hses]

/-- An open session with OFFSET at the stream's end answers END_OF_STREAM and moves nothing (60_exceptions.md R285). -/
theorem stepTransaction_at_end {s : State} (h : s.ses.faulted = false) (he : s.ses.offset = s.ses.streamSize) :
    stepTransaction s = .next (retEnd s) := by
  have hcut : ∀ place, place = Place.cinRecord ∨ place = .roqChunk →
      s.ses.streamSize.toNat < s.ses.offset.toNat + unitBytes place := by
    rintro place (rfl | rfl) <;> simp only [he, unitBytes] <;> omega
  cases hf : s.ses.fmt with
  | none => exact stepTransaction_of_idle h hf
  | cin => rw [stepTransaction_of_open h (.inl ⟨hf, rfl⟩), stepUnit_of_cut (hcut _ (.inl rfl)), anomaly_at_end he]
  | roq => rw [stepTransaction_of_open h (.inr ⟨hf, rfl⟩), stepUnit_of_cut (hcut _ (.inr rfl)), anomaly_at_end he]

/-- Settles O52: no session or nothing left, a header cut off, no request. -/
theorem idleAndEndedSteps : Obligations.IdleAndEndedSteps := by
  refine ⟨fun s rest hreq hfault hidle => ?_, fun s rest place hreq hfault hplace hcut => ?_, fun s => step_of_no_request⟩
  · have ends : stepTransaction { s with requests := rest } = .next (retEnd { s with requests := rest }) := by
      obtain hnone | hend := hidle
      · exact stepTransaction_of_idle hfault hnone
      · exact stepTransaction_at_end hfault hend
    rw [step_of_request hreq, perform, ends]
    rfl
  · rw [step_of_request hreq, perform, stepTransaction_of_open (s := { s with requests := rest }) hfault hplace,
      stepUnit_of_cut (s := { s with requests := rest }) hcut]
    rfl

/-! ### REWIND and the ports -/

theorem rewindTransaction_of_faulted {s : State} (h : s.ses.faulted = true) :
    rewindTransaction s = (.fault, { s with ses := { s.ses with result := .fault } }) := by
  rw [rewindTransaction, if_pos h]

theorem rewindTransaction_of_idle {s : State} (h : s.ses.faulted = false) (hf : s.ses.fmt = .none) :
    rewindTransaction s = (.ok, s) := by
  rw [rewindTransaction, if_neg (by simp [h]), if_pos hf]

theorem rewindTransaction_of_open {s : State} (h : s.ses.faulted = false) (hf : s.ses.fmt ≠ .none) :
    rewindTransaction s = (.ok, rewound s) := by
  rw [rewindTransaction, if_neg (by simp [h]), if_neg hf]

/-- Settles O50: with no session and with one. -/
theorem rewindKeepsTheRest : Obligations.RewindKeepsTheRest := by
  intro s rest hreq hfault
  refine ⟨fun hf => ?_, fun hf => ?_⟩
  · rw [step_of_request hreq, perform, rewindTransaction_of_idle (s := { s with requests := rest }) hfault hf]
    rfl
  · rw [step_of_request hreq, perform, rewindTransaction_of_open (s := { s with requests := rest }) hfault hf]
    rfl

theorem readFrame_of_hidden {s : State} (h : s.ports.dispValid = false) : readFrame s = (.noFrame, s) := by
  rw [readFrame, if_pos h]

theorem readFrame_of_shown {s : State} {w h : Nat} {pixels : List Pixel} (hv : s.ports.dispValid = true)
    (hfault : s.ses.faulted = false) (hd : displayImage s = some (w, h, pixels)) :
    readFrame s = (.frame w h pixels, s) := by
  simp only [readFrame, hv, hd, hfault, Bool.true_eq_false, Bool.false_eq_true, if_false]

theorem displayImage_cin {s : State} (h : s.ses.fmt = .cin) :
    displayImage s = some (s.cin.w.toInt.toNat, s.cin.h.toInt.toNat, s.cin.fb) := by
  rw [displayImage, h]

theorem displayImage_roq {s : State} (h : s.ses.fmt = .roq) :
    displayImage s = some (s.roq.w.toNat, s.roq.h.toNat, if s.roq.dispSel then s.roq.buf1 else s.roq.buf0) := by
  rw [displayImage, h, RoqUnit.buf]

theorem drainAudio_of_empty {s : State} (h : s.ports.audioOut = []) : drainAudio s = (.empty, s) := by
  rw [drainAudio, h]

theorem drainAudio_of_cons {s : State} {r : AudioRecord} {more : List AudioRecord} (h : s.ports.audioOut = r :: more) :
    drainAudio s = (.audio r, { s with ports := { s.ports with audioOut := more } }) := by
  rw [drainAudio, h]

/-- Settles O51, port by port. -/
theorem portReads : Obligations.PortReads := by
  intro s rest
  refine ⟨fun hreq hv => ?_, fun hreq hv hfault hf => ?_, fun hreq hv hfault hf => ?_, fun hreq ha => ?_,
    fun r more hreq ha => ?_, fun hreq => ?_⟩ <;> rw [step_of_request hreq, perform]
  · rw [readFrame_of_hidden (s := { s with requests := rest }) hv]
    rfl
  · rw [readFrame_of_shown (s := { s with requests := rest }) hv hfault (displayImage_cin (s := { s with requests := rest }) hf)]
    rfl
  · rw [readFrame_of_shown (s := { s with requests := rest }) hv hfault (displayImage_roq (s := { s with requests := rest }) hf)]
    rfl
  · rw [drainAudio_of_empty (s := { s with requests := rest }) ha]
    rfl
  · rw [drainAudio_of_cons (s := { s with requests := rest }) ha]
    rfl
  · rfl

end Sys2Proof.Machine
end

section
/-! The statements of 40_huffman.md and 41_roq_chunks.md on the two header parses, and on the forest OPEN_CIN builds. -/

namespace Sys2Proof.Machine

/-! ### CIN.HEADER -/

/-- `t` is `s` after a CIN header parse that passed its checks: the header registers, the cleared buffers, the session, the built forest, and
nothing else (40_huffman.md R120, R121; 45_host_ops.md R262). -/
structure CinOpened (w h rate width channels : Word) (s t : State) : Prop where
  cin : t.cin = { s.cin with
    w := w, h := h, sndRate := rate, sndWidth := width, sndChannels := channels
    hcount := t.cin.hcount, hused := t.cin.hused, root := t.cin.root, pair := t.cin.pair
    palette := Vector.replicate 256 { r := 0, g := 0, b := 0 }
    idxBuf := List.replicate (w.toNat * h.toNat) 0
    fb := List.replicate (w.toNat * h.toNat) { r := 0, g := 0, b := 0, a := 0 } }
  ses : t.ses = { s.ses with
    headerOffset := 65556, offset := 65556, frameRate := 14, fmt := .cin, stepCount := 0, result := .continue_ }
  rest : t = { s with cin := t.cin, ses := t.ses, draws := t.draws }
  rows : ∀ r : Byte, RowBuilt s t.cin r

/-- A positive signed field is the number its bits are. -/
theorem toNat_mul_of_pos {w h : Word} (hw : 0 < w.toInt) (hh : 0 < h.toInt) : (w.toInt * h.toInt).toNat = w.toNat * h.toNat := by
  rw [BitVec.toInt_eq_toNat_of_lt (by simp only [BitVec.toInt] at hw; omega),
    BitVec.toInt_eq_toNat_of_lt (by simp only [BitVec.toInt] at hh; omega)]
  exact Int.toNat_natCast _

theorem startCin_eq (s : State) :
    startCin s = { s with ses := { s.ses with
      headerOffset := 65556, offset := 65556, frameRate := 14, fmt := .cin, stepCount := 0, result := .continue_ } } := by
  rw [startCin]

theorem clearCinBuffers_eq (s : State) : clearCinBuffers s = { s with cin := (clearCinBuffers s).cin } := rfl

theorem freeCounts_eq (s : State) : freeCounts s = { s with cin := (freeCounts s).cin, draws := s.draws + 1 } := by
  unfold freeCounts
  rfl

/-- What the end of the header parse leaves outside the CIN unit (40_huffman.md R120, 45_host_ops.md R262). -/
theorem opened_rest (u : State) :
    startCin (clearCinBuffers (freeCounts u)) = { u with
      cin := (startCin (clearCinBuffers (freeCounts u))).cin, draws := u.draws + 1
      ses := { u.ses with
        headerOffset := 65556, offset := 65556, frameRate := 14, fmt := .cin, stepCount := 0, result := .continue_ } } := by
  rw [startCin_cin, startCin_eq, clearCinBuffers_eq, clearCinBuffers_cin, freeCounts_eq]

/-- A CIN unit whose buffers were cleared after its header and its forest were written differs from the one before in these only. -/
theorem cleared_of_built {c d e : CinUnit} {w h rate width channels : Word} {counts : Vector Word 511} {marks : Vector Bool 511}
    {p : Vector Rgb 256} {i : List Byte} {f : List Pixel}
    (hc : c = { d with hcount := counts, hused := marks, palette := p, idxBuf := i, fb := f })
    (hd : d = { e with
      w := w, h := h, sndRate := rate, sndWidth := width, sndChannels := channels
      hcount := d.hcount, hused := d.hused, pair := d.pair, root := d.root }) :
    c = { e with
      w := w, h := h, sndRate := rate, sndWidth := width, sndChannels := channels
      hcount := c.hcount, hused := c.hused, root := c.root, pair := c.pair, palette := p, idxBuf := i, fb := f } := by
  cases c
  cases d
  simp only [CinUnit.mk.injEq, true_and] at hc hd ⊢
  obtain ⟨hw, hh, hrate, hwidth, hchannels, -, -, -, -, hbuffers⟩ := hc
  obtain ⟨kw, kh, krate, kwidth, kchannels, -⟩ := hd
  exact ⟨hw.trans kw, hh.trans kh, hrate.trans krate, hwidth.trans kwidth, hchannels.trans kchannels, hbuffers⟩

theorem execCinHeader_opens {w h rate width channels : Word} {s : State} (good : cinHeaderGood w h rate width channels s) :
    ∃ t, execCinHeader w h rate width channels s = .next t ∧ CinOpened w h rate width channels s t := by
  refine ⟨_, execCinHeader_good good, ?_, ?_, ?_, cinHeader_rows w h rate width channels s⟩
  all_goals
    have hcin := opened_cin (buildForest (setCinHeader w h rate width channels s))
    have hrest := opened_rest (buildForest (setCinHeader w h rate width channels s))
    obtain ⟨hforest, -⟩ := buildForest_spec (setCinHeader w h rate width channels s)
    generalize buildForest (setCinHeader w h rate width channels s) = u at *
    generalize startCin (clearCinBuffers (freeCounts u)) = t at *
  · have area : u.cin.area.toNat = w.toNat * h.toNat := by
      rw [CinUnit.area, hforest]
      exact toNat_mul_of_pos good.2.1 good.2.2.1
    rw [area] at hcin
    exact cleared_of_built hcin (congrArg State.cin hforest :)
  · rw [hrest, hforest]
    rfl
  · rw [hrest, hforest]
    rfl

/-- Settles O13, by the session a good header opens. -/
theorem cinHeaderOpens : Obligations.CinHeaderOpens := by
  intro w h rate width channels s good
  obtain ⟨t, ht, opened⟩ := execCinHeader_opens good
  exact ⟨t, ht, opened.cin, opened.ses, opened.rest⟩

/-- Settles O14: each failed check is one the header parse makes. -/
theorem cinHeaderRefuses : Obligations.CinHeaderRefuses := by
  intro w h rate width channels s hbad
  refine execCinHeader_bad ?_
  rintro ⟨hsize, hw, hh, hrate, hwidth, hchannels⟩
  omega

/-! ### The forest -/

theorem cnt_eq_getElem {s : State} {i : Nat} (h : i < 511) : cnt s i = s.cin.hcount[i] := by
  rw [cnt, Vector.getElem?_eq_getElem h, Option.getD_some]

theorem markUsed_eq {i : Nat} (h : i < 511) (s : State) :
    markUsed i s = { s with cin.hused := s.cin.hused.set i true h } := by
  have hset : s.cin.hused.setIfInBounds i true = s.cin.hused.set i true h := by
    ext j hj
    simp only [Vector.getElem_setIfInBounds, Vector.getElem_set]
  rw [markUsed, hset]

/-- Settles O15: the scan's two ends, as it knows them (`smallest_cases`). -/
theorem smallestPicksFirstMinimum : Obligations.SmallestPicksFirstMinimum := by
  intro n s hn
  obtain ⟨he, hnone⟩ | ⟨a, he, ha, hlive, hleast⟩ := smallest_cases n s <;> rw [he]
  · have dead : ∀ i, ¬ forestCandidate s.cin.hcount s.cin.hused n i := by
      rintro i ⟨hi, hlt, hlive⟩
      exact hnone i hlt ((isLive_iff hlt).2 ⟨hi, hlt, hlive⟩)
    exact ⟨iff_of_true rfl dead, fun _ => rfl, nofun⟩
  · have candidate := (isLive_iff ha).1 hlive
    refine ⟨iff_of_false nofun fun hno => hno a candidate, nofun, ?_⟩
    rintro _ ⟨⟩
    have h511 : a < 511 := by omega
    refine ⟨h511, candidate, ?_, markUsed_eq h511 s⟩
    rintro i hi ⟨_, hlt, hc⟩
    have := hleast i hlt ((isLive_iff hlt).2 ⟨hi, hlt, hc⟩)
    rwa [cnt_eq_getElem h511, cnt_eq_getElem hi] at this

/-- Settles O16, row by row of the session a good header opens. -/
theorem builtForestShape : Obligations.BuiltForestShape := by
  intro w h rate width channels s good
  obtain ⟨t, ht, opened⟩ := execCinHeader_opens good
  refine ⟨t, ht, fun r => ?_⟩
  have row := opened.rows r
  exact ⟨row.several, row.few, row.shape, row.tree⟩

/-- Settles O17, by what the build's invariant says a row's root reaches. -/
theorem builtForestReachesItsSymbols : Obligations.BuiltForestReachesItsSymbols := by
  intro w h rate width channels s good
  obtain ⟨t, ht, opened⟩ := execCinHeader_opens good
  exact ⟨t, ht, fun r sym hused => (opened.rows r).reach hused sym⟩

/-! ### ROQ.HEADER -/

/-- Settles O24: the stream long enough, and not. -/
theorem roqHeaderOpens : Obligations.RoqHeaderOpens := by
  intro unused fps s
  refine ⟨execRoqHeader_good unused fps, fun hshort => ?_⟩
  rw [exec_roqHeader, execRoqHeader, if_pos hshort, openFailed_eq]

end Sys2Proof.Machine
end

section
/-! The statements of 60_exceptions.md and 70_reset_and_hazards.md on the whole machine: what a request leaves, the fault that stays, and
the invariant that every step keeps. -/

namespace Sys2Proof.Machine

/-! ### What a request that does not close the session leaves -/

/-- `t` is `s` after the block answered `r` within the session: the parameters, the stream, what the session was opened with and the mark
where the run began stay (20_memory.md R60, R61; 10_state.md R21 to R26). -/
structure Answered (s : State) (r : Reply) (t : State) : Prop where
  params : t.params = s.params
  stream : t.stream = s.stream
  session : t.ses = { s.ses with
    offset := t.ses.offset, stepCount := t.ses.stepCount, result := t.ses.result, faulted := t.ses.faulted,
    faultReason := t.ses.faultReason, diag := t.ses.diag }
  requests : t.requests = s.requests
  replies : t.replies = s.replies ++ [r]
  runStart : t.runStart = s.runStart

theorem UnitEnd.answered {s t : State} (h : UnitEnd s t) (r : Reply) : Answered s r (respond r t) := by
  have session : t.ses = { s.ses with
      offset := t.ses.offset, stepCount := t.ses.stepCount, result := t.ses.result, faulted := t.ses.faulted,
      faultReason := t.ses.faultReason, diag := t.ses.diag } := by
    cases h.ends with
    | fault q hq ses ports => rw [ses, afterFault]
    | stop ses => rw [ses, afterEnd]
    | go ses forward => rw [ses]
  have hrest := h.rest
  exact ⟨by rw [hrest]; rfl, by rw [hrest]; rfl, session, by rw [hrest]; rfl, by rw [hrest]; rfl, by rw [hrest]; rfl⟩

theorem stepTransaction_answered {s t : State} (h : stepTransaction s = .next t) (r : Reply) : Answered s r (respond r t) := by
  obtain ⟨-, rfl⟩ | ⟨-, -, rfl⟩ | ⟨-, -, hu⟩ := stepTransaction_cases h
  · exact ⟨rfl, rfl, rfl, rfl, rfl, rfl⟩
  · exact ⟨rfl, rfl, rfl, rfl, rfl, rfl⟩
  · exact hu.answered r

/-- The three ways REWIND can end (45_host_ops.md R265). -/
theorem rewindTransaction_cases (s : State) :
    (s.ses.faulted = true ∧ rewindTransaction s = (.fault, { s with ses := { s.ses with result := .fault } })) ∨
    (s.ses.faulted = false ∧ s.ses.fmt = .none ∧ rewindTransaction s = (.ok, s)) ∨
    (s.ses.faulted = false ∧ s.ses.fmt ≠ .none ∧ rewindTransaction s = (.ok, rewound s)) := by
  cases hf : s.ses.faulted with
  | true => exact .inl ⟨rfl, rewindTransaction_of_faulted hf⟩
  | false =>
    by_cases hn : s.ses.fmt = .none
    · exact .inr (.inl ⟨rfl, hn, rewindTransaction_of_idle hf hn⟩)
    · exact .inr (.inr ⟨rfl, hn, rewindTransaction_of_open hf hn⟩)

/-- READ_FRAME answers an image or NO_FRAME, and moves at most the model's own counter of draws (45_host_ops.md R266). -/
theorem readFrame_cases (s : State) :
    (readFrame s).1 ≠ .fault ∧ ((readFrame s).2 = s ∨ (readFrame s).2 = { s with draws := s.draws + 1 }) := by
  unfold readFrame
  repeat' split
  all_goals exact ⟨nofun, by simp⟩

/-- DRAIN_AUDIO answers a record or EMPTY, and moves at most the queue (45_host_ops.md R267). -/
theorem drainAudio_cases (s : State) :
    (drainAudio s).1 ≠ .fault ∧
      ∃ more, (drainAudio s).2 = { s with ports := { s.ports with audioOut := more } } := by
  cases ha : s.ports.audioOut with
  | nil => rw [drainAudio_of_empty ha]; exact ⟨nofun, [], by rw [← ha]⟩
  | cons r more => rw [drainAudio_of_cons ha]; exact ⟨nofun, more, rfl⟩

theorem rewindTransaction_answered (s : State) :
    Answered s (rewindTransaction s).1 (respond (rewindTransaction s).1 (rewindTransaction s).2) := by
  obtain ⟨-, he⟩ | ⟨-, -, he⟩ | ⟨-, -, he⟩ := rewindTransaction_cases s <;> rw [he] <;> exact ⟨rfl, rfl, rfl, rfl, rfl, rfl⟩

theorem readFrame_answered (s : State) : Answered s (readFrame s).1 (respond (readFrame s).1 (readFrame s).2) := by
  obtain ⟨-, he | he⟩ := readFrame_cases s <;> rw [he] <;> exact ⟨rfl, rfl, rfl, rfl, rfl, rfl⟩

theorem drainAudio_answered (s : State) : Answered s (drainAudio s).1 (respond (drainAudio s).1 (drainAudio s).2) := by
  obtain ⟨-, more, he⟩ := drainAudio_cases s
  rw [he]
  exact ⟨rfl, rfl, rfl, rfl, rfl, rfl⟩

theorem perform_answered {op : HostOp} {s t : State} (hop : op.closes = false) (h : perform op s = .next t) :
    ∃ r, Answered s r t := by
  cases op with
  | reset => cases hop
  | openCin bytes flags => cases hop
  | openRoq bytes flags => cases hop
  | step =>
    obtain ⟨u, hu, rfl⟩ := onNext_eq_next.1 h
    exact ⟨_, stepTransaction_answered hu _⟩
  | rewind => cases h; exact ⟨_, rewindTransaction_answered s⟩
  | readFrame => cases h; exact ⟨_, readFrame_answered s⟩
  | drainAudio => cases h; exact ⟨_, drainAudio_answered s⟩
  | readStatus => cases h; exact ⟨_, rfl, rfl, rfl, rfl, rfl, rfl⟩

theorem step_answered {op : HostOp} {rest : List HostOp} {s t : State} (hreq : s.requests = op :: rest)
    (hop : op.closes = false) (h : step s = .next t) : ∃ r, Answered { s with requests := rest } r t := by
  rw [step_of_request hreq] at h
  exact perform_answered hop h

/-! ### What a request that closes the session leaves -/

/-- Everything an OPEN can leave: a refusal, a CIN session over the forest of its stream, or a RoQ session with no frame
(45_host_ops.md R262, R263). -/
inductive OpenEnd (bytes : List Byte) (flags : Flags) (s : State) : State → Prop where
  | refused : OpenEnd bytes flags s (refusedOpen s)
  | cin {t : State} (w h rate width channels : Word) (len : bytes.length < 2 ^ 32)
      (good : cinHeaderGood w h rate width channels (openedWith bytes flags s))
      (opened : CinOpened w h rate width channels (openedWith bytes flags s) t) : OpenEnd bytes flags s t
  | roq (fps : Half) (len : bytes.length < 2 ^ 32) (header : 8 ≤ bytes.length) :
      OpenEnd bytes flags s { openedWith bytes flags s with
        ses := { (openedWith bytes flags s).ses with frameRate := fps, headerOffset := 8, offset := 8, fmt := .roq } }

theorem openTransaction_ends {place : Place} (hplace : place = .cinStart ∨ place = .roqStart) (bytes : List Byte) (flags : Flags)
    (s : State) : ∃ t, openTransaction place bytes flags s = .next t ∧ OpenEnd bytes flags s t := by
  obtain hlong | hlen := le_or_gt (2 ^ 32) bytes.length
  · exact ⟨_, openTransaction_of_long hlong place flags s, .refused⟩
  match hd : decode s.params place bytes with
  | .error e => exact ⟨_, openTransaction_of_undecodable hd flags, .refused⟩
  | .ok (i, tail) =>
    rw [openTransaction_of_decoded hlen hd]
    obtain rfl | rfl := hplace
    · obtain ⟨w, h, rate, width, channels, rfl, -⟩ := decodeCinStart_eq_ok hd
      rw [exec_cinHeader]
      by_cases good : cinHeaderGood w h rate width channels (openedWith bytes flags s)
      · obtain ⟨t, ht, opened⟩ := execCinHeader_opens good
        exact ⟨t, ht, .cin w h rate width channels hlen good opened⟩
      · exact ⟨_, execCinHeader_bad good, .refused⟩
    · obtain ⟨unused, fps, rfl, hbytes⟩ := decodeRoqStart_eq_ok hd
      have header : 8 ≤ bytes.length := by
        rw [hbytes]
        simp only [bytes16, bytes32, List.length_append, List.length_cons, List.length_nil]
        omega
      rw [exec_roqHeader]
      exact ⟨_, execRoqHeader_good unused fps (by rwa [openedWith_streamSize hlen]), .roq _ hlen header⟩

/-- What of the state before it a request that closes the session keeps: the parameters and the model's own lists. -/
structure Begun (s t : State) : Prop where
  params : t.params = s.params
  requests : t.requests = s.requests
  replies : t.replies = s.replies
  runStart : t.runStart = s.replies.length
  sound : t.ses.faulted = false
  result : t.ses.result = .continue_ ∨ t.ses.result = .openFail

theorem OpenEnd.begun {bytes : List Byte} {flags : Flags} {s t : State} (h : OpenEnd bytes flags s t) : Begun s t := by
  cases h with
  | refused => exact ⟨rfl, rfl, rfl, rfl, rfl, .inr rfl⟩
  | roq fps len header => exact ⟨rfl, rfl, rfl, rfl, rfl, .inl rfl⟩
  | cin w h rate width channels len good opened =>
    obtain ⟨-, hses, hrest, -⟩ := opened
    exact ⟨by rw [hrest]; rfl, by rw [hrest]; rfl, by rw [hrest]; rfl, by rw [hrest]; rfl, by rw [hses]; rfl, .inl (by rw [hses])⟩

theorem openReply_of_begun {s t : State} (h : Begun s t) :
    t.ses.result.openReply = .ok ∨ t.ses.result.openReply = .openFail := by
  obtain hr | hr := h.result <;> rw [hr]
  · exact .inl rfl
  · exact .inr rfl

/-- Everything a request that closes the session can leave. -/
inductive Closed (s : State) : State → Prop where
  | reset : Closed s (afterReset s)
  | opened {bytes : List Byte} {flags : Flags} {t : State} (ends : OpenEnd bytes flags s t) : Closed s t

theorem Closed.begun {s t : State} (h : Closed s t) : Begun s t := by
  cases h with
  | reset => exact ⟨rfl, rfl, rfl, rfl, rfl, .inl rfl⟩
  | opened ends => exact ends.begun

/-- A request that closes the session answers OK or OPEN_FAIL (45_host_ops.md R261 to R263). -/
theorem perform_closed {op : HostOp} {s : State} (hop : op.closes = true) :
    ∃ u r, perform op s = .next (respond r u) ∧ Closed s u ∧ (r = .ok ∨ r = .openFail) := by
  cases op with
  | reset => exact ⟨_, _, rfl, .reset, .inl rfl⟩
  | openCin bytes flags =>
    obtain ⟨u, hu, ends⟩ := openTransaction_ends (.inl rfl) bytes flags s
    exact ⟨u, _, by rw [perform, hu, onNext_next], .opened ends, openReply_of_begun ends.begun⟩
  | openRoq bytes flags =>
    obtain ⟨u, hu, ends⟩ := openTransaction_ends (.inr rfl) bytes flags s
    exact ⟨u, _, by rw [perform, hu, onNext_next], .opened ends, openReply_of_begun ends.begun⟩
  | step => cases hop
  | rewind => cases hop
  | readFrame => cases hop
  | drainAudio => cases hop
  | readStatus => cases hop

/-- Settles O54: a closing request keeps the parameters, every other one the session's constants too. -/
theorem streamAndParametersStay : Obligations.StreamAndParametersStay := by
  intro s t h
  match hreq : s.requests with
  | [] =>
    rw [step_of_no_request hreq] at h
    cases h
    exact ⟨rfl, fun _ => ⟨rfl, rfl, rfl, rfl, rfl, rfl⟩⟩
  | op :: rest =>
    cases hop : op.closes with
    | true =>
      obtain ⟨u, r, hu, closed, -⟩ := perform_closed (s := { s with requests := rest }) hop
      rw [step_of_request hreq, hu] at h
      cases h
      refine ⟨closed.begun.params, fun hall => ?_⟩
      rw [hall op rest rfl] at hop
      cases hop
    | false =>
      obtain ⟨r, kept⟩ := step_answered hreq hop h
      have hses := kept.session
      exact ⟨kept.params, fun _ => ⟨kept.stream, by rw [hses], by rw [hses], by rw [hses], by rw [hses], by rw [hses]⟩⟩

/-! ### The fault -/

/-- Settles O53: of the ways a STEP can end, only taking a fault sets FAULTED. -/
theorem faultKeepsTheCursor : Obligations.FaultKeepsTheCursor := by
  intro s t rest hreq hfault _ h hfaulted
  rw [step_of_request hreq] at h
  obtain ⟨u, hu, rfl⟩ := onNext_eq_next.1 h
  have faulted : u.ses.faulted = true := hfaulted
  have replies := (stepTransaction_answered hu u.ses.result.stepReply).replies
  obtain ⟨hf, -⟩ | ⟨hf, -, rfl⟩ | ⟨hf, -, hunit⟩ := stepTransaction_cases hu
  · cases hfault.symm.trans hf
  · cases hfault.symm.trans faulted
  · cases hunit.ends with
    | fault r hr ses ports => exact ⟨⟨r, hr, ses⟩, ports, by rw [replies, ses]; rfl⟩
    | stop ses => rw [ses] at faulted; cases hfault.symm.trans faulted
    | go ses forward => rw [ses] at faulted; cases hfault.symm.trans faulted

/-- A request of a faulted session that does not close it leaves the fault (60_exceptions.md R283). -/
theorem perform_of_faulted {op : HostOp} {s t : State} (hop : op.closes = false) (hf : s.ses.faulted = true)
    (h : perform op s = .next t) : t.ses.faulted = true ∧ t.ses.faultReason = s.ses.faultReason := by
  cases op with
  | reset => cases hop
  | openCin bytes flags => cases hop
  | openRoq bytes flags => cases hop
  | step =>
    rw [perform, stepTransaction_of_faulted hf] at h
    cases h
    exact ⟨hf, rfl⟩
  | rewind =>
    rw [perform, rewindTransaction_of_faulted hf] at h
    cases h
    exact ⟨hf, rfl⟩
  | readFrame =>
    cases h
    obtain ⟨-, he | he⟩ := readFrame_cases s <;> rw [he] <;> exact ⟨hf, rfl⟩
  | drainAudio =>
    cases h
    obtain ⟨-, more, he⟩ := drainAudio_cases s
    rw [he]
    exact ⟨hf, rfl⟩
  | readStatus =>
    cases h
    exact ⟨hf, rfl⟩

/-- Settles O49: the two requests a fault answers, the fault that stays, the run a closing request begins, and the answer added to the
run by any other. -/
theorem faultIsSticky : Obligations.FaultIsSticky := by
  refine ⟨fun s op rest hf hop hreq => ?_, fun s t op rest hreq hop hf h => ?_, fun s t op rest hreq hop h => ?_,
    fun s t op rest hreq hop h hb => ?_⟩
  · obtain rfl | rfl := hop
    · rw [step_of_request hreq, perform, stepTransaction_of_faulted (s := { s with requests := rest }) hf]
      rfl
    · rw [step_of_request hreq, perform, rewindTransaction_of_faulted (s := { s with requests := rest }) hf]
      rfl
  · rw [step_of_request hreq] at h
    exact perform_of_faulted (s := { s with requests := rest }) hop hf h
  · obtain ⟨u, r, hu, closed, hr⟩ := perform_closed (s := { s with requests := rest }) hop
    rw [step_of_request hreq, hu] at h
    cases h
    have replies : (respond r u).replies = s.replies ++ [r] := congrArg (· ++ [r]) closed.begun.replies
    refine ⟨r, hr, replies, observation_begun (before := s.replies) closed.begun.runStart replies ?_⟩
    obtain rfl | rfl := hr <;> exact nofun
  · obtain ⟨r, kept⟩ := step_answered hreq hop h
    exact ⟨r, kept.replies, observation_append hb kept.runStart kept.replies⟩

/-! ### The two units -/

/-- Settles O55: what each unit's STEP leaves, by its format. -/
theorem unitsStayApart : Obligations.UnitsStayApart := by
  intro s t rest hreq h
  rw [step_of_request hreq] at h
  obtain ⟨u, hu, rfl⟩ := onNext_eq_next.1 h
  obtain ⟨-, rfl⟩ | ⟨-, -, rfl⟩ | ⟨-, -, hunit⟩ := stepTransaction_cases hu
  · exact ⟨fun _ => ⟨rfl, rfl, rfl⟩, fun _ => ⟨rfl, rfl, rfl⟩, noAudio s _ rfl⟩
  · exact ⟨fun _ => ⟨rfl, rfl, rfl⟩, fun _ => ⟨rfl, rfl, rfl⟩, noAudio s _ rfl⟩
  · refine ⟨fun hf => ?_, fun hf => ?_, hunit.audio⟩
    · obtain ⟨hcin, hhuf, hdiag, -⟩ := hunit.roq hf
      exact ⟨hcin, hhuf, hdiag⟩
    · obtain ⟨hroq, hcin, -⟩ := hunit.cin hf
      have root : u.cin.root = s.cin.root := by rw [hcin]
      have pair : u.cin.pair = s.cin.pair := by rw [hcin]
      exact ⟨hroq, root, pair⟩

end Sys2Proof.Machine
end

section
/-! The statements of 45_host_ops.md and 70_reset_and_hazards.md on the invariant: the reset state has it, every step keeps it, no step
stops the machine in it, and STEPs make progress under it. -/

namespace Sys2Proof.Machine

/-! ### The block's part of the invariant -/

/-- The invariant but for its clause on the run in hand: what it says of the block alone. -/
structure BlockInv (s : State) : Prop where
  params : s.params.wf
  stream : s.stream.wf ∧ ∀ c ∈ s.stream, c.1 < s.ses.streamSize.toNat
  cursor : s.ses.offset.toNat ≤ s.ses.streamSize.toNat ∧ s.ses.headerOffset.toNat ≤ s.ses.streamSize.toNat
  faulted : (s.ses.faulted = true ↔ s.ses.faultReason ≠ .none) ∧ (s.ses.faulted = true → s.ses.result = .fault)
  idle : s.ses.fmt = .none → s.ses.streamSize = 0 ∧ s.ports.dispValid = false
  cin : s.ses.fmt = .cin →
    forestOk s.cin ∧ 0 < s.cin.w.toInt ∧ 0 < s.cin.h.toInt ∧
      0 ≤ s.cin.sndRate.toInt ∧ 0 ≤ s.cin.sndWidth.toInt ∧ 0 ≤ s.cin.sndChannels.toInt ∧
      (s.cin.idxBuf.length : Int) = s.cin.area ∧ (s.cin.fb.length : Int) = s.cin.area
  roq : RoqInv s.roq
  shown : s.ports.dispValid = true → s.ses.fmt = .roq → s.roq.infoSeen = true
  bits : s.huf.bitsLeft.toNat ≤ 8

/-- The clause of the invariant on the run in hand (60_exceptions.md R283, R294; 70_reset_and_hazards.md R326). -/
def RunInv (s : State) : Prop := s.runStart ≤ s.replies.length ∧ (wellDefined s ↔ s.ses.faulted = false)

theorem inv_iff (s : State) : Inv s ↔ BlockInv s ∧ RunInv s := by
  constructor
  · rintro ⟨params, stream, cursor, faulted, idle, cin, frame, noFrame, shown, counts, ⟨reader, bits⟩, run⟩
    exact ⟨⟨params, stream, cursor, faulted, idle, cin, ⟨frame, noFrame, counts, reader⟩, shown, bits⟩, run⟩
  · rintro ⟨⟨params, stream, cursor, faulted, idle, cin, ⟨frame, noFrame, counts, reader⟩, shown, bits⟩, run⟩
    exact ⟨params, stream, cursor, faulted, idle, cin, frame, noFrame, shown, counts, ⟨reader, bits⟩, run⟩

/-- The block's part does not depend on the lists of requests and replies. -/
theorem BlockInv.of_lists {s : State} (h : BlockInv s) (requests : List HostOp) (replies : List Reply) :
    BlockInv { s with requests := requests, replies := replies } :=
  ⟨h.params, h.stream, h.cursor, h.faulted, h.idle, h.cin, h.roq, h.shown, h.bits⟩

/-! ### The states a session begins in -/

theorem reset_roqInv : RoqInv State.reset.roq where
  frame := nofun
  noFrame := fun _ => ⟨rfl, rfl, rfl, rfl⟩
  counts := ⟨Nat.zero_le _, Nat.zero_le _⟩
  reader := Nat.zero_le _

/-- Whatever OPEN or RESET ended with, the reset state has the block's part. -/
theorem afterReset_blockInv {s : State} (hp : s.params.wf) (result : Result) :
    BlockInv { afterReset s with ses := { State.reset.ses with result := result } } where
  params := hp
  stream := ⟨reset_stream_wf, nofun⟩
  cursor := ⟨Nat.le_refl 0, Nat.le_refl 0⟩
  faulted := ⟨⟨nofun, fun h => absurd rfl h⟩, nofun⟩
  idle := fun _ => ⟨rfl, rfl⟩
  cin := nofun
  roq := reset_roqInv
  shown := nofun
  bits := Nat.zero_le _

theorem defaultParams_legal : defaultParams.wf :=
  ⟨by decide, by decide, by decide, Nat.succ_pos _⟩

/-- Settles O59: the block's part of the reset state, and a run with no reply in it. -/
theorem resetMeetsTheInvariant : Obligations.ResetMeetsTheInvariant :=
  (inv_iff _).2 ⟨afterReset_blockInv (s := State.reset) defaultParams_legal .continue_,
    Nat.le_refl 0, fun _ => rfl, fun _ => List.not_mem_nil⟩

/-- The stream space an OPEN loads is canonical and inside STREAM_SIZE (20_memory.md R60). -/
theorem load_inside {bytes : List Byte} (hlen : bytes.length < 2 ^ 32) :
    (Memory.load bytes).wf ∧ ∀ c ∈ Memory.load bytes, c.1 < (BitVec.ofNat 32 bytes.length).toNat := by
  refine ⟨load_wf bytes, fun c hc => ?_⟩
  rw [BitVec.toNat_ofNat, Nat.mod_eq_of_lt hlen]
  exact load_mem hc

/-- A CIN session as its header parse leaves it has the block's part (40_huffman.md R120, R121). -/
theorem CinOpened.blockInv {bytes : List Byte} {flags : Flags} {s t : State} {w h rate width channels : Word} (hp : s.params.wf)
    (hlen : bytes.length < 2 ^ 32) (good : cinHeaderGood w h rate width channels (openedWith bytes flags s))
    (opened : CinOpened w h rate width channels (openedWith bytes flags s) t) : BlockInv t := by
  obtain ⟨hcin, hses, hrest, rows⟩ := opened
  obtain ⟨hsize, hw, hh, hrate, hwidth, hchannels⟩ := good
  have hfirst : (65556 : Word).toNat ≤ (openedWith bytes flags s).ses.streamSize.toNat := by simpa using hsize
  have area : ((w.toNat * h.toNat : Nat) : Int) = w.toInt * h.toInt := by
    rw [← toNat_mul_of_pos hw hh]
    exact Int.toNat_of_nonneg (Int.mul_nonneg hw.le hh.le)
  refine ⟨?_, ?_, ?_, ?_, ?_, fun _ => ⟨fun r => (rows r).shape, ?_⟩, ?_, fun hv => ?_, ?_⟩
  · rw [hrest]
    exact hp
  · rw [hses, hrest]
    exact load_inside hlen
  · rw [hses]
    exact ⟨hfirst, hfirst⟩
  · rw [hses]
    exact ⟨⟨nofun, fun h => absurd rfl h⟩, nofun⟩
  · rw [hses]
    exact nofun
  · rw [hcin, CinUnit.area, List.length_replicate, List.length_replicate]
    exact ⟨hw, hh, hrate, hwidth, hchannels, area, area⟩
  · rw [hrest]
    exact reset_roqInv
  · rw [hrest] at hv
    cases hv
  · rw [hrest]
    exact Nat.zero_le _

theorem OpenEnd.blockInv {bytes : List Byte} {flags : Flags} {s t : State} (h : OpenEnd bytes flags s t) (hp : s.params.wf) :
    BlockInv t := by
  cases h with
  | refused => exact afterReset_blockInv hp .openFail
  | cin w h rate width channels len good opened => exact opened.blockInv hp len good
  | roq fps len header =>
    have cursor : 8 ≤ (BitVec.ofNat 32 bytes.length).toNat := by
      rw [BitVec.toNat_ofNat, Nat.mod_eq_of_lt len]
      exact header
    exact {
      params := hp
      stream := load_inside len
      cursor := ⟨cursor, cursor⟩
      faulted := ⟨⟨nofun, fun h => absurd rfl h⟩, nofun⟩
      idle := nofun
      cin := nofun
      roq := reset_roqInv
      shown := nofun
      bits := Nat.zero_le _ }

/-! ### STEP keeps it -/

theorem audioBytes_nonneg {c : CinUnit} (hr : 0 ≤ c.sndRate.toInt) (hw : 0 ≤ c.sndWidth.toInt) (hc : 0 ≤ c.sndChannels.toInt) :
    0 ≤ audioBytes c :=
  Int.mul_nonneg (Int.mul_nonneg (Int.tdiv_nonneg hr (by decide)) hw) hc

theorem BlockInv.audio {s : State} (h : BlockInv s) (hf : s.ses.fmt = .cin) : 0 ≤ audioBytes s.cin := by
  obtain ⟨-, -, -, hr, hw, hc, -⟩ := h.cin hf
  exact audioBytes_nonneg hr hw hc

/-- FMT, STREAM_SIZE and HEADER_OFFSET stay while a unit plays, and the cursor and the fault move together with RESULT. -/
theorem UnitEnd.session {s t : State} (h : UnitEnd s t) (hs : BlockInv s) (hf : s.ses.faulted = false) :
    t.ses.fmt = s.ses.fmt ∧ t.ses.streamSize = s.ses.streamSize ∧
      (t.ses.offset.toNat ≤ t.ses.streamSize.toNat ∧ t.ses.headerOffset.toNat ≤ t.ses.streamSize.toNat) ∧
      (t.ses.faulted = true ↔ t.ses.faultReason ≠ .none) ∧ (t.ses.faulted = true ↔ t.ses.result = .fault) := by
  obtain ⟨hcur, hhead⟩ := hs.cursor
  have none : s.ses.faultReason = .none := by
    by_contra hne
    exact Bool.false_ne_true (hf.symm.trans (hs.faulted.1.2 hne))
  have never : ∀ {p : Prop}, s.ses.faulted = true → p := fun h => absurd h (by simp [hf])
  cases h.ends with
  | fault r hr ses ports =>
    rw [ses, afterFault, if_pos none]
    exact ⟨rfl, rfl, ⟨hcur, hhead⟩, ⟨fun _ => hr, fun _ => rfl⟩, fun _ => rfl, fun _ => rfl⟩
  | stop ses =>
    rw [ses, afterEnd]
    exact ⟨rfl, rfl, ⟨Nat.le_refl _, hhead⟩, hs.faulted.1, never, nofun⟩
  | go ses forward =>
    obtain ⟨-, hend⟩ := forward hs.audio
    rw [ses]
    exact ⟨rfl, rfl, ⟨hend, hhead⟩, hs.faulted.1, never, nofun⟩

theorem UnitEnd.blockInv {s t : State} (h : UnitEnd s t) (hs : BlockInv s) (hopen : s.ses.fmt ≠ .none)
    (hf : s.ses.faulted = false) : BlockInv t := by
  obtain ⟨hfmt, hsize, hcursor, hreason, hresult⟩ := h.session hs hf
  have hparams : t.params = s.params := by rw [h.rest]
  have hstream : t.stream = s.stream := by rw [h.rest]
  have base : t.params.wf ∧ t.stream.wf ∧ ∀ c ∈ t.stream, c.1 < t.ses.streamSize.toNat := by
    rw [hparams, hstream, hsize]
    exact ⟨hs.params, hs.stream⟩
  obtain ⟨params, stream⟩ := base
  have faulted := And.intro hreason hresult.1
  have idle : t.ses.fmt = .none → t.ses.streamSize = 0 ∧ t.ports.dispValid = false :=
    fun hn => absurd (hfmt.symm.trans hn) hopen
  cases hm : s.ses.fmt with
  | none => exact absurd hm hopen
  | cin =>
    obtain ⟨hroq, hcin, hindex, hframe, hbits⟩ := h.cin hm
    obtain ⟨forest, hw, hh, hrate, hwidth, hchannels, hbuf, hfb⟩ := hs.cin hm
    have area : t.cin.area = s.cin.area := by rw [hcin]; rfl
    have fb : t.cin.fb.length = s.cin.idxBuf.length := by
      obtain he | he := hframe
      · rw [he]; omega
      · exact he
    refine ⟨params, stream, hcursor, faulted, idle, fun _ => ?_, by rw [hroq]; exact hs.roq, fun _ hr => ?_, hbits hs.bits⟩
    · rw [area, hindex, fb]
      rw [hcin]
      exact ⟨forest, hw, hh, hrate, hwidth, hchannels, hbuf, hbuf⟩
    · rw [hfmt, hm] at hr
      cases hr
  | roq =>
    obtain ⟨-, hhuf, -, hinv, hseen, hshown⟩ := h.roq hm
    refine ⟨params, stream, hcursor, faulted, idle, fun hc => ?_, hinv hs.roq, fun hv _ => ?_, by rw [hhuf]; exact hs.bits⟩
    · rw [hfmt, hm] at hc
      cases hc
    · obtain hold | hnew := hshown hv
      · exact hseen (hs.shown hold hm)
      · exact hnew

/-- STEP keeps the block's part, and answers FAULT exactly when the block has faulted (60_exceptions.md R283). -/
theorem stepTransaction_blockInv {s t : State} (hs : BlockInv s) (h : stepTransaction s = .next t) :
    BlockInv t ∧ (t.ses.faulted = true ↔ t.ses.result = .fault) ∧ (s.ses.faulted = true → t.ses.faulted = true) := by
  obtain ⟨hf, rfl⟩ | ⟨hf, hn, rfl⟩ | ⟨hf, hopen, hunit⟩ := stepTransaction_cases h
  · have faulted := And.intro hs.faulted.1 fun _ : s.ses.faulted = true => (rfl : Result.fault = .fault)
    exact ⟨⟨hs.params, hs.stream, hs.cursor, faulted, hs.idle, hs.cin, hs.roq, hs.shown, hs.bits⟩,
      ⟨fun _ => rfl, fun _ => hf⟩, id⟩
  · have never : ¬ s.ses.faulted = true := by simp [hf]
    have faulted := And.intro hs.faulted.1 fun h : s.ses.faulted = true => (absurd h never : Result.endOfStream = .fault)
    exact ⟨⟨hs.params, hs.stream, hs.cursor, faulted, hs.idle, hs.cin, hs.roq, hs.shown, hs.bits⟩,
      ⟨fun h => absurd h never, nofun⟩, id⟩
  · obtain ⟨-, -, -, -, hresult⟩ := hunit.session hs hf
    exact ⟨hunit.blockInv hs hopen hf, hresult, fun h => absurd h (by simp [hf])⟩

/-! ### Every request keeps it -/

theorem rewound_blockInv {s : State} (hs : BlockInv s) (hf : s.ses.faulted = false) : BlockInv (rewound s) := by
  obtain ⟨-, hhead⟩ := hs.cursor
  have faulted : (s.ses.faulted = true ↔ s.ses.faultReason ≠ .none) ∧ (s.ses.faulted = true → Result.continue_ = .fault) :=
    ⟨hs.faulted.1, fun h => absurd h (by simp [hf])⟩
  exact ⟨hs.params, hs.stream, ⟨hhead, hhead⟩, faulted, hs.idle, hs.cin,
    ⟨hs.roq.frame, hs.roq.noFrame, hs.roq.counts, hs.roq.reader⟩, hs.shown, hs.bits⟩

/-- `t` has the block's part, and with the answer `r` it has faulted exactly when `s` had, or the answer is FAULT. -/
structure Keeps (s : State) (r : Reply) (t : State) : Prop where
  block : BlockInv t
  fault : t.ses.faulted = false ↔ s.ses.faulted = false ∧ r ≠ .fault

theorem Keeps.of_quiet {s t : State} {r : Reply} (ht : BlockInv t) (hf : t.ses.faulted = s.ses.faulted) (hr : r ≠ .fault) :
    Keeps s r t :=
  ⟨ht, by rw [hf]; exact (and_iff_left hr).symm⟩

theorem stepReply_eq_fault {r : Result} : r.stepReply = .fault ↔ r = .fault := by
  cases r <;> simp [Result.stepReply]

theorem stepTransaction_keeps {s t : State} (hs : BlockInv s) (h : stepTransaction s = .next t) :
    Keeps s t.ses.result.stepReply t := by
  obtain ⟨ht, hresult, hstay⟩ := stepTransaction_blockInv hs h
  refine ⟨ht, ?_⟩
  rw [Ne, stepReply_eq_fault, ← hresult, Bool.not_eq_true]
  refine ⟨fun hf => ⟨?_, hf⟩, And.right⟩
  by_contra hne
  exact Bool.false_ne_true (hf.symm.trans (hstay (by simpa using hne)))

theorem rewindTransaction_keeps {s : State} (hs : BlockInv s) : Keeps s (rewindTransaction s).1 (rewindTransaction s).2 := by
  obtain ⟨hf, he⟩ | ⟨-, -, he⟩ | ⟨hf, -, he⟩ := rewindTransaction_cases s <;> rw [he]
  · have faulted := And.intro hs.faulted.1 fun _ : s.ses.faulted = true => (rfl : Result.fault = .fault)
    exact ⟨⟨hs.params, hs.stream, hs.cursor, faulted, hs.idle, hs.cin, hs.roq, hs.shown, hs.bits⟩, by simp [hf]⟩
  · exact .of_quiet hs rfl nofun
  · exact .of_quiet (rewound_blockInv hs hf) rfl nofun

theorem readFrame_keeps {s : State} (hs : BlockInv s) : Keeps s (readFrame s).1 (readFrame s).2 := by
  obtain ⟨hr, he | he⟩ := readFrame_cases s <;> rw [he]
  · exact .of_quiet hs rfl hr
  · exact .of_quiet ⟨hs.params, hs.stream, hs.cursor, hs.faulted, hs.idle, hs.cin, hs.roq, hs.shown, hs.bits⟩ rfl hr

theorem drainAudio_keeps {s : State} (hs : BlockInv s) : Keeps s (drainAudio s).1 (drainAudio s).2 := by
  obtain ⟨hr, more, he⟩ := drainAudio_cases s
  rw [he]
  exact .of_quiet ⟨hs.params, hs.stream, hs.cursor, hs.faulted, hs.idle, hs.cin, hs.roq, hs.shown, hs.bits⟩ rfl hr

/-- An answer given in a state that keeps it: the run goes on exactly while there is no fault (70_reset_and_hazards.md R326). -/
theorem Keeps.inv {s t : State} {r : Reply} (h : Keeps s r t) (hrun : RunInv s) (ha : Answered s r (respond r t)) :
    Inv (respond r t) := by
  refine (inv_iff _).2 ⟨h.block.of_lists t.requests (t.replies ++ [r]), ?_, ?_⟩
  · rw [ha.runStart, ha.replies, List.length_append]
    exact Nat.le_add_right_of_le hrun.1
  · rw [wellDefined_append hrun.1 ha.runStart ha.replies, hrun.2]
    exact h.fault.symm

theorem Closed.blockInv {s t : State} (h : Closed s t) (hp : s.params.wf) : BlockInv t := by
  cases h with
  | reset => exact afterReset_blockInv hp .continue_
  | opened ends => exact ends.blockInv hp

/-- Whatever a closing request leaves, its answer begins a run (70_reset_and_hazards.md R326). -/
theorem Closed.inv {s t : State} {r : Reply} (h : Closed s t) (hp : s.params.wf) (hr : r ≠ .fault) : Inv (respond r t) := by
  have begun := h.begun
  have replies : (respond r t).replies = s.replies ++ [r] := congrArg (· ++ [r]) begun.replies
  refine (inv_iff _).2 ⟨(h.blockInv hp).of_lists t.requests (t.replies ++ [r]), ?_, ?_⟩
  · rw [replies, List.length_append]
    exact Nat.le_add_right_of_le begun.runStart.le
  · exact iff_of_true (wellDefined_begun (before := s.replies) begun.runStart replies hr) begun.sound

theorem perform_inv {op : HostOp} {s t : State} (hs : Inv s) (h : perform op s = .next t) : Inv t := by
  obtain ⟨block, run⟩ := (inv_iff s).1 hs
  cases hop : op.closes with
  | true =>
    obtain ⟨u, r, hu, closed, hr⟩ := perform_closed (s := s) hop
    rw [hu] at h
    cases h
    refine closed.inv block.params ?_
    obtain rfl | rfl := hr <;> exact nofun
  | false =>
    cases op with
    | reset => cases hop
    | openCin bytes flags => cases hop
    | openRoq bytes flags => cases hop
    | step =>
      obtain ⟨u, hu, rfl⟩ := onNext_eq_next.1 h
      exact (stepTransaction_keeps block hu).inv run (stepTransaction_answered hu _)
    | rewind => cases h; exact (rewindTransaction_keeps block).inv run (rewindTransaction_answered s)
    | readFrame => cases h; exact (readFrame_keeps block).inv run (readFrame_answered s)
    | drainAudio => cases h; exact (drainAudio_keeps block).inv run (drainAudio_answered s)
    | readStatus => cases h; exact (Keeps.of_quiet (r := .status _) block rfl nofun).inv run ⟨rfl, rfl, rfl, rfl, rfl, rfl⟩

theorem Inv.withRequests {s : State} (h : Inv s) (requests : List HostOp) : Inv { s with requests := requests } := by
  obtain ⟨block, run⟩ := (inv_iff s).1 h
  exact (inv_iff _).2 ⟨block.of_lists requests s.replies, run⟩

/-- Settles O58, request by request (`perform_inv`). -/
theorem everyStepKeepsTheInvariant : Obligations.EveryStepKeepsTheInvariant := by
  intro s t hs h
  match hreq : s.requests with
  | [] =>
    rw [step_of_no_request hreq] at h
    cases h
    exact hs
  | op :: rest =>
    rw [step_of_request hreq] at h
    exact perform_inv (hs.withRequests rest) h

/-! ### No step stops the machine -/

theorem perform_total (op : HostOp) {s : State} (hs : BlockInv s) : ∃ t, perform op s = .next t := by
  cases hop : op.closes with
  | true =>
    obtain ⟨u, r, hu, -⟩ := perform_closed (s := s) hop
    exact ⟨_, hu⟩
  | false =>
    cases op with
    | reset => cases hop
    | openCin bytes flags => cases hop
    | openRoq bytes flags => cases hop
    | step =>
      have forest : s.ses.fmt = .cin → forestOk s.cin := fun hf => (hs.cin hf).1
      obtain ⟨t, ht⟩ := stepTransaction_total hs.params forest hs.roq
      exact ⟨_, by rw [perform, ht, onNext_next]⟩
    | rewind => exact ⟨_, rfl⟩
    | readFrame => exact ⟨_, rfl⟩
    | drainAudio => exact ⟨_, rfl⟩
    | readStatus => exact ⟨_, rfl⟩

/-- Settles O60: STEP in a session as it is opened goes on (`stepTransaction_total`), and so does every other request. -/
theorem theMachineNeverStops : Obligations.TheMachineNeverStops := by
  intro s hs
  match hreq : s.requests with
  | [] => exact ⟨s, step_of_no_request hreq⟩
  | op :: rest =>
    rw [step_of_request hreq]
    obtain ⟨block, -⟩ := (inv_iff _).1 (hs.withRequests rest)
    exact perform_total op block

/-! ### Progress -/

/-- A STEP that answers CONTINUE has played a unit, and OFFSET is past where it was (45_host_ops.md R271). -/
theorem stepTransaction_advances {s t : State} (hs : BlockInv s) (h : stepTransaction s = .next t)
    (hc : t.ses.result.stepReply = .continue_) :
    s.ses.offset.toNat < t.ses.offset.toNat ∧ t.ses.offset.toNat ≤ s.ses.streamSize.toNat := by
  obtain ⟨-, rfl⟩ | ⟨-, -, rfl⟩ | ⟨-, -, hunit⟩ := stepTransaction_cases h
  · cases hc
  · cases hc
  · cases hunit.ends with
    | fault r hr ses ports => rw [ses] at hc; cases hc
    | stop ses => rw [ses] at hc; cases hc
    | go ses forward => exact forward hs.audio

/-- One STEP under the invariant: its answer, and that the cursor moved when that is CONTINUE. -/
theorem step_step {s : State} {rest : List HostOp} (hs : Inv s) (hreq : s.requests = .step :: rest) :
    ∃ t r, step s = .next t ∧ Inv t ∧ Answered { s with requests := rest } r t ∧
      (r = .continue_ → s.ses.offset.toNat < t.ses.offset.toNat ∧ t.ses.offset.toNat ≤ s.ses.streamSize.toNat) := by
  have hs' := hs.withRequests rest
  obtain ⟨block, run⟩ := (inv_iff _).1 hs'
  obtain ⟨t, ht⟩ := perform_total .step block
  have inv := perform_inv hs' ht
  obtain ⟨u, hu, rfl⟩ := onNext_eq_next.1 ht
  have advances := stepTransaction_advances block hu
  exact ⟨_, _, (step_of_request hreq).trans ht, inv, stepTransaction_answered hu _, advances⟩

/-- Settles O56, by what CONTINUE says of the unit that was played. -/
theorem continueAdvances : Obligations.ContinueAdvances := by
  intro s t rest hs hreq h hreply
  obtain ⟨u, r, hu, -, answered, advances⟩ := step_step hs hreq
  cases hu.symm.trans h
  exact advances (List.singleton_inj.1 (List.append_cancel_left (answered.replies.symm.trans hreply)))

theorem run_succ {M : Host.Core} {n : Nat} {s t : M.State} (h : M.step s = .next t) : M.run (n + 1) s = M.run n t := by
  rw [Host.Core.run, h]

/-- `n` STEPs all answer, and one of the answers is not CONTINUE when fewer than `n` bytes are left before the end of the stream. -/
theorem run_steps (n : Nat) {s : State} (hs : Inv s) (hreq : s.requests = List.replicate n .step) :
    ∃ (t : State) (answers : List Reply), Host.Core.run Sys2Proof.core n s = .next t ∧ t.replies = s.replies ++ answers ∧
      (s.ses.streamSize.toNat < s.ses.offset.toNat + n → ∃ r ∈ answers, r ≠ .continue_) := by
  induction n generalizing s with
  | zero => exact ⟨s, [], rfl, (List.append_nil _).symm, fun hlt => absurd hs.cursor.1 (by omega)⟩
  | succ n ih =>
    obtain ⟨u, r, hu, inv, answered, advances⟩ := step_step hs hreq
    obtain ⟨t, answers, hrun, hreplies, hends⟩ := ih inv answered.requests
    refine ⟨t, r :: answers, (run_succ (M := Sys2Proof.core) hu).trans hrun, ?_, fun hlt => ?_⟩
    · rw [hreplies, answered.replies, List.append_assoc, List.singleton_append]
    · by_cases hr : r = .continue_
      · have size : u.ses.streamSize = s.ses.streamSize := by rw [answered.session]
        obtain ⟨forward, -⟩ := advances hr
        obtain ⟨q, hq, hne⟩ := hends (by rw [size]; omega)
        exact ⟨q, List.mem_cons_of_mem r hq, hne⟩
      · exact ⟨r, List.mem_cons_self, hr⟩

/-- Settles O57: each CONTINUE takes a byte of the stream at least (`run_steps`, an induction on the STEPs). -/
theorem stepsEndWithinTheStream : Obligations.StepsEndWithinTheStream := by
  intro s hs hreq
  obtain ⟨t, answers, hrun, hreplies, hends⟩ := run_steps _ hs hreq
  exact ⟨t, answers, hrun, hreplies, hends (by omega)⟩

end Sys2Proof.Machine
end

section
/-! The statements of 40_huffman.md on the CIN records: the decoded frame, the leaf step, the round trip and the records cut off. -/

namespace Sys2Proof.Machine

/-! ### The frame body -/

theorem execCinFrame_eq (s : State) : execCinFrame s = (frameBody (s.ses.offset.toNat + 4) s).outcome := rfl

/-- With its palette in the stream, CIN.PALFRAME is the frame body after the palette, in the state that has it (40_huffman.md R132). -/
theorem execCinPalframe_eq {s : State} (h : s.ses.offset.toNat + 772 ≤ s.ses.streamSize.toNat) :
    execCinPalframe s =
      (frameBody (s.ses.offset.toNat + 772) (withPalette (s.ses.offset.toNat + 4) s)).outcome := by
  rw [execCinPalframe, palframeBody, if_neg (by simp only [shortOf, afterCommand]; omega), loadPalette_eq]
  rfl

/-- A frame body in a built forest, with no bit step that faults (40_huffman.md R126, R128, R131). -/
theorem frameBody_decodes {r : Nat} {s : State} (hforest : forestOk s.cin) (hleaf : leafStepsRun r s)
    (hbuf : indexBufferHolds s) (hfits : frameFits r s) :
    ∃ t, (frameBody r s).outcome = .next t ∧ FrameDecoded r (frameWalk r s).1 (frameWalk r s).2 s t := by
  obtain ⟨t, ht, decoded⟩ := frameBody_walk hfits hbuf (walkOk_of_forest hforest _ _ _ _ hleaf (Nat.le_refl _))
  exact ⟨t, by rw [ht, outcome_done], decoded⟩

/-- Settles O18: the frame body of the record. -/
theorem cinFrameDecodes : Obligations.CinFrameDecodes := by
  intro s hforest hleaf hbuf hfits
  rw [exec_cinFrame, execCinFrame_eq]
  exact frameBody_decodes hforest hleaf hbuf hfits

/-- A frame that fits after the palette leaves the palette itself in the stream. -/
theorem palette_in_stream {s : State} (h : frameFits (s.ses.offset.toNat + 772) s) :
    s.ses.offset.toNat + 772 ≤ s.ses.streamSize.toNat := by
  obtain ⟨hsize, -⟩ := h
  omega

theorem indexBufferHolds_withPalette {q : Nat} {s : State} (h : indexBufferHolds s) : indexBufferHolds (withPalette q s) := by
  rw [indexBufferHolds, withPalette_idxBuf, withPalette_area]
  exact h

theorem forestOk_withPalette {q : Nat} {s : State} (h : forestOk s.cin) : forestOk (withPalette q s).cin := fun ctx =>
  rowOk_congr (congrArg (at8 · ctx) (withPalette_pair q s)) (congrArg (at8 · ctx) (withPalette_root q s)) (h ctx)

/-- Settles O19: the palette is no part of what the frame body reads. -/
theorem cinPalframeDecodes : Obligations.CinPalframeDecodes := by
  intro s hforest hleaf hbuf hfits
  have hleaf' : leafStepsRun (s.ses.offset.toNat + 772) (withPalette (s.ses.offset.toNat + 4) s) := by
    rw [leafStepsRun, withPalette_params, frameLeafStep_withPalette]
    exact hleaf
  have fits := (frameFits_withPalette (s.ses.offset.toNat + 4) (s.ses.offset.toNat + 772) s).2 hfits
  obtain ⟨t, ht, decoded⟩ := frameBody_decodes (s := withPalette (s.ses.offset.toNat + 4) s) (forestOk_withPalette hforest) hleaf'
    (indexBufferHolds_withPalette hbuf) fits
  rw [frameWalk_withPalette] at decoded
  exact ⟨t, by rw [exec_cinPalframe, execCinPalframe_eq (palette_in_stream hfits), ht], decoded⟩

/-- Settles O22: the frame body of either record raises where the bit is taken from the leaf. -/
theorem leafStepFaults : Obligations.LeafStepFaults := by
  intro s syms hfault hbuf
  refine ⟨fun hfits hleaf => ?_, fun hfits hleaf => ?_⟩
  · rw [exec_cinFrame, execCinFrame_eq]
    exact frameBody_raises hfits hbuf hfault hleaf
  · rw [exec_cinPalframe, execCinPalframe_eq (palette_in_stream hfits)]
    have fits := (frameFits_withPalette (s.ses.offset.toNat + 4) (s.ses.offset.toNat + 772) s).2 hfits
    exact frameBody_raises fits (indexBufferHolds_withPalette hbuf) hfault
      (by rw [frameLeafStep_withPalette]; exact hleaf)

/-- Settles O23: the walk over bits that code the symbols answers them (`hufWalk_codes`, an induction on the coding). -/
theorem huffmanRoundTrip : Obligations.HuffmanRoundTrip := by
  intro s syms bits pad hbuf hfits hcodes hbits hcount
  obtain ⟨walk, ok⟩ := hufWalk_codes hcodes s.params.hufLeafStep pad
  rw [← hbits, ← hcount] at walk ok
  obtain ⟨t, ht, decoded⟩ := frameBody_walk hfits hbuf ok
  rw [show frameWalk (s.ses.offset.toNat + 4) s = (syms, bits.length) from walk] at decoded
  exact ⟨t, by rw [exec_cinFrame, execCinFrame_eq, ht, outcome_done], decoded⟩

/-! ### Records cut off -/

/-- A frame body whose size field or payload the stream's end cuts off (40_huffman.md R138). -/
theorem frameBody_cut {r : Nat} {s : State} (h : s.ses.streamSize.toNat < r + 4 ∨
      (4 ≤ (memRead32 s r).toInt ∧ (memRead32 s r).toInt ≤ 131072 ∧
        (s.ses.streamSize.toNat : Int) < (r : Int) + 4 + (memRead32 s r).toInt)) :
    (frameBody r s).outcome = .next { s with ses := afterEnd s } := by
  have ends : frameBody r s = .done () (anomaly s) := by
    by_cases hshort : shortOf s r 4
    · rw [frameBody, if_pos hshort]
    · obtain hshort' | ⟨hlow, hhigh, hcut⟩ := h
      · exact absurd (by simp only [shortOf]; omega) hshort
      · simp only [frameBody]
        rw [if_neg hshort, if_neg (by omega), if_pos (by simp only [shortOf]; push_cast; omega)]
  rw [ends, outcome_done, anomaly_eq]

/-- A frame size outside its bounds moves OFFSET to the stream's end (40_huffman.md R133). -/
theorem frameBody_badSize {r : Nat} {s : State} (hfield : r + 4 ≤ s.ses.streamSize.toNat)
    (h : (memRead32 s r).toInt < 4 ∨ 131072 < (memRead32 s r).toInt) :
    (frameBody r s).outcome = .next { s with ses := { s.ses with
      offset := s.ses.streamSize, stepCount := s.ses.stepCount + 1, result := .continue_ } } := by
  have ends : frameBody r s = .done () (frameSizeAnomaly s) := by
    simp only [frameBody]
    rw [if_neg (by simp only [shortOf]; omega), if_pos h]
  rw [ends, outcome_done]
  rfl

/-- Settles O20: the frame body's two anomalies, in each record, and a palette cut off. -/
theorem cinRecordAnomalies : Obligations.CinRecordAnomalies := by
  intro s
  refine ⟨fun h => ?_, fun hfield h => ?_, fun h => ?_, fun hpal h => ?_, fun hfield h => ?_⟩
  · exact frameBody_cut (r := s.ses.offset.toNat + 4) (by omega)
  · exact frameBody_badSize (r := s.ses.offset.toNat + 4) hfield h
  · rw [exec_cinPalframe, execCinPalframe, palframeBody, if_pos (by simp only [shortOf, afterCommand]; omega), outcome_done,
      anomaly_eq]
  · have ends := frameBody_cut (r := s.ses.offset.toNat + 772) (s := withPalette (s.ses.offset.toNat + 4) s)
      (by simp only [withPalette_ses, memRead32_withPalette]; omega)
    rw [exec_cinPalframe, execCinPalframe_eq hpal, ends, afterEnd, withPalette_ses, ← afterEnd]
  · have ends := frameBody_badSize (r := s.ses.offset.toNat + 772) (s := withPalette (s.ses.offset.toNat + 4) s)
      (by simp only [withPalette_ses]; omega) (by rw [memRead32_withPalette]; exact h)
    rw [exec_cinPalframe, execCinPalframe_eq (by omega), ends, withPalette_ses]

end Sys2Proof.Machine
end

section
/-! The statements of 41_roq_chunks.md and 44_roq_audio.md on the chunks: INFO, CODEBOOK, the sounds, IDENT and OTHER. -/

namespace Sys2Proof.Machine

/-! ### A chunk that fits -/

/-- A chunk whose operation goes on to a state with its window and its session moves OFFSET to the payload's end (41_roq_chunks.md R161). -/
theorem chunkStep_goes_on {size : Word} {op : State → Run Unit} {s t : State} (hfit : chunkFits size s)
    (hop : op (openWindow s.ses.offset.toNat size.toInt s) = .done () t) (hend : t.roq.payEnd = s.ses.offset + 8 + size)
    (hses : t.ses = s.ses) : (chunkStep size op s).outcome = .next { t with ses := afterChunk size s } := by
  rw [chunkStep_outcome_done hfit hop, hend, retContinue, setOffset, hses]
  rfl

/-- A chunk whose operation faults leaves the cursor (60_exceptions.md R283). -/
theorem chunkStep_faults {size : Word} {op : State → Run Unit} {s t : State} {r : FaultReason} (hfit : chunkFits size s)
    (hop : op (openWindow s.ses.offset.toNat size.toInt s) = .raised r t) (hses : t.ses = s.ses) :
    (chunkStep size op s).outcome = .next { t with ses := afterFault r s } := by
  rw [chunkStep_outcome_raised hfit hop, takeFault, hses]
  rfl

/-- A chunk whose operation does nothing moves only the cursor (41_roq_chunks.md R166, R171; 44_roq_audio.md R245). -/
theorem chunkStep_skips {size : Word} {op : State → Run Unit} {s : State} (hfit : chunkFits size s)
    (hop : ∀ t : State, t.ses = s.ses → t.roq.infoSeen = s.roq.infoSeen → op t = .done () t) :
    (chunkStep size op s).outcome = .next { s with ses := afterChunk size s, roq := inWindow size 0 s } := by
  rw [chunkStep_goes_on hfit (hop _ rfl rfl) (by rw [openWindow_eq_inWindow]; rfl) rfl, openWindow_eq_inWindow]

/-! ### INFO -/

theorem infoOp_of_seen {s : State} (h : s.roq.infoSeen = true) : infoOp s = .done () s := by
  rw [infoOp, if_pos h]

/-- The first INFO with its eight bytes there: a frame, or the fault of a zero dimension (41_roq_chunks.md R166, R167). -/
theorem infoOp_of_left {s : State} {w ht : Half} (h : s.roq.infoSeen = false) (hleft : payloadLeft 8 s)
    (hw : le16 (payloadByte s 0) (payloadByte s 1) = w) (hht : le16 (payloadByte s 2) (payloadByte s 3) = ht) :
    infoOp s = if w = 0 ∨ ht = 0 then .raised .infoZeroDim (payAdvance 8 s) else .done () (setInfo w ht (payAdvance 8 s)) := by
  obtain ⟨hend, hin⟩ := hleft
  rw [infoOp, if_neg (by simp [h]), payRead16_of_left ⟨by omega, hin⟩, bind_done,
    payRead16_of_left (payloadLeft_advance (m := 2) ⟨by omega, hin⟩), bind_done, payAdvance_add,
    payRead4_of_left (payloadLeft_advance (m := 4) ⟨by omega, hin⟩), bind_done, payAdvance_add,
    payloadByte_advance (by omega), payloadByte_advance (by omega), hw, hht]

/-- The first INFO cut short: the bytes there are read, then the fault is raised (41_roq_chunks.md R166). -/
theorem infoOp_short {s : State} {l : Nat} (h : s.roq.infoSeen = false) (hleft : bytesLeft l s) (hl : l < 8) :
    infoOp s = .raised .payloadOverrun (payAdvance l s) := by
  rw [infoOp, if_neg (by simp [h])]
  obtain hl2 | hl2 := Nat.lt_or_ge l 2
  · rw [payRead16_short hleft hl2, bind_raised]
  rw [payRead16_of_left (hleft.left hl2), bind_done]
  obtain hl4 | hl4 := Nat.lt_or_ge l 4
  · rw [payRead16_short (hleft.advance hl2) (by omega), bind_raised, payAdvance_add, Nat.add_sub_cancel' hl2]
  rw [payRead16_of_left ((hleft.advance hl2).left (by omega)), bind_done, payAdvance_add,
    payRead4_short (hleft.advance hl4) (by omega), bind_raised, payAdvance_add, Nat.add_sub_cancel' hl4]

theorem initialBuffer_length (p : Params) (draw base n : Nat) : (initialBuffer p draw base n).length = n := by
  unfold initialBuffer
  split <;> simp

theorem initialBuffer_zero {p : Params} (h : p.bufInit = .zero) (draw base n : Nat) :
    initialBuffer p draw base n = List.replicate n Pixel.zero := by
  rw [initialBuffer, h]

/-- The two dimensions an INFO payload declares, as its window reads them (30_encoding.md R93). -/
theorem openWindow_le16 {size : Word} {s : State} (hfit : chunkFits size s) {k : Nat} (hk : (k : Int) + 1 < size.toInt) :
    le16 (payloadByte (openWindow s.ses.offset.toNat size.toInt s) k)
        (payloadByte (openWindow s.ses.offset.toNat size.toInt s) (k + 1)) =
      le16 ((chunkPayload size s).getD k 0) ((chunkPayload size s).getD (k + 1) 0) := by
  rw [openWindow_byte hfit (by omega), openWindow_byte hfit (by push_cast; omega)]

/-- Settles O25: the first INFO and a later one. -/
theorem infoFirstWins : Obligations.InfoFirstWins := by
  intro size arg s hfit bs w ht
  refine ⟨fun hseen hsize hw hht => ?_, fun hseen => ?_⟩
  · have info := infoOp_of_left (s := openWindow s.ses.offset.toNat size.toInt s) hseen (openWindow_left hfit hsize)
      (openWindow_le16 hfit (k := 0) (by omega)) (openWindow_le16 hfit (k := 2) (by omega))
    rw [if_neg (not_or.2 ⟨hw, hht⟩), payAdvance_openWindow] at info
    refine ⟨_, _, chunkStep_goes_on hfit info rfl rfl, initialBuffer_length _ _ _ _, initialBuffer_length _ _ _ _, fun hz => ?_⟩
    exact ⟨initialBuffer_zero hz _ _ _, (initialBuffer_zero hz _ _ _).trans (initialBuffer_zero hz _ _ _).symm⟩
  · exact chunkStep_skips hfit fun t _ ht => infoOp_of_seen (ht.trans hseen)

theorem vqOp_of_no_info {arg : Half} {s : State} (h : s.roq.infoSeen = false) : vqOp arg s = .raised .vqNoInfo s := by
  rw [vqOp, if_pos h]

/-- Settles O26: the two faults of a first INFO, and the VQ chunk with no frame to draw on. -/
theorem infoAndEarlyVqFaults : Obligations.InfoAndEarlyVqFaults := by
  intro size arg s hfit hseen bs
  refine ⟨fun hshort => ?_, fun hsize hzero => ?_, ?_⟩
  · have info := infoOp_short (s := openWindow s.ses.offset.toNat size.toInt s) hseen (openWindow_bytesLeft hfit) (by omega)
    rw [payAdvance_openWindow] at info
    exact chunkStep_faults hfit info rfl
  · have info := infoOp_of_left (s := openWindow s.ses.offset.toNat size.toInt s) hseen (openWindow_left hfit hsize)
      (openWindow_le16 hfit (k := 0) (by omega)) (openWindow_le16 hfit (k := 2) (by omega))
    have zero : le16 (bs.getD 0 0) (bs.getD 1 0) = 0 ∨ le16 (bs.getD 2 0) (bs.getD 3 0) = 0 :=
      hzero.imp (fun ⟨h0, h1⟩ => by rw [h0, h1]; rfl) (fun ⟨h2, h3⟩ => by rw [h2, h3]; rfl)
    rw [if_pos zero, payAdvance_openWindow] at info
    exact chunkStep_faults hfit info rfl
  · rw [exec_roqVq, execRoqVq, chunkStep_faults hfit (vqOp_of_no_info (s := openWindow _ _ s) hseen) rfl, openWindow_eq_inWindow]

/-! ### CODEBOOK -/

/-- The cells a window loads are those of the chunk's payload (30_encoding.md R95). -/
theorem loadedFrom_payloadCell {size : Word} {s : State} (hfit : chunkFits size s) {n : Nat} (hn : 6 * n ≤ size.toInt.toNat) :
    loadedFrom s.roq.cells 0 n (fun j => cellFrom (openWindow s.ses.offset.toNat size.toInt s) (6 * j)) =
      Vector.ofFn fun k : Fin 256 => if k.val < n then payloadCell (chunkPayload size s) k.val else s.roq.cells[k] := by
  refine congrArg Vector.ofFn (funext fun k => ?_)
  simp only [Nat.zero_le, true_and, Nat.zero_add, Nat.sub_zero]
  refine if_ctx_congr Iff.rfl (fun hk => ?_) fun _ => rfl
  simp only [cellFrom, payloadCell]
  congr 1 <;> exact openWindow_byte hfit (by push_cast; omega)

/-- The quad-cells a window loads after `n1` cells are those of the chunk's payload (30_encoding.md R95). -/
theorem loadedFrom_payloadQuad {size : Word} {s : State} (hfit : chunkFits size s) {n1 n : Nat}
    (hn : 0 < n → 6 * n1 + 4 * n ≤ size.toInt.toNat) :
    loadedFrom s.roq.quads 0 n (fun j => quadFrom (openWindow s.ses.offset.toNat size.toInt s) (6 * n1 + 4 * j)) =
      Vector.ofFn fun k : Fin 256 => if k.val < n then payloadQuad (chunkPayload size s) n1 k.val else s.roq.quads[k] := by
  refine congrArg Vector.ofFn (funext fun k => ?_)
  simp only [Nat.zero_le, true_and, Nat.zero_add, Nat.sub_zero]
  refine if_ctx_congr Iff.rfl (fun hk => ?_) fun _ => rfl
  simp only [quadFrom, payloadQuad]
  congr 1 <;> exact openWindow_byte hfit (by push_cast; omega)

/-- `s` after a codebook load that read `used` bytes: `a` cells and, from payload place `6 * n1` on, `b` quad-cells are loaded
(41_roq_chunks.md R168). -/
def bookLoaded (n1 a b used : Nat) (s : State) : State :=
  withQuads (loadedFrom s.roq.quads 0 b fun j => quadFrom s (6 * n1 + 4 * j))
    (withCells (loadedFrom s.roq.cells 0 a fun j => cellFrom s (6 * j)) (payAdvance used s))

/-- The quad-cells after the cells, as the load reads them. -/
theorem quadFrom_after_cells {n1 : Nat} {s : State} (h : s.roq.payPos.toNat + 6 * n1 ≤ s.roq.payEnd.toNat) (v : Vector Cell 256) :
    (fun j => quadFrom (withCells v (payAdvance (6 * n1) s)) (4 * j)) = fun j => quadFrom s (6 * n1 + 4 * j) := by
  funext j
  rw [quadFrom_withCells, quadFrom_advance h]

theorem withQuads_same (u : Vector Cell 256) (n : Nat) (s : State) :
    withQuads s.roq.quads (withCells u (payAdvance n s)) = withCells u (payAdvance n s) := rfl

/-- A codebook whose bytes are all there (41_roq_chunks.md R168). -/
theorem codebookOp_of_left {size : Word} {arg : Half} {n1 n2 : Nat} {s : State} (h1 : codebookN1 arg = n1)
    (h2 : codebookN2 arg size = n2) (h : payloadLeft (6 * n1 + 4 * n2) s) :
    codebookOp size arg s = .done () (setCounts n1 n2 (bookLoaded n1 n1 n2 (6 * n1 + 4 * n2) s)) := by
  obtain ⟨hend, hin⟩ := h
  rw [codebookOp, h1, h2, loadCells_of_left 0 ⟨by omega, hin⟩, bind_done,
    loadQuads_of_left 0 (payloadLeft_withCells (payloadLeft_advance ⟨hend, hin⟩)), bind_done,
    quadFrom_after_cells (by omega), payAdvance_withCells, payAdvance_add, withCells_quads, payAdvance_roq, bookLoaded]

/-- A codebook cut short after `l` bytes (41_roq_chunks.md R168). -/
theorem codebookOp_short {size : Word} {arg : Half} {n1 n2 l : Nat} {s : State} (h1 : codebookN1 arg = n1)
    (h2 : codebookN2 arg size = n2) (h : bytesLeft l s) (hl : l < 6 * n1 + 4 * n2) :
    codebookOp size arg s = .raised .payloadOverrun (bookLoaded n1 (min n1 (l / 6)) ((l - 6 * n1) / 4) l s) := by
  rw [codebookOp, h1, h2]
  obtain hcells | hcells := Nat.lt_or_ge l (6 * n1)
  · rw [loadCells_short 0 h hcells, bind_raised, bookLoaded, show min n1 (l / 6) = l / 6 by omega,
      show (l - 6 * n1) / 4 = 0 by omega, loadedFrom_zero, withQuads_same]
  · obtain ⟨hend, hin⟩ := h
    rw [loadCells_of_left 0 ⟨by omega, hin⟩, bind_done,
      loadQuads_short 0 (bytesLeft_withCells (bytesLeft.advance ⟨hend, hin⟩ hcells)) (by omega), bind_raised,
      quadFrom_after_cells (by omega), payAdvance_withCells, payAdvance_add, Nat.add_sub_cancel' hcells,
      withCells_quads, payAdvance_roq, bookLoaded, show min n1 (l / 6) = n1 by omega]

/-- The chunk at OFFSET after a codebook operation that left these codebooks and had read `used` bytes. -/
def bookRead (size : Word) (used : Nat) (cells : Vector Cell 256) (quads : Vector Quad 256) (s : State) : State :=
  { s with roq := { inWindow size used s with cells := cells, quads := quads } }

theorem withBooks_openWindow (size : Word) (used : Nat) (cells : Vector Cell 256) (quads : Vector Quad 256) (s : State) :
    withQuads quads (withCells cells (payAdvance used (openWindow s.ses.offset.toNat size.toInt s))) =
      bookRead size used cells quads s := by
  rw [payAdvance_openWindow]
  rfl

/-- A codebook load in a chunk's window, written over the chunk's payload. -/
theorem bookLoaded_openWindow {size : Word} {s : State} (hfit : chunkFits size s) {n1 a b : Nat} (used : Nat)
    (ha : 6 * a ≤ size.toInt.toNat) (hb : 0 < b → 6 * n1 + 4 * b ≤ size.toInt.toNat) :
    bookLoaded n1 a b used (openWindow s.ses.offset.toNat size.toInt s) =
      bookRead size used
        (Vector.ofFn fun k : Fin 256 => if k.val < a then payloadCell (chunkPayload size s) k.val else s.roq.cells[k])
        (Vector.ofFn fun k : Fin 256 => if k.val < b then payloadQuad (chunkPayload size s) n1 k.val else s.roq.quads[k]) s := by
  rw [bookLoaded, withBooks_openWindow, openWindow_roq, loadedFrom_payloadCell hfit ha, loadedFrom_payloadQuad hfit hb]

theorem exec_codebook_of_done {size : Word} {arg : Half} {n1 n2 used : Nat} {cells : Vector Cell 256} {quads : Vector Quad 256}
    {s : State} (hfit : chunkFits size s)
    (hop : codebookOp size arg (openWindow s.ses.offset.toNat size.toInt s) =
      .done () (setCounts n1 n2 (bookRead size used cells quads s))) :
    exec (.roqCodebook size arg) s = .next { s with
      ses := afterChunk size s
      roq := { inWindow size used s with
        cells := cells, quads := quads, n1Last := BitVec.ofNat 9 n1, n2Last := BitVec.ofNat 9 n2 } } :=
  chunkStep_goes_on hfit hop rfl rfl

theorem exec_codebook_of_raised {size : Word} {arg : Half} {used : Nat} {cells : Vector Cell 256} {quads : Vector Quad 256}
    {s : State} {r : FaultReason} (hfit : chunkFits size s)
    (hop : codebookOp size arg (openWindow s.ses.offset.toNat size.toInt s) = .raised r (bookRead size used cells quads s)) :
    exec (.roqCodebook size arg) s = .next { s with
      ses := afterFault r s
      roq := { inWindow size used s with cells := cells, quads := quads } } :=
  chunkStep_faults hfit hop rfl

/-- Settles O27: the cells, then the quad-cells, all their bytes there. -/
theorem codebookLoads : Obligations.CodebookLoads := by
  intro size arg s hfit hroom
  have book := codebookOp_of_left rfl rfl (openWindow_left hfit hroom)
  rw [bookLoaded_openWindow hfit _ (by omega) (by omega)] at book
  exact exec_codebook_of_done hfit book

/-- Settles O28: the entries whose last byte is there are those before the first missing one. -/
theorem shortCodebookFaults : Obligations.ShortCodebookFaults := by
  intro size arg s hfit hshort
  have book := codebookOp_short (size := size) (arg := arg) rfl rfl (openWindow_bytesLeft hfit) (by omega)
  rw [bookLoaded_openWindow hfit _ (by omega) (by omega)] at book
  have cells : ∀ k, k < min (codebookN1 arg) (size.toInt.toNat / 6) ↔
      k < codebookN1 arg ∧ 6 * (k + 1) ≤ size.toInt.toNat := by omega
  have quads : ∀ k, k < (size.toInt.toNat - 6 * codebookN1 arg) / 4 ↔
      k < codebookN2 arg size ∧ 6 * codebookN1 arg + 4 * (k + 1) ≤ size.toInt.toNat := by omega
  simp only [cells, quads] at book
  exact exec_codebook_of_raised hfit book

end Sys2Proof.Machine
end

section
/-! The statements of 44_roq_audio.md on the sound chunks, and of 41_roq_chunks.md on IDENT and the chunks of no other id. -/

namespace Sys2Proof.Machine

/-! ### The samples of a chunk -/

/-- The left channel does not read an odd last byte (44_roq_audio.md R252). -/
theorem leftBytes_take_even : ∀ bs : List Byte, leftBytes (bs.take (2 * (bs.length / 2))) = leftBytes bs
  | [] => rfl
  | [_] => by simp [leftBytes]
  | l :: r :: rest => by
    rw [List.length_cons, List.length_cons, show 2 * ((rest.length + 1 + 1) / 2) = 2 * (rest.length / 2) + 2 by omega,
      List.take_succ_cons, List.take_succ_cons, leftBytes, leftBytes, leftBytes_take_even rest]

/-- Nor does the right channel (44_roq_audio.md R252). -/
theorem rightBytes_take_even : ∀ bs : List Byte, rightBytes (bs.take (2 * (bs.length / 2))) = rightBytes bs
  | [] => rfl
  | [_] => by simp [rightBytes]
  | l :: r :: rest => by
    rw [List.length_cons, List.length_cons, show 2 * ((rest.length + 1 + 1) / 2) = 2 * (rest.length / 2) + 2 by omega,
      List.take_succ_cons, List.take_succ_cons, rightBytes, rightBytes, rightBytes_take_even rest]

/-- A stereo payload has no sample exactly when it has no pair of bytes (44_roq_audio.md R253). -/
theorem stereoSamples_eq_nil (o : AudioOverflow) (l r : Half) (bs : List Byte) :
    interleave (dpcm o l (leftBytes bs)) (dpcm o r (rightBytes bs)) = [] ↔ bs.length < 2 := by
  match bs with
  | [] => simp [leftBytes, dpcm, interleave]
  | [_] => simp [leftBytes, dpcm, interleave]
  | _ :: _ :: _ => simp [leftBytes, rightBytes, dpcm, interleave]

theorem dpcm_eq_nil (o : AudioOverflow) (acc : Half) (bs : List Byte) : dpcm o acc bs = [] ↔ bs = [] := by
  cases bs <;> simp [dpcm]

theorem payloadBytes_take {m n : Nat} (h : m ≤ n) (s : State) : (payloadBytes n s).take m = payloadBytes m s := by
  rw [payloadBytes, ← List.map_take, List.take_range, Nat.min_eq_left h, payloadBytes]

theorem chunkPayload_length (size : Word) (s : State) : (chunkPayload size s).length = size.toInt.toNat := by
  simp [chunkPayload, streamSpan]

/-- The whole pairs of a chunk's payload, as its window holds them. -/
theorem chunkPayload_take_even {size : Word} {s : State} (h : chunkFits size s) :
    (chunkPayload size s).take (2 * ((chunkPayload size s).length / 2)) =
      payloadBytes (2 * (size.toInt.toNat / 2)) (openWindow s.ses.offset.toNat size.toInt s) := by
  rw [chunkPayload_length, chunkPayload_eq h, payloadBytes_take (by omega)]

/-! ### The seeds -/

theorem seedRight_eq (arg : Half) : seedRight arg = arg <<< 8 := by
  have low : (arg &&& 0x00FF#16).toNat = arg.toNat % 256 := Nat.and_two_pow_sub_one_eq_mod arg.toNat 8
  apply BitVec.eq_of_toNat_eq
  rw [seedRight, BitVec.toNat_shiftLeft, BitVec.toNat_shiftLeft, low, Nat.shiftLeft_eq, Nat.shiftLeft_eq]
  omega

/-! ### The operations -/

theorem monoOp_of_silent {size : Word} {arg : Half} {s : State} (h : s.ses.flags.silent = true) :
    monoOp size arg s = .done () s := by
  rw [monoOp, if_pos h]

theorem stereoOp_of_silent {size : Word} {arg : Half} {s : State} (h : s.ses.flags.silent = true) :
    stereoOp size arg s = .done () s := by
  rw [stereoOp, if_pos h]

theorem monoOp_of_left {size : Word} {arg : Half} {s : State} (h : s.ses.flags.silent = false)
    (hleft : payloadLeft size.toInt.toNat s) :
    monoOp size arg s = .done () (audioAppend 1 (dpcm s.params.audioOverflow arg (payloadBytes size.toInt.toNat s))
      (withAccs ((dpcm s.params.audioOverflow arg (payloadBytes size.toInt.toNat s)).getLastD arg) s.roq.accR
        (payAdvance size.toInt.toNat s))) := by
  have loop := monoLoop_of_left (acc := arg) hleft
  rw [monoOp, if_neg (by simp [h])]
  exact congrArg (Run.bind · fun samples s => .done () (audioAppend 1 samples s)) loop

/-- A stereo chunk whose pairs are all there (44_roq_audio.md R248, R252). -/
theorem stereoOp_of_left {size : Word} {arg : Half} {s : State} (h : s.ses.flags.silent = false)
    (hleft : payloadLeft (2 * (size.toInt.toNat / 2)) s) {left right : List Half}
    (hl : dpcm s.params.audioOverflow (seedLeft arg) (leftBytes (payloadBytes (2 * (size.toInt.toNat / 2)) s)) = left)
    (hr : dpcm s.params.audioOverflow (seedRight arg) (rightBytes (payloadBytes (2 * (size.toInt.toNat / 2)) s)) = right) :
    stereoOp size arg s = .done () (audioAppend 2 (interleave left right)
      (withAccs (left.getLastD (seedLeft arg)) (right.getLastD (seedRight arg)) (payAdvance (2 * (size.toInt.toNat / 2)) s))) := by
  have loop := stereoLoop_of_left (l := seedLeft arg) (r := seedRight arg) hleft
  rw [hl, hr] at loop
  rw [stereoOp, if_neg (by simp [h])]
  exact congrArg (Run.bind · fun samples s => .done () (audioAppend 2 samples s)) loop

/-! ### The statements -/

theorem audioAppend_of_nonempty {channels : Int} {samples : List Half} (s : State) (h : samples ≠ []) :
    audioAppend channels samples s = { s with ports := { s.ports with audioOut := s.ports.audioOut ++
      [{ rate := s.params.roqAudioRate, width := 2, channels := channels, data := .roqPcm16 samples }] } } := by
  rw [audioAppend, if_neg h]
  rfl

/-- Settles O29: each byte of the payload gives one sample, and a chunk that fits has a byte. -/
theorem monoSound : Obligations.MonoSound := by
  intro size arg s hfit hloud samples
  have hsize := hfit.1
  have op := monoOp_of_left (arg := arg) (s := openWindow s.ses.offset.toNat size.toInt s) hloud
    (openWindow_left hfit (n := size.toInt.toNat) (by omega))
  have nonempty : samples ≠ [] := by
    rw [ne_eq, dpcm_eq_nil, ← List.length_eq_zero_iff, chunkPayload_length]
    omega
  rw [← chunkPayload_eq hfit, payAdvance_openWindow] at op
  exact chunkStep_goes_on hfit (op.trans (congrArg (Run.done ()) (audioAppend_of_nonempty _ nonempty))) rfl rfl

/-- Settles O30: each whole pair of the payload gives two samples, and only a payload of one byte has no pair. -/
theorem stereoSound : Obligations.StereoSound := by
  intro size arg s hfit hloud bs left right
  have hsize := hfit.1
  have op := stereoOp_of_left (size := size) (arg := arg) (s := openWindow s.ses.offset.toNat size.toInt s) (left := left) (right := right) hloud
    (openWindow_left hfit (by omega)) (by rw [← chunkPayload_take_even hfit, leftBytes_take_even]; rfl)
    (by rw [← chunkPayload_take_even hfit, rightBytes_take_even, seedRight_eq]; rfl)
  have empty : interleave left right = [] ↔ size.toInt = 1 := by
    rw [stereoSamples_eq_nil, show bs.length = _ from chunkPayload_length size s]
    omega
  rw [payAdvance_openWindow, seedRight_eq] at op
  by_cases hone : size.toInt = 1
  · rw [audioAppend, if_pos (empty.2 hone)] at op
    rw [if_pos hone, List.append_nil]
    exact chunkStep_goes_on hfit op rfl rfl
  · rw [audioAppend_of_nonempty _ (mt empty.1 hone)] at op
    rw [if_neg hone]
    exact chunkStep_goes_on hfit op rfl rfl

/-- Settles O31: neither operation does anything in a silent session. -/
theorem silentSoundIsSkipped : Obligations.SilentSoundIsSkipped := by
  intro size arg s hfit hsilent
  exact ⟨chunkStep_skips hfit fun t ht _ => monoOp_of_silent (ht ▸ hsilent),
    chunkStep_skips hfit fun t ht _ => stereoOp_of_silent (ht ▸ hsilent)⟩

/-- Settles O32: IDENT is the end, and an unknown chunk's operation does nothing. -/
theorem identEndsAndOtherSkips : Obligations.IdentEndsAndOtherSkips := by
  intro id size arg s
  refine ⟨?_, fun hfit => chunkStep_skips hfit fun t _ _ => rfl⟩
  rw [exec_roqIdent, execRoqIdent, anomaly_eq]

end Sys2Proof.Machine
end

section
/-! The small statements: the codes' dispatch, the counts of a CODEBOOK argument, the default YUV tables and PayRead. -/

namespace Sys2Proof.Machine

/-! ### The codes' dispatch -/

/-- A place of codes that reads `c` from its byte gives the code's operation there (42_roq_vq.md R203). -/
theorem decodeCode_eq_ok {p : Params} {place : Place} {f : VqCode → Instr} {c : BitVec 2} {i : Instr}
    (h : decodeCode p place f [c.zeroExtend 8] = .ok (i, [])) : ∃ k, vqCode? p c = some k ∧ i = f k := by
  have byte := (decodeCode_byte p place f c []).symm.trans h
  cases code : vqCode? p c with
  | none => simp [code] at byte
  | some k => exact ⟨k, rfl, by simpa [code] using byte.symm⟩

/-- The operation of a code on an 8×8 block. -/
def run8 : VqCode → State → Run Unit
  | .mot => mot8
  | .fcc => fcc8
  | .sld => sld8
  | .ccc => ccc8

/-- The operation of a code on a 4×4 block. -/
def run4 : VqCode → State → Run Unit
  | .mot => mot4
  | .fcc => fcc4
  | .sld => sld4
  | .ccc => ccc4

theorem exec_code8Instr (k : VqCode) (s : State) : exec (code8Instr k) s = (run8 k s).outcome := by
  cases k <;> rfl

theorem exec_code4Instr (k : VqCode) (s : State) : exec (code4Instr k) s = (run4 k s).outcome := by
  cases k <;> rfl

theorem block8_of_code {x y : Nat} {s t : State} {c : BitVec 2} {k : VqCode} (h : nextCode (atBlock x y s) = .done c t)
    (hk : vqCode? t.params c = some k) : block8 x y s = run8 k t := by
  rw [block8, h, bind_done, hk]
  cases k <;> rfl

theorem block4_of_code {x y : Nat} {s t : State} {c : BitVec 2} {k : VqCode} (h : nextCode (atBlock x y s) = .done c t)
    (hk : vqCode? t.params c = some k) : block4 x y s = run4 k t := by
  rw [block4, h, bind_done, hk]
  cases k <;> rfl

/-- Settles O5: decoding and the dispatch in BLOCK8 and BLOCK4 go through the same code kind. -/
theorem blockRunsTheDecodedCode : Obligations.BlockRunsTheDecodedCode := by
  intro x y s t c i hcode
  refine ⟨fun hdec => ?_, fun hdec => ?_⟩
  · obtain ⟨k, hk, rfl⟩ := decodeCode_eq_ok (place := .code8) hdec
    rw [block8_of_code hcode hk, exec_code8Instr]
  · obtain ⟨k, hk, rfl⟩ := decodeCode_eq_ok (place := .code4) hdec
    rw [block4_of_code hcode hk, exec_code4Instr]

/-! ### The counts of a CODEBOOK argument -/

/-- The high byte of a halfword, as a number. -/
theorem highByte_toNat (a : Half) : (a.extractLsb' 8 8).toNat = a.toNat / 256 := by
  rw [BitVec.extractLsb'_toNat, Nat.shiftRight_eq_div_pow]
  omega

/-- The low byte of a halfword, as a number. -/
theorem lowByte_toNat (a : Half) : (a.extractLsb' 0 8).toNat = a.toNat % 256 := by
  rw [BitVec.extractLsb'_toNat, Nat.shiftRight_zero]

theorem codebookN1_pos (arg : Half) : 1 ≤ codebookN1 arg := by
  unfold codebookN1
  dsimp only
  split <;> omega

/-- Settles O8: the two fields as numbers, and their bounds. -/
theorem codebookCounts : Obligations.CodebookCounts := by
  intro arg size
  refine ⟨?_, ?_, codebookN1_pos arg, codebookN1_le arg, codebookN2_le arg size⟩
  · rw [← highByte_toNat]
    rfl
  · rw [← lowByte_toNat]
    rfl

/-! ### The YUV tables -/

theorem clampByte_of_byte (y : Byte) : clampByte (y.toNat : Int) = y := by
  have hy := y.isLt
  rw [clampByte, Int.max_eq_left (by omega), Int.min_eq_left (by omega), BitVec.ofInt_natCast, BitVec.ofNat_toNat,
    BitVec.setWidth_eq]

/-- Neutral chroma adds nothing to the luma. -/
theorem yuvDefault_neutral :
    at8 yuvDefault.vr 128 = 0 ∧ at8 yuvDefault.ug 128 = 0 ∧ at8 yuvDefault.vg 128 = 0 ∧ at8 yuvDefault.ub 128 = 0 := by
  decide +kernel

theorem yuvPixel_neutral {t : YuvTables}
    (h : at8 t.vr 128 = 0 ∧ at8 t.ug 128 = 0 ∧ at8 t.vg 128 = 0 ∧ at8 t.ub 128 = 0) (y : Byte) :
    yuvPixel t y 128 128 = { r := y, g := y, b := y, a := 255 } := by
  obtain ⟨hvr, hug, hvg, hub⟩ := h
  simp only [yuvPixel, hvr, hug, hvg, hub, Int.add_zero, Int.sub_zero, clampByte_of_byte]

/-- Settles O10: the listed integers entry by entry, and the grey of neutral chroma. -/
theorem defaultYuvTables : Obligations.DefaultYuvTables :=
  ⟨by decide +kernel, yuvPixel_neutral yuvDefault_neutral⟩

/-! ### PayRead -/

/-- Settles O12: the two cases of a payload read. -/
theorem payReadReadsOrOverruns : Obligations.PayReadReadsOrOverruns := by
  intro s
  exact ⟨fun hin hend => payRead_of_left ⟨hin, hend⟩, payRead_of_none⟩

end Sys2Proof.Machine
end

section
/-! The statements of 42_roq_vq.md on the codes: the motion copies, CCC.4, the stale indices and the payload that ends too soon. -/

namespace Sys2Proof.Machine

/-! ### A code that faults -/

/-- The fault of a code, taken in a state with the session of the code's start (60_exceptions.md R283). -/
theorem outcome_of_raised {m : Run Unit} {s t : State} {r : FaultReason} (h : m = .raised r t) (hses : t.ses = s.ses) :
    m.outcome = .next { t with ses := afterFault r s } := by
  rw [h, outcome_raised, takeFault, hses]
  rfl

/-! ### The motion copies -/

/-- A motion copy whose byte is there: the displacement is the byte's two nibbles (42_roq_vq.md R194, R195; 30_encoding.md R102). -/
theorem fccBlock_of_left (n : Nat) {s : State} (h : payloadLeft 1 s) :
    fccBlock n s = motionCopy (blkX s) (blkY s) n (8 - (((payloadByte s 0).toNat / 16 : Nat) : Int) - s.roq.meanX.toInt)
      (8 - (((payloadByte s 0).toNat % 16 : Nat) : Int) - s.roq.meanY.toInt) (payAdvance 1 s) := by
  rw [fccBlock, payRead_of_left h, bind_done, motionX_eq, motionY_eq]
  rfl

/-- FCC.8 and FCC.4 are one operation on blocks of two sizes. -/
theorem exec_fcc {i : Instr} {n : Nat} (h : i = .fcc8 ∧ n = 8 ∨ i = .fcc4 ∧ n = 4) (s : State) :
    exec i s = (fccBlock n s).outcome := by
  obtain ⟨rfl, rfl⟩ | ⟨rfl, rfl⟩ := h
  · rw [exec_fcc8, execFcc8, fcc8]
  · rw [exec_fcc4, execFcc4, fcc4]

/-- A pixel of the frame is stored in each buffer (20_memory.md R67). -/
theorem pixelAt_isSome {s : State} (hold : buffersHold s) (b : Bool) {x y : Nat} (h : inFrame s.roq x y) :
    (pixelAt s b x y).isSome := by
  obtain ⟨hx, hy⟩ := h
  have inside : y * s.roq.w.toNat + x < s.roq.area :=
    calc y * s.roq.w.toNat + x < (y + 1) * s.roq.w.toNat := by rw [Nat.succ_mul]; omega
      _ ≤ s.roq.h.toNat * s.roq.w.toNat := Nat.mul_le_mul_right _ hy
      _ = s.roq.area := Nat.mul_comm _ _
  rw [← buffersHold_length hold b] at inside
  rw [pixelAt, List.getElem?_eq_getElem inside, Option.isSome_some]

/-- Settles O39: what the copy paints, over the pixels that were there. -/
theorem fccCopies : Obligations.FccCopies := by
  intro s i n hi hleft hold mx my hin
  obtain ⟨t, ht, hp⟩ := motionCopy_paints (s := payAdvance 1 s) hold hin
  refine ⟨t, ?_, hp.drawn.congr fun x y hxy => ?_⟩
  · rw [exec_fcc hi, fccBlock_of_left n hleft, ht, outcome_done]
  · by_cases hb : inBlock (blkX s) (blkY s) n x y
    · obtain ⟨hx0, hxw, hy0, hyh⟩ := hin x y hxy hb
      rw [if_pos hb, if_pos hb]
      exact Option.or_of_isSome (pixelAt_isSome hold _ ⟨by omega, by omega⟩)
    · rw [if_neg hb, if_neg hb, Option.none_or]

/-- Settles O40: the sources are checked before the first write. -/
theorem fccFaults : Obligations.FccFaults := by
  intro s i n x y hi hleft hframe hblock hsource
  have copy := motionCopy_outside (s := payAdvance 1 s) hframe hblock hsource
  rw [exec_fcc hi, fccBlock_of_left n hleft, outcome_of_raised (s := s) copy rfl]
  rfl

/-! ### CCC.4 -/

theorem ccc4_of_left {s : State} (h : payloadLeft 4 s) :
    ccc4 s = drawFour (blkX s) (blkY s)
      (Quad.mk (payloadByte s 0) (payloadByte s 1) (payloadByte s 2) (payloadByte s 3)) (payAdvance 4 s) := by
  rw [ccc4, payRead4_of_left h, bind_done]
  rfl

/-- The index of the quadrant at (i, j) of a quad-cell given by four raw bytes (30_encoding.md R97). -/
theorem quadCell_raw (s : State) {i j : Nat} (hi : i < 2) (hj : j < 2) :
    quadCell (Quad.mk (payloadByte s 0) (payloadByte s 1) (payloadByte s 2) (payloadByte s 3)) i j =
      payloadByte s (2 * j + i) := by
  interval_cases i <;> interval_cases j <;> rfl

/-- Settles O43: four cells painted after four bytes are read. -/
theorem ccc4Draws : Obligations.Ccc4Draws := by
  intro s hleft hold hloaded
  obtain ⟨t, ht, hp⟩ := drawFour_paints (s := payAdvance 4 s) hold (blkX s) (blkY s)
    (Quad.mk (payloadByte s 0) (payloadByte s 1) (payloadByte s 2) (payloadByte s 3))
    (hloaded 0 (by omega)) (hloaded 1 (by omega)) (hloaded 2 (by omega)) (hloaded 3 (by omega))
  refine ⟨t, ?_, (hp.drawn.congr fun x y _ => or_of_ite _ _ fun _ => rfl).congr fun x y _ => ?_⟩
  · rw [exec_ccc4, execCcc4, ccc4_of_left hleft, ht, outcome_done]
  · refine if_ctx_congr Iff.rfl (fun hb => ?_) fun _ => rfl
    rw [quadCell_raw s (by omega) (by omega)]
    rfl

/-! ### Stale indices -/

theorem quadAt_stale {q : Byte} {s : State} (hf : s.params.cbStale = .fault) (hq : s.roq.n2Last.toNat ≤ q.toNat) :
    quadAt q s = .raised .cbStale s := by
  rw [quadAt, if_pos ⟨hf, hq⟩]

theorem sld8_of_stale {s : State} (hleft : payloadLeft 1 s) (hf : s.params.cbStale = .fault)
    (hq : s.roq.n2Last.toNat ≤ (payloadByte s 0).toNat) : sld8 s = .raised .cbStale (payAdvance 1 s) := by
  rw [sld8, payRead_of_left hleft, bind_done, quadAt_stale (s := payAdvance 1 s) hf hq, bind_raised]

theorem sld4_of_stale {s : State} (hleft : payloadLeft 1 s) (hf : s.params.cbStale = .fault)
    (hq : s.roq.n2Last.toNat ≤ (payloadByte s 0).toNat) : sld4 s = .raised .cbStale (payAdvance 1 s) := by
  rw [sld4, payRead_of_left hleft, bind_done, quadAt_stale (s := payAdvance 1 s) hf hq, bind_raised]

/-- SLD.4 with its quad-cell loaded takes one byte and draws that quad-cell at the block in hand (42_roq_vq.md R197). -/
theorem sld4_of_loaded {s : State} (hleft : payloadLeft 1 s)
    (hquad : s.params.cbStale = .fault → (payloadByte s 0).toNat < s.roq.n2Last.toNat) :
    sld4 s = drawFour (blkX s) (blkY s) (at8 s.roq.quads (payloadByte s 0)) (payAdvance 1 s) := by
  rw [sld4, payRead_of_left hleft, bind_done, quadAt_of_loaded (s := payAdvance 1 s) hquad, bind_done]
  rfl

theorem drawFour_first_stale {bx bY : Nat} {q : Quad} {s : State} (hf : s.params.cbStale = .fault)
    (hq : s.roq.n1Last.toNat ≤ q.c0.toNat) : drawFour bx bY q s = .raised .cbStale s := by
  rw [drawFour, drawIndexed_draws.stale bx bY hf hq, bind_raised]

/-- A code that raised in a painted state: the cells before the fault are drawn and nothing else (00_scope.md R12). -/
theorem faulted_drawn {i : Instr} {m : Run Unit} {h z used k : Nat} {q : Quad} {s : State} (hexec : exec i s = m.outcome)
    (hm : ∃ u, m = .raised .cbStale u ∧ Paints (quadPixels h z (blkX s) (blkY s) k s q) (payAdvance used s) u) :
    ∃ u, exec i s = .next { u with ses := afterFault .cbStale s } ∧
      Drawn used (fun x y => (quadPixels h z (blkX s) (blkY s) k s q x y).or (pixelAt s s.roq.wsel x y)) s u := by
  obtain ⟨u, hu, hp⟩ := hm
  have hses : u.ses = s.ses := by rw [hp.drawn.frame]
  exact ⟨u, by rw [hexec, outcome_of_raised hu hses], hp.drawn⟩

/-- Settles O44: a stale quad-cell before anything is drawn, and a stale cell after the cells before it. -/
theorem staleIndexFaults : Obligations.StaleIndexFaults := by
  intro s hf
  refine ⟨fun hleft hq => ⟨?_, ?_⟩, fun hleft hc => ?_, fun i h z used q k hold hleft hcode hk hloaded hstale => ?_⟩
  · rw [exec_sld8, execSld8, outcome_of_raised (s := s) (sld8_of_stale hleft hf hq) rfl]
    rfl
  · rw [exec_sld4, execSld4, outcome_of_raised (s := s) (sld4_of_stale hleft hf hq) rfl]
    rfl
  · have draw := drawFour_first_stale (bx := blkX s) (bY := blkY s)
      (q := Quad.mk (payloadByte s 0) (payloadByte s 1) (payloadByte s 2) (payloadByte s 3)) (s := payAdvance 4 s) hf hc
    rw [exec_ccc4, execCcc4, ccc4_of_left hleft, outcome_of_raised (s := s) draw rfl]
    rfl
  · obtain ⟨rfl, rfl, rfl, rfl, hq, rfl⟩ | ⟨rfl, rfl, rfl, rfl, hq, rfl⟩ | ⟨rfl, rfl, rfl, rfl, rfl⟩ := hcode
    · refine faulted_drawn (m := sld8 s) rfl ?_
      rw [sld8_of_loaded hleft fun _ => hq]
      exact drawFourX2_stale (s := payAdvance 1 s) hold _ _ _ hk hf hloaded hstale
    · refine faulted_drawn (m := sld4 s) rfl ?_
      rw [sld4_of_loaded hleft fun _ => hq]
      exact drawFour_stale (s := payAdvance 1 s) hold _ _ _ hk hf hloaded hstale
    · refine faulted_drawn (m := ccc4 s) rfl ?_
      rw [ccc4_of_left hleft]
      exact drawFour_stale (s := payAdvance 4 s) hold _ _ _ hk hf hloaded hstale

/-! ### The payload that ends too soon -/

theorem payRead4_of_none {s : State} (h : s.roq.payEnd.toNat ≤ s.roq.payPos.toNat) :
    payRead4 s = .raised .payloadOverrun s := by
  rw [payRead4, payRead_of_none h, bind_raised]

theorem payRead16_of_none {s : State} (h : s.roq.payEnd.toNat ≤ s.roq.payPos.toNat) :
    payRead16 s = .raised .payloadOverrun s := by
  rw [payRead16, payRead_of_none h, bind_raised]

/-- Every byte of the payload read: the cursor stands at the payload's end. -/
theorem payAdvance_of_bytesLeft {l : Nat} {s : State} (h : bytesLeft l s) :
    payAdvance l s = { s with roq := { s.roq with payPos := s.roq.payEnd } } := by
  have atEnd : s.roq.payPos + BitVec.ofNat 32 l = s.roq.payEnd := by
    have hend := h.1
    have hl : l < 2 ^ 32 := by have := s.roq.payEnd.isLt; omega
    apply BitVec.eq_of_toNat_eq
    have := s.roq.payEnd.isLt
    rw [BitVec.toNat_add, BitVec.toNat_ofNat]
    omega
  rw [payAdvance, atEnd]

theorem atBlock_self (s : State) : atBlock (blkX s) (blkY s) s = s := by
  rw [atBlock, blkX, blkY, BitVec.ofNat_toNat, BitVec.ofNat_toNat, BitVec.setWidth_eq, BitVec.setWidth_eq]

/-- CCC.8 begins with the code of its first quarter (42_roq_vq.md R198). -/
theorem ccc8_of_raised {s t : State} {r : FaultReason} (h : nextCode s = .raised r t) : ccc8 s = .raised r t := by
  rw [ccc8, subdivide, block4, atBlock_self, h, bind_raised, bind_raised]

theorem ccc4_of_raised {s t : State} {r : FaultReason} (h : payRead4 s = .raised r t) : ccc4 s = .raised r t := by
  rw [ccc4, h, bind_raised]

theorem fccBlock_of_raised {n : Nat} {s t : State} {r : FaultReason} (h : payRead s = .raised r t) :
    fccBlock n s = .raised r t := by
  rw [fccBlock, h, bind_raised]

theorem sld8_of_raised {s t : State} {r : FaultReason} (h : payRead s = .raised r t) : sld8 s = .raised r t := by
  rw [sld8, h, bind_raised]

theorem sld4_of_raised {s t : State} {r : FaultReason} (h : payRead s = .raised r t) : sld4 s = .raised r t := by
  rw [sld4, h, bind_raised]

/-- Settles O45: the first read of the code, or of its flag word, finds too few bytes. -/
theorem codesOverrunThePayload : Obligations.CodesOverrunThePayload := by
  refine ⟨fun s i hend hi => ?_, fun s i left hleft hin hi => ?_⟩
  · have none := payRead_of_none hend
    simp only [List.mem_cons, List.not_mem_nil, or_false] at hi
    obtain (rfl | rfl | rfl | rfl | rfl) | ⟨rfl, hempty⟩ := hi
    · exact outcome_of_raised (fccBlock_of_raised none) rfl
    · exact outcome_of_raised (fccBlock_of_raised none) rfl
    · exact outcome_of_raised (sld8_of_raised none) rfl
    · exact outcome_of_raised (sld4_of_raised none) rfl
    · exact outcome_of_raised (ccc4_of_raised (payRead4_of_none hend)) rfl
    · exact outcome_of_raised (ccc8_of_raised (nextCode_of_raised hempty (payRead16_of_none hend))) rfl
  · have atEnd := payAdvance_of_bytesLeft (l := left) ⟨hleft, hin⟩
    obtain ⟨rfl, h1, h3⟩ | ⟨rfl, hempty, rfl⟩ := hi
    · have short := payRead4_short (l := left) ⟨hleft, hin⟩ (by omega)
      rw [atEnd] at short
      exact outcome_of_raised (ccc4_of_raised short) rfl
    · have short := payRead16_short (l := 1) ⟨hleft, hin⟩ (by omega)
      rw [atEnd] at short
      exact outcome_of_raised (ccc8_of_raised (nextCode_of_raised hempty short)) rfl

end Sys2Proof.Machine
end

section
/-! The statements of 42_roq_vq.md on whole pieces: CCC.8, the macroblock and the frame. -/

namespace Sys2Proof.Machine

/-! ### CCC.8 -/

theorem reads_codeReader {s : State} (hold : buffersHold s) (hwin : s.roq.payEnd.toNat ≤ s.ses.streamSize.toNat) :
    Reads (codeReader s) s := ⟨rfl, hold, hwin⟩

theorem under_self (s : State) : Under s s.roq.meanX s.roq.meanY s := ⟨rfl, ⟨rfl, rfl⟩, ⟨rfl, rfl, rfl⟩, rfl, rfl⟩

/-- What a code may touch, and no pixel outside the block in hand. -/
theorem blockCoded_of_step {s t : State} (step : CodeStep s t) (hold : buffersHold t)
    (outside : Outside (inBlock (blkX s) (blkY s) 8) s t) : BlockCoded s t where
  frame := by
    obtain ⟨state, unit, -, -, -, -⟩ := step
    rw [← unit]
    exact state
  read := step.readBuffer
  hold := hold
  outside := outside

/-- Plain payload bytes from the cursor on and a plain flag word: nothing there asks for a motion copy. -/
theorem quiet_of_plain {s : State} {n : Nat} (hp : s.params.wf) (hs : s.params.cbStale = .stored) (hold : buffersHold s)
    (hleft : payloadLeft n s) (hreader : s.roq.flgPos.toNat ≤ 8)
    (hflag : s.roq.flgPos ≠ 0 →
      noMotionCode s.params (s.roq.flg.extractLsb' 0 8) ∧ noMotionCode s.params (s.roq.flg.extractLsb' 8 8))
    (hbytes : ∀ k, k < n → noMotionCode s.params (payloadByte s k)) : Quiet (s.roq.payPos.toNat + n) s where
  params := hp
  stored := hs
  reader := hreader
  hold := hold
  window := hleft
  flag := hflag
  bytes a ha hlt := by
    have plain := hbytes (a - s.roq.payPos.toNat) (by omega)
    rwa [payloadByte, Nat.add_sub_cancel' ha] at plain

/-- Settles O46: the four quarters, where reading them goes through and where their bytes are plain. -/
theorem ccc8Subdivides : Obligations.Ccc8Subdivides := by
  refine ⟨fun s => rfl, fun s r hold hwin hx hy hread => ?_, fun s hp hs hold hleft hreader hx hy hlo hhi hbytes => ?_⟩
  · obtain ⟨_, t, ht, reached⟩ := completes_iff.1
      (subdivide_reads (by omega) (by omega) hread (under_self s) (reads_codeReader hold hwin))
    exact ⟨t, congrArg Run.outcome ht, blockCoded_of_step reached.step reached.reads.hold reached.outside,
      reached.reads.reader⟩
  · have quiet := quiet_of_plain hp hs hold hleft hreader (fun _ => ⟨hlo, hhi⟩) hbytes
    obtain ⟨_, t, ht, served⟩ := completes_iff.1
      (subdivide_quiet (x := blkX s) (y := blkY s) (by omega) (by omega) quiet (by dsimp only [roomFor]; omega))
    have reader := subdivide_reader (blkX s) (blkY s) hreader
    rw [ht] at reader
    have room := served.room 0 (by dsimp only [roomFor]; omega)
    have seven : t.roq.flgPos.toNat ≤ 7 := reader
    refine ⟨t, congrArg Run.outcome ht, blockCoded_of_step served.step served.quiet.hold served.outside,
      served.step.cursor, ?_⟩
    dsimp only [roomFor] at room
    omega

/-! ### The bytes of a macroblock -/

/-- The next `n` codes stand in the flag word, and all are MOT. -/
def MotInHand (n : Nat) (s : State) : Prop :=
  n ≤ s.roq.flgPos.toNat ∧ ∀ k, k < n → s.roq.flg.extractLsb' (2 * (s.roq.flgPos.toNat - k) - 2) 2 = s.params.vqMot

/-- `s` after the top code of the flag word is taken for the block at (x, y). -/
def codeTaken (x y : Nat) (s : State) : State :=
  { atBlock x y s with roq := { (atBlock x y s).roq with flgPos := s.roq.flgPos - 1 } }

theorem MotInHand.flgPos_ne_zero {n : Nat} {s : State} (h : MotInHand (n + 1) s) : s.roq.flgPos ≠ 0 := by
  intro h0
  have hn := h.1
  rw [h0] at hn
  exact absurd hn (by simp)

theorem codeTaken_payPos (x y : Nat) (s : State) : (codeTaken x y s).roq.payPos = s.roq.payPos := rfl

theorem codeTaken_buf0 (x y : Nat) (s : State) : (codeTaken x y s).roq.buf0 = s.roq.buf0 := rfl

theorem codeTaken_buf1 (x y : Nat) (s : State) : (codeTaken x y s).roq.buf1 = s.roq.buf1 := rfl

/-- A block whose code is MOT in hand takes that code and nothing else (42_roq_vq.md R191, R192). -/
theorem block8_of_mot {n x y : Nat} {s : State} (h : MotInHand (n + 1) s) : block8 x y s = .done () (codeTaken x y s) := by
  have hne := h.flgPos_ne_zero
  obtain ⟨hn, hmot⟩ := h
  have code : vqCode? s.params (flagCode s.roq.flg s.roq.flgPos) = some .mot := if_pos (hmot 0 (by omega))
  exact block8_of_code (k := .mot) (nextCode_of_codes (s := atBlock x y s) hne) code

theorem motInHand_codeTaken {n x y : Nat} {s : State} (h : MotInHand (n + 1) s) : MotInHand n (codeTaken x y s) := by
  have hne := h.flgPos_ne_zero
  obtain ⟨hn, hmot⟩ := h
  have pred : (codeTaken x y s).roq.flgPos.toNat + 1 = s.roq.flgPos.toNat := flgPos_pred hne
  refine ⟨by omega, fun k hk => ?_⟩
  rw [show (codeTaken x y s).roq.flgPos.toNat - k = s.roq.flgPos.toNat - (k + 1) by omega]
  exact hmot (k + 1) (by omega)

/-- Four MOT codes in hand: a macroblock takes them and nothing else. -/
theorem macroblock_of_mot {s : State} (h : MotInHand 4 s) :
    macroblock s = .done () (codeTaken (s.roq.xp.toNat + 8) (s.roq.yp.toNat + 8) (codeTaken s.roq.xp.toNat (s.roq.yp.toNat + 8)
      (codeTaken (s.roq.xp.toNat + 8) s.roq.yp.toNat (codeTaken s.roq.xp.toNat s.roq.yp.toNat s)))) := by
  have h3 : MotInHand 3 (codeTaken s.roq.xp.toNat s.roq.yp.toNat s) := motInHand_codeTaken h
  have h2 := motInHand_codeTaken (x := s.roq.xp.toNat + 8) (y := s.roq.yp.toNat) h3
  have h1 := motInHand_codeTaken (x := s.roq.xp.toNat) (y := s.roq.yp.toNat + 8) h2
  rw [macroblock, block8_of_mot h, bind_done, block8_of_mot h3, bind_done, block8_of_mot h2, bind_done, block8_of_mot h1]

/-- Settles O37: 552 bits and what the last flag word still holds, and the four codes that need no byte. -/
theorem macroblockUsesAtMostSeventyBytes : Obligations.MacroblockUsesAtMostSeventyBytes := by
  refine ⟨fun s t hreader hdone => ?_, fun s hfour _ hmot => ?_⟩
  · have spends := macroblock_spends s
    have reader := macroblock_reader hreader
    rw [hdone] at spends reader
    obtain ⟨bits, -, -⟩ := (spends : Spends 552 s t)
    have seven : t.roq.flgPos.toNat ≤ 7 := reader
    exact ⟨(sat_of_done (macroblock_codeStep s) hdone).cursor, by omega⟩
  · refine ⟨_, macroblock_of_mot ⟨hfour, hmot⟩, ?_, ?_, ?_⟩
    · simp only [codeTaken_payPos]
    · simp only [codeTaken_buf0]
    · simp only [codeTaken_buf1]

/-! ### The end of a frame -/

/-- FRAME_END touches the buffers, the buffer registers and DISP_VALID (42_roq_vq.md R205). -/
theorem frameEnd_eq (s : State) : ∃ b0 b1, frameEnd s = { s with
    roq := { s.roq with buf0 := b0, buf1 := b1, dispSel := s.roq.wsel, wsel := !s.roq.wsel, vqFrame := s.roq.vqFrame + 1 }
    ports := { s.ports with dispValid := true } } := by
  rw [frameEnd]
  dsimp only
  split
  · rw [RoqUnit.setBuf]
    split
    · exact ⟨_, _, rfl⟩
    · exact ⟨_, _, rfl⟩
  · exact ⟨_, _, rfl⟩

/-- FRAME_END keeps the buffer it shows (42_roq_vq.md R205). -/
theorem frameEnd_buf_shown (s : State) : (frameEnd s).roq.buf s.roq.wsel = s.roq.buf s.roq.wsel := by
  by_cases h : s.roq.vqFrame = 0
  · have seeded := buf_setBuf_not s.roq (!s.roq.wsel) (s.roq.buf s.roq.wsel)
    rw [Bool.not_not] at seeded
    simp only [frameEnd_roq, if_pos h]
    exact seeded
  · simp only [frameEnd_roq, if_neg h]
    rfl

/-- FRAME_END seeds the other buffer after frame 0 (42_roq_vq.md R205). -/
theorem frameEnd_buf_other (s : State) : (frameEnd s).roq.buf (!s.roq.wsel) =
    if s.roq.vqFrame = 0 then s.roq.buf s.roq.wsel else s.roq.buf (!s.roq.wsel) := by
  by_cases h : s.roq.vqFrame = 0
  · simp only [frameEnd_roq, if_pos h]
    exact buf_setBuf s.roq (!s.roq.wsel) (s.roq.buf s.roq.wsel)
  · simp only [frameEnd_roq, if_neg h]
    rfl

/-! ### The VQ chunk -/

/-- The macroblock loop leaves the session, the ports, the buffer registers, the frame count and the window's end. -/
theorem FrameStep.kept {s t : State} (h : FrameStep s t) : t.ses = s.ses ∧ t.ports = s.ports ∧ t.roq.wsel = s.roq.wsel ∧
    t.roq.dispSel = s.roq.dispSel ∧ t.roq.vqFrame = s.roq.vqFrame ∧ t.roq.payEnd = s.roq.payEnd := by
  obtain ⟨state, unit, -, -, -, -⟩ := h
  exact ⟨by rw [state], by rw [state], by rw [unit], by rw [unit], by rw [unit], by rw [unit]⟩

/-- The state a VQ chunk begins its macroblocks in. -/
def vqBegin (size : Word) (arg : Half) (s : State) : State := vqStart arg (openWindow s.ses.offset.toNat size.toInt s)

/-- A frame whose macroblocks are drawn is shown by its end (42_roq_vq.md R205). -/
theorem frameShown_of_drawn {size : Word} {arg : Half} {s u : State} (hold : buffersHold s) (step : FrameStep (vqBegin size arg s) u) :
    FrameShown size s { frameEnd u with ses := afterChunk size s } := by
  obtain ⟨-, -, (sel : u.roq.wsel = s.roq.wsel), -, (frame : u.roq.vqFrame = s.roq.vqFrame), -⟩ := step.kept
  have holds : buffersHold (frameEnd u) := frameEnd_hold (buffersHold_frameStep step hold)
  have history : (frameEnd u).roq.buf (!u.roq.wsel) =
      if u.roq.vqFrame = 0 then (frameEnd u).roq.buf u.roq.wsel else u.roq.buf (!u.roq.wsel) := by
    rw [frameEnd_buf_shown, frameEnd_buf_other]
  obtain ⟨state, unit, read, -, -, -⟩ := step
  have other : u.roq.buf (!s.roq.wsel) = s.roq.buf (!s.roq.wsel) := read
  obtain ⟨b0, b1, hend⟩ := frameEnd_eq u
  rw [sel, frame, other] at history
  rw [sel, frame] at hend
  rw [hend] at history holds ⊢
  refine ⟨rfl, ?_, rfl, rfl, rfl, history, holds, ?_, ?_⟩
  · rw [state]
    rfl
  · rw [unit]
    rfl
  · rw [state]
    rfl

/-- A VQ chunk's operation in its window, after the first INFO. -/
theorem vqOp_openWindow {size : Word} {arg : Half} {s : State} (hinfo : s.roq.infoSeen = true) :
    vqOp arg (openWindow s.ses.offset.toNat size.toInt s) =
      (vqLoop (macroblocks s.roq) (vqBegin size arg s)).bind fun _ t => .done () (frameEnd t) :=
  vqOp_of_info arg (s := openWindow s.ses.offset.toNat size.toInt s) hinfo

/-- The end of a frame leaves the window's end and the session. -/
theorem frameEnd_window {size : Word} {arg : Half} {s u : State} (step : FrameStep (vqBegin size arg s) u) :
    (frameEnd u).roq.payEnd = s.ses.offset + 8 + size ∧ (frameEnd u).ses = s.ses := by
  have payEnd : (openWindow s.ses.offset.toNat size.toInt s).roq.payEnd = s.ses.offset + 8 + size := by
    rw [openWindow_eq_inWindow]
    rfl
  obtain ⟨hses, -, -, -, -, hend⟩ := step.kept
  obtain ⟨b0, b1, eq⟩ := frameEnd_eq u
  rw [eq]
  exact ⟨hend.trans payEnd, hses⟩

theorem execRoqVq_of_loop {size : Word} {arg : Half} {s u : State} (hfit : chunkFits size s) (hinfo : s.roq.infoSeen = true)
    (hold : buffersHold s) (hloop : vqLoop (macroblocks s.roq) (vqBegin size arg s) = .done () u) :
    exec (.roqVq size arg) s = .next { frameEnd u with ses := afterChunk size s } ∧
      FrameShown size s { frameEnd u with ses := afterChunk size s } := by
  have step := sat_of_done (vqLoop_frameStep _ _) hloop
  have op := vqOp_openWindow (size := size) (arg := arg) hinfo
  rw [hloop, bind_done] at op
  obtain ⟨hend, hses⟩ := frameEnd_window step
  exact ⟨chunkStep_goes_on hfit op hend hses, frameShown_of_drawn hold step⟩

/-- Settles O35: the operation went on to the frame's end, or it raised while drawing. -/
theorem vqExchangesBuffers : Obligations.VqExchangesBuffers := by
  intro size arg s t hfit hinfo hold hexec
  have op := vqOp_openWindow (size := size) (arg := arg) hinfo
  cases loop : vqLoop (macroblocks s.roq) (vqBegin size arg s) with
  | done a u =>
    obtain ⟨hnext, shown⟩ := execRoqVq_of_loop hfit hinfo hold loop
    obtain rfl : { frameEnd u with ses := afterChunk size s } = t := Host.Outcome.next.inj (hnext.symm.trans hexec)
    exact ⟨fun _ => shown, fun hfault hno => absurd (hno.symm.trans hfault) (by decide)⟩
  | raised r u =>
    rw [loop, bind_raised] at op
    have step := sat_of_raised (vqLoop_frameStep _ _) loop
    obtain ⟨hses, hports, hwsel, hdisp, hframe, -⟩ := step.kept
    obtain rfl : { u with ses := afterFault r s } = t :=
      Host.Outcome.next.inj ((chunkStep_faults hfit op hses).symm.trans hexec)
    exact ⟨fun hno => Bool.noConfusion hno, fun _ _ => ⟨⟨r, rfl⟩, hports, hwsel, hdisp, hframe, step.readBuffer⟩⟩
  | broken f =>
    rw [exec_roqVq, execRoqVq, chunkStep_fits hfit, op, loop] at hexec
    cases hexec
  | refused f =>
    rw [exec_roqVq, execRoqVq, chunkStep_fits hfit, op, loop] at hexec
    cases hexec

/-- The origins of a frame's macroblocks lie far below 2^32. -/
theorem macroblockOrigins_lt {u : RoqUnit} {o : Nat × Nat} (h : o ∈ macroblockOrigins u) : o.1 + 16 < 2 ^ 32 ∧ o.2 + 16 < 2 ^ 32 := by
  have hw := u.w.isLt
  have hh := u.h.isLt
  simp only [macroblockOrigins, List.mem_flatMap, List.mem_map, List.mem_range] at h
  obtain ⟨j, hj, i, hi, rfl⟩ := h
  exact ⟨by dsimp only; omega, by dsimp only; omega⟩

theorem macroblockOrigins_length (u : RoqUnit) : (macroblockOrigins u).length = macroblocks u := by
  rw [macroblockOrigins_eq, List.length_map, List.length_range]

/-- A VQ chunk whose macroblocks complete shows its frame (42_roq_vq.md R190, R205). -/
theorem vq_completes_of_run {size : Word} {arg : Half} {s : State} {P : Unit → State → Prop} (hfit : chunkFits size s)
    (hinfo : s.roq.infoSeen = true) (hw : s.roq.w ≠ 0) (hold : buffersHold s)
    (hrun : (runMacroblocks (macroblockOrigins s.roq) (vqBegin size arg s)).completes P) :
    ∃ t, exec (.roqVq size arg) s = .next t ∧ FrameShown size s t := by
  obtain ⟨_, u, hu, -⟩ := completes_iff.1 hrun
  have loop : vqLoop (macroblocks s.roq) (vqBegin size arg s) = _ := vqLoop_frame (s := vqBegin size arg s) hw rfl rfl
  have run : runMacroblocks (macroblockOrigins (vqBegin size arg s).roq) (vqBegin size arg s) = _ := hu
  rw [run, bind_done] at loop
  exact ⟨_, execRoqVq_of_loop hfit hinfo hold loop⟩

/-- At the start of a VQ chunk the reader is empty and the whole payload is left. -/
theorem vqBegin_reads {size : Word} {arg : Half} {s : State} (hfit : chunkFits size s) (hold : buffersHold s) :
    Reads { word := 0, left := 0, rest := chunkPayload size s } (vqBegin size arg s) := by
  obtain ⟨hpos, hend, hwin⟩ := openWindow_bounds hfit
  refine ⟨?_, hold, hwin⟩
  have rest : streamSpan s (openWindow s.ses.offset.toNat size.toInt s).roq.payPos.toNat
      ((openWindow s.ses.offset.toNat size.toInt s).roq.payEnd.toNat -
        (openWindow s.ses.offset.toNat size.toInt s).roq.payPos.toNat) = chunkPayload size s := by
    rw [hpos, chunkPayload]
    congr 1
    omega
  exact congrArg (CodeReader.mk 0 0) rest

/-- With no motion code in the payload, the start of a VQ chunk has its plain payload before it. -/
theorem vqBegin_quiet {size : Word} {arg : Half} {s : State} (hp : s.params.wf) (hs : s.params.cbStale = .stored)
    (hfit : chunkFits size s) (hold : buffersHold s) (hplain : ∀ b ∈ chunkPayload size s, noMotionCode s.params b) :
    Quiet ((vqBegin size arg s).roq.payPos.toNat + size.toInt.toNat) (vqBegin size arg s) := by
  have hsize := hfit.1
  refine quiet_of_plain (s := vqBegin size arg s) hp hs hold (openWindow_left hfit (by omega)) (Nat.zero_le _)
    (fun h => absurd rfl h) fun k hk => hplain _ ?_
  have byte : payloadByte (vqBegin size arg s) k = (chunkPayload size s).getD k 0 := openWindow_byte hfit (by omega)
  have hk' : k < (chunkPayload size s).length := by rwa [chunkPayload_length]
  rw [byte, List.getD_eq_getElem _ _ hk']
  exact List.getElem_mem hk'

/-- Settles O36: the walk over the macroblocks completes where reading does, and where the payload is plain and long enough. -/
theorem vqCompletes : Obligations.VqCompletes := by
  refine ⟨fun size arg s r hfit hinfo hw hold hread => ?_, fun size arg s hp hs hfit hinfo hw hold hplain hsize => ?_⟩
  · exact vq_completes_of_run hfit hinfo hw hold
      (runMacroblocks_reads (s0 := s) _ (fun o ho => macroblockOrigins_lt ho) hread
        ⟨rfl, ⟨rfl, rfl⟩, ⟨rfl, rfl, rfl⟩, rfl, rfl⟩ (vqBegin_reads hfit hold))
  · have hpos := hfit.1
    refine vq_completes_of_run hfit hinfo hw hold (runMacroblocks_quiet _ (fun o ho => macroblockOrigins_lt ho)
      (vqBegin_quiet hp hs hfit hold hplain) ?_)
    rw [macroblockOrigins_length]
    dsimp only [roomFor]
    omega

end Sys2Proof.Machine
end
